-- ==== Sys2Proof/Word.lean ====
section
/-! DEFINITION. The word types of the S24 and their plainest arithmetic. -/

namespace Sys2Proof

/-- One byte (R2: byte 0 of a quantity holds its bits 7:0). -/
abbrev Byte := BitVec 8

/-- A 32-bit word: an instruction word, the W of a carrier, an n32. -/
abbrev Word := BitVec 32

/-- A 64-bit value: a g register, an address, a module time in a register. -/
abbrev Quad := BitVec 64

/-- A register float element (R24): a 32-bit pattern W and a sticky bit S. -/
structure Carrier where
  w : Word
  s : Bool
  deriving DecidableEq, Repr, Inhabited

/-- What a register holds at its creation (R121): +0 with S = 0. -/
def Carrier.zero : Carrier := { w := 0#32, s := false }

/-- An integer result: a word written with S = 0 (R27). -/
def Carrier.ofWord (w : Word) : Carrier := { w := w, s := false }

/-- One bit as a word of any width. -/
def bit1 (w : Nat) (b : Bool) : BitVec w := if b then 1#w else 0#w

end Sys2Proof
end

