-- ==== Sys2Proof/Syntax.lean ====
section
/-! DEFINITION. The steps of the machine: one constructor for each row of spec/opcode_table.json. A row with an encoding is
an instruction, and its arguments are the fields of its word from the lowest bits upward (bit 2:1 of a 32-bit word is the
stall field `s`). A row without one is an event; its arguments say which object it befalls and what the outside world
contributes. -/

namespace Sys2Proof

/-- The instructions and events of the Suanxis S24. -/
inductive Instr where
  /-- R101. A write of a ring's TAIL through BAR 0 or a doorbell page offers the commands it covers for fetch; an out-of-bounds write, or one to a queue in Draining or Destroyed, is ignored and sets TERR. -/
  | tailWrite (ring : Nat) (val : Nat)
  /-- R100. A write of a system ring's RBASE, CBASE or LOG2N sets the ring layout; it is ignored and sets TERR while TAIL differs from DONE, or when the value is out of range or misaligned. -/
  | ringRegisterWrite (ring : Nat) (off : Nat) (val : Nat)
  /-- R92. A privileged-window write of a context's register block stores each field clamped to its range; it is ignored for a Free or Destroying context. -/
  | contextRegisterWrite (ctx : Nat) (off : Nat) (val : Quad)
  /-- R195. A write of PSTAT.ENABLE moves a peer port to Disabled, or starts Training from Disabled or Failed. -/
  | portEnableWrite (port : Nat) (on : Bool)
  /-- R4. A write to any device register without a row of its own stores its writable fields, clears its W1C bits and ignores reserved fields. -/
  | registerWrite (bar : Nat) (off : Nat) (val : Quad)
  /-- R101. The command processor reads one 64-byte command record after the TAIL write that covers it; an untranslatable queue-ring entry completes with status 8. -/
  | commandFetch (ring : Nat)
  /-- R104. Once a command and all earlier commands of its ring are done, and their system-scope horizons are reached, the 16-byte completion record is written and DONE advances, in sequence order. -/
  | completionRecordWrite (ring : Nat)
  /-- R90. Creates a Free context id in state Created, with the reset register values and a zero kernel measurement. -/
  | ctxCreate (ring : Nat)
  /-- R90. Moves a context to Destroying, halts and discards its groups, aborts its pending commands with status 7, and frees the id once release is complete. -/
  | ctxDestroy (ring : Nat)
  /-- R106. Creates a queue of the context with the given ring base, priority, size and completion-ring base, in state Created. -/
  | qCreate (ring : Nat)
  /-- R102. Moves a Created or Active queue to Paused. -/
  | qCtlPause (ring : Nat)
  /-- R102. Moves a Paused or Faulted queue to Active when its context is Created or Active. -/
  | qCtlResume (ring : Nat)
  /-- R102. Moves a Created, Active, Paused or Faulted queue to Draining. -/
  | qCtlDestroy (ring : Nat)
  /-- R382. Checks and then writes a run of consecutive uncounted leaves into the context's page table. -/
  | map (ring : Nat)
  /-- R382. Checks and invalidates a run of leaves, decrements the COUNT of counted frames, and completes when USERS of every unmapped frame is zero. -/
  | unmap (ring : Nat)
  /-- R184. Creates a module-wide page pool by taking the requested number of frames from the die free lists in turn, or fails with status 4. -/
  | poolCreate (ring : Nat)
  /-- R97. Verifies a signed configuration image against the vendor key hash, the minimum version and the signature, and applies its payload. -/
  | cfgLoad (ring : Nat)
  /-- R117. Validates a kernel image, copies its text and block tables into the kernel store, and returns its image slot. -/
  | kernLoad (ring : Nat)
  /-- R117. Frees an image slot that no group, task record or recorded graph still uses. -/
  | kernUnload (ring : Nat)
  /-- R120. Checks the kernel and its resources, then queues the launch's teams for admission in ascending team index. -/
  | launch (ring : Nat)
  /-- R111. Turns recording on for the queue into the named graph buffer. -/
  | graphRecord (ring : Nat)
  /-- R111. Closes the graph being recorded and returns the number of commands recorded. -/
  | graphEnd (ring : Nat)
  /-- R112. Snapshots the parameter block, then issues the recorded LAUNCHes in order with their substitutions applied. -/
  | graphReplay (ring : Nat)
  /-- R106. Writes a value into one parameter of a graph's parameter block. -/
  | gparamSet (ring : Nat)
  /-- R15. Begins halting every group of the context within 8 µs and pauses its Active queues; the command completes when state is saved. -/
  | preempt (ring : Nat)
  /-- R90. Restores a Halted or Faulted context to Active; saved groups and pre-empted cohorts continue exactly. -/
  | resume (ring : Nat)
  /-- R113. Copies an HBM range to host memory while every context is Free, Created or Halted. -/
  | ckptSave (ring : Nat)
  /-- R113. Copies a host-memory range into HBM while every context is Free, Created or Halted. -/
  | ckptRestore (ring : Nat)
  /-- R99. Writes the signed attestation report of the measurements, the signature and the public key. -/
  | attest (ring : Nat)
  /-- R158. Puts the context in debug mode and stops the named groups, holding their passes. -/
  | dbgStop (ring : Nat)
  /-- R159. Runs one instruction of a stopped group's stopped pass. -/
  | dbgStep (ring : Nat)
  /-- R159. Runs the stopped pass until it ends; the group stays stopped. -/
  | dbgSteppass (ring : Nat)
  /-- R159. Names the bin that the next stepped pass runs, bypassing selection once. -/
  | dbgStepbin (ring : Nat)
  /-- R159. Releases stopped groups to Running; naming all groups ends debug mode. -/
  | dbgCont (ring : Nat)
  /-- R114. Writes the module summary of contexts, queues, groups, links and counters, or only the header when the capacity is too small. -/
  | syncAll (ring : Nat)
  /-- R108. A dispatch turn admits one whole team of the chosen launch into a free cluster whose scratchpad-mode banks suffice, and starts its groups. -/
  | teamAdmission (cluster : Nat)
  /-- R136. The weir selects the selectable bin with the smallest key and starts a pass of its ready threads. -/
  | passStart (gid : Nat)
  /-- R137. Once all results of the pass are written, its threads go to their target bins or retire, and the fantail state is updated. -/
  | passEnd (gid : Nat) (pid : Nat)
  /-- R82. A variable-latency result returns, writes its registers and clears its token once every instruction naming the token is done. -/
  | tokenResultWrite (k : Nat)
  /-- R146. When the idle-pass count reaches 16, a sweep begins that excludes the visited bins from selection. -/
  | fantailSweep (gid : Nat)
  /-- R148. When the group has no selectable bin, no pass and no engine work, and every thread is blocked on its own barriers, each blocked thread takes fault 0x0C. -/
  | barrierDeadlock (gid : Nat)
  /-- R122. A group whose threads have all retired and whose engine counters are zero ends and frees its core resources. -/
  | groupEnd (gid : Nat)
  /-- R126. A core with room takes a task record from its own deque, another deque or a steal, and starts a range group or feeds a gather buffer. -/
  | taskTake (core : Nat)
  /-- R127. 4 µs after its first record, a gather buffer closes into a group. -/
  | gatherTimeout (team : Nat) (buf : Nat)
  /-- R130. A core with no record takes the upper part of the largest running range group's interval as a new range record. -/
  | taskSteal (core : Nat)
  /-- R149. A waiting ACQX request is granted whole, in request order, when enough extended-register sets are free. -/
  | xregGrant (cluster : Nat)
  /-- R173. An engine command whose last write has reached its completion time retires in class order and decrements its counter. -/
  | engineCommandRetire (gid : Nat) (cls : Nat)
  /-- R190. An engine chunk of at most 64 KiB re-translates its pages and adds 1 to USERS of each frame it touches. -/
  | chunkStart (cmd : Nat)
  /-- R199. A chunk whose writes reached completion releases its USERS holds and, for collectives, sets its map bit by an atomic OR. -/
  | chunkComplete (chunk : Nat)
  /-- R201. A peer chunk not done within LEASE.LINKTO, or whose port leaves Up, or with no route, ends in error: abort, Failure events, USERS release, TIMEOUTS count. -/
  | chunkTimeout (chunk : Nat)
  /-- R201. The peer's home receives an abort and discards the chunk's writes that arrive after it. -/
  | chunkAbort (chunk : Nat)
  /-- R157. At the end of the copy component of a halt, an unfinished peer chunk is detached and the halt completes without it. -/
  | chunkDetach (chunk : Nat)
  /-- R163. When a counted 32-byte destination write reaches its completion time, SECTORS of the named barrier decrements. -/
  | sectorEvent (chunk : Nat)
  /-- R343. The next millrace command starts after its issue and the end of the command before it, and reaches its verdict. -/
  | millraceCommandStart (core : Nat)
  /-- R42. One K-step of a product command adds 16 products per admitted element and rounds, advancing STEP and the B16S generators. -/
  | kStep (core : Nat)
  /-- R349. A millrace command that ended with its writes complete retires, clears INFL, counts its verdict and decrements the matrix counter. -/
  | millraceCommandRetire (core : Nat)
  /-- R221. A write arriving at a line's home takes a T_wc after every outstanding lease and joins the coherence order. -/
  | homeWrite (k : Nat) (ext : Nat)
  /-- R221. A read at a home returns the value visible at that time and grants a lease that ends before any pending T_wc. -/
  | homeRead (k : Nat) (early : Bool)
  /-- R227. A T_wc reply reaching a thread raises its Hm or Hx horizon; a scratchpad answer lowers Hs. -/
  | writeTimeReply (k : Nat)
  /-- R220. When module time reaches a copy's lease expiry, the copy stops serving reads. -/
  | leaseExpiry (k : Nat)
  /-- R228. A waiting FENCE completes when Hs is zero and now() has reached its horizons, and the pass may issue again. -/
  | fenceComplete (gid : Nat) (pid : Nat)
  /-- R176. A pennant change reaches a core's copy, within 40 cycles, in the home's order. -/
  | pennantCopyUpdate (team : Nat) (core : Nat)
  /-- R155. When every pass of the halting groups reaches an instruction boundary, group state is saved and the context becomes Halted or Faulted. -/
  | haltComplete (ctx : Nat)
  /-- R188. The frame unit resolves a write to a COW leaf: it clears COW, copies to a new pool frame, finds the leaf changed, or raises pool exhausted. -/
  | cowResolution (k : Nat)
  /-- R381. When the resolution's writes reach T_wc and stale translations are invalidated, the blocked threads become ready and re-execute the write. -/
  | cowThreadRelease (k : Nat)
  /-- R383. After a destroyed context's groups and chunks are gone, the frame unit zeroes its counted mappings and the context becomes Free. -/
  | pageTableRelease (ctx : Nat)
  /-- R380. Every SCRUB hours, the frame unit reads and corrects every sector of its stack. -/
  | hbmScrub (die : Nat) (sectors : List Nat) (rows : List Nat)
  /-- R192. When USERS of a frame on a retired row reaches zero, the frame is Migrating while its 64 KiB are copied to spare rows, then Allocated again. -/
  | frameMigration (frame : Nat)
  /-- R211. An accepted bank-mode request waits for cache fills in flight, discards the cluster's cache-way copies and changes the mode within 2 µs. -/
  | bankModeChange (cluster : Nat)
  /-- R195. Training succeeds: the port exchanges MODIDs, measures TOFF and enters Up. -/
  | portTrainingSuccess (port : Nat) (peer : Nat) (toff : Quad)
  /-- R195. A training attempt fails or exceeds 100 µs; the port goes to Retraining, or to Failed on the third consecutive failure. -/
  | portTrainingFailure (port : Nat)
  /-- R195. 1 µs with no flit received takes an Up port to Retraining and ends its in-flight accesses. -/
  | portLinkLoss (port : Nat)
  /-- R195. 8 consecutive replays of one flit take an Up port to Retraining. -/
  | portReplayLimit (port : Nat)
  /-- R194. A 256-byte flit arrives; a bad CRC makes the sender replay from its sequence number. -/
  | flitReceive (port : Nat) (good : Bool)
  /-- R194. A port sends an idle flit at least every 100 ns. -/
  | idleFlit (port : Nat)
  /-- R204, R201. A request from a peer is served at its home, or answered with an error when ACCEPT is 0 or the access fails; or it aborts a
  chunk of the peer's. `code` is its kind and, in units of 32, the chunk. -/
  | peerRequest (port : Nat) (addr : Nat) (code : Nat) (bytes : List Byte)
  /-- R203. A thread's peer access with no response within 4 µs fails, with the link-timeout fault raised at the word that waits for it. -/
  | peerAccessTimeout (isWrite : Bool) (k : Nat)
  /-- R193. A die-to-die boundary that delivers nothing for 1 µs is routed around and counted. -/
  | d2dBoundaryTimeout (boundary : Nat)
  /-- R206. A shard's local winner arrives at the slot's home; the E-th arrival decides the draw and completes every blocked DRAW. -/
  | drawShardArrival (k : Nat)
  /-- R206. Missing shards after LEASE.LINKTO write status 4 and every blocked DRAW takes the numeric fault. -/
  | drawShardTimeout (slot : Nat)
  /-- R375. Every 10 µs the controller measures module power and sets the matrix duty to the largest d within PLIM: it
  measures the power in W and the hottest junction, and knows what the matrix engines take at full duty, in W. -/
  | powerMeasurement (power : Nat) (temp : Nat) (matrix : Nat)
  /-- R376. A junction reaching 115 °C halts every Active context as a PREEMPT does and stops command fetch. -/
  | thermalTrip (temp : Nat)
  /-- R376. When every junction is below 95 °C, command fetch resumes. -/
  | thermalTripClear
  /-- R374. The busbar's voltage changes: outside 48–58 V it resets the module without saving state, within it lets it leave reset. -/
  | supplyOutOfRange (volts : Nat)
  /-- R378. After power-on, the ROM measures itself, derives the key, trains HBM, reserves frames, sets defaults and sets READY. -/
  | bringUp
  /-- R74. 16-bit MOV: v[D] := v[A] for A in v0–v15, W and S. -/
  | mov16 (d : BitVec 6) (a : BitVec 4)
  /-- R74. 16-bit IADD of v[D] and v[A] into v[D]. -/
  | iadd16 (d : BitVec 6) (a : BitVec 4)
  /-- R74. 16-bit ISUB into v[D]. -/
  | isub16 (d : BitVec 6) (a : BitVec 4)
  /-- R74. 16-bit IMUL into v[D]. -/
  | imul16 (d : BitVec 6) (a : BitVec 4)
  /-- R74. 16-bit AND into v[D]. -/
  | and16 (d : BitVec 6) (a : BitVec 4)
  /-- R74. 16-bit OR into v[D]. -/
  | or16 (d : BitVec 6) (a : BitVec 4)
  /-- R74. 16-bit XOR into v[D]. -/
  | xor16 (d : BitVec 6) (a : BitVec 4)
  /-- R74. 16-bit SHL into v[D]. -/
  | shl16 (d : BitVec 6) (a : BitVec 4)
  /-- R74. 16-bit SHR into v[D]. -/
  | shr16 (d : BitVec 6) (a : BitVec 4)
  /-- R74. 16-bit SRA into v[D]. -/
  | sra16 (d : BitVec 6) (a : BitVec 4)
  /-- R74. 16-bit signed minimum into v[D]. -/
  | imin16 (d : BitVec 6) (a : BitVec 4)
  /-- R74. 16-bit signed maximum into v[D]. -/
  | imax16 (d : BitVec 6) (a : BitVec 4)
  /-- R74. 16-bit carrier FADD into v[D] without flushing. -/
  | fadd16 (d : BitVec 6) (a : BitVec 4)
  /-- R74. 16-bit carrier FSUB into v[D]. -/
  | fsub16 (d : BitVec 6) (a : BitVec 4)
  /-- R74. 16-bit carrier FMUL into v[D]. -/
  | fmul16 (d : BitVec 6) (a : BitVec 4)
  /-- R74. 16-bit FMAX into v[D]. -/
  | fmax16 (d : BitVec 6) (a : BitVec 4)
  /-- R267. One beat with no effect. -/
  | nop
  /-- R267. One beat that counts as stall s = n for issue timing. -/
  | stall (n : BitVec 4)
  /-- R82. Issues when every token in its mask is clear. -/
  | wait (m : BitVec 3)
  /-- R267. Ends the pass and sends the cohort, ready, to the bin at the next word. -/
  | yield
  /-- R158. Raises the breakpoint fault, or in debug mode stops the group with this pass as the stopped pass. -/
  | brk (c : BitVec 11)
  /-- R283. v[D] := (a + b) mod 2^32. -/
  | iadd (s : BitVec 2) (d : BitVec 6) (a : BitVec 6) (b : BitVec 6)
  /-- R283. v[D] := (a − b) mod 2^32. -/
  | isub (s : BitVec 2) (d : BitVec 6) (a : BitVec 6) (b : BitVec 6)
  /-- R283. Smaller operand as i32. -/
  | imin (s : BitVec 2) (d : BitVec 6) (a : BitVec 6) (b : BitVec 6)
  /-- R283. Larger operand as i32. -/
  | imax (s : BitVec 2) (d : BitVec 6) (a : BitVec 6) (b : BitVec 6)
  /-- R283. Smaller operand as n32. -/
  | nmin (s : BitVec 2) (d : BitVec 6) (a : BitVec 6) (b : BitVec 6)
  /-- R283. Larger operand as n32. -/
  | nmax (s : BitVec 2) (d : BitVec 6) (a : BitVec 6) (b : BitVec 6)
  /-- R283. Absolute value of i32(a), modulo 2^32. -/
  | iabs (s : BitVec 2) (d : BitVec 6) (a : BitVec 6)
  /-- R283. (−a) mod 2^32. -/
  | ineg (s : BitVec 2) (d : BitVec 6) (a : BitVec 6)
  /-- R283. 64-bit pair addition. -/
  | iaddW (s : BitVec 2) (d : BitVec 6) (a : BitVec 6) (b : BitVec 6)
  /-- R283. 64-bit pair subtraction. -/
  | isubW (s : BitVec 2) (d : BitVec 6) (a : BitVec 6) (b : BitVec 6)
  /-- R283. Saturating i32 addition. -/
  | iadds (s : BitVec 2) (d : BitVec 6) (a : BitVec 6) (b : BitVec 6)
  /-- R283. Saturating n32 addition. -/
  | nadds (s : BitVec 2) (d : BitVec 6) (a : BitVec 6) (b : BitVec 6)
  /-- R284. (a × b) mod 2^32. -/
  | imul (s : BitVec 2) (d : BitVec 6) (a : BitVec 6) (b : BitVec 6)
  /-- R284. High 32 bits of the signed product. -/
  | imulh (s : BitVec 2) (d : BitVec 6) (a : BitVec 6) (b : BitVec 6)
  /-- R284. High 32 bits of the unsigned product. -/
  | nmulh (s : BitVec 2) (d : BitVec 6) (a : BitVec 6) (b : BitVec 6)
  /-- R284. v[D] := (v[D] + a × b) mod 2^32. -/
  | imad (s : BitVec 2) (d : BitVec 6) (a : BitVec 6) (b : BitVec 6)
  /-- R284. Pair D plus the signed product, modulo 2^64. -/
  | imadW (s : BitVec 2) (d : BitVec 6) (a : BitVec 6) (b : BitVec 6)
  /-- R284. Accumulates the dot product of four signed bytes. -/
  | idot4 (s : BitVec 2) (d : BitVec 6) (a : BitVec 6) (b : BitVec 6)
  /-- R284. Accumulates the dot product of four unsigned bytes. -/
  | ndot4 (s : BitVec 2) (d : BitVec 6) (a : BitVec 6) (b : BitVec 6)
  /-- R285. Bitwise AND. -/
  | and (s : BitVec 2) (d : BitVec 6) (a : BitVec 6) (b : BitVec 6)
  /-- R285. Bitwise OR. -/
  | or (s : BitVec 2) (d : BitVec 6) (a : BitVec 6) (b : BitVec 6)
  /-- R285. Bitwise XOR. -/
  | xor (s : BitVec 2) (d : BitVec 6) (a : BitVec 6) (b : BitVec 6)
  /-- R285. a and not b. -/
  | andn (s : BitVec 2) (d : BitVec 6) (a : BitVec 6) (b : BitVec 6)
  /-- R285. a or not b. -/
  | orn (s : BitVec 2) (d : BitVec 6) (a : BitVec 6) (b : BitVec 6)
  /-- R285. Bitwise NOT of a. -/
  | not (s : BitVec 2) (d : BitVec 6) (a : BitVec 6)
  /-- R285. Logical left shift; 0 when the count is 32 or more. -/
  | shl (s : BitVec 2) (d : BitVec 6) (a : BitVec 6) (b : BitVec 6)
  /-- R285. Logical right shift. -/
  | shr (s : BitVec 2) (d : BitVec 6) (a : BitVec 6) (b : BitVec 6)
  /-- R285. Arithmetic right shift. -/
  | sra (s : BitVec 2) (d : BitVec 6) (a : BitVec 6) (b : BitVec 6)
  /-- R285. Rotate left by c mod 32. -/
  | rotl (s : BitVec 2) (d : BitVec 6) (a : BitVec 6) (b : BitVec 6)
  /-- R285. 64-bit pair left shift. -/
  | shlW (s : BitVec 2) (d : BitVec 6) (a : BitVec 6) (b : BitVec 6)
  /-- R285. 64-bit pair logical right shift. -/
  | shrW (s : BitVec 2) (d : BitVec 6) (a : BitVec 6) (b : BitVec 6)
  /-- R285. 64-bit pair arithmetic right shift. -/
  | sraW (s : BitVec 2) (d : BitVec 6) (a : BitVec 6) (b : BitVec 6)
  /-- R288. Population count. -/
  | popc (s : BitVec 2) (d : BitVec 6) (a : BitVec 6)
  /-- R288. Count of leading zeros. -/
  | clz (s : BitVec 2) (d : BitVec 6) (a : BitVec 6)
  /-- R288. Count of trailing zeros. -/
  | ctz (s : BitVec 2) (d : BitVec 6) (a : BitVec 6)
  /-- R288. Bit reversal. -/
  | brev (s : BitVec 2) (d : BitVec 6) (a : BitVec 6)
  /-- R288. Signed bit-field extract. -/
  | bfei (s : BitVec 2) (d : BitVec 6) (a : BitVec 6) (b : BitVec 6)
  /-- R288. Unsigned bit-field extract. -/
  | bfen (s : BitVec 2) (d : BitVec 6) (a : BitVec 6) (b : BitVec 6)
  /-- R288. Bit-field insert into v[D]. -/
  | bfi (s : BitVec 2) (d : BitVec 6) (a : BitVec 6) (b : BitVec 6)
  /-- R288. Builds a bit-field mask. -/
  | bmsk (s : BitVec 2) (d : BitVec 6) (b : BitVec 6)
  /-- R289. Adds the sign-extended 10-bit immediate. -/
  | iaddi (s : BitVec 2) (d : BitVec 6) (a : BitVec 6) (i : BitVec 10)
  /-- R289. ANDs with the sign-extended immediate. -/
  | andi (s : BitVec 2) (d : BitVec 6) (a : BitVec 6) (i : BitVec 10)
  /-- R289. Left shift by an immediate count. -/
  | shli (s : BitVec 2) (d : BitVec 6) (a : BitVec 6) (n : BitVec 5)
  /-- R289. Logical right shift by an immediate count. -/
  | shri (s : BitVec 2) (d : BitVec 6) (a : BitVec 6) (n : BitVec 5)
  /-- R289. Arithmetic right shift by an immediate count. -/
  | srai (s : BitVec 2) (d : BitVec 6) (a : BitVec 6) (n : BitVec 5)
  /-- R289. Loads the sign-extended 16-bit immediate. -/
  | ldi (s : BitVec 2) (d : BitVec 6) (i : BitVec 16)
  /-- R289. Replaces bits 31:16 of v[D] with the immediate. -/
  | ldih (s : BitVec 2) (d : BitVec 6) (i : BitVec 16)
  /-- R286. Copies v[A] to v[D] with S. -/
  | mov (s : BitVec 2) (d : BitVec 6) (a : BitVec 6)
  /-- R286. Copies extended register x[A] to v[D]. -/
  | xmov (s : BitVec 2) (d : BitVec 6) (a : BitVec 6)
  /-- R286. Copies v[A] to extended register x[D]. -/
  | xset (s : BitVec 2) (d : BitVec 6) (a : BitVec 6)
  /-- R287. Copies v[A] to v[D] when p[P] equals V. -/
  | sel (s : BitVec 2) (p : BitVec 7) (d : BitVec 6) (a : BitVec 6) (v : BitVec 1)
  /-- R290. Signed i32 compare into p[P]. -/
  | icmp (s : BitVec 2) (c : BitVec 3) (p : BitVec 7) (a : BitVec 6) (b : BitVec 6)
  /-- R290. Unsigned n32 compare into p[P]. -/
  | ncmp (s : BitVec 2) (c : BitVec 3) (p : BitVec 7) (a : BitVec 6) (b : BitVec 6)
  /-- R290. Carrier compare, ordered and unordered, into p[P]. -/
  | fcmp (s : BitVec 2) (c : BitVec 3) (p : BitVec 7) (a : BitVec 6) (b : BitVec 6)
  /-- R291. p[PD] := p[PA] xor NA. -/
  | pmov (s : BitVec 2) (d : BitVec 7) (q : BitVec 7) (n : BitVec 1)
  /-- R291. Predicate AND into p[PD]. -/
  | pand (s : BitVec 2) (d : BitVec 7) (q : BitVec 7) (n : BitVec 1)
  /-- R291. Predicate OR into p[PD]. -/
  | por (s : BitVec 2) (d : BitVec 7) (q : BitVec 7) (n : BitVec 1)
  /-- R291. Predicate XOR into p[PD]. -/
  | pxor (s : BitVec 2) (d : BitVec 7) (q : BitVec 7) (n : BitVec 1)
  /-- R291. Sets p[PD] to the constant k. -/
  | pset (s : BitVec 2) (d : BitVec 7) (k : BitVec 1)
  /-- R292. v[D] := 1 when p[P] is true, else 0. -/
  | ptov (s : BitVec 2) (p : BitVec 7) (d : BitVec 6)
  /-- R292. p[P] := W of v[A] is non-zero. -/
  | vtop (s : BitVec 2) (p : BitVec 7) (a : BitVec 6)
  /-- R294. Uniform 64-bit addition. -/
  | gadd (s : BitVec 2) (d : BitVec 6) (a : BitVec 6) (b : BitVec 6)
  /-- R294. Uniform 64-bit subtraction. -/
  | gsub (s : BitVec 2) (d : BitVec 6) (a : BitVec 6) (b : BitVec 6)
  /-- R294. Uniform 64-bit multiplication. -/
  | gmul (s : BitVec 2) (d : BitVec 6) (a : BitVec 6) (b : BitVec 6)
  /-- R294. Uniform left shift. -/
  | gshl (s : BitVec 2) (d : BitVec 6) (a : BitVec 6) (b : BitVec 6)
  /-- R294. Uniform logical right shift. -/
  | gshr (s : BitVec 2) (d : BitVec 6) (a : BitVec 6) (b : BitVec 6)
  /-- R294. Uniform AND. -/
  | gand (s : BitVec 2) (d : BitVec 6) (a : BitVec 6) (b : BitVec 6)
  /-- R294. Uniform OR. -/
  | gor (s : BitVec 2) (d : BitVec 6) (a : BitVec 6) (b : BitVec 6)
  /-- R294. Uniform signed minimum. -/
  | gmin (s : BitVec 2) (d : BitVec 6) (a : BitVec 6) (b : BitVec 6)
  /-- R294. Uniform signed maximum. -/
  | gmax (s : BitVec 2) (d : BitVec 6) (a : BitVec 6) (b : BitVec 6)
  /-- R295. g[D] := g[A]. -/
  | gmov (s : BitVec 2) (d : BitVec 6) (a : BitVec 6)
  /-- R295. g[D] := v[B] of the lowest passing thread, zero-extended. -/
  | gfrom (s : BitVec 2) (d : BitVec 6) (b : BitVec 6)
  /-- R295. g[D] := the pair v[B], v[B+1] of the source thread. -/
  | gfromw (s : BitVec 2) (d : BitVec 6) (b : BitVec 6)
  /-- R295. Writes g[A] bits 31:0 to v[D] of every cohort thread. -/
  | gto (s : BitVec 2) (d : BitVec 6) (a : BitVec 6)
  /-- R295. Writes g[A] bits 63:32 to v[D] of every cohort thread. -/
  | gtoh (s : BitVec 2) (d : BitVec 6) (a : BitVec 6)
  /-- R295. g[D] := the sign-extended 16-bit immediate. -/
  | gldi (s : BitVec 2) (d : BitVec 6) (i : BitVec 16)
  /-- R295. g[D] := g[A] + the sign-extended IMM10. -/
  | gaddi (s : BitVec 2) (d : BitVec 6) (a : BitVec 6) (i : BitVec 10)
  /-- R296. Compares g registers and writes p[P] in every cohort thread. -/
  | gcmp (s : BitVec 2) (c : BitVec 3) (p : BitVec 7) (a : BitVec 6) (b : BitVec 6)
  /-- R298. Reads v[A] from lane c of the rank. -/
  | rshf (s : BitVec 2) (d : BitVec 6) (a : BitVec 6) (b : BitVec 6)
  /-- R298. Reads v[A] from lane j − c. -/
  | rshfu (s : BitVec 2) (d : BitVec 6) (a : BitVec 6) (b : BitVec 6)
  /-- R298. Reads v[A] from lane j + c. -/
  | rshfd (s : BitVec 2) (d : BitVec 6) (a : BitVec 6) (b : BitVec 6)
  /-- R298. Reads v[A] from lane j xor c. -/
  | rshfx (s : BitVec 2) (d : BitVec 6) (a : BitVec 6) (b : BitVec 6)
  /-- R298. Quad horizontal swap, lane j xor 1. -/
  | qswph (s : BitVec 2) (d : BitVec 6) (a : BitVec 6)
  /-- R298. Quad vertical swap, lane j xor 2. -/
  | qswpv (s : BitVec 2) (d : BitVec 6) (a : BitVec 6)
  /-- R298. Quad diagonal swap, lane j xor 3. -/
  | qswpd (s : BitVec 2) (d : BitVec 6) (a : BitVec 6)
  /-- R298. Quad broadcast from member c[1:0]. -/
  | qbcst (s : BitVec 2) (d : BitVec 6) (a : BitVec 6) (b : BitVec 6)
  /-- R300. Integer sum over the participants. -/
  | cradd (s : BitVec 2) (d : BitVec 6) (a : BitVec 6)
  /-- R300. Signed minimum over the participants. -/
  | crmin (s : BitVec 2) (d : BitVec 6) (a : BitVec 6)
  /-- R300. Signed maximum over the participants. -/
  | crmax (s : BitVec 2) (d : BitVec 6) (a : BitVec 6)
  /-- R300. Bitwise AND over the participants. -/
  | crand (s : BitVec 2) (d : BitVec 6) (a : BitVec 6)
  /-- R300. Bitwise OR over the participants. -/
  | cror (s : BitVec 2) (d : BitVec 6) (a : BitVec 6)
  /-- R300. Bitwise XOR over the participants. -/
  | crxor (s : BitVec 2) (d : BitVec 6) (a : BitVec 6)
  /-- R300. Inclusive prefix sum over the participants. -/
  | cscani (s : BitVec 2) (d : BitVec 6) (a : BitVec 6)
  /-- R300. Exclusive prefix sum over the participants. -/
  | cscane (s : BitVec 2) (d : BitVec 6) (a : BitVec 6)
  /-- R300. Carrier tree sum in the fixed order of R41. -/
  | crfadd (s : BitVec 2) (d : BitVec 6) (a : BitVec 6)
  /-- R300. Smallest carrier over the participants. -/
  | crfmin (s : BitVec 2) (d : BitVec 6) (a : BitVec 6)
  /-- R300. Largest carrier over the participants. -/
  | crfmax (s : BitVec 2) (d : BitVec 6) (a : BitVec 6)
  /-- R300. Writes the participant index r. -/
  | crank (s : BitVec 2) (d : BitVec 6)
  /-- R300. Writes the participant count n. -/
  | csize (s : BitVec 2) (d : BitVec 6)
  /-- R300. TID of the participant with the largest i32 value. -/
  | cmaxi (s : BitVec 2) (d : BitVec 6) (a : BitVec 6)
  /-- R301. True in every participant when any predicate is true. -/
  | vany (s : BitVec 2) (d : BitVec 7) (q : BitVec 7) (n : BitVec 1)
  /-- R301. True when every predicate is true. -/
  | vall (s : BitVec 2) (d : BitVec 7) (q : BitVec 7) (n : BitVec 1)
  /-- R301. True when every predicate is equal. -/
  | vuni (s : BitVec 2) (d : BitVec 7) (q : BitVec 7) (n : BitVec 1)
  /-- R301. True in participant 0 only. -/
  | celect (s : BitVec 2) (d : BitVec 7)
  /-- R302. Ballot of p[P] over the positions of the reader's rank. -/
  | vbal (s : BitVec 2) (p : BitVec 7) (d : BitVec 6)
  /-- R302. Ballot of p[P] over the reader's quad. -/
  | vbalQuad (s : BitVec 2) (p : BitVec 7) (d : BitVec 6)
  /-- R303. Mask of the rank's participants whose v[A] is bit-identical to the reader's. -/
  | matchRank (s : BitVec 2) (d : BitVec 6) (a : BitVec 6)
  /-- R306. Carrier addition, rounded to odd. -/
  | fadd (s : BitVec 2) (i : BitVec 1) (o : BitVec 1) (d : BitVec 6) (a : BitVec 6) (b : BitVec 6)
  /-- R306. Carrier subtraction. -/
  | fsub (s : BitVec 2) (i : BitVec 1) (o : BitVec 1) (d : BitVec 6) (a : BitVec 6) (b : BitVec 6)
  /-- R306. Absolute carrier difference. -/
  | fabsd (s : BitVec 2) (i : BitVec 1) (o : BitVec 1) (d : BitVec 6) (a : BitVec 6) (b : BitVec 6)
  /-- R306. Carrier multiplication. -/
  | fmul (s : BitVec 2) (i : BitVec 1) (o : BitVec 1) (d : BitVec 6) (a : BitVec 6) (b : BitVec 6)
  /-- R306. Fused a × b + d with one rounding. -/
  | ffma (s : BitVec 2) (i : BitVec 1) (o : BitVec 1) (d : BitVec 6) (a : BitVec 6) (b : BitVec 6)
  /-- R306. Fused a × b − d. -/
  | ffms (s : BitVec 2) (i : BitVec 1) (o : BitVec 1) (d : BitVec 6) (a : BitVec 6) (b : BitVec 6)
  /-- R306. Fused d − a × b. -/
  | fnfma (s : BitVec 2) (i : BitVec 1) (o : BitVec 1) (d : BitVec 6) (a : BitVec 6) (b : BitVec 6)
  /-- R307. Smaller carrier; a single NaN operand is ignored. -/
  | fmin (s : BitVec 2) (i : BitVec 1) (o : BitVec 1) (d : BitVec 6) (a : BitVec 6) (b : BitVec 6)
  /-- R307. Larger carrier; a single NaN operand is ignored. -/
  | fmax (s : BitVec 2) (i : BitVec 1) (o : BitVec 1) (d : BitVec 6) (a : BitVec 6) (b : BitVec 6)
  /-- R307. Smaller carrier; any NaN gives the canonical NaN. -/
  | fminn (s : BitVec 2) (i : BitVec 1) (o : BitVec 1) (d : BitVec 6) (a : BitVec 6) (b : BitVec 6)
  /-- R307. Larger carrier; any NaN gives the canonical NaN. -/
  | fmaxn (s : BitVec 2) (i : BitVec 1) (o : BitVec 1) (d : BitVec 6) (a : BitVec 6) (b : BitVec 6)
  /-- R308. Clears the sign bit of W and keeps S. -/
  | fabs (s : BitVec 2) (i : BitVec 1) (o : BitVec 1) (d : BitVec 6) (a : BitVec 6)
  /-- R308. Inverts the sign bit of W and keeps S. -/
  | fneg (s : BitVec 2) (i : BitVec 1) (o : BitVec 1) (d : BitVec 6) (a : BitVec 6)
  /-- R309. Reciprocal, rounded to odd. -/
  | frcp (s : BitVec 2) (i : BitVec 1) (o : BitVec 1) (d : BitVec 6) (a : BitVec 6)
  /-- R309. Reciprocal square root within 1 ulp. -/
  | frsq (s : BitVec 2) (i : BitVec 1) (o : BitVec 1) (d : BitVec 6) (a : BitVec 6)
  /-- R309. Square root, rounded to odd. -/
  | fsqrt (s : BitVec 2) (i : BitVec 1) (o : BitVec 1) (d : BitVec 6) (a : BitVec 6)
  /-- R309. 2^a within 2 ulp. -/
  | fexp2 (s : BitVec 2) (i : BitVec 1) (o : BitVec 1) (d : BitVec 6) (a : BitVec 6)
  /-- R309. log2 a within the stated bound. -/
  | flog2 (s : BitVec 2) (i : BitVec 1) (o : BitVec 1) (d : BitVec 6) (a : BitVec 6)
  /-- R309. Sine within 2^−22 absolute. -/
  | fsin (s : BitVec 2) (i : BitVec 1) (o : BitVec 1) (d : BitVec 6) (a : BitVec 6)
  /-- R309. Cosine within 2^−22 absolute. -/
  | fcos (s : BitVec 2) (i : BitVec 1) (o : BitVec 1) (d : BitVec 6) (a : BitVec 6)
  /-- R309. Hyperbolic tangent within 2 ulp. -/
  | ftanh (s : BitVec 2) (i : BitVec 1) (o : BitVec 1) (d : BitVec 6) (a : BitVec 6)
  /-- R309. Logistic sigmoid within 2 ulp. -/
  | fsigm (s : BitVec 2) (i : BitVec 1) (o : BitVec 1) (d : BitVec 6) (a : BitVec 6)
  /-- R308. Floor of the carrier value. -/
  | fflr (s : BitVec 2) (i : BitVec 1) (o : BitVec 1) (d : BitVec 6) (a : BitVec 6)
  /-- R308. Ceiling of the carrier value. -/
  | fceil (s : BitVec 2) (i : BitVec 1) (o : BitVec 1) (d : BitVec 6) (a : BitVec 6)
  /-- R308. Carrier value truncated toward zero. -/
  | ftrnc (s : BitVec 2) (i : BitVec 1) (o : BitVec 1) (d : BitVec 6) (a : BitVec 6)
  /-- R308. Carrier value rounded to the nearest integer, ties to even. -/
  | frndn (s : BitVec 2) (i : BitVec 1) (o : BitVec 1) (d : BitVec 6) (a : BitVec 6)
  /-- R308. Class mask of the carrier. -/
  | fclass (s : BitVec 2) (i : BitVec 1) (o : BitVec 1) (d : BitVec 6) (a : BitVec 6)
  /-- R310. Carrier division, rounded to odd. -/
  | fdiv (s : BitVec 2) (i : BitVec 1) (o : BitVec 1) (d : BitVec 6) (a : BitVec 6) (b : BitVec 6)
  /-- R311. a × 2^n, where n is the i32 in v[B]. -/
  | fscl (s : BitVec 2) (i : BitVec 1) (o : BitVec 1) (d : BitVec 6) (a : BitVec 6) (b : BitVec 6)
  /-- R311. Integer floor of log2 |a|. -/
  | fexpo (s : BitVec 2) (i : BitVec 1) (o : BitVec 1) (d : BitVec 6) (a : BitVec 6)
  /-- R311. Mantissa of a scaled into ±[1, 2). -/
  | fmant (s : BitVec 2) (i : BitVec 1) (o : BitVec 1) (d : BitVec 6) (a : BitVec 6)
  /-- R312. Rounds to odd on the grid of a target format plus two bits. -/
  | fcvt (s : BitVec 2) (i : BitVec 1) (o : BitVec 1) (d : BitVec 6) (a : BitVec 6) (f : BitVec 4)
  /-- R313. Finalises the carrier to a format under a rounding mode, setting FSTAT. -/
  | ffin (s : BitVec 2) (r : BitVec 4) (d : BitVec 6) (a : BitVec 6) (f : BitVec 4)
  /-- R314. Finalises two carriers to BF16 or F16 and packs them into one word. -/
  | fpack (s : BitVec 2) (r : BitVec 3) (t : BitVec 1) (d : BitVec 6) (a : BitVec 6) (b : BitVec 6)
  /-- R315. Finalises to E4M3 or E5M2 into one byte lane of v[D]. -/
  | fpk8 (s : BitVec 2) (r : BitVec 4) (d : BitVec 6) (a : BitVec 6) (l : BitVec 2) (f : BitVec 4)
  /-- R316. Unpacks one narrow element of v[A] into an exact carrier. -/
  | funpk (s : BitVec 2) (d : BitVec 6) (a : BitVec 6) (l : BitVec 3) (c : BitVec 3)
  /-- R317. Finalises the carrier to an integer format. -/
  | ftoi (s : BitVec 2) (r : BitVec 4) (d : BitVec 6) (a : BitVec 6) (f : BitVec 4)
  /-- R318. Converts an integer of the given format to a carrier. -/
  | itof (s : BitVec 2) (d : BitVec 6) (a : BitVec 6) (f : BitVec 4)
  /-- R319. p[P] := the sticky bit of v[A]. -/
  | stkget (s : BitVec 2) (p : BitVec 7) (a : BitVec 6)
  /-- R319. Sets the sticky bit of v[D] from p[P]. -/
  | stkset (s : BitVec 2) (p : BitVec 7) (d : BitVec 6)
  /-- R320. Counter-based mix32 random word. -/
  | rng32 (s : BitVec 2) (d : BitVec 6) (a : BitVec 6) (b : BitVec 6)
  /-- R320. Uniform carrier in (0, 1). -/
  | rngu (s : BitVec 2) (d : BitVec 6) (a : BitVec 6) (b : BitVec 6)
  /-- R320. Gumbel sample −ln(−ln u). -/
  | rngg (s : BitVec 2) (d : BitVec 6) (a : BitVec 6) (b : BitVec 6)
  /-- R322. Gumbel-max choice among the participants' candidates at a DRAW slot, advancing its INDEX atomically. -/
  | draw (s : BitVec 2) (d : BitVec 6) (g : BitVec 4) (a : BitVec 6)
  /-- R326. Loads a byte, half, word or pair, with optional sign extension and acquire. -/
  | ld (s : BitVec 2) (z : BitVec 2) (x : BitVec 1) (q : BitVec 1) (d : BitVec 6) (g : BitVec 4) (a : BitVec 6) (t : BitVec 2)
  /-- R326. Loads 16 bytes into v[D..D+3]. -/
  | ldq (s : BitVec 2) (q : BitVec 1) (d : BitVec 6) (g : BitVec 4) (a : BitVec 6) (t : BitVec 2)
  /-- R327. Loads one narrow float element as an exact carrier. -/
  | ldf (s : BitVec 2) (f : BitVec 4) (d : BitVec 6) (g : BitVec 4) (a : BitVec 6) (t : BitVec 2)
  /-- R326. Stores a byte, half, word or pair from W, with optional release. -/
  | st (s : BitVec 2) (z : BitVec 2) (r : BitVec 1) (d : BitVec 6) (g : BitVec 4) (a : BitVec 6)
  /-- R326. Stores 16 bytes from v[D..D+3]. -/
  | stq (s : BitVec 2) (d : BitVec 6) (g : BitVec 4) (a : BitVec 6)
  /-- R327. Finalises the carrier to F32 and stores it. -/
  | stfF32 (s : BitVec 2) (r : BitVec 4) (d : BitVec 6) (g : BitVec 4) (a : BitVec 6)
  /-- R327. Finalises to BF16 and stores it. -/
  | stfBf16 (s : BitVec 2) (r : BitVec 4) (d : BitVec 6) (g : BitVec 4) (a : BitVec 6)
  /-- R327. Finalises to F16 and stores it. -/
  | stfF16 (s : BitVec 2) (r : BitVec 4) (d : BitVec 6) (g : BitVec 4) (a : BitVec 6)
  /-- R327. Finalises to E4M3 and stores it. -/
  | stfE4m3 (s : BitVec 2) (r : BitVec 4) (d : BitVec 6) (g : BitVec 4) (a : BitVec 6)
  /-- R327. Finalises to E5M2 and stores it. -/
  | stfE5m2 (s : BitVec 2) (r : BitVec 4) (d : BitVec 6) (g : BitVec 4) (a : BitVec 6)
  /-- R327. Finalises to E2M1 and stores one nibble atomically. -/
  | stfE2m1 (s : BitVec 2) (r : BitVec 4) (d : BitVec 6) (g : BitVec 4) (a : BitVec 6)
  /-- R326. Stores the 33-bit register image in 8 bytes. -/
  | stimg (s : BitVec 2) (d : BitVec 6) (g : BitVec 4) (a : BitVec 6)
  /-- R326. Loads the 33-bit register image, including S. -/
  | ldimg (s : BitVec 2) (d : BitVec 6) (g : BitVec 4) (a : BitVec 6) (t : BitVec 2)
  /-- R328. Full-empty load of a scratchpad granule; blocks while empty, optionally consumes. -/
  | ldfe (s : BitVec 2) (c : BitVec 1) (d : BitVec 6) (g : BitVec 4) (a : BitVec 6) (t : BitVec 2)
  /-- R328. Full-empty store of a granule; sets it full, optionally waiting for empty. -/
  | stfe (s : BitVec 2) (w : BitVec 1) (d : BitVec 6) (g : BitVec 4) (a : BitVec 6)
  /-- R330. Atomically claims queue elements and compacts the participants' words into them. -/
  | stcmp (s : BitVec 2) (d : BitVec 6) (g : BitVec 4) (a : BitVec 6) (t : BitVec 2)
  /-- R331. Atomic 32-bit add at the home, returning the old value. -/
  | atomAdd (s : BitVec 2) (d : BitVec 6) (g : BitVec 4) (a : BitVec 6) (t : BitVec 2)
  /-- R331. Atomic signed minimum. -/
  | atomMinI (s : BitVec 2) (d : BitVec 6) (g : BitVec 4) (a : BitVec 6) (t : BitVec 2)
  /-- R331. Atomic signed maximum. -/
  | atomMaxI (s : BitVec 2) (d : BitVec 6) (g : BitVec 4) (a : BitVec 6) (t : BitVec 2)
  /-- R331. Atomic unsigned minimum. -/
  | atomMinN (s : BitVec 2) (d : BitVec 6) (g : BitVec 4) (a : BitVec 6) (t : BitVec 2)
  /-- R331. Atomic unsigned maximum. -/
  | atomMaxN (s : BitVec 2) (d : BitVec 6) (g : BitVec 4) (a : BitVec 6) (t : BitVec 2)
  /-- R331. Atomic AND. -/
  | atomAnd (s : BitVec 2) (d : BitVec 6) (g : BitVec 4) (a : BitVec 6) (t : BitVec 2)
  /-- R331. Atomic OR. -/
  | atomOr (s : BitVec 2) (d : BitVec 6) (g : BitVec 4) (a : BitVec 6) (t : BitVec 2)
  /-- R331. Atomic XOR. -/
  | atomXor (s : BitVec 2) (d : BitVec 6) (g : BitVec 4) (a : BitVec 6) (t : BitVec 2)
  /-- R331. Atomic exchange. -/
  | atomExch (s : BitVec 2) (d : BitVec 6) (g : BitVec 4) (a : BitVec 6) (t : BitVec 2)
  /-- R331. Atomic compare-and-swap. -/
  | atomCas (s : BitVec 2) (d : BitVec 6) (g : BitVec 4) (a : BitVec 6) (t : BitVec 2)
  /-- R331. Atomic 64-bit add. -/
  | atomAddW (s : BitVec 2) (d : BitVec 6) (g : BitVec 4) (a : BitVec 6) (t : BitVec 2)
  /-- R331. Atomic F32 add, rounded once with RNE. -/
  | atomFadd (s : BitVec 2) (d : BitVec 6) (g : BitVec 4) (a : BitVec 6) (t : BitVec 2)
  /-- R332. Reduction add with no return. -/
  | redAdd (s : BitVec 2) (d : BitVec 6) (g : BitVec 4) (a : BitVec 6)
  /-- R332. Reduction signed minimum. -/
  | redMinI (s : BitVec 2) (d : BitVec 6) (g : BitVec 4) (a : BitVec 6)
  /-- R332. Reduction signed maximum. -/
  | redMaxI (s : BitVec 2) (d : BitVec 6) (g : BitVec 4) (a : BitVec 6)
  /-- R332. Reduction unsigned minimum. -/
  | redMinN (s : BitVec 2) (d : BitVec 6) (g : BitVec 4) (a : BitVec 6)
  /-- R332. Reduction unsigned maximum. -/
  | redMaxN (s : BitVec 2) (d : BitVec 6) (g : BitVec 4) (a : BitVec 6)
  /-- R332. Reduction AND. -/
  | redAnd (s : BitVec 2) (d : BitVec 6) (g : BitVec 4) (a : BitVec 6)
  /-- R332. Reduction OR. -/
  | redOr (s : BitVec 2) (d : BitVec 6) (g : BitVec 4) (a : BitVec 6)
  /-- R332. Reduction XOR. -/
  | redXor (s : BitVec 2) (d : BitVec 6) (g : BitVec 4) (a : BitVec 6)
  /-- R332. Reduction 64-bit add. -/
  | redAddW (s : BitVec 2) (d : BitVec 6) (g : BitVec 4) (a : BitVec 6)
  /-- R332. Reduction F32 add. -/
  | redFadd (s : BitVec 2) (d : BitVec 6) (g : BitVec 4) (a : BitVec 6)
  /-- R228. Waits for the thread's horizons at the given scope and orders its later accesses. -/
  | fence (s : BitVec 2) (m : BitVec 4) (h : BitVec 1)
  /-- R333. Prefetches a 128-byte line with no fault and no ordering. -/
  | pftch (s : BitVec 2) (g : BitVec 4) (a : BitVec 6)
  /-- R334. Waits until the thread's earlier writes to the line reach T_wc. -/
  | cwb (s : BitVec 2) (g : BitVec 4) (a : BitVec 6)
  /-- R334. Discards the cluster's and die's copies of the line. -/
  | cinv (s : BitVec 2) (g : BitVec 4) (a : BitVec 6)
  /-- R334. CWB followed by CINV. -/
  | cwbi (s : BitVec 2) (g : BitVec 4) (a : BitVec 6)
  /-- R334. Stores 128 zero bytes to the line as one write. -/
  | czero (s : BitVec 2) (g : BitVec 4) (a : BitVec 6)
  /-- R216. Programs a retention window of the die for a range of the context. -/
  | pin (s : BitVec 2) (w : BitVec 3) (a : BitVec 6) (b : BitVec 6)
  /-- R219. Releases a retention window. -/
  | unpin (s : BitVec 2) (w : BitVec 3)
  /-- R335. Uniform 8-byte load into g[D]. -/
  | ldg (s : BitVec 2) (d : BitVec 6) (a : BitVec 6) (i : BitVec 10)
  /-- R335. Uniform 8-byte store of g[D]. -/
  | stg (s : BitVec 2) (d : BitVec 6) (a : BitVec 6) (i : BitVec 10)
  /-- R185. Maps a run of new pool frames as counted leaves, or refuses with a status. -/
  | pgalloc (s : BitVec 2) (d : BitVec 6) (a : BitVec 6) (b : BitVec 6)
  /-- R185. Shares a counted leaf copy-on-write and increments its frame's COUNT. -/
  | pgshare (s : BitVec 2) (d : BitVec 6) (a : BitVec 6) (b : BitVec 6)
  /-- R185. Zeroes a run of counted leaves and decrements their frames' COUNT. -/
  | pgfree (s : BitVec 2) (d : BitVec 6) (a : BitVec 6) (b : BitVec 6)
  /-- R185. Returns the frame entry of a counted leaf. -/
  | pginfo (s : BitVec 2) (d : BitVec 6) (a : BitVec 6)
  /-- R185. Sets the pool reserve and returns the old one. -/
  | pgrsv (s : BitVec 2) (d : BitVec 6) (a : BitVec 6)
  /-- R338. Engine copy of a tensor between spaces, optionally with labels, counted and barrier-reported. -/
  | copy (s : BitVec 2) (b : BitVec 6) (g : BitVec 4) (u : BitVec 4) (x : BitVec 4) (r : BitVec 2) (l : BitVec 1) (n : BitVec 1)
  /-- R338. Engine copy that transposes dimensions 0 and 1. -/
  | copyt (s : BitVec 2) (b : BitVec 6) (g : BitVec 4) (u : BitVec 4) (r : BitVec 2) (n : BitVec 1)
  /-- R339. Gathers source lines by an index list. -/
  | gath (s : BitVec 2) (b : BitVec 6) (g : BitVec 4) (u : BitVec 4) (x : BitVec 4) (r : BitVec 2) (l : BitVec 1) (n : BitVec 1)
  /-- R339. Scatters source lines to destination lines by an index list. -/
  | scat (s : BitVec 2) (b : BitVec 6) (g : BitVec 4) (u : BitVec 4) (x : BitVec 4) (r : BitVec 2) (l : BitVec 1) (n : BitVec 1)
  /-- R340. Reduces source elements into destination elements atomically at their homes. -/
  | copyr (s : BitVec 2) (b : BitVec 6) (g : BitVec 4) (u : BitVec 4) (x : BitVec 4) (c : BitVec 3) (n : BitVec 1)
  /-- R270. Stalls the pass until the named engine counter is at most n. -/
  | waite (s : BitVec 2) (c : BitVec 2) (i : BitVec 8)
  /-- R342. Claims a ring slot atomically and writes a 64-byte packet. -/
  | qpost (s : BitVec 2) (d : BitVec 6) (g : BitVec 4) (a : BitVec 6) (t : BitVec 2)
  /-- R162. Initialises a transaction barrier's expected count and clears its sectors and error. -/
  | binit (s : BitVec 2) (b : BitVec 6) (u : BitVec 4)
  /-- R163. Per-thread arrival of the passing threads on a barrier. -/
  | barv (s : BitVec 2) (b : BitVec 6)
  /-- R163. One arrival per pass on a barrier. -/
  | barvPass (s : BitVec 2) (b : BitVec 6)
  /-- R163. One arrival plus an expectation of g[GS] sectors. -/
  | barvExpect (s : BitVec 2) (b : BitVec 6) (u : BitVec 4)
  /-- R167. Blocks until the barrier's phase differs from the awaited one, then writes the phase and error. -/
  | bwait (s : BitVec 2) (d : BitVec 6) (b : BitVec 6)
  /-- R167. p[P] := the barrier's phase differs from the awaited one. -/
  | btest (s : BitVec 2) (p : BitVec 7) (a : BitVec 6) (b : BitVec 6)
  /-- R170. Group-barrier arrival counting all live threads. -/
  | barg (s : BitVec 2)
  /-- R170. Group-barrier arrival with the count taken from g[D]. -/
  | bargCount (s : BitVec 2) (d : BitVec 6)
  /-- R175. Sets a pennant to the 64-bit operand. -/
  | pnset (s : BitVec 2) (a : BitVec 6) (f : BitVec 4)
  /-- R175. Lowers a pennant to the i64 minimum. -/
  | pnmin (s : BitVec 2) (a : BitVec 6) (f : BitVec 4)
  /-- R175. Raises a pennant to the i64 maximum. -/
  | pnmax (s : BitVec 2) (a : BitVec 6) (f : BitVec 4)
  /-- R175. Reads the core's copy of a pennant into v[D], v[D+1]. -/
  | pnrd (s : BitVec 2) (d : BitVec 6) (f : BitVec 4)
  /-- R272. Each passing thread emits a continuation task record from v[D..D+15]. -/
  | tspawn (s : BitVec 2) (d : BitVec 6) (g : BitVec 4)
  /-- R273. Emits one range task record. -/
  | trange (s : BitVec 2) (d : BitVec 6) (a : BitVec 6) (b : BitVec 6)
  /-- R274. Atomically claims iterations from the group's range. -/
  | tclaim (s : BitVec 2) (d : BitVec 6) (a : BitVec 6)
  /-- R275. Closes every non-empty gather buffer of the team. -/
  | tflush (s : BitVec 2)
  /-- R276. Requests NTHR extended-register sets for the group, blocking until granted. -/
  | acqx (s : BitVec 2)
  /-- R276. Returns the group's extended-register grant. -/
  | relx (s : BitVec 2)
  /-- R277. Raises the user-trap fault with a code. -/
  | trap (s : BitVec 2) (c : BitVec 11)
  /-- R152. Returns a handler thread to its FRES bin, ready. -/
  | tretResume (s : BitVec 2)
  /-- R152. Returns a handler thread to the word after the faulting one. -/
  | tretSkip (s : BitVec 2)
  /-- R152. Retires a handler thread. -/
  | tretRetire (s : BitVec 2)
  /-- R279. Reads a special register into v[D]. -/
  | smov (s : BitVec 2) (d : BitVec 6) (n : BitVec 12)
  /-- R279. Writes a special register from v[D]. -/
  | sset (s : BitVec 2) (d : BitVec 6) (n : BitVec 12)
  /-- R281. Privileged: has the effect of a PREEMPT of the issuing group's context. -/
  | halt (s : BitVec 2)
  /-- R265. Sends each thread to the entry bin of block T. -/
  | jmp (s : BitVec 2) (t : BitVec 12)
  /-- R265. Branches to block T when p[P] equals V, else falls through. -/
  | brc (s : BitVec 2) (t : BitVec 12) (p : BitVec 7) (v : BitVec 1)
  /-- R265. Branches to the block id held in v[A]. -/
  | brx (s : BitVec 2) (a : BitVec 6)
  /-- R265. Writes the fall-through block id to v63 and branches to block T. -/
  | call (s : BitVec 2) (t : BitVec 12)
  /-- R265. Retires the thread when p[P] equals V, else falls through. -/
  | exit (s : BitVec 2) (p : BitVec 7) (v : BitVec 1)
  /-- R349. Queues a product of A and B tiles into an accumulator tile under a relation. -/
  | mma (s : BitVec 2) (m : BitVec 4) (c : BitVec 4) (a : BitVec 4) (b : BitVec 4) (k : BitVec 4) (w : BitVec 2)
  /-- R349. Queues a scaled FP8 product with activation and weight scales. -/
  | mmas (s : BitVec 2) (m : BitVec 4) (c : BitVec 4) (a : BitVec 4) (b : BitVec 4) (k : BitVec 4) (w : BitVec 2)
  /-- R349. Queues a microscaled product with E8M0 block scales. -/
  | mmax (s : BitVec 2) (m : BitVec 4) (c : BitVec 4) (a : BitVec 4) (b : BitVec 4) (k : BitVec 4) (w : BitVec 2)
  /-- R352. Zeroes owned rows and sets the tile's format and generators. -/
  | mzero (s : BitVec 2) (c : BitVec 4) (b : BitVec 4) (w : BitVec 1)
  /-- R353. Loads a tile image from scratchpad into owned rows. -/
  | mldc (s : BitVec 2) (c : BitVec 4) (a : BitVec 4) (k : BitVec 4) (w : BitVec 2)
  /-- R353. Stores owned rows to a scratchpad image, finalised to a format. -/
  | mstc (s : BitVec 2) (c : BitVec 4) (a : BitVec 4) (r : BitVec 4) (k : BitVec 4) (w : BitVec 2)
  /-- R354. Copies owned rows and tile format from one accumulator tile to another. -/
  | mcopy (s : BitVec 2) (c : BitVec 4) (k : BitVec 4) (w : BitVec 1)
  /-- R354. Multiplies owned rows by an F32 factor. -/
  | mscale (s : BitVec 2) (c : BitVec 4) (b : BitVec 4) (w : BitVec 1)
  /-- R355. Binds a tile to a barrier and sets ownbase. -/
  | mdep (s : BitVec 2) (c : BitVec 4) (a : BitVec 4)
  /-- R356. Reads the core's SKIPPED, MASKED or UNMASKED counter at the millrace head. -/
  | mstat (s : BitVec 2) (a : BitVec 4) (k : BitVec 2)
  /-- R356. Reads a tile's progress word at the millrace head. -/
  | mstatProg (s : BitVec 2) (c : BitVec 4) (a : BitVec 4)
  /-- R357. Loads a relation descriptor into k1–k15. -/
  | mrel (s : BitVec 2) (a : BitVec 4) (k : BitVec 4)
  /-- R358. Online softmax step from a score tile into an output tile. -/
  | msmx (s : BitVec 2) (c : BitVec 4) (k : BitVec 4) (w : BitVec 1)
  /-- R358. Divides owned output rows by their softmax sums, marking empty rows. -/
  | msmf (s : BitVec 2) (k : BitVec 4) (w : BitVec 1)
  /-- R359. Reads 16 accumulator elements of the thread's row into registers. -/
  | mrd (s : BitVec 2) (m : BitVec 4) (d : BitVec 6) (a : BitVec 6)
  /-- R359. Writes 16 accumulator elements of the thread's row from registers. -/
  | mwr (s : BitVec 2) (m : BitVec 4) (d : BitVec 6) (a : BitVec 6)
  /-- R87. A pass reaches a word that is no instruction: the halfword 0x0000, a reserved opcode or sub-operation code, a 16-bit kind 6 or 7, a misplaced prefix or BLK, or a word at offset 4096 or past the text; every cohort thread takes the illegal-instruction fault. -/
  | illegalInstruction
  /-- R204. An error answer from a peer reaches the requester and ends the chunk it belongs to in error exactly as under R201: Failure events, USERS release, map bit left clear and TIMEOUTS counted. -/
  | peerErrorAnswer (kind : Nat) (k : Nat) (ecc : Bool)
  deriving DecidableEq, Repr

end Sys2Proof
end

