-- ==== Sys2Proof/WellFormed.lean ====
section
/-! DEFINITION. Well-formed instructions: the checks of R87 step 1 that a row's fields can still fail, and for an event the
ranges of the objects it names. -/

namespace Sys2Proof

/-- A rounding-mode code of R33: 7 to 15 are illegal. -/
def roundNamed (r : BitVec 4) : Bool := decide (r.toNat < 7)

/-- A format code of R18: 14 and 15 are reserved (R19). -/
def formatNamed (f : BitVec 4) : Bool := decide (f.toNat < 14)

/-- The instruction is one a decoder may read (R87 step 1), or the event names objects that exist. -/
def wellFormed : Instr → Bool
  | .tailWrite ring _ => decide (ring < 1028)
  | .ringRegisterWrite ring _ _ => decide (ring < 1028)
  | .contextRegisterWrite ctx _ _ => decide (ctx < 64)
  | .portEnableWrite port _ => decide (port < 18)
  | .registerWrite _ _ _ => true
  | .commandFetch ring => decide (ring < 1028)
  | .completionRecordWrite ring => decide (ring < 1028)
  | .ctxCreate ring => decide (ring < 1028)
  | .ctxDestroy ring => decide (ring < 1028)
  | .qCreate ring => decide (ring < 1028)
  | .qCtlPause ring => decide (ring < 1028)
  | .qCtlResume ring => decide (ring < 1028)
  | .qCtlDestroy ring => decide (ring < 1028)
  | .map ring => decide (ring < 1028)
  | .unmap ring => decide (ring < 1028)
  | .poolCreate ring => decide (ring < 1028)
  | .cfgLoad ring => decide (ring < 1028)
  | .kernLoad ring => decide (ring < 1028)
  | .kernUnload ring => decide (ring < 1028)
  | .launch ring => decide (ring < 1028)
  | .graphRecord ring => decide (ring < 1028)
  | .graphEnd ring => decide (ring < 1028)
  | .graphReplay ring => decide (ring < 1028)
  | .gparamSet ring => decide (ring < 1028)
  | .preempt ring => decide (ring < 1028)
  | .resume ring => decide (ring < 1028)
  | .ckptSave ring => decide (ring < 1028)
  | .ckptRestore ring => decide (ring < 1028)
  | .attest ring => decide (ring < 1028)
  | .dbgStop ring => decide (ring < 1028)
  | .dbgStep ring => decide (ring < 1028)
  | .dbgSteppass ring => decide (ring < 1028)
  | .dbgStepbin ring => decide (ring < 1028)
  | .dbgCont ring => decide (ring < 1028)
  | .syncAll ring => decide (ring < 1028)
  | .teamAdmission cluster => decide (cluster < 192)
  | .passStart _ => true
  | .passEnd _ _ => true
  | .tokenResultWrite _ => true
  | .fantailSweep _ => true
  | .barrierDeadlock _ => true
  | .groupEnd _ => true
  | .taskTake core => decide (core < 1536)
  | .gatherTimeout _ _ => true
  | .taskSteal core => decide (core < 1536)
  | .xregGrant cluster => decide (cluster < 192)
  | .engineCommandRetire _ cls => decide (cls < 4)
  | .chunkStart _ => true
  | .chunkComplete _ => true
  | .chunkTimeout _ => true
  | .chunkAbort _ => true
  | .chunkDetach _ => true
  | .sectorEvent _ => true
  | .millraceCommandStart core => decide (core < 1536)
  | .kStep core => decide (core < 1536)
  | .millraceCommandRetire core => decide (core < 1536)
  | .homeWrite _ _ => true
  | .homeRead _ _ => true
  | .writeTimeReply _ => true
  | .leaseExpiry _ => true
  | .fenceComplete _ _ => true
  | .pennantCopyUpdate _ _ => true
  | .haltComplete ctx => decide (ctx < 64)
  | .cowResolution _ => true
  | .cowThreadRelease _ => true
  | .pageTableRelease ctx => decide (ctx < 64)
  | .hbmScrub die _ _ => decide (die < 24)
  | .frameMigration _ => true
  | .bankModeChange cluster => decide (cluster < 192)
  | .portTrainingSuccess port peer _ => decide (port < 18) && decide (peer < 4096)
  | .portTrainingFailure port => decide (port < 18)
  | .portLinkLoss port => decide (port < 18)
  | .portReplayLimit port => decide (port < 18)
  | .flitReceive port _ => decide (port < 18)
  | .idleFlit port => decide (port < 18)
  | .peerRequest port _ kind _ => decide (port < 18) && decide (kind % 32 < 20)
  | .peerAccessTimeout _ _ => true
  | .d2dBoundaryTimeout boundary => decide (boundary < 38)
  | .drawShardArrival _ => true
  | .drawShardTimeout _ => true
  | .powerMeasurement power _ _ => decide (power < 10 * 2 ^ 16)
  | .thermalTrip temp => decide (temp ≥ 115)
  | .thermalTripClear => true
  | .supplyOutOfRange _ => true
  | .bringUp => true
  | .mov16 d a => !(d == 0#6 && a == 0#4)
  | .iadd16 _ _ => true
  | .isub16 _ _ => true
  | .imul16 _ _ => true
  | .and16 _ _ => true
  | .or16 _ _ => true
  | .xor16 _ _ => true
  | .shl16 _ _ => true
  | .shr16 _ _ => true
  | .sra16 _ _ => true
  | .imin16 _ _ => true
  | .imax16 _ _ => true
  | .fadd16 _ _ => true
  | .fsub16 _ _ => true
  | .fmul16 _ _ => true
  | .fmax16 _ _ => true
  | .nop => true
  | .stall n => n != 0#4
  | .wait _ => true
  | .yield => true
  | .brk _ => true
  | .iadd _ _ _ _ => true
  | .isub _ _ _ _ => true
  | .imin _ _ _ _ => true
  | .imax _ _ _ _ => true
  | .nmin _ _ _ _ => true
  | .nmax _ _ _ _ => true
  | .iabs _ _ _ => true
  | .ineg _ _ _ => true
  | .iaddW _ _ _ _ => true
  | .isubW _ _ _ _ => true
  | .iadds _ _ _ _ => true
  | .nadds _ _ _ _ => true
  | .imul _ _ _ _ => true
  | .imulh _ _ _ _ => true
  | .nmulh _ _ _ _ => true
  | .imad _ _ _ _ => true
  | .imadW _ _ _ _ => true
  | .idot4 _ _ _ _ => true
  | .ndot4 _ _ _ _ => true
  | .and _ _ _ _ => true
  | .or _ _ _ _ => true
  | .xor _ _ _ _ => true
  | .andn _ _ _ _ => true
  | .orn _ _ _ _ => true
  | .not _ _ _ => true
  | .shl _ _ _ _ => true
  | .shr _ _ _ _ => true
  | .sra _ _ _ _ => true
  | .rotl _ _ _ _ => true
  | .shlW _ _ _ _ => true
  | .shrW _ _ _ _ => true
  | .sraW _ _ _ _ => true
  | .popc _ _ _ => true
  | .clz _ _ _ => true
  | .ctz _ _ _ => true
  | .brev _ _ _ => true
  | .bfei _ _ _ _ => true
  | .bfen _ _ _ _ => true
  | .bfi _ _ _ _ => true
  | .bmsk _ _ _ => true
  | .iaddi _ _ _ _ => true
  | .andi _ _ _ _ => true
  | .shli _ _ _ _ => true
  | .shri _ _ _ _ => true
  | .srai _ _ _ _ => true
  | .ldi _ _ _ => true
  | .ldih _ _ _ => true
  | .mov _ _ _ => true
  | .xmov _ _ _ => true
  | .xset _ _ _ => true
  | .sel _ _ _ _ _ => true
  | .icmp _ c _ _ _ => decide (c.toNat < 6)
  | .ncmp _ c _ _ _ => decide (c.toNat < 6)
  | .fcmp _ _ _ _ _ => true
  | .pmov _ _ _ _ => true
  | .pand _ _ _ _ => true
  | .por _ _ _ _ => true
  | .pxor _ _ _ _ => true
  | .pset _ _ _ => true
  | .ptov _ _ _ => true
  | .vtop _ _ _ => true
  | .gadd _ _ _ _ => true
  | .gsub _ _ _ _ => true
  | .gmul _ _ _ _ => true
  | .gshl _ _ _ _ => true
  | .gshr _ _ _ _ => true
  | .gand _ _ _ _ => true
  | .gor _ _ _ _ => true
  | .gmin _ _ _ _ => true
  | .gmax _ _ _ _ => true
  | .gmov _ _ _ => true
  | .gfrom _ _ _ => true
  | .gfromw _ _ _ => true
  | .gto _ _ _ => true
  | .gtoh _ _ _ => true
  | .gldi _ _ _ => true
  | .gaddi _ _ _ _ => true
  | .gcmp _ _ _ _ _ => true
  | .rshf _ _ _ _ => true
  | .rshfu _ _ _ _ => true
  | .rshfd _ _ _ _ => true
  | .rshfx _ _ _ _ => true
  | .qswph _ _ _ => true
  | .qswpv _ _ _ => true
  | .qswpd _ _ _ => true
  | .qbcst _ _ _ _ => true
  | .cradd _ _ _ => true
  | .crmin _ _ _ => true
  | .crmax _ _ _ => true
  | .crand _ _ _ => true
  | .cror _ _ _ => true
  | .crxor _ _ _ => true
  | .cscani _ _ _ => true
  | .cscane _ _ _ => true
  | .crfadd _ _ _ => true
  | .crfmin _ _ _ => true
  | .crfmax _ _ _ => true
  | .crank _ _ => true
  | .csize _ _ => true
  | .cmaxi _ _ _ => true
  | .vany _ _ _ _ => true
  | .vall _ _ _ _ => true
  | .vuni _ _ _ _ => true
  | .celect _ _ => true
  | .vbal _ _ _ => true
  | .vbalQuad _ _ _ => true
  | .matchRank _ _ _ => true
  | .fadd _ _ _ _ _ _ => true
  | .fsub _ _ _ _ _ _ => true
  | .fabsd _ _ _ _ _ _ => true
  | .fmul _ _ _ _ _ _ => true
  | .ffma _ _ _ _ _ _ => true
  | .ffms _ _ _ _ _ _ => true
  | .fnfma _ _ _ _ _ _ => true
  | .fmin _ _ _ _ _ _ => true
  | .fmax _ _ _ _ _ _ => true
  | .fminn _ _ _ _ _ _ => true
  | .fmaxn _ _ _ _ _ _ => true
  | .fabs _ _ _ _ _ => true
  | .fneg _ _ _ _ _ => true
  | .frcp _ _ _ _ _ => true
  | .frsq _ _ _ _ _ => true
  | .fsqrt _ _ _ _ _ => true
  | .fexp2 _ _ _ _ _ => true
  | .flog2 _ _ _ _ _ => true
  | .fsin _ _ _ _ _ => true
  | .fcos _ _ _ _ _ => true
  | .ftanh _ _ _ _ _ => true
  | .fsigm _ _ _ _ _ => true
  | .fflr _ _ _ _ _ => true
  | .fceil _ _ _ _ _ => true
  | .ftrnc _ _ _ _ _ => true
  | .frndn _ _ _ _ _ => true
  | .fclass _ _ _ _ _ => true
  | .fdiv _ _ _ _ _ _ => true
  | .fscl _ _ _ _ _ _ => true
  | .fexpo _ _ _ _ _ => true
  | .fmant _ _ _ _ _ => true
  | .fcvt _ _ _ _ _ f => formatNamed f
  | .ffin _ r _ _ f => roundNamed r && formatNamed f
  | .fpack _ r _ _ _ _ => decide (r.toNat < 7)
  | .fpk8 _ r _ _ _ f => roundNamed r && formatNamed f
  | .funpk _ _ _ _ c => decide (c.toNat < 5)
  | .ftoi _ r _ _ f => roundNamed r && formatNamed f
  | .itof _ _ _ f => formatNamed f
  | .stkget _ _ _ => true
  | .stkset _ _ _ => true
  | .rng32 _ _ _ _ => true
  | .rngu _ _ _ _ => true
  | .rngg _ _ _ _ => true
  | .draw _ _ _ _ => true
  | .ld _ z x _ _ _ _ _ => !(x == 1#1 && decide (z.toNat ≥ 2))
  | .ldq _ _ _ _ _ _ => true
  | .ldf _ f _ _ _ _ => formatNamed f
  | .st _ _ _ _ _ _ => true
  | .stq _ _ _ _ => true
  | .stfF32 _ r _ _ _ => roundNamed r
  | .stfBf16 _ r _ _ _ => roundNamed r
  | .stfF16 _ r _ _ _ => roundNamed r
  | .stfE4m3 _ r _ _ _ => roundNamed r
  | .stfE5m2 _ r _ _ _ => roundNamed r
  | .stfE2m1 _ r _ _ _ => roundNamed r
  | .stimg _ _ _ _ => true
  | .ldimg _ _ _ _ _ => true
  | .ldfe _ _ _ _ _ _ => true
  | .stfe _ _ _ _ _ => true
  | .stcmp _ _ _ _ _ => true
  | .atomAdd _ _ _ _ _ => true
  | .atomMinI _ _ _ _ _ => true
  | .atomMaxI _ _ _ _ _ => true
  | .atomMinN _ _ _ _ _ => true
  | .atomMaxN _ _ _ _ _ => true
  | .atomAnd _ _ _ _ _ => true
  | .atomOr _ _ _ _ _ => true
  | .atomXor _ _ _ _ _ => true
  | .atomExch _ _ _ _ _ => true
  | .atomCas _ _ _ _ _ => true
  | .atomAddW _ _ _ _ _ => true
  | .atomFadd _ _ _ _ _ => true
  | .redAdd _ _ _ _ => true
  | .redMinI _ _ _ _ => true
  | .redMaxI _ _ _ _ => true
  | .redMinN _ _ _ _ => true
  | .redMaxN _ _ _ _ => true
  | .redAnd _ _ _ _ => true
  | .redOr _ _ _ _ => true
  | .redXor _ _ _ _ => true
  | .redAddW _ _ _ _ => true
  | .redFadd _ _ _ _ => true
  | .fence _ m _ => decide (m.toNat ≤ 4)
  | .pftch _ _ _ => true
  | .cwb _ _ _ => true
  | .cinv _ _ _ => true
  | .cwbi _ _ _ => true
  | .czero _ _ _ => true
  | .pin _ _ _ _ => true
  | .unpin _ _ => true
  | .ldg _ _ _ _ => true
  | .stg _ _ _ _ => true
  | .pgalloc _ _ _ _ => true
  | .pgshare _ _ _ _ => true
  | .pgfree _ _ _ _ => true
  | .pginfo _ _ _ => true
  | .pgrsv _ _ _ => true
  | .copy _ b _ _ _ _ _ n => !(n == 1#1) || b == 0#6
  | .copyt _ b _ _ _ n => !(n == 1#1) || b == 0#6
  | .gath _ b _ _ _ _ _ n => !(n == 1#1) || b == 0#6
  | .scat _ b _ _ _ _ _ n => !(n == 1#1) || b == 0#6
  | .copyr _ b _ _ _ c n => decide (c.toNat ≤ 4) && (!(n == 1#1) || b == 0#6)
  | .waite _ _ _ => true
  | .qpost _ _ _ _ _ => true
  | .binit _ _ _ => true
  | .barv _ _ => true
  | .barvPass _ _ => true
  | .barvExpect _ _ _ => true
  | .bwait _ _ _ => true
  | .btest _ _ _ _ => true
  | .barg _ => true
  | .bargCount _ _ => true
  | .pnset _ _ _ => true
  | .pnmin _ _ _ => true
  | .pnmax _ _ _ => true
  | .pnrd _ _ _ => true
  | .tspawn _ _ _ => true
  | .trange _ _ _ _ => true
  | .tclaim _ _ _ => true
  | .tflush _ => true
  | .acqx _ => true
  | .relx _ => true
  | .trap _ _ => true
  | .tretResume _ => true
  | .tretSkip _ => true
  | .tretRetire _ => true
  | .smov _ _ _ => true
  | .sset _ _ _ => true
  | .halt _ => true
  | .jmp _ _ => true
  | .brc _ _ _ _ => true
  | .brx _ _ => true
  | .call _ _ => true
  | .exit _ _ _ => true
  | .mma _ m _ _ _ _ _ => decide (m.toNat ≤ 4)
  | .mmas _ m _ _ _ _ _ => decide (m.toNat ≤ 3)
  | .mmax _ m _ _ _ _ _ => formatNamed m
  | .mzero _ _ _ _ => true
  | .mldc _ _ _ k _ => formatNamed k
  | .mstc _ _ _ r k _ => formatNamed k && roundNamed r
  | .mcopy _ _ _ _ => true
  | .mscale _ _ _ _ => true
  | .mdep _ _ _ => true
  | .mstat _ _ k => k != 3#2
  | .mstatProg _ _ _ => true
  | .mrel _ _ _ => true
  | .msmx _ _ _ _ => true
  | .msmf _ _ _ => true
  | .mrd _ _ _ _ => true
  | .mwr _ _ _ _ => true
  | .illegalInstruction => true
  | .peerErrorAnswer kind _ _ => decide (kind < 3)

end Sys2Proof
end

