-- ==== Sys2Proof/Decode.lean ====
section
/-! DEFINITION. The decoder and the encoder, from the formats and the opcode map of 04_encoding R71 to R78 and R87 step 1.
Both read one table of rows; a row lists the segments of a word from bit 0 upward. What builds an instruction is marked
noncomputable only because Lean's compiler lays out no constructor with arguments beyond the 244th; its kernel evaluates
all of it. -/

namespace Sys2Proof

/-- A segment of a word: so many bits that hold a fixed value, or a field of so many bits. -/
inductive Seg where
  | fix (w v : Nat)
  | fld (w : Nat)
  deriving DecidableEq, Repr

/-- A row of the encoding table: its segments from bit 0 upward, and the instruction its field values make. -/
structure Row where
  segs : List Seg
  build : List Nat → Option Instr

/-- The word that holds the field values in the fields and the fixed values elsewhere. -/
def packSegs : List Seg → List Nat → Nat
  | [], _ => 0
  | .fix w v :: rest, xs => v % 2 ^ w + 2 ^ w * packSegs rest xs
  | .fld w :: rest, x :: xs => x % 2 ^ w + 2 ^ w * packSegs rest xs
  | .fld w :: rest, [] => 2 ^ w * packSegs rest []

/-- The field values of a word that has the fixed values of the segments. -/
def unpackSegs : List Seg → Nat → Option (List Nat)
  | [], _ => some []
  | .fix w v :: rest, x => if x % 2 ^ w = v then unpackSegs rest (x / 2 ^ w) else none
  | .fld w :: rest, x => (unpackSegs rest (x / 2 ^ w)).map (x % 2 ^ w :: ·)

/-- The width of a word of these segments. -/
def segsWidth : List Seg → Nat
  | [] => 0
  | .fix w _ :: rest => w + segsWidth rest
  | .fld w :: rest => w + segsWidth rest

/-- Rows 0 to 23 of the encoding table, from MOV_16 to IMAX (R74 to R78 and the rule of each row). -/
noncomputable def rows0 : List Row := [
  ⟨[.fix 6 0, .fld 6, .fld 4], fun
    | [d, a] => some (.mov16 (BitVec.ofNat 6 d) (BitVec.ofNat 4 a))
    | _ => none⟩,
  ⟨[.fix 6 4, .fld 6, .fld 4], fun
    | [d, a] => some (.iadd16 (BitVec.ofNat 6 d) (BitVec.ofNat 4 a))
    | _ => none⟩,
  ⟨[.fix 6 8, .fld 6, .fld 4], fun
    | [d, a] => some (.isub16 (BitVec.ofNat 6 d) (BitVec.ofNat 4 a))
    | _ => none⟩,
  ⟨[.fix 6 12, .fld 6, .fld 4], fun
    | [d, a] => some (.imul16 (BitVec.ofNat 6 d) (BitVec.ofNat 4 a))
    | _ => none⟩,
  ⟨[.fix 6 16, .fld 6, .fld 4], fun
    | [d, a] => some (.and16 (BitVec.ofNat 6 d) (BitVec.ofNat 4 a))
    | _ => none⟩,
  ⟨[.fix 6 20, .fld 6, .fld 4], fun
    | [d, a] => some (.or16 (BitVec.ofNat 6 d) (BitVec.ofNat 4 a))
    | _ => none⟩,
  ⟨[.fix 6 24, .fld 6, .fld 4], fun
    | [d, a] => some (.xor16 (BitVec.ofNat 6 d) (BitVec.ofNat 4 a))
    | _ => none⟩,
  ⟨[.fix 6 28, .fld 6, .fld 4], fun
    | [d, a] => some (.shl16 (BitVec.ofNat 6 d) (BitVec.ofNat 4 a))
    | _ => none⟩,
  ⟨[.fix 6 32, .fld 6, .fld 4], fun
    | [d, a] => some (.shr16 (BitVec.ofNat 6 d) (BitVec.ofNat 4 a))
    | _ => none⟩,
  ⟨[.fix 6 36, .fld 6, .fld 4], fun
    | [d, a] => some (.sra16 (BitVec.ofNat 6 d) (BitVec.ofNat 4 a))
    | _ => none⟩,
  ⟨[.fix 6 40, .fld 6, .fld 4], fun
    | [d, a] => some (.imin16 (BitVec.ofNat 6 d) (BitVec.ofNat 4 a))
    | _ => none⟩,
  ⟨[.fix 6 44, .fld 6, .fld 4], fun
    | [d, a] => some (.imax16 (BitVec.ofNat 6 d) (BitVec.ofNat 4 a))
    | _ => none⟩,
  ⟨[.fix 6 48, .fld 6, .fld 4], fun
    | [d, a] => some (.fadd16 (BitVec.ofNat 6 d) (BitVec.ofNat 4 a))
    | _ => none⟩,
  ⟨[.fix 6 52, .fld 6, .fld 4], fun
    | [d, a] => some (.fsub16 (BitVec.ofNat 6 d) (BitVec.ofNat 4 a))
    | _ => none⟩,
  ⟨[.fix 6 56, .fld 6, .fld 4], fun
    | [d, a] => some (.fmul16 (BitVec.ofNat 6 d) (BitVec.ofNat 4 a))
    | _ => none⟩,
  ⟨[.fix 6 60, .fld 6, .fld 4], fun
    | [d, a] => some (.fmax16 (BitVec.ofNat 6 d) (BitVec.ofNat 4 a))
    | _ => none⟩,
  ⟨[.fix 5 2, .fld 4, .fix 7 0], fun
    | [n] => if n = 0 then some .nop else some (.stall (BitVec.ofNat 4 n))
    | _ => none⟩,
  ⟨[.fix 5 10, .fld 3, .fix 8 0], fun
    | [m] => some (.wait (BitVec.ofNat 3 m))
    | _ => none⟩,
  ⟨[.fix 16 14], fun
    | [] => some (.yield)
    | _ => none⟩,
  ⟨[.fix 5 18, .fld 11], fun
    | [c] => some (.brk (BitVec.ofNat 11 c))
    | _ => none⟩,
  ⟨[.fix 1 1, .fld 2, .fix 11 1, .fld 6, .fld 6, .fld 6], fun
    | [s, d, a, b] => some (.iadd (BitVec.ofNat 2 s) (BitVec.ofNat 6 d) (BitVec.ofNat 6 a) (BitVec.ofNat 6 b))
    | _ => none⟩,
  ⟨[.fix 1 1, .fld 2, .fix 11 129, .fld 6, .fld 6, .fld 6], fun
    | [s, d, a, b] => some (.isub (BitVec.ofNat 2 s) (BitVec.ofNat 6 d) (BitVec.ofNat 6 a) (BitVec.ofNat 6 b))
    | _ => none⟩,
  ⟨[.fix 1 1, .fld 2, .fix 11 257, .fld 6, .fld 6, .fld 6], fun
    | [s, d, a, b] => some (.imin (BitVec.ofNat 2 s) (BitVec.ofNat 6 d) (BitVec.ofNat 6 a) (BitVec.ofNat 6 b))
    | _ => none⟩,
  ⟨[.fix 1 1, .fld 2, .fix 11 385, .fld 6, .fld 6, .fld 6], fun
    | [s, d, a, b] => some (.imax (BitVec.ofNat 2 s) (BitVec.ofNat 6 d) (BitVec.ofNat 6 a) (BitVec.ofNat 6 b))
    | _ => none⟩]

/-- Rows 24 to 47 of the encoding table, from NMIN to SRA (R74 to R78 and the rule of each row). -/
noncomputable def rows1 : List Row := [
  ⟨[.fix 1 1, .fld 2, .fix 11 513, .fld 6, .fld 6, .fld 6], fun
    | [s, d, a, b] => some (.nmin (BitVec.ofNat 2 s) (BitVec.ofNat 6 d) (BitVec.ofNat 6 a) (BitVec.ofNat 6 b))
    | _ => none⟩,
  ⟨[.fix 1 1, .fld 2, .fix 11 641, .fld 6, .fld 6, .fld 6], fun
    | [s, d, a, b] => some (.nmax (BitVec.ofNat 2 s) (BitVec.ofNat 6 d) (BitVec.ofNat 6 a) (BitVec.ofNat 6 b))
    | _ => none⟩,
  ⟨[.fix 1 1, .fld 2, .fix 11 769, .fld 6, .fld 6, .fix 6 0], fun
    | [s, d, a] => some (.iabs (BitVec.ofNat 2 s) (BitVec.ofNat 6 d) (BitVec.ofNat 6 a))
    | _ => none⟩,
  ⟨[.fix 1 1, .fld 2, .fix 11 897, .fld 6, .fld 6, .fix 6 0], fun
    | [s, d, a] => some (.ineg (BitVec.ofNat 2 s) (BitVec.ofNat 6 d) (BitVec.ofNat 6 a))
    | _ => none⟩,
  ⟨[.fix 1 1, .fld 2, .fix 11 1025, .fld 6, .fld 6, .fld 6], fun
    | [s, d, a, b] => some (.iaddW (BitVec.ofNat 2 s) (BitVec.ofNat 6 d) (BitVec.ofNat 6 a) (BitVec.ofNat 6 b))
    | _ => none⟩,
  ⟨[.fix 1 1, .fld 2, .fix 11 1153, .fld 6, .fld 6, .fld 6], fun
    | [s, d, a, b] => some (.isubW (BitVec.ofNat 2 s) (BitVec.ofNat 6 d) (BitVec.ofNat 6 a) (BitVec.ofNat 6 b))
    | _ => none⟩,
  ⟨[.fix 1 1, .fld 2, .fix 11 1281, .fld 6, .fld 6, .fld 6], fun
    | [s, d, a, b] => some (.iadds (BitVec.ofNat 2 s) (BitVec.ofNat 6 d) (BitVec.ofNat 6 a) (BitVec.ofNat 6 b))
    | _ => none⟩,
  ⟨[.fix 1 1, .fld 2, .fix 11 1409, .fld 6, .fld 6, .fld 6], fun
    | [s, d, a, b] => some (.nadds (BitVec.ofNat 2 s) (BitVec.ofNat 6 d) (BitVec.ofNat 6 a) (BitVec.ofNat 6 b))
    | _ => none⟩,
  ⟨[.fix 1 1, .fld 2, .fix 11 2, .fld 6, .fld 6, .fld 6], fun
    | [s, d, a, b] => some (.imul (BitVec.ofNat 2 s) (BitVec.ofNat 6 d) (BitVec.ofNat 6 a) (BitVec.ofNat 6 b))
    | _ => none⟩,
  ⟨[.fix 1 1, .fld 2, .fix 11 130, .fld 6, .fld 6, .fld 6], fun
    | [s, d, a, b] => some (.imulh (BitVec.ofNat 2 s) (BitVec.ofNat 6 d) (BitVec.ofNat 6 a) (BitVec.ofNat 6 b))
    | _ => none⟩,
  ⟨[.fix 1 1, .fld 2, .fix 11 258, .fld 6, .fld 6, .fld 6], fun
    | [s, d, a, b] => some (.nmulh (BitVec.ofNat 2 s) (BitVec.ofNat 6 d) (BitVec.ofNat 6 a) (BitVec.ofNat 6 b))
    | _ => none⟩,
  ⟨[.fix 1 1, .fld 2, .fix 11 386, .fld 6, .fld 6, .fld 6], fun
    | [s, d, a, b] => some (.imad (BitVec.ofNat 2 s) (BitVec.ofNat 6 d) (BitVec.ofNat 6 a) (BitVec.ofNat 6 b))
    | _ => none⟩,
  ⟨[.fix 1 1, .fld 2, .fix 11 514, .fld 6, .fld 6, .fld 6], fun
    | [s, d, a, b] => some (.imadW (BitVec.ofNat 2 s) (BitVec.ofNat 6 d) (BitVec.ofNat 6 a) (BitVec.ofNat 6 b))
    | _ => none⟩,
  ⟨[.fix 1 1, .fld 2, .fix 11 642, .fld 6, .fld 6, .fld 6], fun
    | [s, d, a, b] => some (.idot4 (BitVec.ofNat 2 s) (BitVec.ofNat 6 d) (BitVec.ofNat 6 a) (BitVec.ofNat 6 b))
    | _ => none⟩,
  ⟨[.fix 1 1, .fld 2, .fix 11 770, .fld 6, .fld 6, .fld 6], fun
    | [s, d, a, b] => some (.ndot4 (BitVec.ofNat 2 s) (BitVec.ofNat 6 d) (BitVec.ofNat 6 a) (BitVec.ofNat 6 b))
    | _ => none⟩,
  ⟨[.fix 1 1, .fld 2, .fix 11 3, .fld 6, .fld 6, .fld 6], fun
    | [s, d, a, b] => some (.and (BitVec.ofNat 2 s) (BitVec.ofNat 6 d) (BitVec.ofNat 6 a) (BitVec.ofNat 6 b))
    | _ => none⟩,
  ⟨[.fix 1 1, .fld 2, .fix 11 131, .fld 6, .fld 6, .fld 6], fun
    | [s, d, a, b] => some (.or (BitVec.ofNat 2 s) (BitVec.ofNat 6 d) (BitVec.ofNat 6 a) (BitVec.ofNat 6 b))
    | _ => none⟩,
  ⟨[.fix 1 1, .fld 2, .fix 11 259, .fld 6, .fld 6, .fld 6], fun
    | [s, d, a, b] => some (.xor (BitVec.ofNat 2 s) (BitVec.ofNat 6 d) (BitVec.ofNat 6 a) (BitVec.ofNat 6 b))
    | _ => none⟩,
  ⟨[.fix 1 1, .fld 2, .fix 11 387, .fld 6, .fld 6, .fld 6], fun
    | [s, d, a, b] => some (.andn (BitVec.ofNat 2 s) (BitVec.ofNat 6 d) (BitVec.ofNat 6 a) (BitVec.ofNat 6 b))
    | _ => none⟩,
  ⟨[.fix 1 1, .fld 2, .fix 11 515, .fld 6, .fld 6, .fld 6], fun
    | [s, d, a, b] => some (.orn (BitVec.ofNat 2 s) (BitVec.ofNat 6 d) (BitVec.ofNat 6 a) (BitVec.ofNat 6 b))
    | _ => none⟩,
  ⟨[.fix 1 1, .fld 2, .fix 11 643, .fld 6, .fld 6, .fix 6 0], fun
    | [s, d, a] => some (.not (BitVec.ofNat 2 s) (BitVec.ofNat 6 d) (BitVec.ofNat 6 a))
    | _ => none⟩,
  ⟨[.fix 1 1, .fld 2, .fix 11 4, .fld 6, .fld 6, .fld 6], fun
    | [s, d, a, b] => some (.shl (BitVec.ofNat 2 s) (BitVec.ofNat 6 d) (BitVec.ofNat 6 a) (BitVec.ofNat 6 b))
    | _ => none⟩,
  ⟨[.fix 1 1, .fld 2, .fix 11 132, .fld 6, .fld 6, .fld 6], fun
    | [s, d, a, b] => some (.shr (BitVec.ofNat 2 s) (BitVec.ofNat 6 d) (BitVec.ofNat 6 a) (BitVec.ofNat 6 b))
    | _ => none⟩,
  ⟨[.fix 1 1, .fld 2, .fix 11 260, .fld 6, .fld 6, .fld 6], fun
    | [s, d, a, b] => some (.sra (BitVec.ofNat 2 s) (BitVec.ofNat 6 d) (BitVec.ofNat 6 a) (BitVec.ofNat 6 b))
    | _ => none⟩]

/-- Rows 48 to 71 of the encoding table, from ROTL to ICMP (R74 to R78 and the rule of each row). -/
noncomputable def rows2 : List Row := [
  ⟨[.fix 1 1, .fld 2, .fix 11 388, .fld 6, .fld 6, .fld 6], fun
    | [s, d, a, b] => some (.rotl (BitVec.ofNat 2 s) (BitVec.ofNat 6 d) (BitVec.ofNat 6 a) (BitVec.ofNat 6 b))
    | _ => none⟩,
  ⟨[.fix 1 1, .fld 2, .fix 11 516, .fld 6, .fld 6, .fld 6], fun
    | [s, d, a, b] => some (.shlW (BitVec.ofNat 2 s) (BitVec.ofNat 6 d) (BitVec.ofNat 6 a) (BitVec.ofNat 6 b))
    | _ => none⟩,
  ⟨[.fix 1 1, .fld 2, .fix 11 644, .fld 6, .fld 6, .fld 6], fun
    | [s, d, a, b] => some (.shrW (BitVec.ofNat 2 s) (BitVec.ofNat 6 d) (BitVec.ofNat 6 a) (BitVec.ofNat 6 b))
    | _ => none⟩,
  ⟨[.fix 1 1, .fld 2, .fix 11 772, .fld 6, .fld 6, .fld 6], fun
    | [s, d, a, b] => some (.sraW (BitVec.ofNat 2 s) (BitVec.ofNat 6 d) (BitVec.ofNat 6 a) (BitVec.ofNat 6 b))
    | _ => none⟩,
  ⟨[.fix 1 1, .fld 2, .fix 11 5, .fld 6, .fld 6, .fix 6 0], fun
    | [s, d, a] => some (.popc (BitVec.ofNat 2 s) (BitVec.ofNat 6 d) (BitVec.ofNat 6 a))
    | _ => none⟩,
  ⟨[.fix 1 1, .fld 2, .fix 11 133, .fld 6, .fld 6, .fix 6 0], fun
    | [s, d, a] => some (.clz (BitVec.ofNat 2 s) (BitVec.ofNat 6 d) (BitVec.ofNat 6 a))
    | _ => none⟩,
  ⟨[.fix 1 1, .fld 2, .fix 11 261, .fld 6, .fld 6, .fix 6 0], fun
    | [s, d, a] => some (.ctz (BitVec.ofNat 2 s) (BitVec.ofNat 6 d) (BitVec.ofNat 6 a))
    | _ => none⟩,
  ⟨[.fix 1 1, .fld 2, .fix 11 389, .fld 6, .fld 6, .fix 6 0], fun
    | [s, d, a] => some (.brev (BitVec.ofNat 2 s) (BitVec.ofNat 6 d) (BitVec.ofNat 6 a))
    | _ => none⟩,
  ⟨[.fix 1 1, .fld 2, .fix 11 517, .fld 6, .fld 6, .fld 6], fun
    | [s, d, a, b] => some (.bfei (BitVec.ofNat 2 s) (BitVec.ofNat 6 d) (BitVec.ofNat 6 a) (BitVec.ofNat 6 b))
    | _ => none⟩,
  ⟨[.fix 1 1, .fld 2, .fix 11 645, .fld 6, .fld 6, .fld 6], fun
    | [s, d, a, b] => some (.bfen (BitVec.ofNat 2 s) (BitVec.ofNat 6 d) (BitVec.ofNat 6 a) (BitVec.ofNat 6 b))
    | _ => none⟩,
  ⟨[.fix 1 1, .fld 2, .fix 11 773, .fld 6, .fld 6, .fld 6], fun
    | [s, d, a, b] => some (.bfi (BitVec.ofNat 2 s) (BitVec.ofNat 6 d) (BitVec.ofNat 6 a) (BitVec.ofNat 6 b))
    | _ => none⟩,
  ⟨[.fix 1 1, .fld 2, .fix 11 901, .fld 6, .fix 6 0, .fld 6], fun
    | [s, d, b] => some (.bmsk (BitVec.ofNat 2 s) (BitVec.ofNat 6 d) (BitVec.ofNat 6 b))
    | _ => none⟩,
  ⟨[.fix 1 1, .fld 2, .fix 7 6, .fld 6, .fld 6, .fld 10], fun
    | [s, d, a, i] => some (.iaddi (BitVec.ofNat 2 s) (BitVec.ofNat 6 d) (BitVec.ofNat 6 a) (BitVec.ofNat 10 i))
    | _ => none⟩,
  ⟨[.fix 1 1, .fld 2, .fix 7 7, .fld 6, .fld 6, .fld 10], fun
    | [s, d, a, i] => some (.andi (BitVec.ofNat 2 s) (BitVec.ofNat 6 d) (BitVec.ofNat 6 a) (BitVec.ofNat 10 i))
    | _ => none⟩,
  ⟨[.fix 1 1, .fld 2, .fix 7 8, .fld 6, .fld 6, .fld 5, .fix 5 0], fun
    | [s, d, a, n] => some (.shli (BitVec.ofNat 2 s) (BitVec.ofNat 6 d) (BitVec.ofNat 6 a) (BitVec.ofNat 5 n))
    | _ => none⟩,
  ⟨[.fix 1 1, .fld 2, .fix 7 9, .fld 6, .fld 6, .fld 5, .fix 5 0], fun
    | [s, d, a, n] => some (.shri (BitVec.ofNat 2 s) (BitVec.ofNat 6 d) (BitVec.ofNat 6 a) (BitVec.ofNat 5 n))
    | _ => none⟩,
  ⟨[.fix 1 1, .fld 2, .fix 7 10, .fld 6, .fld 6, .fld 5, .fix 5 0], fun
    | [s, d, a, n] => some (.srai (BitVec.ofNat 2 s) (BitVec.ofNat 6 d) (BitVec.ofNat 6 a) (BitVec.ofNat 5 n))
    | _ => none⟩,
  ⟨[.fix 1 1, .fld 2, .fix 7 11, .fld 6, .fld 16], fun
    | [s, d, i] => some (.ldi (BitVec.ofNat 2 s) (BitVec.ofNat 6 d) (BitVec.ofNat 16 i))
    | _ => none⟩,
  ⟨[.fix 1 1, .fld 2, .fix 7 12, .fld 6, .fld 16], fun
    | [s, d, i] => some (.ldih (BitVec.ofNat 2 s) (BitVec.ofNat 6 d) (BitVec.ofNat 16 i))
    | _ => none⟩,
  ⟨[.fix 1 1, .fld 2, .fix 11 13, .fld 6, .fld 6, .fix 6 0], fun
    | [s, d, a] => some (.mov (BitVec.ofNat 2 s) (BitVec.ofNat 6 d) (BitVec.ofNat 6 a))
    | _ => none⟩,
  ⟨[.fix 1 1, .fld 2, .fix 11 141, .fld 6, .fld 6, .fix 6 0], fun
    | [s, d, a] => some (.xmov (BitVec.ofNat 2 s) (BitVec.ofNat 6 d) (BitVec.ofNat 6 a))
    | _ => none⟩,
  ⟨[.fix 1 1, .fld 2, .fix 11 269, .fld 6, .fld 6, .fix 6 0], fun
    | [s, d, a] => some (.xset (BitVec.ofNat 2 s) (BitVec.ofNat 6 d) (BitVec.ofNat 6 a))
    | _ => none⟩,
  ⟨[.fix 1 1, .fld 2, .fix 7 14, .fld 7, .fld 6, .fld 6, .fld 1, .fix 2 0], fun
    | [s, p, d, a, v] => some (.sel (BitVec.ofNat 2 s) (BitVec.ofNat 7 p) (BitVec.ofNat 6 d) (BitVec.ofNat 6 a) (BitVec.ofNat 1 v))
    | _ => none⟩,
  ⟨[.fix 1 1, .fld 2, .fix 7 15, .fld 3, .fld 7, .fld 6, .fld 6], fun
    | [s, c, p, a, b] => some (.icmp (BitVec.ofNat 2 s) (BitVec.ofNat 3 c) (BitVec.ofNat 7 p) (BitVec.ofNat 6 a) (BitVec.ofNat 6 b))
    | _ => none⟩]

/-- Rows 72 to 95 of the encoding table, from NCMP to GLDI (R74 to R78 and the rule of each row). -/
noncomputable def rows3 : List Row := [
  ⟨[.fix 1 1, .fld 2, .fix 7 16, .fld 3, .fld 7, .fld 6, .fld 6], fun
    | [s, c, p, a, b] => some (.ncmp (BitVec.ofNat 2 s) (BitVec.ofNat 3 c) (BitVec.ofNat 7 p) (BitVec.ofNat 6 a) (BitVec.ofNat 6 b))
    | _ => none⟩,
  ⟨[.fix 1 1, .fld 2, .fix 7 17, .fld 3, .fld 7, .fld 6, .fld 6], fun
    | [s, c, p, a, b] => some (.fcmp (BitVec.ofNat 2 s) (BitVec.ofNat 3 c) (BitVec.ofNat 7 p) (BitVec.ofNat 6 a) (BitVec.ofNat 6 b))
    | _ => none⟩,
  ⟨[.fix 1 1, .fld 2, .fix 10 18, .fld 7, .fld 7, .fld 1, .fix 4 0], fun
    | [s, d, q, n] => some (.pmov (BitVec.ofNat 2 s) (BitVec.ofNat 7 d) (BitVec.ofNat 7 q) (BitVec.ofNat 1 n))
    | _ => none⟩,
  ⟨[.fix 1 1, .fld 2, .fix 10 146, .fld 7, .fld 7, .fld 1, .fix 4 0], fun
    | [s, d, q, n] => some (.pand (BitVec.ofNat 2 s) (BitVec.ofNat 7 d) (BitVec.ofNat 7 q) (BitVec.ofNat 1 n))
    | _ => none⟩,
  ⟨[.fix 1 1, .fld 2, .fix 10 274, .fld 7, .fld 7, .fld 1, .fix 4 0], fun
    | [s, d, q, n] => some (.por (BitVec.ofNat 2 s) (BitVec.ofNat 7 d) (BitVec.ofNat 7 q) (BitVec.ofNat 1 n))
    | _ => none⟩,
  ⟨[.fix 1 1, .fld 2, .fix 10 402, .fld 7, .fld 7, .fld 1, .fix 4 0], fun
    | [s, d, q, n] => some (.pxor (BitVec.ofNat 2 s) (BitVec.ofNat 7 d) (BitVec.ofNat 7 q) (BitVec.ofNat 1 n))
    | _ => none⟩,
  ⟨[.fix 1 1, .fld 2, .fix 10 530, .fld 7, .fix 7 0, .fld 1, .fix 4 0], fun
    | [s, d, k] => some (.pset (BitVec.ofNat 2 s) (BitVec.ofNat 7 d) (BitVec.ofNat 1 k))
    | _ => none⟩,
  ⟨[.fix 1 1, .fld 2, .fix 7 19, .fld 7, .fld 6, .fix 9 0], fun
    | [s, p, d] => some (.ptov (BitVec.ofNat 2 s) (BitVec.ofNat 7 p) (BitVec.ofNat 6 d))
    | _ => none⟩,
  ⟨[.fix 1 1, .fld 2, .fix 7 19, .fld 7, .fix 6 0, .fld 6, .fix 3 1], fun
    | [s, p, a] => some (.vtop (BitVec.ofNat 2 s) (BitVec.ofNat 7 p) (BitVec.ofNat 6 a))
    | _ => none⟩,
  ⟨[.fix 1 1, .fld 2, .fix 11 20, .fld 6, .fld 6, .fld 6], fun
    | [s, d, a, b] => some (.gadd (BitVec.ofNat 2 s) (BitVec.ofNat 6 d) (BitVec.ofNat 6 a) (BitVec.ofNat 6 b))
    | _ => none⟩,
  ⟨[.fix 1 1, .fld 2, .fix 11 148, .fld 6, .fld 6, .fld 6], fun
    | [s, d, a, b] => some (.gsub (BitVec.ofNat 2 s) (BitVec.ofNat 6 d) (BitVec.ofNat 6 a) (BitVec.ofNat 6 b))
    | _ => none⟩,
  ⟨[.fix 1 1, .fld 2, .fix 11 276, .fld 6, .fld 6, .fld 6], fun
    | [s, d, a, b] => some (.gmul (BitVec.ofNat 2 s) (BitVec.ofNat 6 d) (BitVec.ofNat 6 a) (BitVec.ofNat 6 b))
    | _ => none⟩,
  ⟨[.fix 1 1, .fld 2, .fix 11 404, .fld 6, .fld 6, .fld 6], fun
    | [s, d, a, b] => some (.gshl (BitVec.ofNat 2 s) (BitVec.ofNat 6 d) (BitVec.ofNat 6 a) (BitVec.ofNat 6 b))
    | _ => none⟩,
  ⟨[.fix 1 1, .fld 2, .fix 11 532, .fld 6, .fld 6, .fld 6], fun
    | [s, d, a, b] => some (.gshr (BitVec.ofNat 2 s) (BitVec.ofNat 6 d) (BitVec.ofNat 6 a) (BitVec.ofNat 6 b))
    | _ => none⟩,
  ⟨[.fix 1 1, .fld 2, .fix 11 660, .fld 6, .fld 6, .fld 6], fun
    | [s, d, a, b] => some (.gand (BitVec.ofNat 2 s) (BitVec.ofNat 6 d) (BitVec.ofNat 6 a) (BitVec.ofNat 6 b))
    | _ => none⟩,
  ⟨[.fix 1 1, .fld 2, .fix 11 788, .fld 6, .fld 6, .fld 6], fun
    | [s, d, a, b] => some (.gor (BitVec.ofNat 2 s) (BitVec.ofNat 6 d) (BitVec.ofNat 6 a) (BitVec.ofNat 6 b))
    | _ => none⟩,
  ⟨[.fix 1 1, .fld 2, .fix 11 916, .fld 6, .fld 6, .fld 6], fun
    | [s, d, a, b] => some (.gmin (BitVec.ofNat 2 s) (BitVec.ofNat 6 d) (BitVec.ofNat 6 a) (BitVec.ofNat 6 b))
    | _ => none⟩,
  ⟨[.fix 1 1, .fld 2, .fix 11 1044, .fld 6, .fld 6, .fld 6], fun
    | [s, d, a, b] => some (.gmax (BitVec.ofNat 2 s) (BitVec.ofNat 6 d) (BitVec.ofNat 6 a) (BitVec.ofNat 6 b))
    | _ => none⟩,
  ⟨[.fix 1 1, .fld 2, .fix 11 21, .fld 6, .fld 6, .fix 6 0], fun
    | [s, d, a] => some (.gmov (BitVec.ofNat 2 s) (BitVec.ofNat 6 d) (BitVec.ofNat 6 a))
    | _ => none⟩,
  ⟨[.fix 1 1, .fld 2, .fix 11 149, .fld 6, .fix 6 0, .fld 6], fun
    | [s, d, b] => some (.gfrom (BitVec.ofNat 2 s) (BitVec.ofNat 6 d) (BitVec.ofNat 6 b))
    | _ => none⟩,
  ⟨[.fix 1 1, .fld 2, .fix 11 277, .fld 6, .fix 6 0, .fld 6], fun
    | [s, d, b] => some (.gfromw (BitVec.ofNat 2 s) (BitVec.ofNat 6 d) (BitVec.ofNat 6 b))
    | _ => none⟩,
  ⟨[.fix 1 1, .fld 2, .fix 11 405, .fld 6, .fld 6, .fix 6 0], fun
    | [s, d, a] => some (.gto (BitVec.ofNat 2 s) (BitVec.ofNat 6 d) (BitVec.ofNat 6 a))
    | _ => none⟩,
  ⟨[.fix 1 1, .fld 2, .fix 11 533, .fld 6, .fld 6, .fix 6 0], fun
    | [s, d, a] => some (.gtoh (BitVec.ofNat 2 s) (BitVec.ofNat 6 d) (BitVec.ofNat 6 a))
    | _ => none⟩,
  ⟨[.fix 1 1, .fld 2, .fix 7 22, .fld 6, .fld 16], fun
    | [s, d, i] => some (.gldi (BitVec.ofNat 2 s) (BitVec.ofNat 6 d) (BitVec.ofNat 16 i))
    | _ => none⟩]

/-- Rows 96 to 119 of the encoding table, from GADDI to CMAXI (R74 to R78 and the rule of each row). -/
noncomputable def rows4 : List Row := [
  ⟨[.fix 1 1, .fld 2, .fix 7 23, .fld 6, .fld 6, .fld 10], fun
    | [s, d, a, i] => some (.gaddi (BitVec.ofNat 2 s) (BitVec.ofNat 6 d) (BitVec.ofNat 6 a) (BitVec.ofNat 10 i))
    | _ => none⟩,
  ⟨[.fix 1 1, .fld 2, .fix 7 24, .fld 3, .fld 7, .fld 6, .fld 6], fun
    | [s, c, p, a, b] => some (.gcmp (BitVec.ofNat 2 s) (BitVec.ofNat 3 c) (BitVec.ofNat 7 p) (BitVec.ofNat 6 a) (BitVec.ofNat 6 b))
    | _ => none⟩,
  ⟨[.fix 1 1, .fld 2, .fix 11 25, .fld 6, .fld 6, .fld 6], fun
    | [s, d, a, b] => some (.rshf (BitVec.ofNat 2 s) (BitVec.ofNat 6 d) (BitVec.ofNat 6 a) (BitVec.ofNat 6 b))
    | _ => none⟩,
  ⟨[.fix 1 1, .fld 2, .fix 11 153, .fld 6, .fld 6, .fld 6], fun
    | [s, d, a, b] => some (.rshfu (BitVec.ofNat 2 s) (BitVec.ofNat 6 d) (BitVec.ofNat 6 a) (BitVec.ofNat 6 b))
    | _ => none⟩,
  ⟨[.fix 1 1, .fld 2, .fix 11 281, .fld 6, .fld 6, .fld 6], fun
    | [s, d, a, b] => some (.rshfd (BitVec.ofNat 2 s) (BitVec.ofNat 6 d) (BitVec.ofNat 6 a) (BitVec.ofNat 6 b))
    | _ => none⟩,
  ⟨[.fix 1 1, .fld 2, .fix 11 409, .fld 6, .fld 6, .fld 6], fun
    | [s, d, a, b] => some (.rshfx (BitVec.ofNat 2 s) (BitVec.ofNat 6 d) (BitVec.ofNat 6 a) (BitVec.ofNat 6 b))
    | _ => none⟩,
  ⟨[.fix 1 1, .fld 2, .fix 11 537, .fld 6, .fld 6, .fix 6 0], fun
    | [s, d, a] => some (.qswph (BitVec.ofNat 2 s) (BitVec.ofNat 6 d) (BitVec.ofNat 6 a))
    | _ => none⟩,
  ⟨[.fix 1 1, .fld 2, .fix 11 665, .fld 6, .fld 6, .fix 6 0], fun
    | [s, d, a] => some (.qswpv (BitVec.ofNat 2 s) (BitVec.ofNat 6 d) (BitVec.ofNat 6 a))
    | _ => none⟩,
  ⟨[.fix 1 1, .fld 2, .fix 11 793, .fld 6, .fld 6, .fix 6 0], fun
    | [s, d, a] => some (.qswpd (BitVec.ofNat 2 s) (BitVec.ofNat 6 d) (BitVec.ofNat 6 a))
    | _ => none⟩,
  ⟨[.fix 1 1, .fld 2, .fix 11 921, .fld 6, .fld 6, .fld 6], fun
    | [s, d, a, b] => some (.qbcst (BitVec.ofNat 2 s) (BitVec.ofNat 6 d) (BitVec.ofNat 6 a) (BitVec.ofNat 6 b))
    | _ => none⟩,
  ⟨[.fix 1 1, .fld 2, .fix 11 26, .fld 6, .fld 6, .fix 6 0], fun
    | [s, d, a] => some (.cradd (BitVec.ofNat 2 s) (BitVec.ofNat 6 d) (BitVec.ofNat 6 a))
    | _ => none⟩,
  ⟨[.fix 1 1, .fld 2, .fix 11 154, .fld 6, .fld 6, .fix 6 0], fun
    | [s, d, a] => some (.crmin (BitVec.ofNat 2 s) (BitVec.ofNat 6 d) (BitVec.ofNat 6 a))
    | _ => none⟩,
  ⟨[.fix 1 1, .fld 2, .fix 11 282, .fld 6, .fld 6, .fix 6 0], fun
    | [s, d, a] => some (.crmax (BitVec.ofNat 2 s) (BitVec.ofNat 6 d) (BitVec.ofNat 6 a))
    | _ => none⟩,
  ⟨[.fix 1 1, .fld 2, .fix 11 410, .fld 6, .fld 6, .fix 6 0], fun
    | [s, d, a] => some (.crand (BitVec.ofNat 2 s) (BitVec.ofNat 6 d) (BitVec.ofNat 6 a))
    | _ => none⟩,
  ⟨[.fix 1 1, .fld 2, .fix 11 538, .fld 6, .fld 6, .fix 6 0], fun
    | [s, d, a] => some (.cror (BitVec.ofNat 2 s) (BitVec.ofNat 6 d) (BitVec.ofNat 6 a))
    | _ => none⟩,
  ⟨[.fix 1 1, .fld 2, .fix 11 666, .fld 6, .fld 6, .fix 6 0], fun
    | [s, d, a] => some (.crxor (BitVec.ofNat 2 s) (BitVec.ofNat 6 d) (BitVec.ofNat 6 a))
    | _ => none⟩,
  ⟨[.fix 1 1, .fld 2, .fix 11 794, .fld 6, .fld 6, .fix 6 0], fun
    | [s, d, a] => some (.cscani (BitVec.ofNat 2 s) (BitVec.ofNat 6 d) (BitVec.ofNat 6 a))
    | _ => none⟩,
  ⟨[.fix 1 1, .fld 2, .fix 11 922, .fld 6, .fld 6, .fix 6 0], fun
    | [s, d, a] => some (.cscane (BitVec.ofNat 2 s) (BitVec.ofNat 6 d) (BitVec.ofNat 6 a))
    | _ => none⟩,
  ⟨[.fix 1 1, .fld 2, .fix 11 1050, .fld 6, .fld 6, .fix 6 0], fun
    | [s, d, a] => some (.crfadd (BitVec.ofNat 2 s) (BitVec.ofNat 6 d) (BitVec.ofNat 6 a))
    | _ => none⟩,
  ⟨[.fix 1 1, .fld 2, .fix 11 1178, .fld 6, .fld 6, .fix 6 0], fun
    | [s, d, a] => some (.crfmin (BitVec.ofNat 2 s) (BitVec.ofNat 6 d) (BitVec.ofNat 6 a))
    | _ => none⟩,
  ⟨[.fix 1 1, .fld 2, .fix 11 1306, .fld 6, .fld 6, .fix 6 0], fun
    | [s, d, a] => some (.crfmax (BitVec.ofNat 2 s) (BitVec.ofNat 6 d) (BitVec.ofNat 6 a))
    | _ => none⟩,
  ⟨[.fix 1 1, .fld 2, .fix 11 1434, .fld 6, .fix 12 0], fun
    | [s, d] => some (.crank (BitVec.ofNat 2 s) (BitVec.ofNat 6 d))
    | _ => none⟩,
  ⟨[.fix 1 1, .fld 2, .fix 11 1562, .fld 6, .fix 12 0], fun
    | [s, d] => some (.csize (BitVec.ofNat 2 s) (BitVec.ofNat 6 d))
    | _ => none⟩,
  ⟨[.fix 1 1, .fld 2, .fix 11 1690, .fld 6, .fld 6, .fix 6 0], fun
    | [s, d, a] => some (.cmaxi (BitVec.ofNat 2 s) (BitVec.ofNat 6 d) (BitVec.ofNat 6 a))
    | _ => none⟩]

/-- Rows 120 to 143 of the encoding table, from VANY to FEXP2 (R74 to R78 and the rule of each row). -/
noncomputable def rows5 : List Row := [
  ⟨[.fix 1 1, .fld 2, .fix 10 27, .fld 7, .fld 7, .fld 1, .fix 4 0], fun
    | [s, d, q, n] => some (.vany (BitVec.ofNat 2 s) (BitVec.ofNat 7 d) (BitVec.ofNat 7 q) (BitVec.ofNat 1 n))
    | _ => none⟩,
  ⟨[.fix 1 1, .fld 2, .fix 10 155, .fld 7, .fld 7, .fld 1, .fix 4 0], fun
    | [s, d, q, n] => some (.vall (BitVec.ofNat 2 s) (BitVec.ofNat 7 d) (BitVec.ofNat 7 q) (BitVec.ofNat 1 n))
    | _ => none⟩,
  ⟨[.fix 1 1, .fld 2, .fix 10 283, .fld 7, .fld 7, .fld 1, .fix 4 0], fun
    | [s, d, q, n] => some (.vuni (BitVec.ofNat 2 s) (BitVec.ofNat 7 d) (BitVec.ofNat 7 q) (BitVec.ofNat 1 n))
    | _ => none⟩,
  ⟨[.fix 1 1, .fld 2, .fix 10 411, .fld 7, .fix 12 0], fun
    | [s, d] => some (.celect (BitVec.ofNat 2 s) (BitVec.ofNat 7 d))
    | _ => none⟩,
  ⟨[.fix 1 1, .fld 2, .fix 7 28, .fld 7, .fld 6, .fix 9 0], fun
    | [s, p, d] => some (.vbal (BitVec.ofNat 2 s) (BitVec.ofNat 7 p) (BitVec.ofNat 6 d))
    | _ => none⟩,
  ⟨[.fix 1 1, .fld 2, .fix 7 28, .fld 7, .fld 6, .fix 9 64], fun
    | [s, p, d] => some (.vbalQuad (BitVec.ofNat 2 s) (BitVec.ofNat 7 p) (BitVec.ofNat 6 d))
    | _ => none⟩,
  ⟨[.fix 1 1, .fld 2, .fix 11 29, .fld 6, .fld 6, .fix 6 0], fun
    | [s, d, a] => some (.matchRank (BitVec.ofNat 2 s) (BitVec.ofNat 6 d) (BitVec.ofNat 6 a))
    | _ => none⟩,
  ⟨[.fix 1 1, .fld 2, .fix 7 32, .fld 1, .fld 1, .fix 2 0, .fld 6, .fld 6, .fld 6], fun
    | [s, i, o, d, a, b] => some (.fadd (BitVec.ofNat 2 s) (BitVec.ofNat 1 i) (BitVec.ofNat 1 o) (BitVec.ofNat 6 d) (BitVec.ofNat 6 a) (BitVec.ofNat 6 b))
    | _ => none⟩,
  ⟨[.fix 1 1, .fld 2, .fix 7 32, .fld 1, .fld 1, .fix 2 1, .fld 6, .fld 6, .fld 6], fun
    | [s, i, o, d, a, b] => some (.fsub (BitVec.ofNat 2 s) (BitVec.ofNat 1 i) (BitVec.ofNat 1 o) (BitVec.ofNat 6 d) (BitVec.ofNat 6 a) (BitVec.ofNat 6 b))
    | _ => none⟩,
  ⟨[.fix 1 1, .fld 2, .fix 7 32, .fld 1, .fld 1, .fix 2 2, .fld 6, .fld 6, .fld 6], fun
    | [s, i, o, d, a, b] => some (.fabsd (BitVec.ofNat 2 s) (BitVec.ofNat 1 i) (BitVec.ofNat 1 o) (BitVec.ofNat 6 d) (BitVec.ofNat 6 a) (BitVec.ofNat 6 b))
    | _ => none⟩,
  ⟨[.fix 1 1, .fld 2, .fix 7 33, .fld 1, .fld 1, .fix 2 0, .fld 6, .fld 6, .fld 6], fun
    | [s, i, o, d, a, b] => some (.fmul (BitVec.ofNat 2 s) (BitVec.ofNat 1 i) (BitVec.ofNat 1 o) (BitVec.ofNat 6 d) (BitVec.ofNat 6 a) (BitVec.ofNat 6 b))
    | _ => none⟩,
  ⟨[.fix 1 1, .fld 2, .fix 7 33, .fld 1, .fld 1, .fix 2 1, .fld 6, .fld 6, .fld 6], fun
    | [s, i, o, d, a, b] => some (.ffma (BitVec.ofNat 2 s) (BitVec.ofNat 1 i) (BitVec.ofNat 1 o) (BitVec.ofNat 6 d) (BitVec.ofNat 6 a) (BitVec.ofNat 6 b))
    | _ => none⟩,
  ⟨[.fix 1 1, .fld 2, .fix 7 33, .fld 1, .fld 1, .fix 2 2, .fld 6, .fld 6, .fld 6], fun
    | [s, i, o, d, a, b] => some (.ffms (BitVec.ofNat 2 s) (BitVec.ofNat 1 i) (BitVec.ofNat 1 o) (BitVec.ofNat 6 d) (BitVec.ofNat 6 a) (BitVec.ofNat 6 b))
    | _ => none⟩,
  ⟨[.fix 1 1, .fld 2, .fix 7 33, .fld 1, .fld 1, .fix 2 3, .fld 6, .fld 6, .fld 6], fun
    | [s, i, o, d, a, b] => some (.fnfma (BitVec.ofNat 2 s) (BitVec.ofNat 1 i) (BitVec.ofNat 1 o) (BitVec.ofNat 6 d) (BitVec.ofNat 6 a) (BitVec.ofNat 6 b))
    | _ => none⟩,
  ⟨[.fix 1 1, .fld 2, .fix 7 34, .fld 1, .fld 1, .fix 2 0, .fld 6, .fld 6, .fld 6], fun
    | [s, i, o, d, a, b] => some (.fmin (BitVec.ofNat 2 s) (BitVec.ofNat 1 i) (BitVec.ofNat 1 o) (BitVec.ofNat 6 d) (BitVec.ofNat 6 a) (BitVec.ofNat 6 b))
    | _ => none⟩,
  ⟨[.fix 1 1, .fld 2, .fix 7 34, .fld 1, .fld 1, .fix 2 1, .fld 6, .fld 6, .fld 6], fun
    | [s, i, o, d, a, b] => some (.fmax (BitVec.ofNat 2 s) (BitVec.ofNat 1 i) (BitVec.ofNat 1 o) (BitVec.ofNat 6 d) (BitVec.ofNat 6 a) (BitVec.ofNat 6 b))
    | _ => none⟩,
  ⟨[.fix 1 1, .fld 2, .fix 7 34, .fld 1, .fld 1, .fix 2 2, .fld 6, .fld 6, .fld 6], fun
    | [s, i, o, d, a, b] => some (.fminn (BitVec.ofNat 2 s) (BitVec.ofNat 1 i) (BitVec.ofNat 1 o) (BitVec.ofNat 6 d) (BitVec.ofNat 6 a) (BitVec.ofNat 6 b))
    | _ => none⟩,
  ⟨[.fix 1 1, .fld 2, .fix 7 34, .fld 1, .fld 1, .fix 2 3, .fld 6, .fld 6, .fld 6], fun
    | [s, i, o, d, a, b] => some (.fmaxn (BitVec.ofNat 2 s) (BitVec.ofNat 1 i) (BitVec.ofNat 1 o) (BitVec.ofNat 6 d) (BitVec.ofNat 6 a) (BitVec.ofNat 6 b))
    | _ => none⟩,
  ⟨[.fix 1 1, .fld 2, .fix 7 35, .fld 1, .fld 1, .fix 2 0, .fld 6, .fld 6, .fix 6 0], fun
    | [s, i, o, d, a] => some (.fabs (BitVec.ofNat 2 s) (BitVec.ofNat 1 i) (BitVec.ofNat 1 o) (BitVec.ofNat 6 d) (BitVec.ofNat 6 a))
    | _ => none⟩,
  ⟨[.fix 1 1, .fld 2, .fix 7 35, .fld 1, .fld 1, .fix 2 0, .fld 6, .fld 6, .fix 6 1], fun
    | [s, i, o, d, a] => some (.fneg (BitVec.ofNat 2 s) (BitVec.ofNat 1 i) (BitVec.ofNat 1 o) (BitVec.ofNat 6 d) (BitVec.ofNat 6 a))
    | _ => none⟩,
  ⟨[.fix 1 1, .fld 2, .fix 7 35, .fld 1, .fld 1, .fix 2 0, .fld 6, .fld 6, .fix 6 2], fun
    | [s, i, o, d, a] => some (.frcp (BitVec.ofNat 2 s) (BitVec.ofNat 1 i) (BitVec.ofNat 1 o) (BitVec.ofNat 6 d) (BitVec.ofNat 6 a))
    | _ => none⟩,
  ⟨[.fix 1 1, .fld 2, .fix 7 35, .fld 1, .fld 1, .fix 2 0, .fld 6, .fld 6, .fix 6 3], fun
    | [s, i, o, d, a] => some (.frsq (BitVec.ofNat 2 s) (BitVec.ofNat 1 i) (BitVec.ofNat 1 o) (BitVec.ofNat 6 d) (BitVec.ofNat 6 a))
    | _ => none⟩,
  ⟨[.fix 1 1, .fld 2, .fix 7 35, .fld 1, .fld 1, .fix 2 0, .fld 6, .fld 6, .fix 6 4], fun
    | [s, i, o, d, a] => some (.fsqrt (BitVec.ofNat 2 s) (BitVec.ofNat 1 i) (BitVec.ofNat 1 o) (BitVec.ofNat 6 d) (BitVec.ofNat 6 a))
    | _ => none⟩,
  ⟨[.fix 1 1, .fld 2, .fix 7 35, .fld 1, .fld 1, .fix 2 0, .fld 6, .fld 6, .fix 6 5], fun
    | [s, i, o, d, a] => some (.fexp2 (BitVec.ofNat 2 s) (BitVec.ofNat 1 i) (BitVec.ofNat 1 o) (BitVec.ofNat 6 d) (BitVec.ofNat 6 a))
    | _ => none⟩]

/-- Rows 144 to 167 of the encoding table, from FLOG2 to RNG32 (R74 to R78 and the rule of each row). -/
noncomputable def rows6 : List Row := [
  ⟨[.fix 1 1, .fld 2, .fix 7 35, .fld 1, .fld 1, .fix 2 0, .fld 6, .fld 6, .fix 6 6], fun
    | [s, i, o, d, a] => some (.flog2 (BitVec.ofNat 2 s) (BitVec.ofNat 1 i) (BitVec.ofNat 1 o) (BitVec.ofNat 6 d) (BitVec.ofNat 6 a))
    | _ => none⟩,
  ⟨[.fix 1 1, .fld 2, .fix 7 35, .fld 1, .fld 1, .fix 2 0, .fld 6, .fld 6, .fix 6 7], fun
    | [s, i, o, d, a] => some (.fsin (BitVec.ofNat 2 s) (BitVec.ofNat 1 i) (BitVec.ofNat 1 o) (BitVec.ofNat 6 d) (BitVec.ofNat 6 a))
    | _ => none⟩,
  ⟨[.fix 1 1, .fld 2, .fix 7 35, .fld 1, .fld 1, .fix 2 0, .fld 6, .fld 6, .fix 6 8], fun
    | [s, i, o, d, a] => some (.fcos (BitVec.ofNat 2 s) (BitVec.ofNat 1 i) (BitVec.ofNat 1 o) (BitVec.ofNat 6 d) (BitVec.ofNat 6 a))
    | _ => none⟩,
  ⟨[.fix 1 1, .fld 2, .fix 7 35, .fld 1, .fld 1, .fix 2 0, .fld 6, .fld 6, .fix 6 9], fun
    | [s, i, o, d, a] => some (.ftanh (BitVec.ofNat 2 s) (BitVec.ofNat 1 i) (BitVec.ofNat 1 o) (BitVec.ofNat 6 d) (BitVec.ofNat 6 a))
    | _ => none⟩,
  ⟨[.fix 1 1, .fld 2, .fix 7 35, .fld 1, .fld 1, .fix 2 0, .fld 6, .fld 6, .fix 6 10], fun
    | [s, i, o, d, a] => some (.fsigm (BitVec.ofNat 2 s) (BitVec.ofNat 1 i) (BitVec.ofNat 1 o) (BitVec.ofNat 6 d) (BitVec.ofNat 6 a))
    | _ => none⟩,
  ⟨[.fix 1 1, .fld 2, .fix 7 35, .fld 1, .fld 1, .fix 2 0, .fld 6, .fld 6, .fix 6 11], fun
    | [s, i, o, d, a] => some (.fflr (BitVec.ofNat 2 s) (BitVec.ofNat 1 i) (BitVec.ofNat 1 o) (BitVec.ofNat 6 d) (BitVec.ofNat 6 a))
    | _ => none⟩,
  ⟨[.fix 1 1, .fld 2, .fix 7 35, .fld 1, .fld 1, .fix 2 0, .fld 6, .fld 6, .fix 6 12], fun
    | [s, i, o, d, a] => some (.fceil (BitVec.ofNat 2 s) (BitVec.ofNat 1 i) (BitVec.ofNat 1 o) (BitVec.ofNat 6 d) (BitVec.ofNat 6 a))
    | _ => none⟩,
  ⟨[.fix 1 1, .fld 2, .fix 7 35, .fld 1, .fld 1, .fix 2 0, .fld 6, .fld 6, .fix 6 13], fun
    | [s, i, o, d, a] => some (.ftrnc (BitVec.ofNat 2 s) (BitVec.ofNat 1 i) (BitVec.ofNat 1 o) (BitVec.ofNat 6 d) (BitVec.ofNat 6 a))
    | _ => none⟩,
  ⟨[.fix 1 1, .fld 2, .fix 7 35, .fld 1, .fld 1, .fix 2 0, .fld 6, .fld 6, .fix 6 14], fun
    | [s, i, o, d, a] => some (.frndn (BitVec.ofNat 2 s) (BitVec.ofNat 1 i) (BitVec.ofNat 1 o) (BitVec.ofNat 6 d) (BitVec.ofNat 6 a))
    | _ => none⟩,
  ⟨[.fix 1 1, .fld 2, .fix 7 35, .fld 1, .fld 1, .fix 2 0, .fld 6, .fld 6, .fix 6 15], fun
    | [s, i, o, d, a] => some (.fclass (BitVec.ofNat 2 s) (BitVec.ofNat 1 i) (BitVec.ofNat 1 o) (BitVec.ofNat 6 d) (BitVec.ofNat 6 a))
    | _ => none⟩,
  ⟨[.fix 1 1, .fld 2, .fix 7 36, .fld 1, .fld 1, .fix 2 0, .fld 6, .fld 6, .fld 6], fun
    | [s, i, o, d, a, b] => some (.fdiv (BitVec.ofNat 2 s) (BitVec.ofNat 1 i) (BitVec.ofNat 1 o) (BitVec.ofNat 6 d) (BitVec.ofNat 6 a) (BitVec.ofNat 6 b))
    | _ => none⟩,
  ⟨[.fix 1 1, .fld 2, .fix 7 37, .fld 1, .fld 1, .fix 2 0, .fld 6, .fld 6, .fld 6], fun
    | [s, i, o, d, a, b] => some (.fscl (BitVec.ofNat 2 s) (BitVec.ofNat 1 i) (BitVec.ofNat 1 o) (BitVec.ofNat 6 d) (BitVec.ofNat 6 a) (BitVec.ofNat 6 b))
    | _ => none⟩,
  ⟨[.fix 1 1, .fld 2, .fix 7 37, .fld 1, .fld 1, .fix 2 1, .fld 6, .fld 6, .fix 6 0], fun
    | [s, i, o, d, a] => some (.fexpo (BitVec.ofNat 2 s) (BitVec.ofNat 1 i) (BitVec.ofNat 1 o) (BitVec.ofNat 6 d) (BitVec.ofNat 6 a))
    | _ => none⟩,
  ⟨[.fix 1 1, .fld 2, .fix 7 37, .fld 1, .fld 1, .fix 2 2, .fld 6, .fld 6, .fix 6 0], fun
    | [s, i, o, d, a] => some (.fmant (BitVec.ofNat 2 s) (BitVec.ofNat 1 i) (BitVec.ofNat 1 o) (BitVec.ofNat 6 d) (BitVec.ofNat 6 a))
    | _ => none⟩,
  ⟨[.fix 1 1, .fld 2, .fix 7 38, .fld 1, .fld 1, .fix 2 0, .fld 6, .fld 6, .fld 4, .fix 2 0], fun
    | [s, i, o, d, a, f] => some (.fcvt (BitVec.ofNat 2 s) (BitVec.ofNat 1 i) (BitVec.ofNat 1 o) (BitVec.ofNat 6 d) (BitVec.ofNat 6 a) (BitVec.ofNat 4 f))
    | _ => none⟩,
  ⟨[.fix 1 1, .fld 2, .fix 7 39, .fld 4, .fld 6, .fld 6, .fld 4, .fix 2 0], fun
    | [s, r, d, a, f] => some (.ffin (BitVec.ofNat 2 s) (BitVec.ofNat 4 r) (BitVec.ofNat 6 d) (BitVec.ofNat 6 a) (BitVec.ofNat 4 f))
    | _ => none⟩,
  ⟨[.fix 1 1, .fld 2, .fix 7 40, .fld 3, .fld 1, .fld 6, .fld 6, .fld 6], fun
    | [s, r, t, d, a, b] => some (.fpack (BitVec.ofNat 2 s) (BitVec.ofNat 3 r) (BitVec.ofNat 1 t) (BitVec.ofNat 6 d) (BitVec.ofNat 6 a) (BitVec.ofNat 6 b))
    | _ => none⟩,
  ⟨[.fix 1 1, .fld 2, .fix 7 41, .fld 4, .fld 6, .fld 6, .fld 2, .fld 4], fun
    | [s, r, d, a, l, f] => some (.fpk8 (BitVec.ofNat 2 s) (BitVec.ofNat 4 r) (BitVec.ofNat 6 d) (BitVec.ofNat 6 a) (BitVec.ofNat 2 l) (BitVec.ofNat 4 f))
    | _ => none⟩,
  ⟨[.fix 1 1, .fld 2, .fix 11 42, .fld 6, .fld 6, .fld 3, .fld 3], fun
    | [s, d, a, l, c] => some (.funpk (BitVec.ofNat 2 s) (BitVec.ofNat 6 d) (BitVec.ofNat 6 a) (BitVec.ofNat 3 l) (BitVec.ofNat 3 c))
    | _ => none⟩,
  ⟨[.fix 1 1, .fld 2, .fix 7 43, .fld 4, .fld 6, .fld 6, .fld 4, .fix 2 0], fun
    | [s, r, d, a, f] => some (.ftoi (BitVec.ofNat 2 s) (BitVec.ofNat 4 r) (BitVec.ofNat 6 d) (BitVec.ofNat 6 a) (BitVec.ofNat 4 f))
    | _ => none⟩,
  ⟨[.fix 1 1, .fld 2, .fix 11 44, .fld 6, .fld 6, .fld 4, .fix 2 0], fun
    | [s, d, a, f] => some (.itof (BitVec.ofNat 2 s) (BitVec.ofNat 6 d) (BitVec.ofNat 6 a) (BitVec.ofNat 4 f))
    | _ => none⟩,
  ⟨[.fix 1 1, .fld 2, .fix 7 45, .fld 7, .fix 6 0, .fld 6, .fix 3 0], fun
    | [s, p, a] => some (.stkget (BitVec.ofNat 2 s) (BitVec.ofNat 7 p) (BitVec.ofNat 6 a))
    | _ => none⟩,
  ⟨[.fix 1 1, .fld 2, .fix 7 45, .fld 7, .fld 6, .fix 9 64], fun
    | [s, p, d] => some (.stkset (BitVec.ofNat 2 s) (BitVec.ofNat 7 p) (BitVec.ofNat 6 d))
    | _ => none⟩,
  ⟨[.fix 1 1, .fld 2, .fix 11 46, .fld 6, .fld 6, .fld 6], fun
    | [s, d, a, b] => some (.rng32 (BitVec.ofNat 2 s) (BitVec.ofNat 6 d) (BitVec.ofNat 6 a) (BitVec.ofNat 6 b))
    | _ => none⟩]

/-- Rows 168 to 191 of the encoding table, from RNGU to ATOM_MAX_N (R74 to R78 and the rule of each row). -/
noncomputable def rows7 : List Row := [
  ⟨[.fix 1 1, .fld 2, .fix 11 174, .fld 6, .fld 6, .fld 6], fun
    | [s, d, a, b] => some (.rngu (BitVec.ofNat 2 s) (BitVec.ofNat 6 d) (BitVec.ofNat 6 a) (BitVec.ofNat 6 b))
    | _ => none⟩,
  ⟨[.fix 1 1, .fld 2, .fix 11 302, .fld 6, .fld 6, .fld 6], fun
    | [s, d, a, b] => some (.rngg (BitVec.ofNat 2 s) (BitVec.ofNat 6 d) (BitVec.ofNat 6 a) (BitVec.ofNat 6 b))
    | _ => none⟩,
  ⟨[.fix 1 1, .fld 2, .fix 11 47, .fld 6, .fld 4, .fld 6, .fix 2 3], fun
    | [s, d, g, a] => some (.draw (BitVec.ofNat 2 s) (BitVec.ofNat 6 d) (BitVec.ofNat 4 g) (BitVec.ofNat 6 a))
    | _ => none⟩,
  ⟨[.fix 1 1, .fld 2, .fix 7 48, .fld 2, .fld 1, .fld 1, .fld 6, .fld 4, .fld 6, .fld 2], fun
    | [s, z, x, q, d, g, a, t] => some (.ld (BitVec.ofNat 2 s) (BitVec.ofNat 2 z) (BitVec.ofNat 1 x) (BitVec.ofNat 1 q) (BitVec.ofNat 6 d) (BitVec.ofNat 4 g) (BitVec.ofNat 6 a) (BitVec.ofNat 2 t))
    | _ => none⟩,
  ⟨[.fix 1 1, .fld 2, .fix 10 49, .fld 1, .fld 6, .fld 4, .fld 6, .fld 2], fun
    | [s, q, d, g, a, t] => some (.ldq (BitVec.ofNat 2 s) (BitVec.ofNat 1 q) (BitVec.ofNat 6 d) (BitVec.ofNat 4 g) (BitVec.ofNat 6 a) (BitVec.ofNat 2 t))
    | _ => none⟩,
  ⟨[.fix 1 1, .fld 2, .fix 7 50, .fld 4, .fld 6, .fld 4, .fld 6, .fld 2], fun
    | [s, f, d, g, a, t] => some (.ldf (BitVec.ofNat 2 s) (BitVec.ofNat 4 f) (BitVec.ofNat 6 d) (BitVec.ofNat 4 g) (BitVec.ofNat 6 a) (BitVec.ofNat 2 t))
    | _ => none⟩,
  ⟨[.fix 1 1, .fld 2, .fix 7 51, .fld 2, .fld 1, .fix 1 0, .fld 6, .fld 4, .fld 6, .fix 2 3], fun
    | [s, z, r, d, g, a] => some (.st (BitVec.ofNat 2 s) (BitVec.ofNat 2 z) (BitVec.ofNat 1 r) (BitVec.ofNat 6 d) (BitVec.ofNat 4 g) (BitVec.ofNat 6 a))
    | _ => none⟩,
  ⟨[.fix 1 1, .fld 2, .fix 11 52, .fld 6, .fld 4, .fld 6, .fix 2 3], fun
    | [s, d, g, a] => some (.stq (BitVec.ofNat 2 s) (BitVec.ofNat 6 d) (BitVec.ofNat 4 g) (BitVec.ofNat 6 a))
    | _ => none⟩,
  ⟨[.fix 1 1, .fld 2, .fix 7 53, .fld 4, .fld 6, .fld 4, .fld 6, .fix 2 3], fun
    | [s, r, d, g, a] => some (.stfF32 (BitVec.ofNat 2 s) (BitVec.ofNat 4 r) (BitVec.ofNat 6 d) (BitVec.ofNat 4 g) (BitVec.ofNat 6 a))
    | _ => none⟩,
  ⟨[.fix 1 1, .fld 2, .fix 7 54, .fld 4, .fld 6, .fld 4, .fld 6, .fix 2 3], fun
    | [s, r, d, g, a] => some (.stfBf16 (BitVec.ofNat 2 s) (BitVec.ofNat 4 r) (BitVec.ofNat 6 d) (BitVec.ofNat 4 g) (BitVec.ofNat 6 a))
    | _ => none⟩,
  ⟨[.fix 1 1, .fld 2, .fix 7 55, .fld 4, .fld 6, .fld 4, .fld 6, .fix 2 3], fun
    | [s, r, d, g, a] => some (.stfF16 (BitVec.ofNat 2 s) (BitVec.ofNat 4 r) (BitVec.ofNat 6 d) (BitVec.ofNat 4 g) (BitVec.ofNat 6 a))
    | _ => none⟩,
  ⟨[.fix 1 1, .fld 2, .fix 7 56, .fld 4, .fld 6, .fld 4, .fld 6, .fix 2 3], fun
    | [s, r, d, g, a] => some (.stfE4m3 (BitVec.ofNat 2 s) (BitVec.ofNat 4 r) (BitVec.ofNat 6 d) (BitVec.ofNat 4 g) (BitVec.ofNat 6 a))
    | _ => none⟩,
  ⟨[.fix 1 1, .fld 2, .fix 7 57, .fld 4, .fld 6, .fld 4, .fld 6, .fix 2 3], fun
    | [s, r, d, g, a] => some (.stfE5m2 (BitVec.ofNat 2 s) (BitVec.ofNat 4 r) (BitVec.ofNat 6 d) (BitVec.ofNat 4 g) (BitVec.ofNat 6 a))
    | _ => none⟩,
  ⟨[.fix 1 1, .fld 2, .fix 7 58, .fld 4, .fld 6, .fld 4, .fld 6, .fix 2 3], fun
    | [s, r, d, g, a] => some (.stfE2m1 (BitVec.ofNat 2 s) (BitVec.ofNat 4 r) (BitVec.ofNat 6 d) (BitVec.ofNat 4 g) (BitVec.ofNat 6 a))
    | _ => none⟩,
  ⟨[.fix 1 1, .fld 2, .fix 11 59, .fld 6, .fld 4, .fld 6, .fix 2 3], fun
    | [s, d, g, a] => some (.stimg (BitVec.ofNat 2 s) (BitVec.ofNat 6 d) (BitVec.ofNat 4 g) (BitVec.ofNat 6 a))
    | _ => none⟩,
  ⟨[.fix 1 1, .fld 2, .fix 11 60, .fld 6, .fld 4, .fld 6, .fld 2], fun
    | [s, d, g, a, t] => some (.ldimg (BitVec.ofNat 2 s) (BitVec.ofNat 6 d) (BitVec.ofNat 4 g) (BitVec.ofNat 6 a) (BitVec.ofNat 2 t))
    | _ => none⟩,
  ⟨[.fix 1 1, .fld 2, .fix 7 61, .fld 1, .fix 3 0, .fld 6, .fld 4, .fld 6, .fld 2], fun
    | [s, c, d, g, a, t] => some (.ldfe (BitVec.ofNat 2 s) (BitVec.ofNat 1 c) (BitVec.ofNat 6 d) (BitVec.ofNat 4 g) (BitVec.ofNat 6 a) (BitVec.ofNat 2 t))
    | _ => none⟩,
  ⟨[.fix 1 1, .fld 2, .fix 7 62, .fld 1, .fix 3 0, .fld 6, .fld 4, .fld 6, .fix 2 3], fun
    | [s, w, d, g, a] => some (.stfe (BitVec.ofNat 2 s) (BitVec.ofNat 1 w) (BitVec.ofNat 6 d) (BitVec.ofNat 4 g) (BitVec.ofNat 6 a))
    | _ => none⟩,
  ⟨[.fix 1 1, .fld 2, .fix 11 63, .fld 6, .fld 4, .fld 6, .fld 2], fun
    | [s, d, g, a, t] => some (.stcmp (BitVec.ofNat 2 s) (BitVec.ofNat 6 d) (BitVec.ofNat 4 g) (BitVec.ofNat 6 a) (BitVec.ofNat 2 t))
    | _ => none⟩,
  ⟨[.fix 1 1, .fld 2, .fix 11 64, .fld 6, .fld 4, .fld 6, .fld 2], fun
    | [s, d, g, a, t] => some (.atomAdd (BitVec.ofNat 2 s) (BitVec.ofNat 6 d) (BitVec.ofNat 4 g) (BitVec.ofNat 6 a) (BitVec.ofNat 2 t))
    | _ => none⟩,
  ⟨[.fix 1 1, .fld 2, .fix 11 192, .fld 6, .fld 4, .fld 6, .fld 2], fun
    | [s, d, g, a, t] => some (.atomMinI (BitVec.ofNat 2 s) (BitVec.ofNat 6 d) (BitVec.ofNat 4 g) (BitVec.ofNat 6 a) (BitVec.ofNat 2 t))
    | _ => none⟩,
  ⟨[.fix 1 1, .fld 2, .fix 11 320, .fld 6, .fld 4, .fld 6, .fld 2], fun
    | [s, d, g, a, t] => some (.atomMaxI (BitVec.ofNat 2 s) (BitVec.ofNat 6 d) (BitVec.ofNat 4 g) (BitVec.ofNat 6 a) (BitVec.ofNat 2 t))
    | _ => none⟩,
  ⟨[.fix 1 1, .fld 2, .fix 11 448, .fld 6, .fld 4, .fld 6, .fld 2], fun
    | [s, d, g, a, t] => some (.atomMinN (BitVec.ofNat 2 s) (BitVec.ofNat 6 d) (BitVec.ofNat 4 g) (BitVec.ofNat 6 a) (BitVec.ofNat 2 t))
    | _ => none⟩,
  ⟨[.fix 1 1, .fld 2, .fix 11 576, .fld 6, .fld 4, .fld 6, .fld 2], fun
    | [s, d, g, a, t] => some (.atomMaxN (BitVec.ofNat 2 s) (BitVec.ofNat 6 d) (BitVec.ofNat 4 g) (BitVec.ofNat 6 a) (BitVec.ofNat 2 t))
    | _ => none⟩]

/-- Rows 192 to 215 of the encoding table, from ATOM_AND to PIN (R74 to R78 and the rule of each row). -/
noncomputable def rows8 : List Row := [
  ⟨[.fix 1 1, .fld 2, .fix 11 704, .fld 6, .fld 4, .fld 6, .fld 2], fun
    | [s, d, g, a, t] => some (.atomAnd (BitVec.ofNat 2 s) (BitVec.ofNat 6 d) (BitVec.ofNat 4 g) (BitVec.ofNat 6 a) (BitVec.ofNat 2 t))
    | _ => none⟩,
  ⟨[.fix 1 1, .fld 2, .fix 11 832, .fld 6, .fld 4, .fld 6, .fld 2], fun
    | [s, d, g, a, t] => some (.atomOr (BitVec.ofNat 2 s) (BitVec.ofNat 6 d) (BitVec.ofNat 4 g) (BitVec.ofNat 6 a) (BitVec.ofNat 2 t))
    | _ => none⟩,
  ⟨[.fix 1 1, .fld 2, .fix 11 960, .fld 6, .fld 4, .fld 6, .fld 2], fun
    | [s, d, g, a, t] => some (.atomXor (BitVec.ofNat 2 s) (BitVec.ofNat 6 d) (BitVec.ofNat 4 g) (BitVec.ofNat 6 a) (BitVec.ofNat 2 t))
    | _ => none⟩,
  ⟨[.fix 1 1, .fld 2, .fix 11 1088, .fld 6, .fld 4, .fld 6, .fld 2], fun
    | [s, d, g, a, t] => some (.atomExch (BitVec.ofNat 2 s) (BitVec.ofNat 6 d) (BitVec.ofNat 4 g) (BitVec.ofNat 6 a) (BitVec.ofNat 2 t))
    | _ => none⟩,
  ⟨[.fix 1 1, .fld 2, .fix 11 1216, .fld 6, .fld 4, .fld 6, .fld 2], fun
    | [s, d, g, a, t] => some (.atomCas (BitVec.ofNat 2 s) (BitVec.ofNat 6 d) (BitVec.ofNat 4 g) (BitVec.ofNat 6 a) (BitVec.ofNat 2 t))
    | _ => none⟩,
  ⟨[.fix 1 1, .fld 2, .fix 11 1344, .fld 6, .fld 4, .fld 6, .fld 2], fun
    | [s, d, g, a, t] => some (.atomAddW (BitVec.ofNat 2 s) (BitVec.ofNat 6 d) (BitVec.ofNat 4 g) (BitVec.ofNat 6 a) (BitVec.ofNat 2 t))
    | _ => none⟩,
  ⟨[.fix 1 1, .fld 2, .fix 11 1472, .fld 6, .fld 4, .fld 6, .fld 2], fun
    | [s, d, g, a, t] => some (.atomFadd (BitVec.ofNat 2 s) (BitVec.ofNat 6 d) (BitVec.ofNat 4 g) (BitVec.ofNat 6 a) (BitVec.ofNat 2 t))
    | _ => none⟩,
  ⟨[.fix 1 1, .fld 2, .fix 11 65, .fld 6, .fld 4, .fld 6, .fix 2 3], fun
    | [s, d, g, a] => some (.redAdd (BitVec.ofNat 2 s) (BitVec.ofNat 6 d) (BitVec.ofNat 4 g) (BitVec.ofNat 6 a))
    | _ => none⟩,
  ⟨[.fix 1 1, .fld 2, .fix 11 193, .fld 6, .fld 4, .fld 6, .fix 2 3], fun
    | [s, d, g, a] => some (.redMinI (BitVec.ofNat 2 s) (BitVec.ofNat 6 d) (BitVec.ofNat 4 g) (BitVec.ofNat 6 a))
    | _ => none⟩,
  ⟨[.fix 1 1, .fld 2, .fix 11 321, .fld 6, .fld 4, .fld 6, .fix 2 3], fun
    | [s, d, g, a] => some (.redMaxI (BitVec.ofNat 2 s) (BitVec.ofNat 6 d) (BitVec.ofNat 4 g) (BitVec.ofNat 6 a))
    | _ => none⟩,
  ⟨[.fix 1 1, .fld 2, .fix 11 449, .fld 6, .fld 4, .fld 6, .fix 2 3], fun
    | [s, d, g, a] => some (.redMinN (BitVec.ofNat 2 s) (BitVec.ofNat 6 d) (BitVec.ofNat 4 g) (BitVec.ofNat 6 a))
    | _ => none⟩,
  ⟨[.fix 1 1, .fld 2, .fix 11 577, .fld 6, .fld 4, .fld 6, .fix 2 3], fun
    | [s, d, g, a] => some (.redMaxN (BitVec.ofNat 2 s) (BitVec.ofNat 6 d) (BitVec.ofNat 4 g) (BitVec.ofNat 6 a))
    | _ => none⟩,
  ⟨[.fix 1 1, .fld 2, .fix 11 705, .fld 6, .fld 4, .fld 6, .fix 2 3], fun
    | [s, d, g, a] => some (.redAnd (BitVec.ofNat 2 s) (BitVec.ofNat 6 d) (BitVec.ofNat 4 g) (BitVec.ofNat 6 a))
    | _ => none⟩,
  ⟨[.fix 1 1, .fld 2, .fix 11 833, .fld 6, .fld 4, .fld 6, .fix 2 3], fun
    | [s, d, g, a] => some (.redOr (BitVec.ofNat 2 s) (BitVec.ofNat 6 d) (BitVec.ofNat 4 g) (BitVec.ofNat 6 a))
    | _ => none⟩,
  ⟨[.fix 1 1, .fld 2, .fix 11 961, .fld 6, .fld 4, .fld 6, .fix 2 3], fun
    | [s, d, g, a] => some (.redXor (BitVec.ofNat 2 s) (BitVec.ofNat 6 d) (BitVec.ofNat 4 g) (BitVec.ofNat 6 a))
    | _ => none⟩,
  ⟨[.fix 1 1, .fld 2, .fix 11 1345, .fld 6, .fld 4, .fld 6, .fix 2 3], fun
    | [s, d, g, a] => some (.redAddW (BitVec.ofNat 2 s) (BitVec.ofNat 6 d) (BitVec.ofNat 4 g) (BitVec.ofNat 6 a))
    | _ => none⟩,
  ⟨[.fix 1 1, .fld 2, .fix 11 1473, .fld 6, .fld 4, .fld 6, .fix 2 3], fun
    | [s, d, g, a] => some (.redFadd (BitVec.ofNat 2 s) (BitVec.ofNat 6 d) (BitVec.ofNat 4 g) (BitVec.ofNat 6 a))
    | _ => none⟩,
  ⟨[.fix 1 1, .fld 2, .fix 7 66, .fld 4, .fix 6 0, .fld 1, .fix 11 0], fun
    | [s, m, h] => some (.fence (BitVec.ofNat 2 s) (BitVec.ofNat 4 m) (BitVec.ofNat 1 h))
    | _ => none⟩,
  ⟨[.fix 1 1, .fld 2, .fix 17 67, .fld 4, .fld 6, .fix 2 3], fun
    | [s, g, a] => some (.pftch (BitVec.ofNat 2 s) (BitVec.ofNat 4 g) (BitVec.ofNat 6 a))
    | _ => none⟩,
  ⟨[.fix 1 1, .fld 2, .fix 17 68, .fld 4, .fld 6, .fix 2 3], fun
    | [s, g, a] => some (.cwb (BitVec.ofNat 2 s) (BitVec.ofNat 4 g) (BitVec.ofNat 6 a))
    | _ => none⟩,
  ⟨[.fix 1 1, .fld 2, .fix 17 196, .fld 4, .fld 6, .fix 2 3], fun
    | [s, g, a] => some (.cinv (BitVec.ofNat 2 s) (BitVec.ofNat 4 g) (BitVec.ofNat 6 a))
    | _ => none⟩,
  ⟨[.fix 1 1, .fld 2, .fix 17 324, .fld 4, .fld 6, .fix 2 3], fun
    | [s, g, a] => some (.cwbi (BitVec.ofNat 2 s) (BitVec.ofNat 4 g) (BitVec.ofNat 6 a))
    | _ => none⟩,
  ⟨[.fix 1 1, .fld 2, .fix 17 452, .fld 4, .fld 6, .fix 2 3], fun
    | [s, g, a] => some (.czero (BitVec.ofNat 2 s) (BitVec.ofNat 4 g) (BitVec.ofNat 6 a))
    | _ => none⟩,
  ⟨[.fix 1 1, .fld 2, .fix 7 69, .fld 3, .fix 7 0, .fld 6, .fld 6], fun
    | [s, w, a, b] => some (.pin (BitVec.ofNat 2 s) (BitVec.ofNat 3 w) (BitVec.ofNat 6 a) (BitVec.ofNat 6 b))
    | _ => none⟩]

/-- Rows 216 to 239 of the encoding table, from UNPIN to PNSET (R74 to R78 and the rule of each row). -/
noncomputable def rows9 : List Row := [
  ⟨[.fix 1 1, .fld 2, .fix 7 70, .fld 3, .fix 19 0], fun
    | [s, w] => some (.unpin (BitVec.ofNat 2 s) (BitVec.ofNat 3 w))
    | _ => none⟩,
  ⟨[.fix 1 1, .fld 2, .fix 7 71, .fld 6, .fld 6, .fld 10], fun
    | [s, d, a, i] => some (.ldg (BitVec.ofNat 2 s) (BitVec.ofNat 6 d) (BitVec.ofNat 6 a) (BitVec.ofNat 10 i))
    | _ => none⟩,
  ⟨[.fix 1 1, .fld 2, .fix 7 72, .fld 6, .fld 6, .fld 10], fun
    | [s, d, a, i] => some (.stg (BitVec.ofNat 2 s) (BitVec.ofNat 6 d) (BitVec.ofNat 6 a) (BitVec.ofNat 10 i))
    | _ => none⟩,
  ⟨[.fix 1 1, .fld 2, .fix 11 74, .fld 6, .fld 6, .fld 6], fun
    | [s, d, a, b] => some (.pgalloc (BitVec.ofNat 2 s) (BitVec.ofNat 6 d) (BitVec.ofNat 6 a) (BitVec.ofNat 6 b))
    | _ => none⟩,
  ⟨[.fix 1 1, .fld 2, .fix 11 202, .fld 6, .fld 6, .fld 6], fun
    | [s, d, a, b] => some (.pgshare (BitVec.ofNat 2 s) (BitVec.ofNat 6 d) (BitVec.ofNat 6 a) (BitVec.ofNat 6 b))
    | _ => none⟩,
  ⟨[.fix 1 1, .fld 2, .fix 11 330, .fld 6, .fld 6, .fld 6], fun
    | [s, d, a, b] => some (.pgfree (BitVec.ofNat 2 s) (BitVec.ofNat 6 d) (BitVec.ofNat 6 a) (BitVec.ofNat 6 b))
    | _ => none⟩,
  ⟨[.fix 1 1, .fld 2, .fix 11 458, .fld 6, .fld 6, .fix 6 0], fun
    | [s, d, a] => some (.pginfo (BitVec.ofNat 2 s) (BitVec.ofNat 6 d) (BitVec.ofNat 6 a))
    | _ => none⟩,
  ⟨[.fix 1 1, .fld 2, .fix 11 586, .fld 6, .fld 6, .fix 6 0], fun
    | [s, d, a] => some (.pgrsv (BitVec.ofNat 2 s) (BitVec.ofNat 6 d) (BitVec.ofNat 6 a))
    | _ => none⟩,
  ⟨[.fix 1 1, .fld 2, .fix 7 80, .fld 6, .fld 4, .fld 4, .fld 4, .fld 2, .fld 1, .fld 1], fun
    | [s, b, g, u, x, r, l, n] => some (.copy (BitVec.ofNat 2 s) (BitVec.ofNat 6 b) (BitVec.ofNat 4 g) (BitVec.ofNat 4 u) (BitVec.ofNat 4 x) (BitVec.ofNat 2 r) (BitVec.ofNat 1 l) (BitVec.ofNat 1 n))
    | _ => none⟩,
  ⟨[.fix 1 1, .fld 2, .fix 7 81, .fld 6, .fld 4, .fld 4, .fix 4 0, .fld 2, .fix 1 0, .fld 1], fun
    | [s, b, g, u, r, n] => some (.copyt (BitVec.ofNat 2 s) (BitVec.ofNat 6 b) (BitVec.ofNat 4 g) (BitVec.ofNat 4 u) (BitVec.ofNat 2 r) (BitVec.ofNat 1 n))
    | _ => none⟩,
  ⟨[.fix 1 1, .fld 2, .fix 7 82, .fld 6, .fld 4, .fld 4, .fld 4, .fld 2, .fld 1, .fld 1], fun
    | [s, b, g, u, x, r, l, n] => some (.gath (BitVec.ofNat 2 s) (BitVec.ofNat 6 b) (BitVec.ofNat 4 g) (BitVec.ofNat 4 u) (BitVec.ofNat 4 x) (BitVec.ofNat 2 r) (BitVec.ofNat 1 l) (BitVec.ofNat 1 n))
    | _ => none⟩,
  ⟨[.fix 1 1, .fld 2, .fix 7 83, .fld 6, .fld 4, .fld 4, .fld 4, .fld 2, .fld 1, .fld 1], fun
    | [s, b, g, u, x, r, l, n] => some (.scat (BitVec.ofNat 2 s) (BitVec.ofNat 6 b) (BitVec.ofNat 4 g) (BitVec.ofNat 4 u) (BitVec.ofNat 4 x) (BitVec.ofNat 2 r) (BitVec.ofNat 1 l) (BitVec.ofNat 1 n))
    | _ => none⟩,
  ⟨[.fix 1 1, .fld 2, .fix 7 84, .fld 6, .fld 4, .fld 4, .fld 4, .fld 3, .fld 1], fun
    | [s, b, g, u, x, c, n] => some (.copyr (BitVec.ofNat 2 s) (BitVec.ofNat 6 b) (BitVec.ofNat 4 g) (BitVec.ofNat 4 u) (BitVec.ofNat 4 x) (BitVec.ofNat 3 c) (BitVec.ofNat 1 n))
    | _ => none⟩,
  ⟨[.fix 1 1, .fld 2, .fix 7 86, .fld 2, .fix 8 0, .fld 8, .fix 4 0], fun
    | [s, c, i] => some (.waite (BitVec.ofNat 2 s) (BitVec.ofNat 2 c) (BitVec.ofNat 8 i))
    | _ => none⟩,
  ⟨[.fix 1 1, .fld 2, .fix 11 87, .fld 6, .fld 4, .fld 6, .fld 2], fun
    | [s, d, g, a, t] => some (.qpost (BitVec.ofNat 2 s) (BitVec.ofNat 6 d) (BitVec.ofNat 4 g) (BitVec.ofNat 6 a) (BitVec.ofNat 2 t))
    | _ => none⟩,
  ⟨[.fix 1 1, .fld 2, .fix 7 88, .fld 6, .fix 4 0, .fld 4, .fix 8 0], fun
    | [s, b, u] => some (.binit (BitVec.ofNat 2 s) (BitVec.ofNat 6 b) (BitVec.ofNat 4 u))
    | _ => none⟩,
  ⟨[.fix 1 1, .fld 2, .fix 7 89, .fld 6, .fix 16 0], fun
    | [s, b] => some (.barv (BitVec.ofNat 2 s) (BitVec.ofNat 6 b))
    | _ => none⟩,
  ⟨[.fix 1 1, .fld 2, .fix 7 89, .fld 6, .fix 16 4096], fun
    | [s, b] => some (.barvPass (BitVec.ofNat 2 s) (BitVec.ofNat 6 b))
    | _ => none⟩,
  ⟨[.fix 1 1, .fld 2, .fix 7 89, .fld 6, .fix 4 0, .fld 4, .fix 8 32], fun
    | [s, b, u] => some (.barvExpect (BitVec.ofNat 2 s) (BitVec.ofNat 6 b) (BitVec.ofNat 4 u))
    | _ => none⟩,
  ⟨[.fix 1 1, .fld 2, .fix 11 90, .fld 6, .fld 6, .fix 6 0], fun
    | [s, d, b] => some (.bwait (BitVec.ofNat 2 s) (BitVec.ofNat 6 d) (BitVec.ofNat 6 b))
    | _ => none⟩,
  ⟨[.fix 1 1, .fld 2, .fix 10 91, .fld 7, .fld 6, .fld 6], fun
    | [s, p, a, b] => some (.btest (BitVec.ofNat 2 s) (BitVec.ofNat 7 p) (BitVec.ofNat 6 a) (BitVec.ofNat 6 b))
    | _ => none⟩,
  ⟨[.fix 1 1, .fld 2, .fix 29 92], fun
    | [s] => some (.barg (BitVec.ofNat 2 s))
    | _ => none⟩,
  ⟨[.fix 1 1, .fld 2, .fix 11 220, .fld 6, .fix 12 0], fun
    | [s, d] => some (.bargCount (BitVec.ofNat 2 s) (BitVec.ofNat 6 d))
    | _ => none⟩,
  ⟨[.fix 1 1, .fld 2, .fix 17 93, .fld 6, .fld 4, .fix 2 0], fun
    | [s, a, f] => some (.pnset (BitVec.ofNat 2 s) (BitVec.ofNat 6 a) (BitVec.ofNat 4 f))
    | _ => none⟩]

/-- Rows 240 to 263 of the encoding table, from PNMIN to MMAX (R74 to R78 and the rule of each row). -/
noncomputable def rows10 : List Row := [
  ⟨[.fix 1 1, .fld 2, .fix 17 221, .fld 6, .fld 4, .fix 2 0], fun
    | [s, a, f] => some (.pnmin (BitVec.ofNat 2 s) (BitVec.ofNat 6 a) (BitVec.ofNat 4 f))
    | _ => none⟩,
  ⟨[.fix 1 1, .fld 2, .fix 17 349, .fld 6, .fld 4, .fix 2 0], fun
    | [s, a, f] => some (.pnmax (BitVec.ofNat 2 s) (BitVec.ofNat 6 a) (BitVec.ofNat 4 f))
    | _ => none⟩,
  ⟨[.fix 1 1, .fld 2, .fix 11 477, .fld 6, .fix 6 0, .fld 4, .fix 2 0], fun
    | [s, d, f] => some (.pnrd (BitVec.ofNat 2 s) (BitVec.ofNat 6 d) (BitVec.ofNat 4 f))
    | _ => none⟩,
  ⟨[.fix 1 1, .fld 2, .fix 11 96, .fld 6, .fld 4, .fix 8 192], fun
    | [s, d, g] => some (.tspawn (BitVec.ofNat 2 s) (BitVec.ofNat 6 d) (BitVec.ofNat 4 g))
    | _ => none⟩,
  ⟨[.fix 1 1, .fld 2, .fix 11 97, .fld 6, .fld 6, .fld 6], fun
    | [s, d, a, b] => some (.trange (BitVec.ofNat 2 s) (BitVec.ofNat 6 d) (BitVec.ofNat 6 a) (BitVec.ofNat 6 b))
    | _ => none⟩,
  ⟨[.fix 1 1, .fld 2, .fix 11 98, .fld 6, .fld 6, .fix 6 0], fun
    | [s, d, a] => some (.tclaim (BitVec.ofNat 2 s) (BitVec.ofNat 6 d) (BitVec.ofNat 6 a))
    | _ => none⟩,
  ⟨[.fix 1 1, .fld 2, .fix 29 99], fun
    | [s] => some (.tflush (BitVec.ofNat 2 s))
    | _ => none⟩,
  ⟨[.fix 1 1, .fld 2, .fix 29 100], fun
    | [s] => some (.acqx (BitVec.ofNat 2 s))
    | _ => none⟩,
  ⟨[.fix 1 1, .fld 2, .fix 29 101], fun
    | [s] => some (.relx (BitVec.ofNat 2 s))
    | _ => none⟩,
  ⟨[.fix 1 1, .fld 2, .fix 17 102, .fld 11, .fix 1 0], fun
    | [s, c] => some (.trap (BitVec.ofNat 2 s) (BitVec.ofNat 11 c))
    | _ => none⟩,
  ⟨[.fix 1 1, .fld 2, .fix 29 103], fun
    | [s] => some (.tretResume (BitVec.ofNat 2 s))
    | _ => none⟩,
  ⟨[.fix 1 1, .fld 2, .fix 29 231], fun
    | [s] => some (.tretSkip (BitVec.ofNat 2 s))
    | _ => none⟩,
  ⟨[.fix 1 1, .fld 2, .fix 29 359], fun
    | [s] => some (.tretRetire (BitVec.ofNat 2 s))
    | _ => none⟩,
  ⟨[.fix 1 1, .fld 2, .fix 11 104, .fld 6, .fld 12], fun
    | [s, d, n] => some (.smov (BitVec.ofNat 2 s) (BitVec.ofNat 6 d) (BitVec.ofNat 12 n))
    | _ => none⟩,
  ⟨[.fix 1 1, .fld 2, .fix 11 105, .fld 6, .fld 12], fun
    | [s, d, n] => some (.sset (BitVec.ofNat 2 s) (BitVec.ofNat 6 d) (BitVec.ofNat 12 n))
    | _ => none⟩,
  ⟨[.fix 1 1, .fld 2, .fix 29 106], fun
    | [s] => some (.halt (BitVec.ofNat 2 s))
    | _ => none⟩,
  ⟨[.fix 1 1, .fld 2, .fix 7 113, .fld 12, .fix 10 0], fun
    | [s, t] => some (.jmp (BitVec.ofNat 2 s) (BitVec.ofNat 12 t))
    | _ => none⟩,
  ⟨[.fix 1 1, .fld 2, .fix 7 114, .fld 12, .fld 7, .fld 1, .fix 2 0], fun
    | [s, t, p, v] => some (.brc (BitVec.ofNat 2 s) (BitVec.ofNat 12 t) (BitVec.ofNat 7 p) (BitVec.ofNat 1 v))
    | _ => none⟩,
  ⟨[.fix 1 1, .fld 2, .fix 17 115, .fld 6, .fix 6 0], fun
    | [s, a] => some (.brx (BitVec.ofNat 2 s) (BitVec.ofNat 6 a))
    | _ => none⟩,
  ⟨[.fix 1 1, .fld 2, .fix 7 116, .fld 12, .fix 10 0], fun
    | [s, t] => some (.call (BitVec.ofNat 2 s) (BitVec.ofNat 12 t))
    | _ => none⟩,
  ⟨[.fix 1 1, .fld 2, .fix 19 117, .fld 7, .fld 1, .fix 2 0], fun
    | [s, p, v] => some (.exit (BitVec.ofNat 2 s) (BitVec.ofNat 7 p) (BitVec.ofNat 1 v))
    | _ => none⟩,
  ⟨[.fix 1 1, .fld 2, .fix 7 120, .fld 4, .fld 4, .fld 4, .fld 4, .fld 4, .fld 2], fun
    | [s, m, c, a, b, k, w] => some (.mma (BitVec.ofNat 2 s) (BitVec.ofNat 4 m) (BitVec.ofNat 4 c) (BitVec.ofNat 4 a) (BitVec.ofNat 4 b) (BitVec.ofNat 4 k) (BitVec.ofNat 2 w))
    | _ => none⟩,
  ⟨[.fix 1 1, .fld 2, .fix 7 121, .fld 4, .fld 4, .fld 4, .fld 4, .fld 4, .fld 2], fun
    | [s, m, c, a, b, k, w] => some (.mmas (BitVec.ofNat 2 s) (BitVec.ofNat 4 m) (BitVec.ofNat 4 c) (BitVec.ofNat 4 a) (BitVec.ofNat 4 b) (BitVec.ofNat 4 k) (BitVec.ofNat 2 w))
    | _ => none⟩,
  ⟨[.fix 1 1, .fld 2, .fix 7 122, .fld 4, .fld 4, .fld 4, .fld 4, .fld 4, .fld 2], fun
    | [s, m, c, a, b, k, w] => some (.mmax (BitVec.ofNat 2 s) (BitVec.ofNat 4 m) (BitVec.ofNat 4 c) (BitVec.ofNat 4 a) (BitVec.ofNat 4 b) (BitVec.ofNat 4 k) (BitVec.ofNat 2 w))
    | _ => none⟩]

/-- Rows 264 to 275 of the encoding table, from MZERO to MWR (R74 to R78 and the rule of each row). -/
noncomputable def rows11 : List Row := [
  ⟨[.fix 1 1, .fld 2, .fix 11 123, .fld 4, .fix 4 0, .fld 4, .fix 4 0, .fld 1, .fix 1 0], fun
    | [s, c, b, w] => some (.mzero (BitVec.ofNat 2 s) (BitVec.ofNat 4 c) (BitVec.ofNat 4 b) (BitVec.ofNat 1 w))
    | _ => none⟩,
  ⟨[.fix 1 1, .fld 2, .fix 11 251, .fld 4, .fld 4, .fix 4 0, .fld 4, .fld 2], fun
    | [s, c, a, k, w] => some (.mldc (BitVec.ofNat 2 s) (BitVec.ofNat 4 c) (BitVec.ofNat 4 a) (BitVec.ofNat 4 k) (BitVec.ofNat 2 w))
    | _ => none⟩,
  ⟨[.fix 1 1, .fld 2, .fix 11 379, .fld 4, .fld 4, .fld 4, .fld 4, .fld 2], fun
    | [s, c, a, r, k, w] => some (.mstc (BitVec.ofNat 2 s) (BitVec.ofNat 4 c) (BitVec.ofNat 4 a) (BitVec.ofNat 4 r) (BitVec.ofNat 4 k) (BitVec.ofNat 2 w))
    | _ => none⟩,
  ⟨[.fix 1 1, .fld 2, .fix 11 507, .fld 4, .fix 8 0, .fld 4, .fld 1, .fix 1 0], fun
    | [s, c, k, w] => some (.mcopy (BitVec.ofNat 2 s) (BitVec.ofNat 4 c) (BitVec.ofNat 4 k) (BitVec.ofNat 1 w))
    | _ => none⟩,
  ⟨[.fix 1 1, .fld 2, .fix 11 635, .fld 4, .fix 4 0, .fld 4, .fix 4 0, .fld 1, .fix 1 0], fun
    | [s, c, b, w] => some (.mscale (BitVec.ofNat 2 s) (BitVec.ofNat 4 c) (BitVec.ofNat 4 b) (BitVec.ofNat 1 w))
    | _ => none⟩,
  ⟨[.fix 1 1, .fld 2, .fix 11 891, .fld 4, .fld 4, .fix 10 0], fun
    | [s, c, a] => some (.mdep (BitVec.ofNat 2 s) (BitVec.ofNat 4 c) (BitVec.ofNat 4 a))
    | _ => none⟩,
  ⟨[.fix 1 1, .fld 2, .fix 11 1019, .fld 4, .fld 4, .fix 4 0, .fld 2, .fix 4 0], fun
    | [s, c, a, k] => if k = 3 then some (.mstatProg (BitVec.ofNat 2 s) (BitVec.ofNat 4 c) (BitVec.ofNat 4 a))
      else if c = 0 then some (.mstat (BitVec.ofNat 2 s) (BitVec.ofNat 4 a) (BitVec.ofNat 2 k)) else none
    | _ => none⟩,
  ⟨[.fix 1 1, .fld 2, .fix 15 124, .fld 4, .fix 4 0, .fld 4, .fix 2 0], fun
    | [s, a, k] => some (.mrel (BitVec.ofNat 2 s) (BitVec.ofNat 4 a) (BitVec.ofNat 4 k))
    | _ => none⟩,
  ⟨[.fix 1 1, .fld 2, .fix 11 125, .fld 4, .fix 8 0, .fld 4, .fld 1, .fix 1 0], fun
    | [s, c, k, w] => some (.msmx (BitVec.ofNat 2 s) (BitVec.ofNat 4 c) (BitVec.ofNat 4 k) (BitVec.ofNat 1 w))
    | _ => none⟩,
  ⟨[.fix 1 1, .fld 2, .fix 23 253, .fld 4, .fld 1, .fix 1 0], fun
    | [s, k, w] => some (.msmf (BitVec.ofNat 2 s) (BitVec.ofNat 4 k) (BitVec.ofNat 1 w))
    | _ => none⟩,
  ⟨[.fix 1 1, .fld 2, .fix 7 126, .fld 4, .fld 6, .fld 6, .fix 6 0], fun
    | [s, m, d, a] => some (.mrd (BitVec.ofNat 2 s) (BitVec.ofNat 4 m) (BitVec.ofNat 6 d) (BitVec.ofNat 6 a))
    | _ => none⟩,
  ⟨[.fix 1 1, .fld 2, .fix 7 126, .fld 4, .fld 6, .fld 6, .fix 6 1], fun
    | [s, m, d, a] => some (.mwr (BitVec.ofNat 2 s) (BitVec.ofNat 4 m) (BitVec.ofNat 6 d) (BitVec.ofNat 6 a))
    | _ => none⟩]

/-- The encoding table. -/
noncomputable def rows : List Row := rows0 ++ rows1 ++ rows2 ++ rows3 ++ rows4 ++ rows5 ++ rows6 ++ rows7 ++ rows8 ++ rows9 ++ rows10 ++ rows11

/-- The row and the field values of an instruction; an event has no word. -/
def codeOf : Instr → Option (Nat × List Nat)
  | .tailWrite _ _ => none
  | .ringRegisterWrite _ _ _ => none
  | .contextRegisterWrite _ _ _ => none
  | .portEnableWrite _ _ => none
  | .registerWrite _ _ _ => none
  | .commandFetch _ => none
  | .completionRecordWrite _ => none
  | .ctxCreate _ => none
  | .ctxDestroy _ => none
  | .qCreate _ => none
  | .qCtlPause _ => none
  | .qCtlResume _ => none
  | .qCtlDestroy _ => none
  | .map _ => none
  | .unmap _ => none
  | .poolCreate _ => none
  | .cfgLoad _ => none
  | .kernLoad _ => none
  | .kernUnload _ => none
  | .launch _ => none
  | .graphRecord _ => none
  | .graphEnd _ => none
  | .graphReplay _ => none
  | .gparamSet _ => none
  | .preempt _ => none
  | .resume _ => none
  | .ckptSave _ => none
  | .ckptRestore _ => none
  | .attest _ => none
  | .dbgStop _ => none
  | .dbgStep _ => none
  | .dbgSteppass _ => none
  | .dbgStepbin _ => none
  | .dbgCont _ => none
  | .syncAll _ => none
  | .teamAdmission _ => none
  | .passStart _ => none
  | .passEnd _ _ => none
  | .tokenResultWrite _ => none
  | .fantailSweep _ => none
  | .barrierDeadlock _ => none
  | .groupEnd _ => none
  | .taskTake _ => none
  | .gatherTimeout _ _ => none
  | .taskSteal _ => none
  | .xregGrant _ => none
  | .engineCommandRetire _ _ => none
  | .chunkStart _ => none
  | .chunkComplete _ => none
  | .chunkTimeout _ => none
  | .chunkAbort _ => none
  | .chunkDetach _ => none
  | .sectorEvent _ => none
  | .millraceCommandStart _ => none
  | .kStep _ => none
  | .millraceCommandRetire _ => none
  | .homeWrite _ _ => none
  | .homeRead _ _ => none
  | .writeTimeReply _ => none
  | .leaseExpiry _ => none
  | .fenceComplete _ _ => none
  | .pennantCopyUpdate _ _ => none
  | .haltComplete _ => none
  | .cowResolution _ => none
  | .cowThreadRelease _ => none
  | .pageTableRelease _ => none
  | .hbmScrub _ _ _ => none
  | .frameMigration _ => none
  | .bankModeChange _ => none
  | .portTrainingSuccess _ _ _ => none
  | .portTrainingFailure _ => none
  | .portLinkLoss _ => none
  | .portReplayLimit _ => none
  | .flitReceive _ _ => none
  | .idleFlit _ => none
  | .peerRequest _ _ _ _ => none
  | .peerAccessTimeout _ _ => none
  | .d2dBoundaryTimeout _ => none
  | .drawShardArrival _ => none
  | .drawShardTimeout _ => none
  | .powerMeasurement _ _ _ => none
  | .thermalTrip _ => none
  | .thermalTripClear => none
  | .supplyOutOfRange _ => none
  | .bringUp => none
  | .mov16 d a => some (0, [d.toNat, a.toNat])
  | .iadd16 d a => some (1, [d.toNat, a.toNat])
  | .isub16 d a => some (2, [d.toNat, a.toNat])
  | .imul16 d a => some (3, [d.toNat, a.toNat])
  | .and16 d a => some (4, [d.toNat, a.toNat])
  | .or16 d a => some (5, [d.toNat, a.toNat])
  | .xor16 d a => some (6, [d.toNat, a.toNat])
  | .shl16 d a => some (7, [d.toNat, a.toNat])
  | .shr16 d a => some (8, [d.toNat, a.toNat])
  | .sra16 d a => some (9, [d.toNat, a.toNat])
  | .imin16 d a => some (10, [d.toNat, a.toNat])
  | .imax16 d a => some (11, [d.toNat, a.toNat])
  | .fadd16 d a => some (12, [d.toNat, a.toNat])
  | .fsub16 d a => some (13, [d.toNat, a.toNat])
  | .fmul16 d a => some (14, [d.toNat, a.toNat])
  | .fmax16 d a => some (15, [d.toNat, a.toNat])
  | .nop => some (16, [0])
  | .stall n => some (16, [n.toNat])
  | .wait m => some (17, [m.toNat])
  | .yield => some (18, [])
  | .brk c => some (19, [c.toNat])
  | .iadd s d a b => some (20, [s.toNat, d.toNat, a.toNat, b.toNat])
  | .isub s d a b => some (21, [s.toNat, d.toNat, a.toNat, b.toNat])
  | .imin s d a b => some (22, [s.toNat, d.toNat, a.toNat, b.toNat])
  | .imax s d a b => some (23, [s.toNat, d.toNat, a.toNat, b.toNat])
  | .nmin s d a b => some (24, [s.toNat, d.toNat, a.toNat, b.toNat])
  | .nmax s d a b => some (25, [s.toNat, d.toNat, a.toNat, b.toNat])
  | .iabs s d a => some (26, [s.toNat, d.toNat, a.toNat])
  | .ineg s d a => some (27, [s.toNat, d.toNat, a.toNat])
  | .iaddW s d a b => some (28, [s.toNat, d.toNat, a.toNat, b.toNat])
  | .isubW s d a b => some (29, [s.toNat, d.toNat, a.toNat, b.toNat])
  | .iadds s d a b => some (30, [s.toNat, d.toNat, a.toNat, b.toNat])
  | .nadds s d a b => some (31, [s.toNat, d.toNat, a.toNat, b.toNat])
  | .imul s d a b => some (32, [s.toNat, d.toNat, a.toNat, b.toNat])
  | .imulh s d a b => some (33, [s.toNat, d.toNat, a.toNat, b.toNat])
  | .nmulh s d a b => some (34, [s.toNat, d.toNat, a.toNat, b.toNat])
  | .imad s d a b => some (35, [s.toNat, d.toNat, a.toNat, b.toNat])
  | .imadW s d a b => some (36, [s.toNat, d.toNat, a.toNat, b.toNat])
  | .idot4 s d a b => some (37, [s.toNat, d.toNat, a.toNat, b.toNat])
  | .ndot4 s d a b => some (38, [s.toNat, d.toNat, a.toNat, b.toNat])
  | .and s d a b => some (39, [s.toNat, d.toNat, a.toNat, b.toNat])
  | .or s d a b => some (40, [s.toNat, d.toNat, a.toNat, b.toNat])
  | .xor s d a b => some (41, [s.toNat, d.toNat, a.toNat, b.toNat])
  | .andn s d a b => some (42, [s.toNat, d.toNat, a.toNat, b.toNat])
  | .orn s d a b => some (43, [s.toNat, d.toNat, a.toNat, b.toNat])
  | .not s d a => some (44, [s.toNat, d.toNat, a.toNat])
  | .shl s d a b => some (45, [s.toNat, d.toNat, a.toNat, b.toNat])
  | .shr s d a b => some (46, [s.toNat, d.toNat, a.toNat, b.toNat])
  | .sra s d a b => some (47, [s.toNat, d.toNat, a.toNat, b.toNat])
  | .rotl s d a b => some (48, [s.toNat, d.toNat, a.toNat, b.toNat])
  | .shlW s d a b => some (49, [s.toNat, d.toNat, a.toNat, b.toNat])
  | .shrW s d a b => some (50, [s.toNat, d.toNat, a.toNat, b.toNat])
  | .sraW s d a b => some (51, [s.toNat, d.toNat, a.toNat, b.toNat])
  | .popc s d a => some (52, [s.toNat, d.toNat, a.toNat])
  | .clz s d a => some (53, [s.toNat, d.toNat, a.toNat])
  | .ctz s d a => some (54, [s.toNat, d.toNat, a.toNat])
  | .brev s d a => some (55, [s.toNat, d.toNat, a.toNat])
  | .bfei s d a b => some (56, [s.toNat, d.toNat, a.toNat, b.toNat])
  | .bfen s d a b => some (57, [s.toNat, d.toNat, a.toNat, b.toNat])
  | .bfi s d a b => some (58, [s.toNat, d.toNat, a.toNat, b.toNat])
  | .bmsk s d b => some (59, [s.toNat, d.toNat, b.toNat])
  | .iaddi s d a i => some (60, [s.toNat, d.toNat, a.toNat, i.toNat])
  | .andi s d a i => some (61, [s.toNat, d.toNat, a.toNat, i.toNat])
  | .shli s d a n => some (62, [s.toNat, d.toNat, a.toNat, n.toNat])
  | .shri s d a n => some (63, [s.toNat, d.toNat, a.toNat, n.toNat])
  | .srai s d a n => some (64, [s.toNat, d.toNat, a.toNat, n.toNat])
  | .ldi s d i => some (65, [s.toNat, d.toNat, i.toNat])
  | .ldih s d i => some (66, [s.toNat, d.toNat, i.toNat])
  | .mov s d a => some (67, [s.toNat, d.toNat, a.toNat])
  | .xmov s d a => some (68, [s.toNat, d.toNat, a.toNat])
  | .xset s d a => some (69, [s.toNat, d.toNat, a.toNat])
  | .sel s p d a v => some (70, [s.toNat, p.toNat, d.toNat, a.toNat, v.toNat])
  | .icmp s c p a b => some (71, [s.toNat, c.toNat, p.toNat, a.toNat, b.toNat])
  | .ncmp s c p a b => some (72, [s.toNat, c.toNat, p.toNat, a.toNat, b.toNat])
  | .fcmp s c p a b => some (73, [s.toNat, c.toNat, p.toNat, a.toNat, b.toNat])
  | .pmov s d q n => some (74, [s.toNat, d.toNat, q.toNat, n.toNat])
  | .pand s d q n => some (75, [s.toNat, d.toNat, q.toNat, n.toNat])
  | .por s d q n => some (76, [s.toNat, d.toNat, q.toNat, n.toNat])
  | .pxor s d q n => some (77, [s.toNat, d.toNat, q.toNat, n.toNat])
  | .pset s d k => some (78, [s.toNat, d.toNat, k.toNat])
  | .ptov s p d => some (79, [s.toNat, p.toNat, d.toNat])
  | .vtop s p a => some (80, [s.toNat, p.toNat, a.toNat])
  | .gadd s d a b => some (81, [s.toNat, d.toNat, a.toNat, b.toNat])
  | .gsub s d a b => some (82, [s.toNat, d.toNat, a.toNat, b.toNat])
  | .gmul s d a b => some (83, [s.toNat, d.toNat, a.toNat, b.toNat])
  | .gshl s d a b => some (84, [s.toNat, d.toNat, a.toNat, b.toNat])
  | .gshr s d a b => some (85, [s.toNat, d.toNat, a.toNat, b.toNat])
  | .gand s d a b => some (86, [s.toNat, d.toNat, a.toNat, b.toNat])
  | .gor s d a b => some (87, [s.toNat, d.toNat, a.toNat, b.toNat])
  | .gmin s d a b => some (88, [s.toNat, d.toNat, a.toNat, b.toNat])
  | .gmax s d a b => some (89, [s.toNat, d.toNat, a.toNat, b.toNat])
  | .gmov s d a => some (90, [s.toNat, d.toNat, a.toNat])
  | .gfrom s d b => some (91, [s.toNat, d.toNat, b.toNat])
  | .gfromw s d b => some (92, [s.toNat, d.toNat, b.toNat])
  | .gto s d a => some (93, [s.toNat, d.toNat, a.toNat])
  | .gtoh s d a => some (94, [s.toNat, d.toNat, a.toNat])
  | .gldi s d i => some (95, [s.toNat, d.toNat, i.toNat])
  | .gaddi s d a i => some (96, [s.toNat, d.toNat, a.toNat, i.toNat])
  | .gcmp s c p a b => some (97, [s.toNat, c.toNat, p.toNat, a.toNat, b.toNat])
  | .rshf s d a b => some (98, [s.toNat, d.toNat, a.toNat, b.toNat])
  | .rshfu s d a b => some (99, [s.toNat, d.toNat, a.toNat, b.toNat])
  | .rshfd s d a b => some (100, [s.toNat, d.toNat, a.toNat, b.toNat])
  | .rshfx s d a b => some (101, [s.toNat, d.toNat, a.toNat, b.toNat])
  | .qswph s d a => some (102, [s.toNat, d.toNat, a.toNat])
  | .qswpv s d a => some (103, [s.toNat, d.toNat, a.toNat])
  | .qswpd s d a => some (104, [s.toNat, d.toNat, a.toNat])
  | .qbcst s d a b => some (105, [s.toNat, d.toNat, a.toNat, b.toNat])
  | .cradd s d a => some (106, [s.toNat, d.toNat, a.toNat])
  | .crmin s d a => some (107, [s.toNat, d.toNat, a.toNat])
  | .crmax s d a => some (108, [s.toNat, d.toNat, a.toNat])
  | .crand s d a => some (109, [s.toNat, d.toNat, a.toNat])
  | .cror s d a => some (110, [s.toNat, d.toNat, a.toNat])
  | .crxor s d a => some (111, [s.toNat, d.toNat, a.toNat])
  | .cscani s d a => some (112, [s.toNat, d.toNat, a.toNat])
  | .cscane s d a => some (113, [s.toNat, d.toNat, a.toNat])
  | .crfadd s d a => some (114, [s.toNat, d.toNat, a.toNat])
  | .crfmin s d a => some (115, [s.toNat, d.toNat, a.toNat])
  | .crfmax s d a => some (116, [s.toNat, d.toNat, a.toNat])
  | .crank s d => some (117, [s.toNat, d.toNat])
  | .csize s d => some (118, [s.toNat, d.toNat])
  | .cmaxi s d a => some (119, [s.toNat, d.toNat, a.toNat])
  | .vany s d q n => some (120, [s.toNat, d.toNat, q.toNat, n.toNat])
  | .vall s d q n => some (121, [s.toNat, d.toNat, q.toNat, n.toNat])
  | .vuni s d q n => some (122, [s.toNat, d.toNat, q.toNat, n.toNat])
  | .celect s d => some (123, [s.toNat, d.toNat])
  | .vbal s p d => some (124, [s.toNat, p.toNat, d.toNat])
  | .vbalQuad s p d => some (125, [s.toNat, p.toNat, d.toNat])
  | .matchRank s d a => some (126, [s.toNat, d.toNat, a.toNat])
  | .fadd s i o d a b => some (127, [s.toNat, i.toNat, o.toNat, d.toNat, a.toNat, b.toNat])
  | .fsub s i o d a b => some (128, [s.toNat, i.toNat, o.toNat, d.toNat, a.toNat, b.toNat])
  | .fabsd s i o d a b => some (129, [s.toNat, i.toNat, o.toNat, d.toNat, a.toNat, b.toNat])
  | .fmul s i o d a b => some (130, [s.toNat, i.toNat, o.toNat, d.toNat, a.toNat, b.toNat])
  | .ffma s i o d a b => some (131, [s.toNat, i.toNat, o.toNat, d.toNat, a.toNat, b.toNat])
  | .ffms s i o d a b => some (132, [s.toNat, i.toNat, o.toNat, d.toNat, a.toNat, b.toNat])
  | .fnfma s i o d a b => some (133, [s.toNat, i.toNat, o.toNat, d.toNat, a.toNat, b.toNat])
  | .fmin s i o d a b => some (134, [s.toNat, i.toNat, o.toNat, d.toNat, a.toNat, b.toNat])
  | .fmax s i o d a b => some (135, [s.toNat, i.toNat, o.toNat, d.toNat, a.toNat, b.toNat])
  | .fminn s i o d a b => some (136, [s.toNat, i.toNat, o.toNat, d.toNat, a.toNat, b.toNat])
  | .fmaxn s i o d a b => some (137, [s.toNat, i.toNat, o.toNat, d.toNat, a.toNat, b.toNat])
  | .fabs s i o d a => some (138, [s.toNat, i.toNat, o.toNat, d.toNat, a.toNat])
  | .fneg s i o d a => some (139, [s.toNat, i.toNat, o.toNat, d.toNat, a.toNat])
  | .frcp s i o d a => some (140, [s.toNat, i.toNat, o.toNat, d.toNat, a.toNat])
  | .frsq s i o d a => some (141, [s.toNat, i.toNat, o.toNat, d.toNat, a.toNat])
  | .fsqrt s i o d a => some (142, [s.toNat, i.toNat, o.toNat, d.toNat, a.toNat])
  | .fexp2 s i o d a => some (143, [s.toNat, i.toNat, o.toNat, d.toNat, a.toNat])
  | .flog2 s i o d a => some (144, [s.toNat, i.toNat, o.toNat, d.toNat, a.toNat])
  | .fsin s i o d a => some (145, [s.toNat, i.toNat, o.toNat, d.toNat, a.toNat])
  | .fcos s i o d a => some (146, [s.toNat, i.toNat, o.toNat, d.toNat, a.toNat])
  | .ftanh s i o d a => some (147, [s.toNat, i.toNat, o.toNat, d.toNat, a.toNat])
  | .fsigm s i o d a => some (148, [s.toNat, i.toNat, o.toNat, d.toNat, a.toNat])
  | .fflr s i o d a => some (149, [s.toNat, i.toNat, o.toNat, d.toNat, a.toNat])
  | .fceil s i o d a => some (150, [s.toNat, i.toNat, o.toNat, d.toNat, a.toNat])
  | .ftrnc s i o d a => some (151, [s.toNat, i.toNat, o.toNat, d.toNat, a.toNat])
  | .frndn s i o d a => some (152, [s.toNat, i.toNat, o.toNat, d.toNat, a.toNat])
  | .fclass s i o d a => some (153, [s.toNat, i.toNat, o.toNat, d.toNat, a.toNat])
  | .fdiv s i o d a b => some (154, [s.toNat, i.toNat, o.toNat, d.toNat, a.toNat, b.toNat])
  | .fscl s i o d a b => some (155, [s.toNat, i.toNat, o.toNat, d.toNat, a.toNat, b.toNat])
  | .fexpo s i o d a => some (156, [s.toNat, i.toNat, o.toNat, d.toNat, a.toNat])
  | .fmant s i o d a => some (157, [s.toNat, i.toNat, o.toNat, d.toNat, a.toNat])
  | .fcvt s i o d a f => some (158, [s.toNat, i.toNat, o.toNat, d.toNat, a.toNat, f.toNat])
  | .ffin s r d a f => some (159, [s.toNat, r.toNat, d.toNat, a.toNat, f.toNat])
  | .fpack s r t d a b => some (160, [s.toNat, r.toNat, t.toNat, d.toNat, a.toNat, b.toNat])
  | .fpk8 s r d a l f => some (161, [s.toNat, r.toNat, d.toNat, a.toNat, l.toNat, f.toNat])
  | .funpk s d a l c => some (162, [s.toNat, d.toNat, a.toNat, l.toNat, c.toNat])
  | .ftoi s r d a f => some (163, [s.toNat, r.toNat, d.toNat, a.toNat, f.toNat])
  | .itof s d a f => some (164, [s.toNat, d.toNat, a.toNat, f.toNat])
  | .stkget s p a => some (165, [s.toNat, p.toNat, a.toNat])
  | .stkset s p d => some (166, [s.toNat, p.toNat, d.toNat])
  | .rng32 s d a b => some (167, [s.toNat, d.toNat, a.toNat, b.toNat])
  | .rngu s d a b => some (168, [s.toNat, d.toNat, a.toNat, b.toNat])
  | .rngg s d a b => some (169, [s.toNat, d.toNat, a.toNat, b.toNat])
  | .draw s d g a => some (170, [s.toNat, d.toNat, g.toNat, a.toNat])
  | .ld s z x q d g a t => some (171, [s.toNat, z.toNat, x.toNat, q.toNat, d.toNat, g.toNat, a.toNat, t.toNat])
  | .ldq s q d g a t => some (172, [s.toNat, q.toNat, d.toNat, g.toNat, a.toNat, t.toNat])
  | .ldf s f d g a t => some (173, [s.toNat, f.toNat, d.toNat, g.toNat, a.toNat, t.toNat])
  | .st s z r d g a => some (174, [s.toNat, z.toNat, r.toNat, d.toNat, g.toNat, a.toNat])
  | .stq s d g a => some (175, [s.toNat, d.toNat, g.toNat, a.toNat])
  | .stfF32 s r d g a => some (176, [s.toNat, r.toNat, d.toNat, g.toNat, a.toNat])
  | .stfBf16 s r d g a => some (177, [s.toNat, r.toNat, d.toNat, g.toNat, a.toNat])
  | .stfF16 s r d g a => some (178, [s.toNat, r.toNat, d.toNat, g.toNat, a.toNat])
  | .stfE4m3 s r d g a => some (179, [s.toNat, r.toNat, d.toNat, g.toNat, a.toNat])
  | .stfE5m2 s r d g a => some (180, [s.toNat, r.toNat, d.toNat, g.toNat, a.toNat])
  | .stfE2m1 s r d g a => some (181, [s.toNat, r.toNat, d.toNat, g.toNat, a.toNat])
  | .stimg s d g a => some (182, [s.toNat, d.toNat, g.toNat, a.toNat])
  | .ldimg s d g a t => some (183, [s.toNat, d.toNat, g.toNat, a.toNat, t.toNat])
  | .ldfe s c d g a t => some (184, [s.toNat, c.toNat, d.toNat, g.toNat, a.toNat, t.toNat])
  | .stfe s w d g a => some (185, [s.toNat, w.toNat, d.toNat, g.toNat, a.toNat])
  | .stcmp s d g a t => some (186, [s.toNat, d.toNat, g.toNat, a.toNat, t.toNat])
  | .atomAdd s d g a t => some (187, [s.toNat, d.toNat, g.toNat, a.toNat, t.toNat])
  | .atomMinI s d g a t => some (188, [s.toNat, d.toNat, g.toNat, a.toNat, t.toNat])
  | .atomMaxI s d g a t => some (189, [s.toNat, d.toNat, g.toNat, a.toNat, t.toNat])
  | .atomMinN s d g a t => some (190, [s.toNat, d.toNat, g.toNat, a.toNat, t.toNat])
  | .atomMaxN s d g a t => some (191, [s.toNat, d.toNat, g.toNat, a.toNat, t.toNat])
  | .atomAnd s d g a t => some (192, [s.toNat, d.toNat, g.toNat, a.toNat, t.toNat])
  | .atomOr s d g a t => some (193, [s.toNat, d.toNat, g.toNat, a.toNat, t.toNat])
  | .atomXor s d g a t => some (194, [s.toNat, d.toNat, g.toNat, a.toNat, t.toNat])
  | .atomExch s d g a t => some (195, [s.toNat, d.toNat, g.toNat, a.toNat, t.toNat])
  | .atomCas s d g a t => some (196, [s.toNat, d.toNat, g.toNat, a.toNat, t.toNat])
  | .atomAddW s d g a t => some (197, [s.toNat, d.toNat, g.toNat, a.toNat, t.toNat])
  | .atomFadd s d g a t => some (198, [s.toNat, d.toNat, g.toNat, a.toNat, t.toNat])
  | .redAdd s d g a => some (199, [s.toNat, d.toNat, g.toNat, a.toNat])
  | .redMinI s d g a => some (200, [s.toNat, d.toNat, g.toNat, a.toNat])
  | .redMaxI s d g a => some (201, [s.toNat, d.toNat, g.toNat, a.toNat])
  | .redMinN s d g a => some (202, [s.toNat, d.toNat, g.toNat, a.toNat])
  | .redMaxN s d g a => some (203, [s.toNat, d.toNat, g.toNat, a.toNat])
  | .redAnd s d g a => some (204, [s.toNat, d.toNat, g.toNat, a.toNat])
  | .redOr s d g a => some (205, [s.toNat, d.toNat, g.toNat, a.toNat])
  | .redXor s d g a => some (206, [s.toNat, d.toNat, g.toNat, a.toNat])
  | .redAddW s d g a => some (207, [s.toNat, d.toNat, g.toNat, a.toNat])
  | .redFadd s d g a => some (208, [s.toNat, d.toNat, g.toNat, a.toNat])
  | .fence s m h => some (209, [s.toNat, m.toNat, h.toNat])
  | .pftch s g a => some (210, [s.toNat, g.toNat, a.toNat])
  | .cwb s g a => some (211, [s.toNat, g.toNat, a.toNat])
  | .cinv s g a => some (212, [s.toNat, g.toNat, a.toNat])
  | .cwbi s g a => some (213, [s.toNat, g.toNat, a.toNat])
  | .czero s g a => some (214, [s.toNat, g.toNat, a.toNat])
  | .pin s w a b => some (215, [s.toNat, w.toNat, a.toNat, b.toNat])
  | .unpin s w => some (216, [s.toNat, w.toNat])
  | .ldg s d a i => some (217, [s.toNat, d.toNat, a.toNat, i.toNat])
  | .stg s d a i => some (218, [s.toNat, d.toNat, a.toNat, i.toNat])
  | .pgalloc s d a b => some (219, [s.toNat, d.toNat, a.toNat, b.toNat])
  | .pgshare s d a b => some (220, [s.toNat, d.toNat, a.toNat, b.toNat])
  | .pgfree s d a b => some (221, [s.toNat, d.toNat, a.toNat, b.toNat])
  | .pginfo s d a => some (222, [s.toNat, d.toNat, a.toNat])
  | .pgrsv s d a => some (223, [s.toNat, d.toNat, a.toNat])
  | .copy s b g u x r l n => some (224, [s.toNat, b.toNat, g.toNat, u.toNat, x.toNat, r.toNat, l.toNat, n.toNat])
  | .copyt s b g u r n => some (225, [s.toNat, b.toNat, g.toNat, u.toNat, r.toNat, n.toNat])
  | .gath s b g u x r l n => some (226, [s.toNat, b.toNat, g.toNat, u.toNat, x.toNat, r.toNat, l.toNat, n.toNat])
  | .scat s b g u x r l n => some (227, [s.toNat, b.toNat, g.toNat, u.toNat, x.toNat, r.toNat, l.toNat, n.toNat])
  | .copyr s b g u x c n => some (228, [s.toNat, b.toNat, g.toNat, u.toNat, x.toNat, c.toNat, n.toNat])
  | .waite s c i => some (229, [s.toNat, c.toNat, i.toNat])
  | .qpost s d g a t => some (230, [s.toNat, d.toNat, g.toNat, a.toNat, t.toNat])
  | .binit s b u => some (231, [s.toNat, b.toNat, u.toNat])
  | .barv s b => some (232, [s.toNat, b.toNat])
  | .barvPass s b => some (233, [s.toNat, b.toNat])
  | .barvExpect s b u => some (234, [s.toNat, b.toNat, u.toNat])
  | .bwait s d b => some (235, [s.toNat, d.toNat, b.toNat])
  | .btest s p a b => some (236, [s.toNat, p.toNat, a.toNat, b.toNat])
  | .barg s => some (237, [s.toNat])
  | .bargCount s d => some (238, [s.toNat, d.toNat])
  | .pnset s a f => some (239, [s.toNat, a.toNat, f.toNat])
  | .pnmin s a f => some (240, [s.toNat, a.toNat, f.toNat])
  | .pnmax s a f => some (241, [s.toNat, a.toNat, f.toNat])
  | .pnrd s d f => some (242, [s.toNat, d.toNat, f.toNat])
  | .tspawn s d g => some (243, [s.toNat, d.toNat, g.toNat])
  | .trange s d a b => some (244, [s.toNat, d.toNat, a.toNat, b.toNat])
  | .tclaim s d a => some (245, [s.toNat, d.toNat, a.toNat])
  | .tflush s => some (246, [s.toNat])
  | .acqx s => some (247, [s.toNat])
  | .relx s => some (248, [s.toNat])
  | .trap s c => some (249, [s.toNat, c.toNat])
  | .tretResume s => some (250, [s.toNat])
  | .tretSkip s => some (251, [s.toNat])
  | .tretRetire s => some (252, [s.toNat])
  | .smov s d n => some (253, [s.toNat, d.toNat, n.toNat])
  | .sset s d n => some (254, [s.toNat, d.toNat, n.toNat])
  | .halt s => some (255, [s.toNat])
  | .jmp s t => some (256, [s.toNat, t.toNat])
  | .brc s t p v => some (257, [s.toNat, t.toNat, p.toNat, v.toNat])
  | .brx s a => some (258, [s.toNat, a.toNat])
  | .call s t => some (259, [s.toNat, t.toNat])
  | .exit s p v => some (260, [s.toNat, p.toNat, v.toNat])
  | .mma s m c a b k w => some (261, [s.toNat, m.toNat, c.toNat, a.toNat, b.toNat, k.toNat, w.toNat])
  | .mmas s m c a b k w => some (262, [s.toNat, m.toNat, c.toNat, a.toNat, b.toNat, k.toNat, w.toNat])
  | .mmax s m c a b k w => some (263, [s.toNat, m.toNat, c.toNat, a.toNat, b.toNat, k.toNat, w.toNat])
  | .mzero s c b w => some (264, [s.toNat, c.toNat, b.toNat, w.toNat])
  | .mldc s c a k w => some (265, [s.toNat, c.toNat, a.toNat, k.toNat, w.toNat])
  | .mstc s c a r k w => some (266, [s.toNat, c.toNat, a.toNat, r.toNat, k.toNat, w.toNat])
  | .mcopy s c k w => some (267, [s.toNat, c.toNat, k.toNat, w.toNat])
  | .mscale s c b w => some (268, [s.toNat, c.toNat, b.toNat, w.toNat])
  | .mdep s c a => some (269, [s.toNat, c.toNat, a.toNat])
  | .mstat s a k => some (270, [s.toNat, 0, a.toNat, k.toNat])
  | .mstatProg s c a => some (270, [s.toNat, c.toNat, a.toNat, 3])
  | .mrel s a k => some (271, [s.toNat, a.toNat, k.toNat])
  | .msmx s c k w => some (272, [s.toNat, c.toNat, k.toNat, w.toNat])
  | .msmf s k w => some (273, [s.toNat, k.toNat, w.toNat])
  | .mrd s m d a => some (274, [s.toNat, m.toNat, d.toNat, a.toNat])
  | .mwr s m d a => some (275, [s.toNat, m.toNat, d.toNat, a.toNat])
  | .illegalInstruction => none
  | .peerErrorAnswer _ _ _ => none

/-- The BLK word (R57, R77 format H, R263): staged pairs, quad, extended, no-demote and block id. -/
def blkSegs : List Seg := [.fix 10 897, .fld 12, .fld 5, .fld 1, .fld 1, .fld 1, .fix 2 0]

/-- The IF halfword (R54, R75 kind 1). -/
def ifSegs : List Seg := [.fix 5 6, .fld 7, .fld 1, .fix 3 0]

/-- The HINT halfword (R75 kind 5). -/
def hintSegs : List Seg := [.fix 5 22, .fld 2, .fix 9 0]

/-- Why a word is no instruction (R72, R87 step 1). -/
inductive Reject where
  /-- the halfword 0x0000 -/
  | zeroHalfword
  /-- no row of the encoding table has the word: a reserved opcode, code, field or bit -/
  | reserved
  /-- a field of the row's word holds a reserved value -/
  | reservedValue
  /-- the word runs past the bytes given -/
  | pastEnd
  deriving DecidableEq, Repr

/-- What a word is. -/
inductive Decoded where
  | blk (id live : Nat) (quad ext noDemote : Bool)
  | guard (p : BitVec 7) (sense : Bool)
  | hint (cls : BitVec 2)
  | instr (i : Instr)
  | reject (r : Reject)
  deriving DecidableEq, Repr

/-- The instruction of the first row whose fixed bits the word has. -/
def firstRow : List Row → Nat → Option Instr
  | [], _ => none
  | r :: rest, w => match unpackSegs r.segs w with
    | some xs => r.build xs
    | none => firstRow rest w

/-- The instruction of the first row of the word's width. -/
noncomputable def rowInstr (wide : Bool) (w : Nat) : Option Instr :=
  firstRow (rows.filter fun r => segsWidth r.segs == if wide then 32 else 16) w

/-- A word of the given width, read whole (R71, R75, R87 step 1). -/
noncomputable def decodeWord (wide : Bool) (w : Nat) : Decoded :=
  if !wide && w == 0 then .reject .zeroHalfword
  else match (if wide then unpackSegs blkSegs w else none), (if wide then none else unpackSegs ifSegs w),
      (if wide then none else unpackSegs hintSegs w) with
    | some [id, live, q, x, n], _, _ => .blk id live (q == 1) (x == 1) (n == 1)
    | _, some [p, v], _ => .guard (BitVec.ofNat 7 p) (v == 1)
    | _, _, some [c] => .hint (BitVec.ofNat 2 c)
    | _, _, _ => match rowInstr wide w with
      | none => .reject .reserved
      | some i => if wellFormed i then .instr i else .reject .reservedValue

/-- The word that begins a list of bytes, and its length in bytes (R71: little-endian, bit 0 gives the length). -/
noncomputable def decode : List Byte → Decoded × Nat
  | b0 :: b1 :: rest =>
    if b0.getLsbD 0 then
      match rest with
      | b2 :: b3 :: _ => (decodeWord true (b0.toNat + 2 ^ 8 * b1.toNat + 2 ^ 16 * b2.toNat + 2 ^ 24 * b3.toNat), 4)
      | _ => (.reject .pastEnd, 4)
    else (decodeWord false (b0.toNat + 2 ^ 8 * b1.toNat), 2)
  | _ => (.reject .pastEnd, 2)

/-- The bytes of a number, low byte first (R2). -/
def bytesOf : Nat → Nat → List Byte
  | 0, _ => []
  | n + 1, x => BitVec.ofNat 8 x :: bytesOf n (x / 2 ^ 8)

/-- The number that bytes hold, low byte first (R2). -/
def natOfBytes : List Byte → Nat
  | [] => 0
  | b :: rest => b.toNat + 2 ^ 8 * natOfBytes rest

/-- The word of an instruction and its length in bytes; an event has none. -/
noncomputable def encodeWord (i : Instr) : Option (Nat × Nat) :=
  match codeOf i with
  | none => none
  | some (k, xs) => match rows[k]? with
    | none => none
    | some r => some (packSegs r.segs xs, segsWidth r.segs / 8)

/-- The bytes of an instruction in the order the text holds them. -/
noncomputable def encode (i : Instr) : List Byte :=
  match encodeWord i with
  | none => []
  | some (w, n) => bytesOf n w

/-- The length in bytes of an instruction's word; 0 for an event. -/
noncomputable def wordLen (i : Instr) : Nat :=
  match encodeWord i with
  | none => 0
  | some (_, n) => n

/-- The instruction of a decoded word, if it is one. -/
def Decoded.instr? : Decoded → Option Instr
  | .instr i => some i
  | _ => none

/-- The instruction the decoder reads from a word numbered as the opcode table numbers its bits; the words of this
hardware have exactly the bits the table gives them, so nothing is appended. -/
noncomputable def decodeTableWord (nbits w : Nat) : Option Instr := (decode (bytesOf (nbits / 8) w)).1.instr?

end Sys2Proof
end

