-- ==== Sys2Proof/Machine/Number.lean ====
section
/-! DEFINITION. Exact numbers, rounding to odd, the element formats and finalisation (02_numbers R18 to R48). Every
rounding is taken from exact integers: a magnitude is n/d × 2^e and a grid step is a power of two. -/

namespace Sys2Proof.Machine

/-- An exact number (-1)^neg × n/d × 2^e; `d` is never 0 in the numbers this model builds. -/
structure Ex where
  neg : Bool
  n   : Nat
  d   : Nat
  e   : Int
  deriving DecidableEq, Repr

/-- What a carrier or an element denotes: NaN, an infinity, or a number. A zero keeps its sign in `neg`. -/
inductive Val where
  | nan
  | inf (neg : Bool)
  | num (x : Ex)
  deriving DecidableEq, Repr

def Ex.zero (neg : Bool) : Ex := { neg := neg, n := 0, d := 1, e := 0 }

def Ex.isZero (x : Ex) : Bool := x.n == 0

def Ex.negate (x : Ex) : Ex := { x with neg := !x.neg }

def Ex.abs (x : Ex) : Ex := { x with neg := false }

def Ex.ofNat (n : Nat) : Ex := { neg := false, n := n, d := 1, e := 0 }

def Ex.ofInt (i : Int) : Ex := { neg := decide (i < 0), n := i.natAbs, d := 1, e := 0 }

/-- 2^k, exactly. -/
def Ex.pow2 (k : Int) : Ex := { neg := false, n := 1, d := 1, e := k }

/-- 2^k as a natural number, 1 for a negative k. -/
def twoTo (k : Int) : Nat := 2 ^ k.toNat

/-- The signed numerator of `x` over the denominator `x.d × 2^(-lo)`, for `lo ≤ x.e`. -/
def Ex.scaled (x : Ex) (lo : Int) : Int :=
  let m : Int := (x.n * twoTo (x.e - lo) : Nat)
  if x.neg then -m else m

/-- Exact sum; an exact zero is +0 unless both operands are -0 or the sum is of zeros signed minus (R29). -/
def Ex.add (x y : Ex) : Ex :=
  let lo := min x.e y.e
  let m := x.scaled lo * (y.d : Int) + y.scaled lo * (x.d : Int)
  if m = 0 then Ex.zero (x.isZero && y.isZero && x.neg && y.neg)
  else { neg := decide (m < 0), n := m.natAbs, d := x.d * y.d, e := lo }

def Ex.sub (x y : Ex) : Ex := x.add y.negate

def Ex.mul (x y : Ex) : Ex :=
  { neg := x.neg != y.neg, n := x.n * y.n, d := x.d * y.d, e := x.e + y.e }

/-- Exact quotient by a non-zero number. -/
def Ex.div (x y : Ex) : Ex :=
  { neg := x.neg != y.neg, n := x.n * y.d, d := x.d * y.n, e := x.e - y.e }

/-- x × 2^k. -/
def Ex.scale (x : Ex) (k : Int) : Ex := { x with e := x.e + k }

/-- The exact comparison of two numbers: negative, zero or positive as x < y, x = y, x > y. -/
def Ex.cmp (x y : Ex) : Int :=
  let lo := min x.e y.e
  x.scaled lo * (y.d : Int) - y.scaled lo * (x.d : Int)

def Ex.lt (x y : Ex) : Bool := decide (x.cmp y < 0)

def Ex.le (x y : Ex) : Bool := decide (x.cmp y ≤ 0)

def Ex.eq (x y : Ex) : Bool := decide (x.cmp y = 0)

/-- |x| ÷ 2^u as a quotient, a remainder and the divisor of the remainder. -/
def Ex.onGrid (x : Ex) (u : Int) : Nat × Nat × Nat :=
  let num := x.n * twoTo (x.e - u)
  let den := x.d * twoTo (u - x.e)
  (num / den, num % den, den)

/-- The exponent k of a non-zero x: 2^k ≤ |x| < 2^(k+1) (R28). -/
def Ex.log2 (x : Ex) : Int :=
  let k : Int := (Nat.log2 x.n : Int) - (Nat.log2 x.d : Int) + x.e
  if (x.onGrid k).1 = 0 then k - 1 else k

/-- Rounding to odd of a quotient: the truncation, or the odd neighbour when something was cut off (R28). -/
def oddOf (q r : Nat) : Nat := if r = 0 then q else 2 * (q / 2) + 1

/-- ro(x, p, m) of R28: the multiple and the step's exponent; x is not zero. -/
def roGrid (x : Ex) (p : Int) (m : Int) : Nat × Int :=
  let u := max (x.log2 - p + 1) m
  let (q, r, _) := x.onGrid u
  (oddOf q r, u)

/-- ro(x, p, m) as a number (R28). -/
def ro (x : Ex) (p : Int) (m : Int) : Ex :=
  if x.isZero then x
  else
    let (q, u) := roGrid x p m
    { neg := x.neg, n := q, d := 1, e := u }

/-- The F32 pattern of a sign, an exponent field and a fraction. -/
def f32Pattern (neg : Bool) (e f : Nat) : Word :=
  BitVec.ofNat 32 ((if neg then 2 ^ 31 else 0) + e * 2 ^ 23 + f)

/-- The canonical NaN as a carrier (R20, R30). -/
def Carrier.nan : Carrier := { w := 0x7FC00000#32, s := false }

def Carrier.inf (neg : Bool) : Carrier := { w := f32Pattern neg 255 0, s := false }

def Carrier.zeroOf (neg : Bool) : Carrier := { w := f32Pattern neg 0 0, s := false }

/-- The overflow carrier (R24). -/
def Carrier.overflow (neg : Bool) : Carrier := { w := f32Pattern neg 254 0x7FFFFF, s := true }

/-- carry(x) of R29; a zero keeps the sign that `x` gives it. -/
def carry (x : Ex) : Carrier :=
  if x.isZero then Carrier.zeroOf x.neg
  else if x.log2 ≥ 128 then Carrier.overflow x.neg
  else
    let (q, u) := roGrid x 25 (-150)
    let m := q / 2
    { w := if m < 2 ^ 23 then f32Pattern x.neg 0 m else f32Pattern x.neg (u + 151).toNat (m - 2 ^ 23)
      s := decide (q % 2 = 1) }

/-- The number a carrier denotes (R24, R25). -/
def carrierVal (c : Carrier) : Val :=
  let neg := c.w.getLsbD 31
  let e := (c.w >>> 23).toNat % 256
  let f := c.w.toNat % 2 ^ 23
  if e = 255 then (if f = 0 then .inf neg else .nan)
  else
    let sig := if e = 0 then f else 2 ^ 23 + f
    .num { neg := neg, n := 2 * sig + c.s.toNat, d := 1, e := (max e 1 : Nat) - 151 }

/-- carry for any value: NaN is the canonical NaN, an infinity is itself with S = 0 (R30). -/
def carryVal : Val → Carrier
  | .nan => Carrier.nan
  | .inf neg => Carrier.inf neg
  | .num x => carry x

/-- A value with its sign flipped. -/
def Val.negate : Val → Val
  | .nan => .nan
  | .inf neg => .inf (!neg)
  | .num x => .num x.negate

def Val.isNan : Val → Bool
  | .nan => true
  | _ => false

/-- A result and whether it was invalid (R30): NaN from operands that are not NaN. -/
abbrev Inv := Val × Bool

/-- a + b with the IEEE cases of R29 and R30. -/
def Val.add : Val → Val → Inv
  | .nan, _ => (.nan, false)
  | _, .nan => (.nan, false)
  | .inf a, .inf b => if a = b then (.inf a, false) else (.nan, true)
  | .inf a, .num _ => (.inf a, false)
  | .num _, .inf b => (.inf b, false)
  | .num x, .num y => (.num (x.add y), false)

/-- a × b with the IEEE cases of R29 and R30. -/
def Val.mul : Val → Val → Inv
  | .nan, _ => (.nan, false)
  | _, .nan => (.nan, false)
  | .inf a, .inf b => (.inf (a != b), false)
  | .inf a, .num y => if y.isZero then (.nan, true) else (.inf (a != y.neg), false)
  | .num x, .inf b => if x.isZero then (.nan, true) else (.inf (x.neg != b), false)
  | .num x, .num y => (.num (x.mul y), false)

/-- a ÷ b (R310). -/
def Val.div : Val → Val → Inv
  | .nan, _ => (.nan, false)
  | _, .nan => (.nan, false)
  | .inf _, .inf _ => (.nan, true)
  | .inf a, .num y => (.inf (a != y.neg), false)
  | .num x, .inf b => (.num (Ex.zero (x.neg != b)), false)
  | .num x, .num y =>
    if y.isZero then (if x.isZero then (.nan, true) else (.inf (x.neg != y.neg), false))
    else (.num (x.div y), false)

/-- a × b + c, rounded nowhere (R306). -/
def Val.fma (a b c : Val) : Inv :=
  match c with
  | .nan => (.nan, false)
  | _ =>
    let (p, bad) := Val.mul a b
    if bad then (.nan, true) else Val.add p c

/-- The order of R26 on values that are not NaN: the sign of a − b. -/
def Val.cmp : Val → Val → Int
  | .nan, _ => 0
  | _, .nan => 0
  | .inf a, .inf b => if a = b then 0 else if a then -1 else 1
  | .inf a, .num _ => if a then -1 else 1
  | .num _, .inf b => if b then 1 else -1
  | .num x, .num y => x.cmp y

/-- The parameters of a float format of R20. -/
structure Fmt where
  expBits : Nat
  fracBits : Nat
  bias : Nat
  /-- the largest finite value is maxSig × 2^maxExp -/
  maxSig : Nat
  maxExp : Int
  hasInf : Bool
  hasNan : Bool
  /-- the exponent field is all ones for finite values too, as in E4M3 -/
  topFinite : Bool
  deriving DecidableEq, Repr

def Fmt.q (f : Fmt) : Int := f.fracBits + 1
def Fmt.emin (f : Fmt) : Int := 1 - (f.bias : Int)
def Fmt.width (f : Fmt) : Nat := 1 + f.expBits + f.fracBits

def fmtF32 : Fmt := ⟨8, 23, 127, 0xFFFFFF, 104, true, true, false⟩
def fmtBF16 : Fmt := ⟨8, 7, 127, 0xFF, 120, true, true, false⟩
def fmtF16 : Fmt := ⟨5, 10, 15, 0x7FF, 5, true, true, false⟩
def fmtE4M3 : Fmt := ⟨4, 3, 7, 14, 5, false, true, true⟩
def fmtE5M2 : Fmt := ⟨5, 2, 15, 7, 13, true, true, false⟩
def fmtE3M2 : Fmt := ⟨3, 2, 3, 7, 2, false, false, true⟩
def fmtE2M3 : Fmt := ⟨2, 3, 1, 15, -1, false, false, true⟩
def fmtE2M1 : Fmt := ⟨2, 1, 1, 3, 1, false, false, true⟩

/-- The float format of a code of R18, codes 0 to 7. -/
def floatFmt : Nat → Option Fmt
  | 0 => some fmtF32
  | 1 => some fmtBF16
  | 2 => some fmtF16
  | 3 => some fmtE4M3
  | 4 => some fmtE5M2
  | 5 => some fmtE3M2
  | 6 => some fmtE2M3
  | 7 => some fmtE2M1
  | _ => none

/-- The width in bits of an element of a format code (R18); 0 for a reserved code. -/
def fmtBits : Nat → Nat
  | 0 => 32
  | 1 => 16
  | 2 => 16
  | 3 => 8
  | 4 => 8
  | 5 => 6
  | 6 => 6
  | 7 => 4
  | 8 => 8
  | 9 => 8
  | 10 => 8
  | 11 => 16
  | 12 => 32
  | 13 => 32
  | _ => 0

/-- The value an element pattern denotes (R20). -/
def fmtVal (f : Fmt) (bits : Nat) : Val :=
  let neg := decide (bits / 2 ^ (f.expBits + f.fracBits) % 2 = 1)
  let e := bits / 2 ^ f.fracBits % 2 ^ f.expBits
  let fr := bits % 2 ^ f.fracBits
  let top := 2 ^ f.expBits - 1
  if e = top ∧ f.hasInf then (if fr = 0 then .inf neg else .nan)
  else if e = top ∧ f.hasNan ∧ fr = 2 ^ f.fracBits - 1 then .nan
  else
    let sig := if e = 0 then fr else 2 ^ f.fracBits + fr
    .num { neg := neg, n := sig, d := 1, e := (max e 1 : Nat) - (f.bias : Int) - (f.fracBits : Int) }

/-- The canonical NaN pattern of a format that has one (R20). -/
def fmtNan (f : Fmt) : Nat :=
  if f.hasInf then (2 ^ f.expBits - 1) * 2 ^ f.fracBits + 2 ^ (f.fracBits - 1)
  else 2 ^ (f.expBits + f.fracBits) - 1

/-- The pattern of q × 2^u, a number on the format's grid and not above its largest finite value. -/
def fmtPattern (f : Fmt) (neg : Bool) (q : Nat) (u : Int) : Nat :=
  let sign := if neg then 2 ^ (f.expBits + f.fracBits) else 0
  if q = 0 then sign
  else
    let x : Ex := { neg := false, n := q, d := 1, e := u }
    let k := x.log2
    if k < f.emin then sign + (x.onGrid (f.emin - f.fracBits)).1
    else sign + (k + f.bias).toNat * 2 ^ f.fracBits + ((x.onGrid (k - f.fracBits)).1 - 2 ^ f.fracBits)

/-- The rounding modes of R33. -/
inductive Round where
  | rne
  | rz
  | ru
  | rd
  | rna
  | sr
  | ro
  deriving DecidableEq, Repr

/-- The mode of a code of R33; 7 to 15 name none. -/
def roundOf : Nat → Option Round
  | 0 => some .rne
  | 1 => some .rz
  | 2 => some .ru
  | 3 => some .rd
  | 4 => some .rna
  | 5 => some .sr
  | 6 => some .ro
  | _ => none

/-- Whether an inexact magnitude q + r/den steps (0 < r < den) goes to hi, the neighbour away from zero (R33, R38).
`dither` is the stochastic source and `range` its span: hi when dither < (r/den) × range. -/
def goesUp (mode : Round) (neg : Bool) (q r den : Nat) (dither range : Nat) : Bool :=
  match mode with
  | .rne => decide (2 * r > den) || (decide (2 * r = den) && decide (q % 2 = 1))
  | .rz => false
  | .ru => !neg
  | .rd => neg
  | .rna => decide (2 * r ≥ den)
  | .sr => decide (dither * den < r * range)
  | .ro => decide (q % 2 = 0)

/-- The FSTAT bits of Table 2-2. -/
def flagNV : Word := 1#32
def flagOF : Word := 2#32
def flagUF : Word := 4#32
def flagNX : Word := 8#32
def flagNN : Word := 16#32

/-- A finalised value: NaN, an infinity, or a sign with q × 2^u on the format's grid. -/
inductive Fin where
  | nan
  | inf (neg : Bool)
  | num (neg : Bool) (q : Nat) (u : Int)
  deriving DecidableEq, Repr

/-- The largest finite value of a format, with a sign. -/
def finMax (f : Fmt) (neg : Bool) : Fin := .num neg f.maxSig f.maxExp

/-- fin(c, F, mode) of R34, on the value c denotes: the value and the FSTAT bits it sets. -/
def finVal (v : Val) (f : Fmt) (mode : Round) (dither range : Nat) : Fin × Word :=
  match v with
  | .nan => if f.hasNan then (.nan, 0#32) else (.num false 0 0, flagNN)
  | .inf neg => if f.hasInf then (.inf neg, 0#32) else (finMax f neg, flagOF ||| flagNX)
  | .num x =>
    if x.isZero then (.num x.neg 0 0, 0#32)
    else
      let u := max (x.log2 - f.q + 1) (f.emin - f.q + 1)
      let (q, r, den) := x.onGrid u
      let q' := if r = 0 then q else if goesUp mode x.neg q r den dither range then q + 1 else q
      let y : Ex := { neg := false, n := q', d := 1, e := u }
      let top : Ex := { neg := false, n := f.maxSig, d := 1, e := f.maxExp }
      if top.lt y then
        if f.hasInf && (decide (mode = .rne) || decide (mode = .rna) || decide (mode = .sr)
            || (decide (mode = .ru) && !x.neg) || (decide (mode = .rd) && x.neg)) then
          (.inf x.neg, flagOF ||| flagNX)
        else (finMax f x.neg, flagOF ||| flagNX)
      else if r = 0 then (.num x.neg q' u, 0#32)
      else (.num x.neg q' u, if x.log2 < f.emin then flagNX ||| flagUF else flagNX)

/-- A finalised value as its format's pattern. -/
def finPattern (f : Fmt) : Fin → Nat
  | .nan => fmtNan f
  | .inf neg => (if neg then 2 ^ (f.expBits + f.fracBits) else 0) + (2 ^ f.expBits - 1) * 2 ^ f.fracBits
  | .num neg q u => fmtPattern f neg q u

/-- A finalised value as the carrier that denotes it, S = 0 (R34). -/
def finCarrier : Fin → Carrier
  | .nan => Carrier.nan
  | .inf neg => Carrier.inf neg
  | .num neg q u => carry { neg := neg, n := q, d := 1, e := u }

/-- The bounds of an integer format (R22), codes 9 to 13. -/
def intBounds : Nat → Option (Int × Int)
  | 9 => some (-128, 127)
  | 10 => some (0, 255)
  | 11 => some (-32768, 32767)
  | 12 => some (-2147483648, 2147483647)
  | 13 => some (0, 4294967295)
  | _ => none

/-- Finalisation to an integer format (R36): the integer and the FSTAT bits. -/
def finInt (v : Val) (lo hi : Int) (mode : Round) (dither range : Nat) : Int × Word :=
  match v with
  | .nan => (0, flagNV)
  | .inf neg => (if neg then lo else hi, flagOF)
  | .num x =>
    let (q, r, den) := x.onGrid 0
    let q' := if r = 0 then q else if goesUp mode x.neg q r den dither range then q + 1 else q
    let i : Int := if x.neg then -(q' : Int) else q'
    if i < lo then (lo, flagOF ||| flagNX)
    else if i > hi then (hi, flagOF ||| flagNX)
    else (i, if r = 0 then 0#32 else flagNX)

/-- cvt(c, F) of R32. -/
def cvtTo (c : Carrier) (code : Nat) : Carrier :=
  match carrierVal c, floatFmt code with
  | .num x, some f => if code = 0 then c else carry (ro x (f.q + 2) (f.emin - f.q - 1))
  | _, _ => c

/-- The carrier an element of a float format denotes, exactly, with S = 0 (R316, R327). -/
def fmtCarrier (f : Fmt) (bits : Nat) : Carrier := carryVal (fmtVal f bits)

/-- The E8M0 scale of a byte: none for the NaN 0xFF (R21). -/
def scaleExp (b : Byte) : Option Int := if b = 255#8 then none else some ((b.toNat : Int) - 127)

/-- mix32 of R48. -/
def mix32 (x : Word) : Word :=
  let x := x ^^^ (x >>> 16)
  let x := x * 0x85EBCA6B#32
  let x := x ^^^ (x >>> 13)
  let x := x * 0xC2B2AE35#32
  x ^^^ (x >>> 16)

/-- RNG32 of a key and a counter (R48). -/
def rng32 (key counter : Word) : Word := mix32 (key + counter * 0x9E3779B9#32)

/-- RNGU of a key and a counter: ((x >> 8) + 0.5) × 2^-24 (R48). -/
def rngu (key counter : Word) : Carrier :=
  carry { neg := false, n := 2 * ((rng32 key counter) >>> 8).toNat + 1, d := 1, e := -25 }

/-- One step of DITH: xorshift32 with shifts 13, 17 and 5 (R39). -/
def dithNext (d : Word) : Word :=
  let d := d ^^^ (d <<< 13)
  let d := d ^^^ (d >>> 17)
  d ^^^ (d <<< 5)

/-- DITH at a thread's creation (Table 2-1). -/
def dithStart (grpid tid : Nat) : Word :=
  let d := mix32 (BitVec.ofNat 32 (0x6A09E667 + grpid * 2 ^ 16 + tid))
  if d = 0#32 then 1#32 else d

/-- One step of a B16S column generator (R47). -/
def genNext (g : BitVec 16) : BitVec 16 :=
  (g <<< 1) ||| bit1 16 (((g.getLsbD 15 ^^ g.getLsbD 13) ^^ g.getLsbD 12) ^^ g.getLsbD 10)

/-- A carrier whose W is read with FI: an exponent field of 0 reads as a zero of W's sign with S = 0 (R31). -/
def flushIn (fi : Bool) (c : Carrier) : Carrier :=
  if fi && decide ((c.w >>> 23) &&& 0xFF#32 = 0#32) then { w := c.w &&& 0x80000000#32, s := false } else c

/-- A finite result below 2^-126 written as a zero of its sign under FO (R31). -/
def flushOut (fo : Bool) (c : Carrier) : Carrier := flushIn fo c

/-- The integer square root, by bits of the root from the top. -/
def isqrtFrom : Nat → Nat → Nat → Nat
  | 0, _, r => r
  | k + 1, n, r => if (r + 2 ^ k) * (r + 2 ^ k) ≤ n then isqrtFrom k n (r + 2 ^ k) else isqrtFrom k n r

def isqrt (n : Nat) : Nat := isqrtFrom (Nat.log2 n / 2 + 1) n 0

/-- carry(√x) of a positive number without a denominator, correctly rounded to odd (R309). The root is taken of
x scaled by an even power of two that leaves at least 27 bits, and a last odd bit records what was cut off. -/
def sqrtCarry (x : Ex) : Carrier :=
  let sh : Nat := 64 + x.e.natAbs % 2
  let n := x.n * 2 ^ sh
  let r := isqrt n
  carry { neg := false, n := oddOf (2 * r) (n - r * r), d := 1, e := (x.e - sh) / 2 - 1 }

/-- |x| truncated to a whole number and whether a part was cut off. -/
def wholePart (x : Ex) : Nat × Bool :=
  let (q, r, _) := x.onGrid 0
  (q, decide (r ≠ 0))

end Sys2Proof.Machine
end

