-- ==== Sys2Proof/Config.lean ====
section
/-! DEFINITION. What the spec leaves to the implementation or does not state: constants without a body, so that no proof can
see a value of them. -/

namespace Sys2Proof

/-- The free values: what the spec leaves open where the machine goes on, one for each draw of the counter `fresh`. -/
opaque Config.free : Nat → Nat

/-- FSIN and FCOS of R309, whose results the spec fixes only up to an error bound, as functions of the operand alone. -/
opaque Config.fsin : Carrier → Carrier
opaque Config.fcos : Carrier → Carrier

/-- The monotone functions of R309, and RNGG of R320: for each result, as a place on the carrier grid, the operand from which on the function
is that large. Such a function is non-decreasing whatever these numbers are (log 8). -/
opaque Config.frsq : Int → Int
opaque Config.fexp2 : Int → Int
opaque Config.flog2 : Int → Int
opaque Config.ftanh : Int → Int
opaque Config.fsigm : Int → Int
opaque Config.rngg : Int → Int

/-- The sign of a result that is zero, of the function of that number at a place. -/
opaque Config.zeroSign : Nat → Int → Bool

/-- Which of two operands of one infinite W but different S a minimum or maximum takes (R307, R300): the first, or the second. -/
opaque Config.firstInf : Carrier → Carrier → Bool

/-- The exponential 2^(x − y) of the online softmax, whose result the spec fixes only up to an error bound (13_matrix R252). -/
opaque Config.softExp : Carrier → Carrier → Carrier

/-- What the fuses and the ROM of a part hold (R96 to R98): the ROM's hash, the hash of the vendor's key, the minimum version of an image
and the seed of the identity key. -/
opaque Config.romHash : Nat → Byte
opaque Config.vendorKeyHash : Nat → Byte
opaque Config.minVersion : Nat
opaque Config.fusedSeed : Nat → Byte

/-- The frames that a row of a die's stack lies under (R380), by their numbers. -/
opaque Config.rowFrames : Nat → Nat → List Nat

/-- The first `n` bytes of a constant. -/
def Config.bytesOf (f : Nat → Byte) (n : Nat) : List Byte := (List.range n).map f

end Sys2Proof
end

