-- ==== Sys2Proof/Machine/Table.lean ====
section
/-! DEFINITION. Sparse tables: lists of (key, value) pairs in one canonical form. Memory, register files and every
collection of the state are held in them. -/

namespace Sys2Proof.Machine

/-- A sparse map from numbers. In canonical form the keys rise strictly and no entry holds the table's default. -/
abbrev Table (α : Type) := List (Nat × α)

/-- The value an entry of the table gives a key, if one does. -/
def lookup {α : Type} : Table α → Nat → Option α
  | [], _ => none
  | (k, v) :: rest, i => if k = i then some v else lookup rest i

/-- The table without its entries for `i`. -/
def drop {α : Type} : Table α → Nat → Table α
  | [], _ => []
  | (k, v) :: rest, i => if k = i then drop rest i else (k, v) :: drop rest i

/-- An entry put in front of the first larger key. -/
def place {α : Type} : Table α → Nat → α → Table α
  | [], i, x => [(i, x)]
  | (k, v) :: rest, i, x => if i < k then (i, x) :: (k, v) :: rest else (k, v) :: place rest i x

/-- The value at a key: an unlisted key reads as the default. -/
def readAt {α : Type} (dflt : α) (t : Table α) (i : Nat) : α := (lookup t i).getD dflt

/-- A write that keeps the canonical form: the default is never listed. -/
def writeAt {α : Type} [DecidableEq α] (dflt : α) (t : Table α) (i : Nat) (x : α) : Table α :=
  if x = dflt then drop t i else place (drop t i) i x

/-- A record put under its key; records are listed whatever they hold. -/
def putAt {α : Type} (t : Table α) (i : Nat) (x : α) : Table α := place (drop t i) i x

/-- The keys rise strictly from `lo` on, and no entry holds the default. -/
def Table.wfFrom {α : Type} [DecidableEq α] (dflt : α) : Nat → Table α → Bool
  | _, [] => true
  | lo, (k, v) :: rest => decide (lo ≤ k) && decide (v ≠ dflt) && Table.wfFrom dflt (k + 1) rest

/-- The canonical form of a table. -/
def Table.wf {α : Type} [DecidableEq α] (dflt : α) (t : Table α) : Bool := Table.wfFrom dflt 0 t

end Sys2Proof.Machine
end

