-- ==== Sys2Proof/Machine/State.lean ====
section
/-! DEFINITION. The state of the machine: everything the spec gives the S24, as plain data, and the machine after reset.
Collections are sparse tables in canonical form (Machine/Table.lean). A number that the spec holds in a field of a register
and that software reads as part of a word is a bit vector; counts, ids and module times are numbers. -/

namespace Sys2Proof.Machine

/-- What stops the machine for good: nothing does. Every exception the spec names is taken (08_group R150) or reported in
a completion status, so no step ends in a fault; the type has no constructor, which is safe. -/
inductive Fault where
  deriving DecidableEq, Repr

/-- Why a step has no next state. -/
inductive Refusal where
  /-- raised by a dispatch arm that has no meaning yet; safe -/
  | notModelled (mnemonic : String)
  /-- raised by the meaning of an instruction word when `cur` names no pass that is in progress: no such step exists in the
  machine, since a word is executed only by a pass; safe -/
  | noPass
  deriving DecidableEq, Repr

/-! ### Threads -/

/-- The resume record of Table 8-1 (R135): block, halfword offset and cause. -/
structure Resume where
  blk : Nat
  off : Nat
  cause : Nat
  deriving DecidableEq, Repr

/-- The record as the word that FRES and the context fault record show (Table 8-1). -/
def Resume.word (r : Resume) : Word :=
  BitVec.ofNat 32 (r.blk % 2 ^ 12 + r.off % 2 ^ 12 * 2 ^ 12 + r.cause % 2 ^ 4 * 2 ^ 24)

/-- Where a thread is (R134): retired, in a bin of the kernel or of the handler, or in the cohort of a pass. -/
inductive Place where
  | retired
  | bin (handler : Bool) (blk off : Nat)
  | pass (pid : Nat)
  deriving DecidableEq, Repr

/-- What a blocked thread waits for (R135). -/
inductive Wait where
  /-- nothing: the thread is ready -/
  | ready
  /-- a completion of a barrier of its group, at a BWAIT -/
  | barrier (b : Nat)
  /-- a completion of a barrier of its group, at a BARV or a per-pass arrival (R164) -/
  | arrival (b : Nat)
  | groupBarrier
  /-- a full task pool (R125) -/
  | pool
  /-- a grant of extended registers (R149) -/
  | acqx
  /-- a copy-on-write resolution, and the address the thread writes (R188) -/
  | cow (k : Nat) (addr : Quad)
  /-- a full-empty granule of the team scratchpad, by its number (R171) -/
  | granule (n : Nat)
  /-- the result of a sharded draw at the slot with this memory key (R205) -/
  | draw (slot : Nat)
  deriving DecidableEq, Repr

/-- A failed access whose fault waits for a token's wait or a FENCE (R203, R204, R325). -/
structure Late where
  /-- 0 to 2 a token; 3 no token; 4 an instruction that its pass waits for (R83); 5 the next FENCE of system scope (R228) -/
  tok : Nat
  code : Nat
  addr : Quad
  deriving DecidableEq, Repr

/-- A thread's own values and place (R17, R121, R134, R135, R153, R227). -/
structure Thread where
  /-- v0 to v63 -/
  v : Table Carrier
  /-- x0 to x63, under a grant -/
  x : Table Carrier
  /-- p1 to p95 -/
  p : Table Bool
  dith : Word
  fstat : Word
  res : Resume
  place : Place
  wait : Wait
  /-- the wait the thread blocked on has ended, so that the re-executed word completes (R135, R167, R170, R276) -/
  woken : Bool
  /-- FINFO.CODE, FINFO.DETAIL and FAD of the latched fault (Table 8-2) -/
  fcode : Nat
  fdetail : Nat
  fad : Quad
  /-- the high halves captured by MTIMELO and HORIZLO (R14, R279) -/
  mtime : Option Word
  horiz : Option Word
  /-- the horizons of R227 -/
  hs : Nat
  hm : Nat
  hx : Nat
  late : List Late
  /-- the pending-draw mark (slot address, draw index) of R205 -/
  mark : Option (Quad × Nat)
  /-- the winner that a decided sharded draw holds for the thread's re-executed DRAW (R206) -/
  drawn : Option Word
  /-- what the home of a granule read for the thread's re-executed LDFE (R172); none when it was beyond correction (R379) -/
  got : Option (List Byte)
  /-- the token that the thread's blocked LDFE leaves pending (R328) -/
  ltok : Option Nat
  /-- GCTL.SCHK as a helper's SSET left it in its pass copy (R279) -/
  gctl : Option Bool
  /-- BANKCTL.BANK and BANKCTL.REF of the thread's last request (Table 12-1) -/
  bank : Nat
  bankRef : Bool
  /-- cycles at which fixed-latency results of a pass that the thread has left complete, by v register (R84, R86) -/
  owed : Table Nat
  deriving DecidableEq, Repr

/-! ### Passes -/

/-- A fixed-latency result that a beat reads from cycle `cyc` on (R80). -/
structure Due (α : Type) where
  cyc : Nat
  tid : Nat
  idx : Nat
  val : α
  deriving DecidableEq, Repr

/-- Where a thread goes when its pass ends (R137). -/
inductive Exit where
  | retire
  | bin (handler : Bool) (blk off : Nat)
  deriving DecidableEq, Repr

/-- What a pass in progress waits at: the instruction stays at the pass's offset until its condition holds. -/
inductive Hold where
  | none
  /-- a FENCE: its scope, whether it is horizon-only, the threads it waits for, the offset after it and its stall field -/
  | fence (scope : Nat) (hz : Bool) (tids : List Nat) (next stall : Nat)
  | wait
  | waite
  /-- a release store waiting for its horizons -/
  | release
  /-- a CWB or CWBI -/
  | cwb
  /-- an engine counter at 255 (R173) -/
  | counter
  /-- a PGSHARE waiting for a holder of its source frame (R186) -/
  | share
  /-- a page operation on a leaf that a resolution holds (R188) -/
  | leaf
  /-- an MSTAT that is not at the head of the millrace (R156) -/
  | millrace
  /-- an MRD or MWR behind the commands on a tile that were queued before the stamp given; later ones wait for it (R156, R359) -/
  | tile (t at_ : Nat)
  /-- a BANKCTL request not yet applied (R210) -/
  | bank
  /-- accesses of its threads that have not been performed at their homes -/
  | access
  /-- a TRET whose threads still have results of the pass to come (R278) -/
  | results
  /-- the cohort threads left by the participants of a sharded draw (R205, R322): slot, draw index, the register that takes the winner, the
  threads that it is written in, the offset after the word and its stall field -/
  | draw (slot index d : Nat) (tids : List Nat) (next stall : Nat)
  /-- beats of a full-empty access still to act (R172): its token, the cycle of the next of them, the cycle from which the next word may
  issue, and the threads of each beat left -/
  | beats (tok at_ after : Nat) (left : List (List Nat))
  deriving DecidableEq, Repr

/-- How a pass in progress stands to a halt or to the debugger (R155, R158). -/
inductive PassRun where
  | running
  /-- the stopped pass of a stopped group -/
  | stopped
  /-- a pass that the debugger holds -/
  | held
  /-- a pre-empted cohort -/
  | preempted
  deriving DecidableEq, Repr

/-- A pass in progress (R136, R140, R141). Its key in the group is its number, older passes first. -/
structure Pass where
  /-- a pass over the handler kernel's blocks -/
  handler : Bool
  blk : Nat
  /-- offset of the bin it started from -/
  start : Nat
  /-- halfword offset from the BLK word of the next word -/
  off : Nat
  /-- staged registers: twice LIVE of the BLK -/
  staged : Nat
  quad : Bool
  ext : Bool
  noDemote : Bool
  /-- TIDs of the cohort, ascending -/
  cohort : List Nat
  /-- helpers' pass copies, by TID -/
  helpers : Table Thread
  dueV : List (Due Carrier)
  /-- registers that a variable-latency instruction wrote, with their tokens: (token, TID, register) (R85) -/
  covered : List (Nat × Nat × Nat)
  dueX : List (Due Carrier)
  dueP : List (Due Bool)
  /-- the cycle from which the next word may issue (R79) -/
  next : Nat
  hold : Hold
  /-- targets of the threads that have run the terminator or a YIELD -/
  exits : Table Exit
  /-- its terminator or YIELD has run -/
  ended : Bool
  /-- it is not quiet so far (R145) -/
  loud : Bool
  run : PassRun
  deriving DecidableEq, Repr

/-! ### Barriers, engines and groups -/

/-- A transaction barrier (Table 9-1); LINKV and LINK are the records parked on it, held in its team's pool. -/
structure Barrier where
  phase : BitVec 4
  expect : BitVec 16
  arrive : BitVec 16
  sectors : BitVec 32
  err : Bool
  /-- MDEP arrivals held for the next phase (R164) -/
  heldArr : Nat
  /-- the task records parked on the barrier, first emitted first: LINKV and the chain that starts at LINK -/
  chain : List Nat
  deriving DecidableEq, Repr

/-- An allocated and uninitialised barrier (R161). -/
def Barrier.zero : Barrier :=
  { phase := 0, expect := 0, arrive := 0, sectors := 0, err := false, heldArr := 0, chain := [] }

/-- The group barrier's phase (R148, R170). -/
structure GroupBarrier where
  /-- the count fixed by the first arrival, and whether that arrival was M = 0; none before it -/
  count : Option (Nat × Bool)
  arrived : Nat
  deriving DecidableEq, Repr

/-- A bin's key. -/
abbrev BinKey := Nat × Nat

/-- The fantail of R146. -/
structure Fantail where
  idle : Nat
  seen : List BinKey
  /-- the visited set of a sweep in progress -/
  sweep : Option (List BinKey)
  deriving DecidableEq, Repr

/-- The group states of R132. -/
inductive GroupSt where
  | running
  | stopped
  | halting
  | saved
  | draining
  | ended
  deriving DecidableEq, Repr

/-- The code SYNC.ALL reports (R132). -/
def GroupSt.code : GroupSt → Nat
  | .running => 1
  | .stopped => 2
  | .halting => 3
  | .saved => 4
  | .draining => 5
  | .ended => 6

/-- A group (R121, R130, R132, R157). -/
structure Group where
  ctx : Nat
  team : Nat
  /-- module-wide index of its core -/
  core : Nat
  grpid : Nat
  gint : Nat
  slot : Nat
  kern : Nat
  nthr : Nat
  prio : Nat
  st : GroupSt
  /-- the state before Halting (R133) -/
  before : GroupSt
  threads : Table Thread
  /-- g0 to g63 -/
  g : Table Quad
  dueG : List (Due Quad)
  schk : Bool
  fan : Fantail
  gbar : GroupBarrier
  bars : Table Barrier
  nbars : Nat
  /-- range state [lo, hi), log2 of the granule, words 6 to 15 of the starting record (R130) -/
  isRange : Bool
  lo : Quad
  hi : Quad
  gran : Nat
  rwords : List Word
  /-- the entry block of its record, which a steal passes on (R130) -/
  entry : Nat
  /-- the four engine counters (R173) -/
  count : Table Nat
  grant : Bool
  /-- relation registers k1 to k15, 64 bytes each; none until an MREL (R240) -/
  rels : Table (List Byte)
  passes : Table Pass
  /-- the bin that DBG.STEPBIN named (R159) -/
  stepBin : Option BinKey
  /-- one instruction, or the rest of the pass, that a debug command allows the stopped pass -/
  stepOne : Bool
  stepAll : Bool
  /-- a started pass is to run one instruction (DBG.STEP without a stopped pass) -/
  stepNew : Bool
  /-- a fault has ended the group: its engine commands' arrivals and records are dropped (R151) -/
  dead : Bool
  deriving DecidableEq, Repr

/-! ### Memory accesses in flight -/

/-- The spaces of R207. -/
inductive Space where
  | hbm
  | scratch
  | peer
  | host
  deriving DecidableEq, Repr

/-- How the bytes of a read become registers (R326, R327, R335). -/
inductive Fill where
  /-- `n` words into v[D..], lowest first -/
  | words (d n : Nat)
  /-- one sign- or zero-extended element into v[D] -/
  | narrow (d : Nat) (signed : Bool)
  /-- the register image into v[D] -/
  | image (d : Nat)
  /-- a float element of a format into v[D]; for E2M1 the nibble -/
  | elem (d fmt : Nat) (high : Bool)
  /-- the double word into g[D] -/
  | uniform (d : Nat)
  /-- carriers that are already known, into v[D..] of each thread -/
  | ready (d : Nat)
  deriving DecidableEq, Repr

/-- The atomic operations of R331. -/
inductive AtomOp where
  | add
  | minI
  | maxI
  | minN
  | maxN
  | and
  | or
  | xor
  | exch
  | cas
  | addW
  | fadd
  deriving DecidableEq, Repr

/-- What an access does at its home. -/
inductive Act where
  | read
  | write (bytes : List Byte)
  /-- one nibble of a byte (R327) -/
  | nibble (high : Bool) (val : Nat)
  | atom (op : AtomOp) (x y : Quad)
  deriving DecidableEq, Repr

/-- An access that has left its threads and not reached its home (R221, R225, R226). -/
structure Access where
  gid : Nat
  pid : Nat
  /-- the threads it counts for: one, or the passing cohort threads of a per-pass access (R335) -/
  tids : List Nat
  /-- of these, threads that run it as helpers -/
  helper : Bool
  /-- the token, 3 for none, 4 for an instruction the pass waits for (R83) -/
  tok : Nat
  addr : Quad
  space : Space
  /-- the memory key of its first byte -/
  key : Nat
  size : Nat
  act : Act
  fill : Option Fill
  acquire : Bool
  /-- cache class (R214) -/
  cls : Nat
  /-- start in module time (R203) -/
  since : Nat
  ctx : Nat
  /-- the port that a peer access crosses, chosen as it leaves; none without a route (R196) -/
  port : Option Nat := none
  /-- the cycle of the beat it leaves with: what one beat of a pass writes is ordered by TID (R222) -/
  beat : Nat := 0
  deriving DecidableEq, Repr

/-- A write that has arrived at its home and is visible from `twc` on (R221, R222). -/
structure Pending where
  key : Nat
  bytes : List Byte
  twc : Nat
  gid : Nat
  tids : List Nat
  /-- readers (group, thread) that have seen a host write before its T_wc (R224) -/
  seen : List (Nat × Nat)
  deriving DecidableEq, Repr

/-- A write completion time on its way to its threads (R227); scratchpad answers lower Hs. -/
structure Reply where
  gid : Nat
  tids : List Nat
  space : Space
  key : Nat
  twc : Nat
  /-- the start of its access in module time, and the address the threads named (R203) -/
  since : Nat
  addr : Quad
  /-- the port it comes back through (R196), and the result that comes in the same answer, an atomic's (R203) -/
  port : Option Nat := none
  via : Option Nat := none
  deriving DecidableEq, Repr

/-- A variable-latency result on its way to registers (R82, R83). -/
structure Result where
  gid : Nat
  pid : Nat
  tids : List Nat
  helper : Bool
  tok : Nat
  addr : Quad
  fill : Fill
  bytes : List Byte
  /-- carriers of a `ready` fill, for each thread -/
  vals : List Carrier
  /-- the fault to raise instead: 0 none -/
  fail : Nat
  /-- module time before which it is not written (R186) -/
  due : Nat := 0
  /-- the port that a peer's answer comes back through, the start of its access, and whether it changed memory (R196, R203) -/
  port : Option Nat := none
  since : Nat := 0
  wrote : Bool := false
  deriving DecidableEq, Repr

/-- Where a copy of a line stands (R212, R213). -/
inductive CacheId where
  | cluster (c : Nat)
  | die (d : Nat)
  deriving DecidableEq, Repr

/-- A copy of a 128-byte line (R212 to R220). -/
structure Copy where
  cache : CacheId
  /-- memory key of its first byte -/
  line : Nat
  data : List Byte
  /-- lease expiry; none for a host line, which has no lease (R215) -/
  expiry : Option Nat
  /-- recency: larger is more recent -/
  used : Nat
  prot : Bool
  /-- its data is stale and the next access fetches it again (R218) -/
  stale : Bool
  /-- the retention window whose place it holds, and the number of its line within the window's range (R218) -/
  window : Option (Nat × Nat)
  /-- offsets of its 64-bit words that hold an error of the copy alone, beyond correction (R379) -/
  flaws : List Nat := []
  deriving DecidableEq, Repr

/-- A retention window (Table 12-3). -/
structure Window where
  pinned : Bool
  eways : Nat
  ways : Nat
  ctx : Nat
  mask : BitVec 16
  base : Quad
  len : Nat
  hits : Quad
  fills : Quad
  ovf : Quad
  deriving DecidableEq, Repr

/-- A window after reset (Table 12-3). -/
def Window.zero : Window :=
  { pinned := false, eways := 0, ways := 0, ctx := 0, mask := 0, base := 0, len := 0, hits := 0, fills := 0, ovf := 0 }

/-! ### Frames, pools and copy-on-write -/

/-- The frame states of Table 10-2. -/
inductive FrameSt where
  | free
  | allocated
  | inFlight
  | migrating
  deriving DecidableEq, Repr

/-- A frame entry (Table 10-2) and the pool whose free list it came from (R183). NEXT is the order of the free lists. -/
structure Frame where
  count : Nat
  st : FrameSt
  users : Nat
  pool : Option Nat
  deriving DecidableEq, Repr

/-- A frame entry of zeros: a free frame (R378). -/
def Frame.zero : Frame := { count := 0, st := .free, users := 0, pool := none }

/-- A page pool (R184). -/
structure Pool where
  free : List Nat
  total : Nat
  reserve : Nat
  deriving DecidableEq, Repr

/-- A run of free frames of a die: first frame and how many. -/
abbrev Span := Nat × Nat

/-- The stages of a copy-on-write resolution (R188, R381). -/
inductive CowSt where
  | waiting
  /-- decided; complete when module time reaches the time given -/
  | decided (until_ : Nat) (newFrame : Option Nat)
  deriving DecidableEq, Repr

/-- A copy-on-write resolution: the context, the leaf's physical address and the frame the write met. -/
structure Cow where
  ctx : Nat
  leaf : Nat
  frame : Nat
  st : CowSt
  deriving DecidableEq, Repr

/-! ### Engine commands and chunks -/

/-- The engine classes of R173. -/
abbrev EngineClass := Nat

/-- Bytes written at a destination, those bits of them that the mask selects, or an element combined with what is there (R200). -/
structure Piece where
  key : Nat
  mask : List Byte
  bytes : List Byte
  deriving DecidableEq, Repr

/-- The pieces of a chunk in one 32-byte sector of its destination (R163), with those of an element that reaches into the next one; and
whether an element of the sector before reaches into it (R209). -/
structure Sector where
  block : Nat
  pieces : List Piece
  joined : Bool
  deriving DecidableEq, Repr

/-- The engine commands of R336; COPYR with its reduction. -/
inductive EOp where
  | copy
  | copyt
  | gath
  | scat
  | copyr (red : Nat)
  deriving DecidableEq, Repr

/-- An engine command of the sluice (R336 to R341). Its key orders the commands of a class. -/
structure Engine where
  gid : Nat
  cls : EngineClass
  op : EOp
  /-- the descriptors' 64 bytes, and whether each side is scratchpad -/
  dst : List Byte
  src : List Byte
  dScr : Bool
  sScr : Bool
  /-- the lines that an index list names (R339) -/
  idx : List Nat
  lab : Bool
  bar : Option Nat
  /-- the chunk map of a collective (R198) -/
  map : Option Quad
  chunks : Nat
  /-- chunks started so far, and chunks ended, done or in error -/
  started : Nat
  ended : Nat
  /-- the latest write completion time of its ended chunks -/
  horizon : Nat
  deriving DecidableEq, Repr

/-- A chunk in flight (R190, R199, R201). -/
structure Chunk where
  cmd : Nat
  idx : Nat
  since : Nat
  /-- frames held in USERS, and those of them that it writes -/
  frames : List Nat
  wframes : List Nat
  /-- the word of the chunk map as it was pinned (R190, R199), and whether its bit has been set -/
  mapKey : Option Nat
  mapped : Bool
  /-- the first peer byte it touches and the ports it crosses -/
  peer : Option Nat
  ports : List Nat
  /-- sector writes not yet at their homes -/
  todo : List Sector
  /-- label and scale writes, and whether a summary is recomputed: uncounted, made before the first sector -/
  extra : List Piece
  resum : Bool
  /-- completion times of sectors at their homes and not yet counted, with the ones that end in error -/
  owed : List (Nat × Bool)
  /-- sectors not yet counted -/
  left : Nat
  horizon : Nat
  /-- some of its source data is beyond correction (R379) -/
  bad : Bool
  /-- it has ended in error; its abort is on its way to the peer (R201) -/
  failed : Bool
  detached : Bool
  deriving DecidableEq, Repr

/-! ### The matrix engine -/

/-- An accumulator tile (R248); elements are keyed row × 128 + column, the rest by row or column. -/
structure Tile where
  vals : Table Carrier
  labels : Table Word
  /-- the admit bitmap -/
  admitted : Table Bool
  softM : Table Carrier
  softHi : Table Carrier
  softLo : Table Carrier
  softCnt : Table Word
  empty : Table Bool
  b16s : Bool
  /-- the issued format is B16S (R348) -/
  issued : Bool
  gens : Table (BitVec 16)
  bind : Option Nat
  /-- ownbase as the issued MDEP commands leave it (R355) -/
  ownbase : Nat
  step : Nat
  infl : Bool
  deriving DecidableEq, Repr

/-- A tile at its group's start (R248). Tables list what differs from it: values and sums +0, labels 0, bits clear, M = −∞, CNT 0,
generators 0x0001. -/
def Tile.zero : Tile :=
  { vals := [], labels := [], admitted := [], softM := [], softHi := [], softLo := [], softCnt := [], empty := [], b16s := false,
    issued := false, gens := [], bind := none, ownbase := 0, step := 0, infl := false }

/-- The verdicts of R243. -/
inductive Verdict where
  | skipped
  | masked
  | unmasked
  deriving DecidableEq, Repr

/-- The commands that enter the millrace (R343), with what each captures of its own at issue. -/
inductive MOp where
  | mma (m : Nat)
  | mmas (m : Nat)
  | mmax (m : Nat)
  | mzero (word : Quad)
  | mldc (fmt : Nat)
  | mstc (fmt mode : Nat)
  | mcopy (src : Nat)
  | mscale (f : Word)
  | mdep (bind : Option Nat)
  /-- destination g and counter -/
  | mstat (d k : Nat)
  | mprog (d : Nat)
  /-- output tile -/
  | msmx (out : Nat)
  | msmf
  deriving DecidableEq, Repr

/-- A millrace command with what it captured at issue (R343). -/
structure MCmd where
  gid : Nat
  pid : Nat
  /-- the offset of its word, for an MSTAT that a halt withdraws (R156) -/
  at_ : Nat
  /-- the cycle of its issue beat -/
  issued : Nat
  op : MOp
  /-- the tile C, or the tile K of MSMF -/
  tile : Nat
  final : Bool
  first : Bool
  lab : Bool
  /-- the captured relation; none for k0 -/
  rel : Option (List Byte)
  /-- the rows of the changed tile whose owners are among its threads (R246) -/
  rows : List Nat
  tids : List Nat
  /-- scratchpad offsets of the A tile or image and of the B tile -/
  a : Nat
  b : Nat
  /-- rows of the A tile in the segment of a grouped command (R351) -/
  seg : Option (Nat × Nat)
  started : Bool
  verdict : Option Verdict
  step : Nat
  /-- the cycle at which its K-step or itself ends -/
  until_ : Nat
  /-- its output tile's generators at its start, to which a halt returns an MMAS or MMAX (R250) -/
  gens : Table (BitVec 16)
  /-- what an MSTAT read -/
  value : Quad
  /-- a read met data that the ECC cannot correct (R360) -/
  bad : Bool
  deriving DecidableEq, Repr

/-- A core's own state: its millrace, its matrix counters and its tiles by (group, tile) (R245, R248). -/
structure CoreSt where
  race : Table MCmd
  skipped : Quad
  masked : Quad
  unmasked : Quad
  /-- the cycle at which the last command ended -/
  free : Nat
  deriving DecidableEq, Repr

/-- A core after reset (R245). -/
def CoreSt.zero : CoreSt := { race := [], skipped := 0, masked := 0, unmasked := 0, free := 0 }

/-! ### Teams and clusters -/

/-- A task record in a pool (R123), its emission and its state. -/
structure Record where
  words : List Word
  ctx : Nat
  slot : Nat
  /-- emitting core and thread (R127) -/
  core : Nat
  tid : Nat
  /-- the cycle of its arrival at a gather buffer (R127) -/
  arrived : Nat
  /-- the barrier it is parked on -/
  parked : Option (Nat × Nat)
  /-- released from a barrier with ERR (R168) -/
  err : Bool
  prio : Nat
  deriving DecidableEq, Repr

/-- A gather buffer (R127). -/
structure Buffer where
  slot : Nat
  kern : Nat
  entry : Nat
  recs : List Record
  /-- module time at which it closes, while the timer runs; the remaining time while it is stopped -/
  timer : Nat
  stoppedAt : Option Nat
  /-- it takes no more records; its group starts when a core has room for it -/
  closed : Bool
  deriving DecidableEq, Repr

/-- A full-empty access blocked at its granule, which the home retries (R172): 0 LDFE, 1 LDFE consume, 2 STFE wait-empty with
its data. -/
structure Waiter where
  gran : Nat
  gid : Nat
  tid : Nat
  op : Nat
  bytes : List Byte
  deriving DecidableEq, Repr

/-- A pennant's change on its way to a core's copy: core and pennant, its value, the thread that made it and the cycle of its issue
(R175, R176). -/
structure Change where
  core : Nat
  pen : Nat
  val : Quad
  gid : Nat
  tid : Nat
  at_ : Nat
  deriving DecidableEq, Repr

/-- A team (R118, R119, R125, R175). -/
structure Team where
  ctx : Nat
  launch : Nat
  cluster : Nat
  index : Nat
  /-- launched group count TEAM and pool groups started (R126) -/
  groups : Nat
  started : Nat
  /-- scratchpad allocation in bytes, whole granules -/
  scratch : Nat
  /-- the banks that hold it, from offset 0 up -/
  banks : List Nat
  /-- deques of the eight cores: record ids, head first -/
  deques : Table (List Nat)
  recs : Table Record
  bufs : Table Buffer
  /-- pennants at the home and at each core (core × 16 + f) -/
  home : Table Quad
  copies : Table Quad
  /-- changes on their way to the copies, oldest first (R176) -/
  moving : List Change
  /-- threads waiting at each granule, in the order they blocked (R172) -/
  queue : List Waiter
  deriving DecidableEq, Repr

/-- A cluster (R118, R149, R210). -/
structure Cluster where
  /-- bank modes: 0 cache-way, 1 scratchpad, 2 FIFO -/
  modes : Table Nat
  team : Option Nat
  xfree : Nat
  /-- waiting ACQX requests: group and sets (R149) -/
  xqueue : List (Nat × Nat)
  /-- bank-mode requests not applied yet, in arrival order: group, thread, bank, mode -/
  changes : List (Nat × Nat × Nat × Nat)
  deriving DecidableEq, Repr

/-- The mode of a bank after reset (R210). -/
def bankReset (b : Nat) : Nat := if b < 32 then 1 else if b < 63 then 0 else 2

/-- A cluster after reset. Bank modes are listed where they differ from their reset. -/
def Cluster.zero : Cluster := { modes := [], team := none, xfree := 7936, xqueue := [], changes := [] }

/-! ### Contexts, kernels, queues -/

/-- A kernel in the kernel store (Table 7-2, R117). -/
structure Kernel where
  text : List Byte
  /-- block table: BLK offset in bytes, none for the invalid entry -/
  blocks : List (Option Nat)
  entry : Nat
  dataOff : Nat
  dataLen : Nat
  threads : Nat
  team : Nat
  regs : Nat
  xregs : Nat
  barriers : Nat
  scratch : Nat
  acc : Nat
  schk : Bool
  handler : Bool
  deriving DecidableEq, Repr

/-- An image slot (R117). -/
structure Image where
  base : Quad
  kernels : List Kernel
  deriving DecidableEq, Repr

/-- A graph (R110, R111). -/
structure Graph where
  buf : Quad
  count : Nat
  recording : Bool
  deriving DecidableEq, Repr

/-- A halt in progress of a context (R90, R91, R155). -/
structure Halt where
  since : Nat
  /-- a CTX.DESTROY joined it -/
  destroy : Bool
  /-- a HALT asked for it: MSI-X vector 1024 is signalled at its end (R281) -/
  byHalt : Bool
  /-- a fault record takes the context to Faulted when it completes -/
  faulted : Bool
  deriving DecidableEq, Repr

/-- A context (Table 5-1). -/
structure Context where
  st : Nat
  sys : Bool
  ptroot : Quad
  leaseHbm : Nat
  linkto : Nat
  ways : Nat
  poolId : Nat
  handlerKern : Nat
  handlerV : Bool
  faultNext : Nat
  faultBase : Quad
  kernM : List Byte
  kcount : Nat
  images : Table Image
  graphs : Table Graph
  debug : Bool
  lastFault : List Byte
  halt : Option Halt
  deriving DecidableEq, Repr

/-- A context's registers at reset and on CTX.CREATE (Table 5-1, R90), in state Free. -/
def Context.free : Context :=
  { st := 0, sys := false, ptroot := 0, leaseHbm := 1000, linkto := 1000, ways := 4, poolId := 0xFFFF, handlerKern := 0,
    handlerV := false, faultNext := 0, faultBase := 0, kernM := List.replicate 32 0, kcount := 0, images := [], graphs := [],
    debug := false, lastFault := [], halt := none }

/-- How far a command has come (R104). -/
inductive CmdSt where
  | fetched
  | started
  | done
  deriving DecidableEq, Repr

/-- A command from its fetch to its completion record (R101 to R105). -/
structure Cmd where
  /-- the record's eight 64-bit words; none when its entry did not translate -/
  words : Option (List Quad)
  st : CmdSt
  status : Nat
  result : Nat
  /-- module time that its completion record waits for (R104) -/
  horizon : Nat
  /-- groups of the command whose stores its completion record waits for (R104) -/
  gids : List Nat
  /-- runs of frames an UNMAP waits for (R191) -/
  frames : List Span
  /-- what a GRAPH.REPLAY still issues: next index, count and the snapshot (R112) -/
  replay : Option (Nat × Nat × List Quad)
  deriving DecidableEq, Repr

/-- A ring (Table 6-1) with its fetched commands by sequence number. -/
structure Ring where
  tail : Nat
  head : Nat
  done : Nat
  st : Nat
  terr : Bool
  rbase : Quad
  cbase : Quad
  log2n : Nat
  prio : Nat
  /-- context × 64 + graph of the recording that is on (R111) -/
  recording : Option Nat
  /-- its pause came from a halt of the context, not from Q.CTL (R102) -/
  byHalt : Bool
  cmds : Table Cmd
  deriving DecidableEq, Repr

/-- A queue slot after reset (Table 6-1). -/
def Ring.zero : Ring :=
  { tail := 0, head := 0, done := 0, st := 0, terr := false, rbase := 0, cbase := 0, log2n := 4, prio := 0, recording := none,
    byHalt := false, cmds := [] }

/-- A launch not completed (R120, R122). -/
structure Launch where
  ring : Nat
  seq : Nat
  ctx : Nat
  prio : Nat
  slot : Nat
  kern : Nat
  teams : Nat
  /-- next team to admit -/
  next : Nat
  /-- teams resident or saved -/
  live : Nat
  args : Quad
  data : Quad
  deriving DecidableEq, Repr

/-! ### Ports and module -/

/-- A peer port (Table 11-1). -/
structure Port where
  st : Nat
  enable : Bool
  accept : Bool
  peer : Nat
  timeouts : Nat
  toff : Quad
  /-- consecutive failed trainings -/
  fails : Nat
  /-- consecutive replays of the flit in front -/
  replays : Nat
  /-- module time of the last flit received, and the sequence number that the next one carries (R194) -/
  heard : Nat
  seq : Nat
  /-- module time at which the training in progress began (R195) -/
  began : Nat
  /-- MODID as this port's last training exchanged it (Table 11-2) -/
  own : Nat
  deriving DecidableEq, Repr

/-- A port after reset (Table 11-1). -/
def Port.zero : Port :=
  { st := 0, enable := false, accept := true, peer := 0, timeouts := 0, toff := 0, fails := 0, replays := 0, heard := 0, seq := 0, began := 0, own := 0 }

/-- A sharded draw (R205, R206): its slot's home entry. -/
structure Draw where
  since : Nat
  /-- context of the first arrival, whose LEASE.LINKTO bounds the draw -/
  ctx : Nat
  vals : List (Carrier × Nat × Nat)
  deriving DecidableEq, Repr

/-- A shard's local winner on its way to the slot's home: slot key, slot address, value, index, status, draw index. -/
structure Shard where
  ctx : Nat
  slot : Nat
  addr : Quad
  val : Carrier
  idx : Nat
  status : Nat
  draw : Nat
  deriving DecidableEq, Repr

/-- An answer to a peer (R201, R204): its port, its bytes, whether it is an error, and the module time in it: the lease expiry of a read
that grants one, the write completion time of what writes (R197, R221). -/
structure Answer where
  port : Nat
  bytes : List Byte
  err : Bool
  time : Option Nat
  deriving DecidableEq, Repr

/-- Module registers and counters (Table 24-1, Table 11-2, R114, R377). -/
structure Module where
  /-- the supply at the connector in V (R374) -/
  volts : Nat
  power : BitVec 16
  temp : BitVec 8
  duty : BitVec 6
  throt : Bool
  tripped : Bool
  ready : Bool
  sparex : Bool
  trips : Quad
  plim : Word
  tthrot : Word
  scrub : Word
  cfgver : Word
  cfgm : List Byte
  romm : List Byte
  modid : Nat
  cmdsDone : Quad
  eccFixed : Quad
  eccBad : Quad
  linkTimeouts : Quad
  /-- spare row retirements used, by stack (R380) -/
  spares : Table Nat
  /-- corrected errors of each row in the scrub period -/
  rowErrs : Table Nat
  /-- module time of the last scrub, by die (R380) -/
  scrubAt : Table Nat
  /-- rows retired -/
  retired : List Nat
  /-- boundaries routed around (R193) -/
  around : List Nat
  /-- MSI-X vectors signalled, oldest first -/
  msix : List Nat
  /-- answers sent to peers, oldest first (R204) -/
  answers : List Answer
  /-- chunks of peers whose abort has come in: port and the peer's number of the chunk (R201) -/
  aborted : List (Nat × Nat)
  /-- frames whose rows were retired and that wait for migration (R192) -/
  migrate : List Nat
  /-- idle flits sent, by port (R194) -/
  idles : Table Nat
  deriving DecidableEq, Repr

/-! ### Checkpoints -/

/-- What the device-reserved region holds in a form of its own (R157, R182, R378). -/
inductive Kept where
  /-- a saved group, with its tiles and its commands on the millrace and in the sluice -/
  | group (gid : Nat) (g : Group) (tiles : Table Tile) (race : Table MCmd) (engines : Table Engine)
  /-- the state of a team with a saved group: its record, the bytes of its scratchpad and its granules' full bits, by offset (R177) -/
  | team (tid : Nat) (t : Team) (bytes : Table Byte) (full : Table Bool)
  /-- the frame entries of a die -/
  | entries (die : Nat) (l : Table Frame)
  /-- the links of every free list -/
  | lists (dies : Table (List Span)) (pools : Table Pool)
  deriving DecidableEq, Repr

/-- A piece of the region that a checkpoint has carried to host memory: its key there, its place in HBM and its length (R113). -/
structure Carried where
  host : Nat
  home : Nat
  len : Nat
  what : Kept
  deriving DecidableEq, Repr

/-! ### Scheduling and the state -/

/-- What happens next: the model's own, not the spec's. The machine is many agents and the outside world; which of them
moves next, and when, is this data. -/
inductive Choice where
  /-- the pass issues its next word -/
  | issue (gid pid : Nat)
  /-- an event of the opcode table -/
  | event (i : Instr)
  /-- the clock advances by so many cycles -/
  | tick (n : Nat)
  /-- the host writes its own memory -/
  | host (addr : Nat) (bytes : List Byte)
  /-- an error appears that the ECC corrects as it is met: on a row of a die's stack, or in another store (R379) -/
  | corrected (row : Option (Nat × Nat))
  /-- the sector at a memory key takes an error beyond correction (R379) -/
  | flaw (key : Nat)
  /-- the 64-bit word at an offset of a cached copy takes an error beyond correction (R379) -/
  | flawCopy (k off : Nat)
  /-- an error beyond correction is met in a group's own leat, accumulator, barrier or kernel-store state (R379) -/
  | damage (gid : Nat)
  deriving DecidableEq, Repr

/-- The word being issued: its group and pass, the offset of its first prefix or of itself, the offset after it, its guard
and its hint (R75, R76). -/
structure Cur where
  gid : Nat
  pid : Nat
  at_ : Nat
  next : Nat
  guard : Option (Nat × Bool)
  hint : Option Nat
  deriving DecidableEq, Repr

/-- The machine. -/
structure State where
  /-- module clock cycles since reset; module time is five sevenths of it in ns (R11, R12) -/
  cycle : Nat
  agenda : List Choice
  /-- a counter that orders what is created: accesses, passes, groups, commands -/
  stamp : Nat
  /-- how many free values have been drawn -/
  fresh : Nat
  cur : Cur
  mem : Table Byte
  pend : List Pending
  /-- emax and tlast of each line's home (R221) -/
  emax : Table Nat
  tlast : Table Nat
  accesses : Table Access
  replies : Table Reply
  results : Table Result
  copies : Table Copy
  /-- full bits of scratchpad granules, by memory key (R171) -/
  full : Table Bool
  /-- words of the scratchpad and sectors with an uncorrectable error, by memory key (R379) -/
  bad : Table Bool
  ctxs : Table Context
  rings : Table Ring
  launches : Table Launch
  /-- rings in the order of their last dispatch turns, the latest last (R108) -/
  turns : List Nat
  teams : Table Team
  groups : Table Group
  clusters : Table Cluster
  cores : Table CoreSt
  /-- tiles by group × 16 + tile -/
  tiles : Table Tile
  engines : Table Engine
  chunks : Table Chunk
  /-- windows by die × 8 + window -/
  windows : Table Window
  frames : Table Frame
  /-- device free lists by die (R378) -/
  dieFree : Table (List Span)
  pools : Table Pool
  cows : Table Cow
  ports : Table Port
  draws : Table Draw
  shards : Table Shard
  /-- what checkpoints have carried to host memory beside bytes (R113) -/
  carried : List Carried
  mod : Module
  deriving DecidableEq, Repr

/-- The module registers after reset (Tables 24-1, 24-2, 11-2). The ROM measurement is taken at bring-up. -/
def Module.reset : Module :=
  { volts := 54, power := 0, temp := 0, duty := 63, throt := false, tripped := false, ready := false, sparex := false, trips := 0,
    plim := 16000, tthrot := 100, scrub := 24, cfgver := 0, cfgm := List.replicate 32 0, romm := List.replicate 32 0, modid := 0,
    cmdsDone := 0, eccFixed := 0, eccBad := 0, linkTimeouts := 0, spares := [], rowErrs := [], scrubAt := [], retired := [], around := [],
    msix := [], answers := [], aborted := [], migrate := [], idles := [] }

/-- The machine right after reset (R378): module time 0, every context Free, every port Disabled, memory with nothing listed,
MSTAT.READY 0; bring-up is the event BRING_UP. What exists only later (teams, groups, launches, accesses) is empty. -/
def State.reset : State :=
  { cycle := 0, agenda := [], stamp := 0, fresh := 0,
    cur := { gid := 0, pid := 0, at_ := 0, next := 0, guard := none, hint := none },
    mem := [], pend := [], emax := [], tlast := [], accesses := [], replies := [], results := [], copies := [], full := [], bad := [],
    ctxs := [], rings := [], launches := [], turns := [], teams := [], groups := [], clusters := [], cores := [], tiles := [], engines := [],
    chunks := [], windows := [], frames := [], dieFree := [], pools := [], cows := [], ports := [], draws := [], shards := [], carried := [],
    mod := Module.reset }

end Sys2Proof.Machine
end

