-- ==== Sys2Proof/Machine/Flags.lean ====
section
/-! DEFINITION. The sticky numeric flags FSTAT (02_numbers R40, Table 2-2). The bits an operation sets are computed with its
result (Machine/Number.lean: `finVal`, `finInt`, the invalid cases of R30); here they reach the thread. -/

namespace Sys2Proof.Machine

/-- FSTAT after an operation that sets the given bits: they stick (R40). -/
def Thread.addFlags (t : Thread) (f : Word) : Thread := { t with fstat := t.fstat ||| f }

/-- The NV bit of an operation that was invalid (R30). -/
def invalidFlag (bad : Bool) : Word := if bad then flagNV else 0#32

/-- FSTAT after an SSET: bits 4:0 of the operand (R40). -/
def Thread.setFlags (t : Thread) (w : Word) : Thread := { t with fstat := w &&& 0x1F#32 }

end Sys2Proof.Machine
end

