-- ==== Sys2Proof/Machine/Operands.lean ====
section
/-! DEFINITION. Reading operands: the view a thread of a pass has of its registers at a cycle (04_encoding R80, R84, R88;
08_group R140, R141; 15_isa_integer R282, R293, R297), and the decoding checks on them (R87 steps 2 to 4). -/

namespace Sys2Proof.Machine

/-- A thread of which nothing is set: what a read of a thread that does not exist gives. -/
def Thread.blank : Thread :=
  { v := [], x := [], p := [], dith := 1, fstat := 0, res := { blk := 0, off := 0, cause := 0 }, place := .retired, wait := .ready,
    woken := false, fcode := 0, fdetail := 0, fad := 0, mtime := none, horiz := none, hs := 0, hm := 0, hx := 0, late := [],
    mark := none, drawn := none, got := none, ltok := none, gctl := none, bank := 0, bankRef := false, owed := [] }

/-- The thread of a group with a TID. -/
def Group.thread (g : Group) (tid : Nat) : Thread := (lookup g.threads tid).getD Thread.blank

/-- A group with a thread's values replaced. -/
def Group.putThread (g : Group) (tid : Nat) (t : Thread) : Group := { g with threads := putAt g.threads tid t }

/-- The value of a register at a cycle: of the results readable by then the one with the latest cycle, the later issued on
a tie, else what the register holds (R80, R84). `best` is the cycle of the value chosen so far. -/
def readDue {α : Type} (tid idx t : Nat) : List (Due α) → Nat → α → α
  | [], _, acc => acc
  | d :: rest, best, acc =>
    if d.tid = tid ∧ d.idx = idx ∧ d.cyc ≤ t ∧ best ≤ d.cyc then readDue tid idx t rest d.cyc d.val
    else readDue tid idx t rest best acc

/-- The last cycle at which a result of the list becomes readable. -/
def lastDue {α : Type} (l : List (Due α)) : Nat := l.foldl (fun n d => max n d.cyc) 0

/-- Some result for the register is readable only after the cycle (R85). -/
def isEarly {α : Type} (l : List (Due α)) (tid idx t : Nat) : Bool :=
  l.any fun d => d.tid == tid && d.idx == idx && decide (t < d.cyc)

/-- The g results on their way, whichever pass they come from (R293): what a read sees. -/
def Group.owedG (g : Group) : List (Due Quad) := g.dueG.map fun d => { d with tid := 0 }

/-- What a thread of a pass, or a helper's copy, holds (R141). -/
def Pass.member (p : Pass) (g : Group) (tid : Nat) : Thread :=
  if p.cohort.contains tid then g.thread tid else (lookup p.helpers tid).getD Thread.blank

/-- A number put into an ascending list. -/
def insertNat (n : Nat) : List Nat → List Nat
  | [] => [n]
  | m :: rest => if n ≤ m then n :: m :: rest else m :: insertNat n rest

/-- The TIDs of the pass's positions, ascending: cohort and helpers (R140, R141). -/
def Pass.positions (p : Pass) : List Nat := p.cohort.foldr insertNat (p.helpers.map (·.1))

/-- The beats of a per-thread or cohort instruction (R140). -/
def Pass.beats (p : Pass) : Nat := max 1 ((p.positions.length + 31) / 32)

/-- What a thread or helper reads in one beat. -/
structure View where
  tid : Nat
  /-- position in the pass -/
  pos : Nat
  helper : Bool
  /-- the cycle of its beat -/
  cyc : Nat
  v : Nat → Carrier
  x : Nat → Carrier
  p : Nat → Bool
  g : Nat → Quad
  th : Thread

/-- The register values of a thread at a cycle. -/
def viewAt (g : Group) (p : Pass) (pos tid t : Nat) : View :=
  let th := p.member g tid
  { tid := tid
    pos := pos
    helper := !p.cohort.contains tid
    cyc := t
    v := fun i => readDue tid i t p.dueV 0 (readAt Carrier.zero th.v i)
    x := fun i => readDue tid i t p.dueX 0 (readAt Carrier.zero th.x i)
    p := fun i => if i = 0 then true else readDue tid i t p.dueP 0 (readAt false th.p i)
    g := fun i => readDue 0 i t g.owedG 0 (readAt 0#64 g.g i)
    th := th }

/-- The n32 in a v register. -/
def View.w (a : View) (i : BitVec 6) : Word := (a.v i.toNat).w

/-- The carrier in a v register. -/
def View.c (a : View) (i : BitVec 6) : Carrier := a.v i.toNat

/-- The pair of R282. -/
def View.pair (a : View) (i : BitVec 6) : Quad := (a.v (i.toNat + 1)).w ++ (a.v i.toNat).w

/-- The views of positions from `pos` on; position j issues in beat ⌊j ÷ 32⌋ (R79, R140). -/
def viewsFrom (g : Group) (p : Pass) (c : Nat) : Nat → List Nat → List View
  | _, [] => []
  | pos, tid :: rest => viewAt g p pos tid (c + pos / 32) :: viewsFrom g p c (pos + 1) rest

/-- The views of all positions of a pass whose first beat issues at cycle `c`. -/
def Pass.views (p : Pass) (g : Group) (c : Nat) : List View := viewsFrom g p c 0 p.positions

/-- The guard passes in a view (R76). -/
def View.passes (a : View) : Option (Nat × Bool) → Bool
  | none => true
  | some (i, sense) => a.p i == sense

/-- Cohort threads of the pass that pass the guard, with their views, in ascending TID. -/
def participants (vs : List View) (guard : Option (Nat × Bool)) : List View :=
  vs.filter fun a => !a.helper && a.passes guard

/-- What an instruction reads and writes, for the checks of R87 steps 2 to 4. -/
structure Needs where
  /-- v ranges read: first register and how many -/
  rv : List (Nat × Nat) := []
  wv : List (Nat × Nat) := []
  rp : List Nat := []
  wp : List Nat := []
  rg : List Nat := []
  rx : List Nat := []
  quad : Bool := false
  ext : Bool := false
  priv : Bool := false
  /-- the v registers are read of the source thread only, the lowest-TID cohort thread that passes the guard (R295) -/
  source : Bool := false
  /-- every other operand the instruction accepts -/
  ok : Bool := true

/-- A range lies below the staged count (R87 step 2). -/
def staged (p : Pass) (r : Nat × Nat) : Bool := decide (r.1 + r.2 ≤ p.staged)

/-- The operands of step 2 of R87 are accepted. -/
def operandsOk (p : Pass) (guard : Option (Nat × Bool)) (n : Needs) : Bool :=
  (n.rv ++ n.wv).all (staged p) && (n.rp ++ n.wp).all (fun i => decide (i < 96))
    && (match guard with | none => true | some (i, _) => decide (i < 96))
    && (!n.quad || p.quad) && (!n.ext || p.ext) && n.ok

/-- The registers of a list of ranges. -/
def rangeRegs : List (Nat × Nat) → List Nat
  | [] => []
  | (a, k) :: rest => (List.range k).map (a + ·) ++ rangeRegs rest

/-- The v registers a result on its way writes (R82). -/
def Fill.regs : Fill → List Nat
  | .words d n => (List.range n).map (d + ·)
  | .narrow d _ => [d]
  | .image d => [d]
  | .elem d _ _ => [d]
  | .uniform _ => []
  | .ready d => [d]

/-- A variable-latency write of a register is outstanding in a thread of a pass, or in a helper's copy (R82, R85), whether or not a token
covers it (a T of 3 names none; DEDUCED, log 70). -/
def outstandingReg (accs : Table Access) (ress : Table Result) (gid pid tid : Nat) (helper : Bool) (i : Nat) : Bool :=
  (accs.any fun (_, a) => a.gid == gid && a.pid == pid && a.tids.contains tid && a.helper == helper &&
      (match a.fill with | none => false | some f => f.regs.contains i))
    || (ress.any fun (_, r) => r.gid == gid && r.pid == pid && r.tids.contains tid && r.helper == helper && r.fill.regs.contains i)

/-- What is pending for a pass that issues: its number, the registers whose variable-latency writes are outstanding, and the tokens. -/
structure Owed where
  pid : Nat
  busy : View → Nat → Bool
  tok : Nat → Bool

/-- The token that covers a register's last variable-latency result has not cleared since (R82, R85). -/
def Pass.uncleared (p : Pass) (tok : Nat → Bool) (tid i : Nat) : Bool :=
  p.covered.any fun (t, u, j) => u == tid && j == i && tok t

/-- The v registers that an instruction reads in a view: of the source thread only, for a per-pass move from a thread (R295). -/
def Needs.readIn (n : Needs) (vs : List View) (guard : Option (Nat × Bool)) (a : View) : List Nat :=
  if n.source && (match participants vs guard with | [] => true | b :: _ => b.tid != a.tid) then [] else rangeRegs n.rv

/-- The condition of R85 in one view. Each position counts, also of a helper and of a thread that the guard suppresses (DEDUCED, log 69);
a g result counts for the pass that wrote it alone (R293). -/
def stallFails (g : Group) (p : Pass) (o : Owed) (guard : Option (Nat × Bool)) (n : Needs) (vs : List View) (a : View) : Bool :=
  (n.readIn vs guard a).any (fun i => isEarly p.dueV a.tid i a.cyc || o.busy a i || p.uncleared o.tok a.tid i)
    || (rangeRegs n.wv).any (fun i => o.busy a i)
    || (n.rp ++ (match guard with | none => [] | some (i, _) => [i])).any (fun i => isEarly p.dueP a.tid i a.cyc)
    || n.rg.any (fun i => isEarly g.dueG o.pid i a.cyc)
    || n.rx.any (fun i => isEarly p.dueX a.tid i a.cyc)

/-- The decoding checks of R87 after step 1, in order: the code of the first that fails. -/
def decodeFault (sys : Bool) (g : Group) (p : Pass) (o : Owed) (guard : Option (Nat × Bool)) (n : Needs) (vs : List View) : Option Nat :=
  if !operandsOk p guard n then some 0x02
  else if n.priv && !sys then some 0x13
  else if g.schk && vs.any (stallFails g p o guard n vs) then some 0x03
  else none

end Sys2Proof.Machine
end

