-- ==== Sys2Proof/Machine/Memory.lean ====
section
/-! DEFINITION. Memory: one table of bytes for every space, the homes of R221, leases and copies (12_memory R207 to R226) and
translation (10_page R178 to R181). -/

namespace Sys2Proof.Machine

/-! ### Keys and bytes -/

/-- Memory keys: an HBM physical address is its own key (R179); the other spaces lie above it. -/
def scratchKey (cluster bank off : Nat) : Nat := 2 ^ 64 + cluster * 2 ^ 32 + bank * 2 ^ 19 + off
def peerKey (m pa : Nat) : Nat := 2 ^ 68 + m * 2 ^ 52 + pa
def hostKey (a : Nat) : Nat := 2 ^ 72 + a

/-- The end of the module's HBM: 24 dies of 64 GiB (R10, R179). -/
def hbmEnd : Nat := 24 * 2 ^ 36

/-- The space a key lies in. -/
def keySpace (k : Nat) : Space :=
  if k < 2 ^ 64 then .hbm else if k < 2 ^ 68 then .scratch else if k < 2 ^ 72 then .peer else .host

/-- The line of a key: 128 bytes (R212). -/
def lineOf (k : Nat) : Nat := k / 128 * 128

/-- Module time in ns (R11, R12). Every die reads this one value: the skew of up to 4 ns that R13 leaves open is 0 (DESIGN CHOICE, log 9). -/
def State.now (s : State) : Nat := s.cycle * 5 / 7

/-- What an unlisted byte of memory reads as. -/
def memDefault : Byte := 0#8

/-- The canonical form of memory. -/
abbrev Memory.wf (m : Table Byte) : Bool := Table.wf memDefault m

/-- Bytes written from a key upward. -/
def writeBytes (m : Table Byte) (key : Nat) : List Byte → Table Byte
  | [] => m
  | b :: rest => writeBytes (writeAt memDefault m key b) (key + 1) rest

/-- A byte as every agent sees it now. -/
def State.byte (s : State) (k : Nat) : Byte := readAt memDefault s.mem k

/-- `n` bytes as every agent sees them now. -/
def State.bytes (s : State) (k n : Nat) : List Byte := (List.range n).map fun i => s.byte (k + i)

/-- A byte with the pending writes that a test selects laid over it, in coherence order. -/
def overlay (sel : Pending → Bool) (k : Nat) : List Pending → Byte → Byte
  | [], b => b
  | w :: rest, b =>
    overlay sel k rest (if sel w && decide (w.key ≤ k) && decide (k < w.key + w.bytes.length) then w.bytes.getD (k - w.key) b else b)

/-- A byte's latest value in coherence order, visible or not (R223). -/
def State.latest (s : State) (k : Nat) : Byte := overlay (fun _ => true) k s.pend (s.byte k)

def State.latestBytes (s : State) (k n : Nat) : List Byte := (List.range n).map fun i => s.latest (k + i)

/-- A list of bytes as a number, lowest byte first (R2). -/
def leNat : List Byte → Nat
  | [] => 0
  | b :: rest => b.toNat + 256 * leNat rest

/-- A number as `n` bytes, lowest first (R2). -/
def leBytes : Nat → Nat → List Byte
  | 0, _ => []
  | n + 1, x => BitVec.ofNat 8 x :: leBytes n (x / 256)

/-- An aligned 8-byte word's latest value. -/
def State.latest8 (s : State) (k : Nat) : Quad := BitVec.ofNat 64 (leNat (s.latestBytes k 8))

/-- The writes that module time has reached become what every agent sees (R221). -/
def mergeDue (now : Nat) : List Pending → Table Byte → Table Byte × List Pending
  | [], m => (m, [])
  | w :: rest, m =>
    if w.twc ≤ now then mergeDue now rest (writeBytes m w.key w.bytes)
    else
      let (m', l) := mergeDue now rest m
      (m', w :: l)

/-- The state after every write whose T_wc has passed became visible. -/
def State.settle (s : State) : State :=
  let (m, l) := mergeDue s.now s.pend s.mem
  { s with mem := m, pend := l }

/-- The clock advanced by some cycles (R11, R12). -/
def State.advance (s : State) (n : Nat) : State := { s with cycle := s.cycle + n }.settle

/-- The clock at a cycle no earlier than now. -/
def State.advanceTo (s : State) (c : Nat) : State := { s with cycle := max s.cycle c }.settle

/-! ### Copies (R212 to R220) -/

/-- Die of an HBM or peer line's requester is given by its core; clusters hold 8 cores and dies 8 clusters (R9). -/
def clusterOfCore (core : Nat) : Nat := core / 8
def dieOfCore (core : Nat) : Nat := core / 64
def dieOfCluster (c : Nat) : Nat := c / 8

/-- A cluster's record. -/
def State.cluster (s : State) (c : Nat) : Cluster := (lookup s.clusters c).getD Cluster.zero

/-- The mode in effect in a bank (R210). -/
def Cluster.mode (c : Cluster) (b : Nat) : Nat := readAt (bankReset b) c.modes b

/-- The cluster's banks in a mode. -/
def Cluster.banks (c : Cluster) (m : Nat) : List Nat := (List.range 64).filter fun b => c.mode b == m

/-- A context's record; a slot that was never created is Free (R89). -/
def State.ctx (s : State) (c : Nat) : Context := (lookup s.ctxs c).getD Context.free

/-- A retention window of a die. -/
def State.window (s : State) (die w : Nat) : Window := readAt Window.zero s.windows (die * 8 + w)

/-- The line's own number within its space: its physical address ÷ 128. -/
def lineNo (line : Nat) : Nat := line % 2 ^ 52 / 128

/-- The set of a line in a cache, as one number (R212, R213). -/
def State.setOf (s : State) (cid : CacheId) (line : Nat) : Nat :=
  match cid with
  | .cluster c =>
    let n := ((s.cluster c).banks 0).length
    lineNo line % n * 256 + lineNo line / n % 256
  | .die _ => lineNo line % 16 * 2048 + lineNo line / 16 % 2048

/-- The ways of a slice that windows hold (R217). -/
def State.heldWays (s : State) (die slice : Nat) : Nat :=
  ((List.range 8).map fun w =>
    let x := s.window die w
    if x.pinned && x.mask.getLsbD slice then x.eways else 0).sum

/-- The ways of a line's set that ordinary lines use (R214). -/
def State.freeWays (s : State) (cid : CacheId) (line : Nat) : Nat :=
  match cid with
  | .cluster c => if ((s.cluster c).banks 0).isEmpty then 0 else 16
  | .die d => 16 - s.heldWays d (lineNo line % 16)

/-- A copy may serve a read (R220, R215, R218). -/
def Copy.serves (c : Copy) (now : Nat) : Bool :=
  !c.stale && (match c.expiry with | none => true | some e => decide (now < e))

/-- The copy of a line in a cache, with its key. -/
def State.copyOf (s : State) (cid : CacheId) (line : Nat) : Option (Nat × Copy) :=
  s.copies.find? fun (_, c) => decide (c.cache = cid) && decide (c.line = line)

/-- The better victim of two, the second of them allocated later (R214): an expired lease, then the least recently used unprotected line,
then the least recently used. A line allocated as least recently used lies below those that were allocated so before it. -/
def betterVictim (now : Nat) (a b : Nat × Copy) : Nat × Copy :=
  let ea := !a.2.serves now
  let eb := !b.2.serves now
  if ea != eb then (if ea then a else b)
  else if a.2.prot != b.2.prot then (if a.2.prot then b else a)
  else if b.2.used ≤ a.2.used then b else a

def chooseVictim (now : Nat) : List (Nat × Copy) → Option (Nat × Copy)
  | [] => none
  | a :: rest => match chooseVictim now rest with
    | none => some a
    | some b => some (betterVictim now a b)

/-- The ordinary lines of a set brought down to the ways left to them (R214, R217). -/
def trimmed (now ways : Nat) : Nat → List (Nat × Copy) → List (Nat × Copy)
  | 0, l => l
  | n + 1, l => if l.length ≤ ways then l else match chooseVictim now l with
    | none => l
    | some (k, _) => trimmed now ways n (l.filter fun x => x.1 != k)

/-- A new stamp. -/
def State.tick (s : State) : State := { s with stamp := s.stamp + 1 }

/-- An ordinary line allocated on a miss under its class, in place of a copy of it that serves no more (R214); `flaws` are the offsets of
its words whose data is beyond correction (R379). -/
def State.allocate (s : State) (cid : CacheId) (line : Nat) (data : List Byte) (flaws : List Nat) (expiry : Option Nat) (cls : Nat) : State :=
  let ways := s.freeWays cid line
  if cls = 3 ∨ ways = 0 then s
  else
    let s := { s with copies := s.copies.filter fun (_, c) => !(decide (c.cache = cid) && decide (c.line = line) && c.window.isNone) }
    let same := s.copies.filter fun (_, c) => decide (c.cache = cid) && c.window.isNone && s.setOf cid c.line == s.setOf cid line
    let stay := trimmed s.now (ways - 1) same.length same
    let kept := s.copies.filter fun (k, _) => !(same.any fun x => x.1 == k) || stay.any fun x => x.1 == k
    let c : Copy := { cache := cid, line := line, data := data, expiry := expiry, used := if cls = 1 then 0 else s.stamp + 1,
                      prot := cls == 2, stale := false, window := none, flaws := flaws }
    { s with copies := putAt kept s.stamp c, stamp := s.stamp + 1 }

/-- Ways that windows take leave a set's ordinary lines no more than the others: those that no longer fit are dropped (R217). -/
def State.trimDie (s : State) (die : Nat) : State :=
  { s with copies := s.copies.filter fun (k, c) =>
      if c.cache = .die die ∧ c.window = none then
        let same := s.copies.filter fun (_, x) => decide (x.cache = .die die) && x.window.isNone && s.setOf (.die die) x.line == s.setOf (.die die) c.line
        (trimmed s.now (s.freeWays (.die die) c.line) same.length same).any fun x => x.1 == k
      else true }

/-- A hit makes its line most recently used, except for evict-first and no-allocate accesses (R214). -/
def State.hit (s : State) (k : Nat) (c : Copy) (cls : Nat) : State :=
  if cls = 1 ∨ cls = 3 then s else { s with copies := putAt s.copies k { c with used := s.stamp + 1 }, stamp := s.stamp + 1 }

/-- The copies of a line in a cache discarded; a window's line only becomes stale (R213, R218, R334). -/
def State.discard (s : State) (cid : CacheId) (line : Nat) : State :=
  { s with copies := s.copies.filterMap fun (k, c) =>
      if c.cache = cid ∧ c.line = line then (match c.window with | none => none | some _ => some (k, { c with stale := true }))
      else some (k, c) }

/-- A write passing on its way to the home discards its own cluster's and die's copies (R213). -/
def State.passWrite (s : State) (core line : Nat) : State :=
  (s.discard (.cluster (clusterOfCore core)) line).discard (.die (dieOfCore core)) line

/-- The window of a die that an access belongs to, the number of its line within the range, and whether the line is within capacity
(R218). -/
def State.windowOf (s : State) (die ctx : Nat) (addr : Nat) : Option (Nat × Nat × Bool) :=
  match (List.range 8).find? fun w =>
      let x := s.window die w
      x.pinned && x.ctx == ctx && decide (x.base.toNat ≤ addr) && decide (addr < x.base.toNat + x.len * 2 ^ 16) with
  | none => none
  | some w =>
    let x := s.window die w
    let n := (List.range 16).countP fun i => x.mask.getLsbD i
    let o := (addr - x.base.toNat) / 128
    some (w, o, n != 0 && decide (o / n / 2048 < x.eways))

/-- The copy in the place of a line of a window (R218). -/
def State.placeOf (s : State) (die w o : Nat) : Option (Nat × Copy) :=
  s.copies.find? fun (_, c) => decide (c.cache = .die die) && decide (c.window = some (w, o))

/-- One line of a beat or engine request counted in its window, and its place taken (R218). `count` is false for PFTCH. The place belongs to
the line of the range; where the range now leads to another physical line, what the place holds is stale. -/
def State.windowLine (s : State) (die ctx addr line : Nat) (count : Bool) : State :=
  match s.windowOf die ctx addr with
  | none => s
  | some (w, o, inside) =>
    let x := s.window die w
    let one := if count then 1#64 else 0#64
    if !inside then { s with windows := writeAt Window.zero s.windows (die * 8 + w) { x with ovf := x.ovf + one } }
    else
      let empty : Copy := { cache := .die die, line := line, data := [], expiry := none, used := s.stamp, prot := false, stale := true,
                            window := some (w, o) }
      match s.placeOf die w o with
      | some (k, c) => { s with windows := writeAt Window.zero s.windows (die * 8 + w) { x with hits := x.hits + one }
                                copies := if c.line = line then s.copies else putAt s.copies k empty }
      | none => { s with windows := writeAt Window.zero s.windows (die * 8 + w) { x with fills := x.fills + one }
                         copies := putAt s.copies s.stamp empty, stamp := s.stamp + 1 }

/-! ### Ways to peers -/

/-- A port in Up that the rule makes leave it: no flit for 1 µs, or eight replays in a row of one flit (R195). -/
def Port.silent (x : Port) (now : Nat) : Bool := decide (x.heard + 1000 ≤ now) || decide (8 ≤ x.replays)

/-- The port is in use (R195). -/
def Port.up (x : Port) (now : Nat) : Bool := x.st == 2 && !x.silent now

/-- The port of an access in flight is in use (R195). -/
def State.portUp (s : State) (p : Nat) : Bool := match lookup s.ports p with
  | none => false
  | some x => x.up s.now

/-- The ports in Up toward a module, in ascending order; none toward the module itself, as each port's training exchanged it (R196,
Table 11-2). -/
def State.routes (s : State) (m : Nat) : List Nat :=
  (List.range 18).filter fun p => match lookup s.ports p with
    | none => false
    | some x => x.up s.now && x.peer == m && x.own != m

/-- The port of a peer access, if it has a route (R196). -/
def State.routeOf (s : State) (key : Nat) : Option Nat :=
  let ports := s.routes ((key - 2 ^ 68) / 2 ^ 52)
  ports[key % 2 ^ 52 / 2 ^ 16 % ports.length]?

/-- The port that an access to a place crosses, if it leaves the module (R196). -/
def State.portFor (s : State) (space : Space) (key : Nat) : Option Nat := if space = .peer then s.routeOf key else none

/-- The place is reached: in this module, in host memory, or over a port (R196). -/
def State.reached (s : State) (space : Space) (key : Nat) : Bool := space != .peer || (s.routeOf key).isSome

/-- The lowest port toward the module of a peer key, whatever its state: where an access without a route is counted. -/
def State.portToward (s : State) (key : Nat) : Option Nat :=
  let m := (key - 2 ^ 68) / 2 ^ 52
  (List.range 18).find? fun p => match lookup s.ports p with
    | none => false
    | some x => x.peer == m && x.own != m

/-- One access or chunk ended by timeout or error, counted at a port (Table 11-1) and in the module (R114). -/
def State.countTimeout (s : State) (port : Option Nat) : State :=
  let s := { s with mod := { s.mod with linkTimeouts := s.mod.linkTimeouts + 1 } }
  match port with
  | none => s
  | some p => match lookup s.ports p with
    | none => s
    | some x => { s with ports := writeAt Port.zero s.ports p { x with timeouts := min 0xFFFFFFFF (x.timeouts + 1) } }

/-! ### Homes (R221 to R226) -/

/-- The earliest write completion time that a line leaves to a write that arrives now (R221). -/
def State.lineTwc (s : State) (line : Nat) : Nat := max s.now (max (readAt 0 s.emax line + 4) (readAt 0 s.tlast line + 1))

/-- A module time that a peer reports, converted by TOFF (R197). -/
def State.localTime (s : State) (key ext : Nat) : Nat :=
  match (s.routeOf key).bind fun p => lookup s.ports p with
  | none => 0
  | some x => (ext - x.toff.toInt).toNat

/-- The write completion time of a write of `n` bytes that arrives now (R221; R208 for scratchpad; R224 for host memory, whose time is
the one the host link reports, `ext`, never before now, and after that of an earlier write to the location, R222; at a peer the one that
the peer reports, `ext`, converted, and never before what its home may give, R197). An element that lies in two lines waits for both
(R209). -/
def State.twcOf (s : State) (key n ext : Nat) : Nat :=
  match keySpace key with
  | .scratch => s.now
  | .host => s.pend.foldl (fun t w => if w.key < key + n ∧ key < w.key + w.bytes.length then max t (w.twc + 1) else t) (max s.now ext)
  | .peer => max (s.localTime key ext) (max (s.lineTwc (lineOf key)) (s.lineTwc (lineOf (key + (n - 1)))))
  | .hbm => max (s.lineTwc (lineOf key)) (s.lineTwc (lineOf (key + (n - 1))))

/-- A write arrives at its home with a completion time that its home allows, and joins the coherence order (R221, R222). -/
def State.arriveWith (s : State) (key : Nat) (bytes : List Byte) (gid : Nat) (tids : List Nat) (twc : Nat) : State :=
  let w : Pending := { key := key, bytes := bytes, twc := twc, gid := gid, tids := tids, seen := [] }
  match keySpace key with
  | .scratch => { s with mem := writeBytes s.mem key bytes }
  | .host => { s with pend := s.pend ++ [w] }.settle
  | _ => { s with pend := s.pend ++ [w]
                  tlast := writeAt 0 (writeAt 0 s.tlast (lineOf key) twc) (lineOf (key + (bytes.length - 1))) twc }.settle

/-- A write arrives at its home: it takes its T_wc and joins the coherence order (R221, R222). -/
def State.arrive (s : State) (key : Nat) (bytes : List Byte) (gid : Nat) (tids : List Nat) (ext : Nat) : State :=
  s.arriveWith key bytes gid tids (s.twcOf key bytes.length ext)

/-- A lease granted on a read at the home now, shortened below any pending T_wc of the line (R221). -/
def State.lease (s : State) (line len : Nat) : Option Nat :=
  let e := s.pend.foldl (fun e w => if (lineOf w.key = line ∨ lineOf (w.key + (w.bytes.length - 1)) = line) ∧ s.now < w.twc then min e (w.twc - 4) else e) (s.now + len)
  if s.now < e then some e else none

/-- The length of a lease (R220). -/
def State.leaseLen (s : State) (ctx line : Nat) : Nat :=
  match keySpace line with
  | .peer => 16000
  | _ => (s.ctx ctx).leaseHbm

/-- The home grants a lease (R221). -/
def State.grantLease (s : State) (line : Nat) (e : Nat) : State :=
  { s with emax := writeAt 0 s.emax line (max (readAt 0 s.emax line) e) }

/-- What one error beyond correction spoils (R379): a 64-bit word of the scratchpad, a 32-byte sector of the other memories. -/
def eccUnit (key : Nat) : Nat := if keySpace key = .scratch then 8 else 32

/-- Some unit of the range holds an error that the ECC cannot correct (R379). -/
def State.badIn (s : State) (key n : Nat) : Bool :=
  s.bad.any fun (k, b) => b && decide (k < key + n) && decide (key < k + eccUnit k)

/-- Whether a read meets an error beyond correction, which is counted once for the read (R114, R379). -/
def State.countBad (s : State) (met : Bool) : State := if met then { s with mod := { s.mod with eccBad := s.mod.eccBad + 1 } } else s

/-! ### Translation (R178 to R181) -/

/-- A field of a 64-bit entry. -/
def fld (x : Quad) (hi lo : Nat) : Nat := x.toNat / 2 ^ lo % 2 ^ (hi + 1 - lo)

/-- A physical address within a leaf's frame (Table 10-1). -/
def leafPhys (e : Quad) (shift va : Nat) : Nat := fld e 51 16 * 2 ^ 16 + va % 2 ^ shift

/-- The shape of a leaf that R180 accepts at a level of that shift. -/
def leafShapeOk (e : Quad) (shift : Nat) : Bool :=
  fld e 15 12 == 0 && fld e 9 8 != 3 && (fld e 51 16 * 2 ^ 16) % 2 ^ shift == 0 && (fld e 63 52 == 0 || fld e 9 8 == 1)
    && (!e.getLsbD 2 || (shift == 16 && fld e 9 8 == 0)) && (fld e 9 8 != 0 || decide (fld e 51 16 * 2 ^ 16 / 2 ^ 36 ≤ 23))

/-- A table entry of R179 has only Valid and the next node's address. -/
def tableShapeOk (e : Quad) : Bool := fld e 11 1 == 0 && fld e 63 52 == 0

/-- A walk's end: a fault code, or a leaf with the physical address of its entry and the shift of its level. -/
inductive Walk where
  | bad (code : Nat)
  | leaf (at_ : Nat) (pte : Quad) (shift : Nat)
  deriving DecidableEq, Repr

/-- The levels of R178: shift of the index and the size code of a leaf there. -/
def levels : List (Nat × Nat) := [(43, 0), (34, 3), (25, 2), (16, 1)]

/-- The walk from a node over the remaining levels (R180). -/
def State.walkFrom (s : State) : List (Nat × Nat) → Nat → Nat → Walk
  | [], _, _ => .bad 0x09
  | (shift, code) :: rest, node, va =>
    let at_ := node + 8 * (va / 2 ^ shift % 512)
    let e := s.latest8 at_
    if !e.getLsbD 0 then .bad 0x05
    else if fld e 7 6 = 0 then (if tableShapeOk e then s.walkFrom rest (fld e 51 12 * 2 ^ 12) va else .bad 0x09)
    else if fld e 7 6 ≠ code ∨ !leafShapeOk e shift then .bad 0x09
    else .leaf at_ e shift

/-- The walk of an address in a context (R180). -/
def State.walk (s : State) (ctx : Nat) (va : Quad) : Walk :=
  if fld va 63 52 ≠ 0 then .bad 0x05 else s.walkFrom levels (fld (s.ctx ctx).ptroot 51 12 * 2 ^ 12) va.toNat

/-- What a translation gives: the memory key, the space, the leaf's class, its entry's address and its peer; or a fault; or a
copy-on-write leaf with its frame. -/
inductive Trans where
  | ok (space : Space) (key : Nat) (cls : Nat) (leaf : Option Nat)
  | fault (code : Nat)
  | cow (leaf frame : Nat)
  deriving DecidableEq, Repr

/-- Translation of a device virtual address (R180). -/
def State.translate (s : State) (ctx : Nat) (va : Quad) (write : Bool) : Trans :=
  match s.walk ctx va with
  | .bad c => .fault c
  | .leaf at_ e shift =>
    let plain := shift == 16 && fld e 9 8 == 0 && e.getLsbD 2
    if write && (!e.getLsbD 1 || (e.getLsbD 3 && !plain)) then .fault 0x06
    else if write && e.getLsbD 3 then .cow at_ (fld e 51 16)
    else
      let pa := leafPhys e shift va.toNat
      match fld e 9 8 with
      | 0 => .ok .hbm pa (fld e 11 10) (some at_)
      | 1 => .ok .peer (peerKey (fld e 63 52) pa) (fld e 11 10) (some at_)
      | _ => .ok .host (hostKey pa) (fld e 11 10) (some at_)

/-- The team's scratchpad allocation and cluster of a group. -/
def State.teamOf (s : State) (g : Group) : Option Team := lookup s.teams g.team

/-- The memory key of a scratchpad offset: its bank of 512 KiB and the place in it (R119, R208). -/
def Team.scratchAt (t : Team) (off : Nat) : Nat := scratchKey t.cluster (t.banks.getD (off / 2 ^ 19) 0) (off % 2 ^ 19)

/-- The decoding of an address a thread names (R207), then its translation. -/
def State.locate (s : State) (g : Group) (va : Quad) (write : Bool) : Trans :=
  if fld va 63 52 = 0 then s.translate g.ctx va write
  else match s.teamOf g with
    | none => .fault 0x05
    | some t =>
      if 0xFF00000000000000 ≤ va.toNat ∧ va.toNat < 0xFF00000000000000 + t.scratch then
        .ok .scratch (t.scratchAt (va.toNat - 0xFF00000000000000)) 0 none
      else .fault 0x05

/-- A and D of a leaf set by an atomic OR at its address (R181), when they are not set yet. -/
def State.touch (s : State) (leaf : Option Nat) (write : Bool) : State :=
  match leaf with
  | none => s
  | some k =>
    let e := s.latest8 k
    let e' := e ||| 0x10#64 ||| (if write then 0x20#64 else 0#64)
    if e' = e then s else s.arrive k (leBytes 8 e'.toNat) 0 [] 0

end Sys2Proof.Machine
end

