-- ==== Sys2Proof/Machine/Frames.lean ====
section
/-! DEFINITION. The frame unit: frames, pools and copy-on-write resolutions (10_page R182 to R189, R381). -/

namespace Sys2Proof.Machine

/-- The frames each die sets aside at bring-up (R378). -/
def reservedFrames : Nat := 8320

/-- A frame's entry: those of the device-reserved region are allocated with COUNT 0 (R378). -/
def State.frame (s : State) (f : Nat) : Frame :=
  (lookup s.frames f).getD (if f % 2 ^ 20 < reservedFrames ∧ s.mod.ready then { Frame.zero with st := .allocated } else Frame.zero)

def State.putFrame (s : State) (f : Nat) (x : Frame) : State := { s with frames := putAt s.frames f x }

/-- The code of a frame state (Table 10-2). -/
def FrameSt.code : FrameSt → Nat
  | .free => 0
  | .allocated => 1
  | .inFlight => 2
  | .migrating => 3

/-- The number after one in a list; 0xFFFFFFFF at its end. -/
def nextIn (f : Nat) : List Nat → Option Nat
  | [] => none
  | a :: rest => if a = f then some (rest.headD 0xFFFFFFFF) else nextIn f rest

/-- The free frame behind one on a device free list: the next of its run, or the first of the run after it. -/
def nextOnDie (f : Nat) : List Span → Option Nat
  | [] => none
  | (a, n) :: rest =>
    if a ≤ f ∧ f < a + n then some (if f + 1 < a + n then f + 1 else (rest.map (·.1)).headD 0xFFFFFFFF) else nextOnDie f rest

/-- NEXT of a free frame: the frame behind it on its free list (Table 10-2). -/
def State.nextFree (s : State) (f : Nat) : Nat :=
  match s.pools.findSome? fun (_, p) => nextIn f p.free with
  | some n => n
  | none => (nextOnDie f (readAt [] s.dieFree (f / 2 ^ 20))).getD 0xFFFFFFFF

/-- The image of a frame's entry, which PGINFO returns; NEXT is zero in a frame that is not free (Table 10-2). -/
def State.frameImage (s : State) (f : Nat) : Quad :=
  let x := s.frame f
  BitVec.ofNat 64 (x.count % 2 ^ 16 + x.st.code * 2 ^ 16 + x.users % 2 ^ 14 * 2 ^ 18 + if x.st = .free then s.nextFree f % 2 ^ 32 * 2 ^ 32 else 0)

/-- The pool a context uses (R184). -/
def State.poolOf (s : State) (ctx : Nat) : Option (Nat × Pool) :=
  if (s.ctx ctx).poolId = 0xFFFF then none else (lookup s.pools (s.ctx ctx).poolId).map ((s.ctx ctx).poolId, ·)

/-- A frame joins its pool's free list when nothing maps or uses it (R183). -/
def State.freeIfIdle (s : State) (f : Nat) : State :=
  let x := s.frame f
  match x.pool with
  | none => s
  | some q =>
    if x.st = .allocated ∧ x.count = 0 ∧ x.users = 0 then
      match lookup s.pools q with
      | none => s
      | some pl => { (s.putFrame f { x with st := .free }) with pools := putAt s.pools q { pl with free := pl.free ++ [f] } }
    else s

/-- COUNT − 1 of a frame (R183). -/
def State.decCount (s : State) (f : Nat) : State :=
  (s.putFrame f { s.frame f with count := (s.frame f).count - 1 }).freeIfIdle f

/-- USERS ± of a frame (R190). -/
def State.addUser (s : State) (f : Nat) : State := s.putFrame f { s.frame f with users := (s.frame f).users + 1 }
def State.dropUser (s : State) (f : Nat) : State :=
  (s.putFrame f { s.frame f with users := (s.frame f).users - 1 }).freeIfIdle f

/-- The head of a pool's free list taken (R185, R188). -/
def State.takeHead (s : State) (q : Nat) (pl : Pool) : Option (Nat × State) :=
  match pl.free with
  | [] => none
  | f :: rest => some (f, { s with pools := putAt s.pools q { pl with free := rest } })

/-- A level-4 leaf of R185: V, W, CNT, SIZE 1, TYPE 0 and a frame. -/
def countedLeaf (f : Nat) : Quad := BitVec.ofNat 64 (1 + 2 + 4 + 2 ^ 6 + f % 2 ^ 36 * 2 ^ 16)

/-- A page-table entry written by the frame unit (R381). -/
def State.writePte (s : State) (at_ : Nat) (e : Quad) : State := s.arrive at_ (leBytes 8 e.toNat) 0 [] 0

/-- A frame's bytes copied, sector by sector, each as an atomic reads it (R381). -/
def State.copyFrame (s : State) (old new : Nat) : State :=
  (List.range 2048).foldl (fun s i =>
    s.arrive (new * 2 ^ 16 + i * 32) (s.latestBytes (old * 2 ^ 16 + i * 32) 32) 0 [] 0) s

/-- The latest T_wc of the pending writes that hold a byte of the range, or now. -/
def State.twcOver (s : State) (key n : Nat) : Nat :=
  s.pend.foldl (fun t w => if w.key < key + n ∧ key < w.key + w.bytes.length then max t w.twc else t) s.now

/-- The outcomes of a resolution (R188). -/
inductive CowOut where
  | changed
  | cleared
  | copied (f : Nat)
  | exhausted
  deriving DecidableEq, Repr

/-- The leaf is still the one the write met (R188). -/
def cowLeafStands (e : Quad) (frame : Nat) : Bool :=
  e.getLsbD 0 && e.getLsbD 1 && e.getLsbD 2 && e.getLsbD 3 && fld e 7 6 == 1 && fld e 9 8 == 0 && fld e 51 16 == frame

/-- The decision of a resolution in one step (R188). -/
def State.decideCow (s : State) (ctx leaf frame : Nat) : State × CowOut :=
  let e := s.latest8 leaf
  if !cowLeafStands e frame then (s, .changed)
  else if (s.frame frame).count ≤ 1 then (s.writePte leaf (e &&& ~~~8#64), .cleared)
  else match s.poolOf ctx with
    | none => (s, .exhausted)
    | some (q, pl) =>
      if pl.free.length ≤ pl.reserve then (s, .exhausted)
      else match s.takeHead q pl with
        | none => (s, .exhausted)
        | some (n, s) =>
          let s := s.putFrame n { s.frame n with st := .inFlight, count := 1, pool := some q }
          let s := s.copyFrame frame n
          let e' := BitVec.ofNat 64 (e.toNat % 2 ^ 16 + n * 2 ^ 16) &&& ~~~8#64 ||| 0x10#64
          ((s.writePte leaf e').decCount frame, .copied n)

/-- A frame in flight or migrating is Allocated again, and free at once when nothing maps or uses it any more (R183). -/
def State.settleFrame (s : State) (f : Nat) : State := (s.putFrame f { s.frame f with st := .allocated }).freeIfIdle f

/-- A decided resolution holds its leaf until its writes have reached their T_wc (R188, R381). -/
def State.cowDecided (s : State) (k : Nat) (c : Cow) (new : Option Nat) : State :=
  let t := match new with
    | none => s.twcOver c.leaf 8
    | some n => max (s.twcOver c.leaf 8) (s.twcOver (n * 2 ^ 16) (2 ^ 16))
  { s with cows := putAt s.cows k { c with st := .decided t new } }

/-- A resolution that no thread waits for, of a fault record or a ring entry (R94, R101): decided and taken as complete. -/
def State.resolveNow (s : State) (ctx leaf frame : Nat) : State × Bool :=
  match s.decideCow ctx leaf frame with
  | (s, .exhausted) => (s, false)
  | (s, .copied n) => (s.settleFrame n, true)
  | (s, _) => (s, true)

/-- A write of the device that meets a copy-on-write leaf: it joins the leaf's pending resolution, which is decided then, or has its own
(R189). A pending one that finds the pool exhausted stays for the threads that wait for it. -/
def State.resolveFor (s : State) (ctx leaf frame : Nat) : State × Bool :=
  match s.cows.find? fun (_, c) => c.leaf == leaf && c.st == .waiting with
  | none => s.resolveNow ctx leaf frame
  | some (k, c) => match s.decideCow c.ctx c.leaf c.frame with
    | (_, .exhausted) => (s, false)
    | (s, .copied n) => (s.cowDecided k c (some n), true)
    | (s, _) => (s.cowDecided k c none, true)

/-- A write at system scope by the device to an address of a context (R94, R101, R104): the state and whether it was
written; to a peer only over a route (R196). -/
def State.deviceWrite (s : State) (ctx : Nat) (va : Quad) (bytes : List Byte) : State × Bool :=
  let go := fun (s : State) => match s.translate ctx va true with
    | .ok space key _ leaf =>
      if s.reached space key then ((s.touch leaf true).arrive key bytes 0 [] 0, true)
      else ((s.touch leaf true).countTimeout (s.portToward key), false)
    | _ => (s, false)
  match s.translate ctx va true with
  | .cow leaf frame =>
    match s.resolveFor ctx leaf frame with
    | (s, true) => go s
    | (s, false) => (s, false)
  | _ => go s

/-- A read by the device at an address of a context, whole lines of the latest visible bytes, with the state after it; no bytes when it does
not translate or has no route to a peer (R196). A leaf that translates gets its A in either case (R181). -/
def State.deviceRead (s : State) (ctx : Nat) (va : Quad) (n : Nat) : State × Option (List Byte) :=
  match s.translate ctx va false with
  | .ok space key _ leaf =>
    if s.reached space key then (s.touch leaf false, some (s.bytes key n))
    else ((s.touch leaf false).countTimeout (s.portToward key), none)
  | _ => (s, none)

end Sys2Proof.Machine
end

