-- ==== Sys2Proof/Machine/Ops.lean ====
section
/-! DEFINITION. The shared operations of the meanings: leaving a pass, taking a fault (08_group R150, R151), halting a context
(05_context R90, R91), and the one shape of an instruction that reads registers and writes fixed-latency results (04_encoding
R79 to R85, R87; 08_group R140, R143). -/

namespace Sys2Proof.Machine

abbrev Res := Host.Outcome State Fault Refusal

/-! ### Access to groups, passes and code -/

def State.putGroup (s : State) (gid : Nat) (g : Group) : State := { s with groups := putAt s.groups gid g }

/-- A group changed in place, if it exists. -/
def State.onGroup (s : State) (gid : Nat) (f : Group → Group) : State :=
  match lookup s.groups gid with
  | none => s
  | some g => s.putGroup gid (f g)

/-- A thread of a group changed in place, if it exists. -/
def State.onThread (s : State) (gid tid : Nat) (f : Thread → Thread) : State :=
  s.onGroup gid fun g => match lookup g.threads tid with
    | none => g
    | some t => g.putThread tid (f t)

/-- Several threads of a group changed in place. -/
def State.onThreads (s : State) (gid : Nat) (tids : List Nat) (f : Thread → Thread) : State :=
  tids.foldl (fun s t => s.onThread gid t f) s

def State.putCtx (s : State) (c : Nat) (x : Context) : State := { s with ctxs := putAt s.ctxs c x }

/-- The ring registers of a slot that nothing has written (Table 6-1): a system ring is Active from reset. -/
def ringReset (r : Nat) : Ring := if r < 1024 then Ring.zero else { Ring.zero with st := 1, prio := 7 }

def State.ring (s : State) (r : Nat) : Ring := (lookup s.rings r).getD (ringReset r)

def State.putRing (s : State) (r : Nat) (x : Ring) : State := { s with rings := putAt s.rings r x }

/-- The group and pass of the word being issued. -/
def State.issuing (s : State) : Option (Group × Pass) :=
  match lookup s.groups s.cur.gid with
  | none => none
  | some g => match lookup g.passes s.cur.pid with
    | none => none
    | some p => some (g, p)

/-- A kernel of an image slot of a context (R117). -/
def State.kernel (s : State) (ctx slot kern : Nat) : Option Kernel :=
  match lookup (s.ctx ctx).images slot with
  | none => none
  | some im => im.kernels[kern]?

/-- The kernel whose text a pass of the group runs: its own or the handler's (R150). -/
def State.code (s : State) (g : Group) (handler : Bool) : Option Kernel :=
  s.kernel g.ctx g.slot (if handler then (s.ctx g.ctx).handlerKern else g.kern)

/-- The text offset of a block's BLK word, if the id has a valid entry (R116). -/
def Kernel.block (k : Kernel) (id : Nat) : Option Nat := (k.blocks[id]?).getD none

/-- fall(b) of R265: the lowest valid block id above `b`, or 4096. -/
def Kernel.fall (k : Kernel) (b : Nat) : Nat :=
  ((List.range k.blocks.length).find? fun i => decide (b < i) && (k.block i).isSome).getD 4096

/-- REGS of the group's kernel (R142, R266). -/
def State.regs (s : State) (g : Group) : Nat := match s.kernel g.ctx g.slot g.kern with
  | none => 0
  | some k => k.regs

/-- The handler kernel that takes faults of the group, if one is valid (R150). -/
def State.handler (s : State) (g : Group) : Option Kernel :=
  if (s.ctx g.ctx).handlerV then
    match s.kernel g.ctx g.slot (s.ctx g.ctx).handlerKern with
    | some k => if k.handler then some k else none
    | none => none
  else none

/-! ### Leaving a pass -/

/-- The thread's v, x and p with the results of the pass that are readable at a cycle written. -/
def Pass.heldAt (p : Pass) (c tid : Nat) (t : Thread) : Thread :=
  { t with
    v := p.dueV.foldl (fun r d => if d.tid = tid then
        writeAt Carrier.zero r d.idx (readDue tid d.idx c p.dueV 0 (readAt Carrier.zero t.v d.idx)) else r) t.v
    x := p.dueX.foldl (fun r d => if d.tid = tid then
        writeAt Carrier.zero r d.idx (readDue tid d.idx c p.dueX 0 (readAt Carrier.zero t.x d.idx)) else r) t.x
    p := p.dueP.foldl (fun r d => if d.tid = tid then
        writeAt false r d.idx (readDue tid d.idx c p.dueP 0 (readAt false t.p d.idx)) else r) t.p }

/-- The thread's v, x and p with every result of the pass written (R86). -/
def Pass.commit (p : Pass) (tid : Nat) (t : Thread) : Thread :=
  p.heldAt (max (lastDue p.dueV) (max (lastDue p.dueX) (lastDue p.dueP))) tid t

/-- The cycle at which the last fixed-latency result of a pass completes in each v register of a thread (R84). -/
def Pass.owedTo (p : Pass) (tid : Nat) : Table Nat :=
  p.dueV.foldl (fun t d => if d.tid = tid then writeAt 0 t d.idx (max (readAt 0 t d.idx) d.cyc) else t) []

/-- A thread leaves a pass before its end: its results are written, and in a quad block a helper takes its position (R140, R141, R150).
Their cycles stay with it: a load that returns before one of them does not end in its register (R84), and no pass starts with it earlier
(R86). The helper's copy starts from what the thread holds then, the results of the pass on their way to it as they were. -/
def Group.leave (g : Group) (pid tid : Nat) : Group :=
  match lookup g.passes pid with
  | none => g
  | some p =>
    if !p.cohort.contains tid then g
    else
      let p' := { p with
        cohort := p.cohort.filter (· != tid)
        helpers := if p.quad then putAt p.helpers tid (g.thread tid) else p.helpers
        dueV := if p.quad then p.dueV else p.dueV.filter fun d => d.tid != tid
        dueX := if p.quad then p.dueX else p.dueX.filter fun d => d.tid != tid
        dueP := if p.quad then p.dueP else p.dueP.filter fun d => d.tid != tid
        loud := true }
      { (g.putThread tid { p.commit tid (g.thread tid) with owed := p.owedTo tid }) with passes := putAt g.passes pid p' }

/-- A thread blocks at a word of its pass: it stays in a bin at that word, blocked (R134, R135). A thread in a handler keeps
its resume record. -/
def Group.block (g : Group) (pid tid off cause : Nat) (w : Wait) : Group :=
  match lookup g.passes pid with
  | none => g
  | some p =>
    let g := g.leave pid tid
    let t := g.thread tid
    g.putThread tid { t with
      place := .bin p.handler p.blk off
      wait := w
      woken := false
      res := if t.res.cause = 5 then t.res else { blk := p.blk, off := off, cause := cause } }

/-- A wait whose end lets the re-executed word complete (R135, R167, R170, R206, R276); after any other the word simply runs
again. -/
def Wait.completes : Wait → Bool
  | .barrier _ => true
  | .groupBarrier => true
  | .acqx => true
  | .draw _ => true
  | .granule _ => true
  | _ => false

/-- A blocked thread becomes ready and re-executes its word (R135). -/
def Thread.wake (t : Thread) : Thread := { t with wait := .ready, woken := t.wait.completes }

/-- A thread's place in its bin when it leaves a pass at a terminator or a YIELD. -/
def Thread.goto (t : Thread) (h : Bool) (blk off : Nat) : Thread :=
  { t with place := .bin h blk off, wait := .ready, woken := false,
           res := if t.res.cause = 5 then t.res else { blk := blk, off := off, cause := 0 } }

/-- The pass becomes loud: not quiet (R145). -/
def Group.loud (g : Group) (pid : Nat) : Group :=
  match lookup g.passes pid with
  | none => g
  | some p => { g with passes := putAt g.passes pid { p with loud := true } }

/-- Every thread of the group that waits on something becomes ready (R165, R170). -/
def Group.wakeAll (g : Group) (w : Wait) : Group :=
  { g with threads := g.threads.map fun (k, t) => (k, if t.wait = w then t.wake else t) }

/-! ### Halting a context -/

/-- The gathering timer stops: the buffer keeps its remaining time (R127). -/
def Buffer.stop (now : Nat) (b : Buffer) : Buffer :=
  match b.stoppedAt with
  | some _ => b
  | none => { b with timer := b.timer - now, stoppedAt := some now }

/-- The gathering timer runs again with its remaining time (R127). -/
def Buffer.restart (now : Nat) (b : Buffer) : Buffer :=
  match b.stoppedAt with
  | none => b
  | some _ => { b with timer := b.timer + now, stoppedAt := none }

/-- A group begins to halt (R133). A group that a fault has ended only waits for its engine commands. -/
def Group.startHalt (g : Group) : Group :=
  if g.dead then g
  else match g.st with
    | .running => { g with st := .halting, before := .running }
    | .stopped => { g with st := .halting, before := .stopped }
    | .draining => { g with st := .halting, before := .draining }
    | _ => g

/-- The groups of a context begin to halt, and its gathering timers stop (R90, R127). -/
def State.haltGroups (s : State) (c : Nat) : State :=
  { s with
    groups := s.groups.map fun (k, g) => (k, if g.ctx = c then g.startHalt else g)
    teams := s.teams.map fun (k, t) =>
      (k, if t.ctx = c then { t with bufs := t.bufs.map fun (i, b) => (i, b.stop s.now) } else t) }

/-- The rings of a context's queues, by number. -/
def isQueueOf (c r : Nat) : Bool := decide (r / 16 = c) && decide (r < 1024)

/-- Active queues of the context become Paused by the halt (R102). -/
def State.pauseQueues (s : State) (c : Nat) : State :=
  { s with rings := s.rings.map fun (r, x) => (r, if isQueueOf c r && x.st == 2 then { x with st := 3, byHalt := true } else x) }

/-- The queues of a context that enters Faulted become Faulted, a Draining one like the others (R90, R102; DEDUCED, log 74). -/
def State.faultQueues (s : State) (c : Nat) : State :=
  { s with rings := s.rings.map fun (r, x) =>
      (r, if isQueueOf c r && (x.st == 1 || x.st == 2 || x.st == 3 || x.st == 5) then { x with st := 4, byHalt := true } else x) }

/-- The halt record of a halt that begins now. -/
def Halt.begin (now : Nat) : Halt :=
  { since := now, destroy := false, byHalt := false, faulted := false }

/-- The context's groups halt for a reason that `f` records; a halt already in progress is joined (R90, R91, R376). -/
def State.beginHalt (s : State) (c : Nat) (f : Halt → Halt) : State :=
  let x := s.ctx c
  match x.halt with
  | some h => s.putCtx c { x with halt := some (f h) }
  | none => ((s.putCtx c { x with halt := some (f (Halt.begin s.now)) }).haltGroups c).pauseQueues c

/-- A fault record takes the context to Faulted: at once, or when a halt in progress completes (R90, R91). -/
def State.enterFaulted (s : State) (c : Nat) : State :=
  let x := s.ctx c
  match x.halt with
  | some h => s.putCtx c { x with halt := some { h with faulted := true } }
  | none =>
    if x.st = 2 ∨ x.st = 3 then
      ((s.putCtx c { x with st := 4, halt := some { Halt.begin s.now with faulted := true } }).haltGroups c).faultQueues c
    else s

/-! ### Faults -/

/-- The 32 bytes of a context fault record (Table 5-2). -/
def faultRecord (code code2 kern grp : Nat) (resume : Word) (tid time : Nat) : List Byte :=
  leBytes 1 code ++ leBytes 1 code2 ++ leBytes 2 kern ++ leBytes 4 grp ++ leBytes 4 resume.toNat ++ leBytes 4 tid
    ++ leBytes 8 time ++ leBytes 8 0

/-- One context fault record at the fault ring's next entry (R94). -/
def State.putFaultRecord (s : State) (c : Nat) (rec_ : List Byte) : State :=
  let x := s.ctx c
  let va := BitVec.ofNat 64 (x.faultBase.toNat + x.faultNext * 32)
  let (s, _) := s.deviceWrite c va rec_
  s.putCtx c { s.ctx c with faultNext := (x.faultNext + 1) % 32, lastFault := rec_ }

/-- The launch of a group, while it is under way. -/
def State.launchOf (s : State) (g : Group) : Option Launch := match lookup s.teams g.team with
  | none => none
  | some t => lookup s.launches t.launch

/-- The system-scope horizon of a group's answered stores (R104, R227). -/
def Group.horizon (g : Group) : Nat := g.threads.foldl (fun n (_, t) => max n (max t.hm t.hx)) 0

/-- A group's stores noted for a command's completion record (R104). -/
def Cmd.note (c : Cmd) (gid h : Nat) : Cmd :=
  { c with gids := if c.gids.contains gid then c.gids else c.gids ++ [gid], horizon := max c.horizon h }

/-- What a group has stored is noted for the completion record of its LAUNCH, aborted or not (R104), before its threads go. -/
def State.noteStores (s : State) (gid : Nat) (g : Group) : State :=
  let mine := fun (r q : Nat) (c : Cmd) => c.gids.contains gid || (match s.launchOf g with
    | none => false
    | some l => l.ring == r && l.seq == q)
  { s with rings := s.rings.map fun (r, x) => (r, { x with cmds := x.cmds.map fun (q, c) =>
      (q, if mine r q c then c.note gid g.horizon else c) }) }

/-- A later horizon of a group's stores, for the completion records that wait for them (R104). -/
def State.noteHorizon (s : State) (gid h : Nat) : State :=
  { s with rings := s.rings.map fun (r, x) => (r, { x with cmds := x.cmds.map fun (q, c) => (q, if c.gids.contains gid then c.note gid h else c) }) }

/-- The task records parked on a group's barriers are dropped (R151), and their places in the pool with them (R125). -/
def State.dropChains (s : State) (gid : Nat) (g : Group) : State :=
  match lookup s.teams g.team with
  | none => s
  | some t =>
    let gone := (t.recs.filter fun (_, r) => match r.parked with
      | some (i, _) => i == gid
      | none => false).map (·.1)
    if gone.isEmpty then s
    else { s with
      teams := putAt s.teams g.team { t with recs := t.recs.filter fun (k, _) => !gone.contains k
                                             deques := t.deques.map fun (d, l) => (d, l.filter fun k => !gone.contains k) }
      groups := s.groups.map fun (k, x) => (k, if x.team = g.team then x.wakeAll .pool else x) }

/-- A fault ends the group (R151): the record, its threads discarded, its passes stopped, its context Faulted. The group is
Draining until its engine commands complete, then Ended (R133); the records parked on its barriers are dropped, and a request of it for
extended registers with them. A group is ended by one fault only: further threads concerned write no record of their own (R94). -/
def State.endByFault (s : State) (gid tid code code2 : Nat) : State :=
  match lookup s.groups gid with
  | none => s
  | some g =>
    if g.dead then s else
    let s := s.putFaultRecord g.ctx (faultRecord code code2 g.kern g.grpid (g.thread tid).res.word tid s.now)
    let s := (s.noteStores gid g).dropChains gid g
    let s := s.putGroup gid { g with threads := [], passes := [], bars := g.bars.map fun (b, x) => (b, { x with chain := [] }),
                                     st := .draining, dead := true }
    let cl := clusterOfCore g.core
    let s := { s with clusters := putAt s.clusters cl { s.cluster cl with xqueue := (s.cluster cl).xqueue.filter fun (i, _) => i != gid } }
    s.enterFaulted g.ctx

/-- A fault of one thread: which, the code, the detail and the address (Table 8-2). -/
structure Flt where
  tid : Nat
  code : Nat
  detail : Nat
  addr : Quad
  deriving DecidableEq, Repr

/-- Taking a fault (R150, R151) by a thread that stands at a word of a block, in no pass: cause 1 and its fault latched, then
the handler's entry bin with cause 5; without a handler, or in a handler, the fault ends the group. -/
def State.faultThread (s : State) (gid blk off : Nat) (f : Flt) : State :=
  match lookup s.groups gid with
  | none => s
  | some g =>
    let t := g.thread f.tid
    if g.dead then s
    else if t.res.cause = 5 then s.endByFault gid f.tid t.fcode f.code
    else
      let t := { t with res := { blk := blk, off := off, cause := 1 }, fcode := f.code, fdetail := f.detail, fad := f.addr }
      match s.handler g with
      | none => (s.putGroup gid (g.putThread f.tid t)).endByFault gid f.tid f.code 0
      | some k =>
        s.putGroup gid (g.putThread f.tid { t with
          res := { t.res with cause := 5 }, place := .bin true k.entry 0, wait := .ready, woken := false })

/-- A fault of a thread of a pass at the word at `off`: it leaves the pass and takes the fault (R150). -/
def State.takeFault (s : State) (gid pid off : Nat) (f : Flt) : State :=
  match lookup s.groups gid with
  | none => s
  | some g =>
    let blk := match lookup g.passes pid with
      | none => 0
      | some p => p.blk
    (s.putGroup gid (g.leave pid f.tid)).faultThread gid blk off f

/-- Several faults of one word, in ascending TID. -/
def State.takeFaults (s : State) (gid pid off : Nat) : List Flt → State
  | [] => s
  | f :: rest => (s.takeFault gid pid off f).takeFaults gid pid off rest

/-- A fault of every cohort thread of the pass (R73, R143). -/
def State.faultAll (s : State) (p : Pass) (code detail : Nat) (addr : Quad) : State :=
  s.takeFaults s.cur.gid s.cur.pid s.cur.at_ (p.cohort.map fun t => { tid := t, code := code, detail := detail, addr := addr })

/-! ### Issuing -/

/-- The pass waits for an instruction that it may issue nothing after (R83). -/
def State.awaits (s : State) (gid pid : Nat) : Bool :=
  (s.accesses.any fun (_, a) => a.gid == gid && a.pid == pid && a.tok == 4)
    || (s.results.any fun (_, r) => r.gid == gid && r.pid == pid && r.tok == 4)
    || (s.cores.any fun (_, c) => c.race.any fun (_, m) => m.gid == gid && m.pid == pid && (match m.op with
      | .mstat _ _ => true
      | .mprog _ => true
      | _ => false))

/-- The token of a full-empty load with beats still to act (R82). -/
def Pass.beatTok (p : Pass) : Option Nat := match p.hold with
  | .beats tok _ _ _ => if tok < 3 then some tok else none
  | _ => none

/-- A token of the group is pending (R17, R82): of an access or a result on its way, of a blocked LDFE (R328), or of one between its
beats. -/
def State.tokenPending (s : State) (gid t : Nat) : Bool :=
  (s.accesses.any fun (_, a) => a.gid == gid && a.tok == t) || (s.results.any fun (_, r) => r.gid == gid && r.tok == t)
    || (match lookup s.groups gid with
      | none => false
      | some g => (g.threads.any fun (_, th) => th.ltok == some t) || g.passes.any fun (_, p) => p.beatTok == some t)

/-- An instruction names a token: a token that was clear covers from here on only what is issued from here on (R82, R85). -/
def State.nameToken (s : State) (gid t : Nat) : State :=
  if s.tokenPending gid t then s
  else s.onGroup gid fun g => { g with passes := g.passes.map fun (k, p) => (k, { p with covered := p.covered.filter fun x => x.1 != t }) }

/-- A register result of the thread is outstanding, of a pass that it has left as well (R86). -/
def State.resultOwed (s : State) (gid tid : Nat) : Bool :=
  (s.accesses.any fun (_, a) => a.gid == gid && a.tids.contains tid && a.fill.isSome && !a.helper)
    || (s.results.any fun (_, r) => r.gid == gid && r.tids.contains tid && !r.helper)
    || (match lookup s.groups gid with
      | none => false
      | some g => (g.thread tid).owed.any fun (_, c) => decide (s.cycle < c))

/-- What a halting or stopping pass stays in, because its end does not depend on what the halt stops (R155, R156). A sharded draw is not
among them: its other shards may stop as well (R15). -/
def Hold.finishes : Hold → Bool
  | .beats _ _ _ _ => true
  | .bank => true
  | .cwb => true
  | .leaf => true
  | .access => true
  | .results => true
  | _ => false

/-- The pass may issue its next word: no fault has ended its group (R151), which runs, is stopped and this pass is being stepped, or is
stopped or halts while this pass waits in a word that it has begun and R156 lets it finish; or, as the group halts, it has reached the end of
what a block can hold, whose fault it takes (R132, R155, R158, R159, R210, R264). -/
def mayIssue (s : State) (g : Group) (p : Pass) : Bool :=
  (match g.st with
    | .running => p.run == .running
    | .stopped => p.hold.finishes || (p.run == .stopped && (g.stepOne || g.stepAll))
    | .halting => p.hold.finishes || (p.run == .running && decide (4096 ≤ p.off))
    | _ => false)
    && !g.dead && !p.ended && !p.cohort.isEmpty && decide (p.next ≤ s.cycle) && !s.awaits s.cur.gid s.cur.pid

/-- The kinds of R143, with the beats that an instruction of the kind takes. -/
inductive Kind where
  | lane
  | cohort
  | pass
  deriving DecidableEq, Repr

def Kind.beats (k : Kind) (p : Pass) : Nat := match k with
  | .pass => 1
  | _ => p.beats

/-- The first cycle at which the pass's next word may issue (R79). -/
def nextIssue (k : Kind) (p : Pass) (c st : Nat) : Nat :=
  let n := k.beats p
  c + n + (match k with
    | .cohort => 2 * st
    | _ => 2 * st - (n - 1))

/-- The pass past the word being issued. -/
def Pass.past (p : Pass) (cur : Cur) (k : Kind) (c st : Nat) : Pass :=
  { p with off := cur.next, next := nextIssue k p c st, hold := .none }

/-- The views of a pass for an instruction of a kind: the beats of R140, or the one beat of a per-pass instruction. -/
def Kind.views (k : Kind) (g : Group) (p : Pass) (c : Nat) : List View := match k with
  | .pass => (p.views g c).map fun a => viewAt g p a.pos a.tid c
  | _ => p.views g c

/-- What is outstanding for the pass that issues, in the form of `decodeFault`. -/
def State.owed (s : State) : Owed :=
  { pid := s.cur.pid
    busy := fun a i => outstandingReg s.accesses s.results s.cur.gid s.cur.pid a.tid a.helper i
    tok := s.tokenPending s.cur.gid }

/-- The late faults of an instruction that the pass waited for (R83, R203): they are raised at the next word. -/
def lateOf (toks : List Nat) (g : Group) (p : Pass) : List Flt :=
  p.cohort.filterMap fun tid => match (g.thread tid).late.find? fun l => toks.contains l.tok with
    | none => none
    | some l => some { tid := tid, code := l.code, detail := 0, addr := l.addr }

/-- The late faults of the tokens are taken off their threads. -/
def Group.dropLate (g : Group) (toks : List Nat) (p : Pass) : Group :=
  { g with threads := g.threads.map fun (k, t) =>
      (k, if p.cohort.contains k then { t with late := t.late.filter fun l => !toks.contains l.tok } else t) }

/-- The common opening of every instruction word: it waits until its pass may issue, then meets the decoding checks of R87;
`k` is the rest of its meaning, over its group, its pass and the views of its positions. -/
def opening (s : State) (kind : Kind) (n : Needs) (k : Group → Pass → List View → Res) : Res :=
  match s.issuing with
  | none => .refused .noPass
  | some (g, p) =>
    if !mayIssue s g p then .next s
    else if !(lateOf [4] g p).isEmpty then
      .next ((s.putGroup s.cur.gid (g.dropLate [4] p)).takeFaults s.cur.gid s.cur.pid s.cur.at_ (lateOf [4] g p))
    else
      let vs := kind.views g p s.cycle
      match decodeFault (s.ctx g.ctx).sys g p s.owed s.cur.guard n vs with
      | some code => .next (s.faultAll p code 0 0)
      | none => k g p vs

/-- What an instruction writes for one thread. -/
structure Put where
  v : List (Nat × Carrier) := []
  x : List (Nat × Carrier) := []
  p : List (Nat × Bool) := []
  /-- FSTAT bits to set -/
  flags : Word := 0#32
  dith : Option Word := none

/-- The results of a list of writes, readable `lat` cycles after their beats, or after `last` for a cohort instruction. -/
def dues {α : Type} (at_ : View → Nat) (f : Put → List (Nat × α)) (l : List (View × Put)) : List (Due α) :=
  l.flatMap fun (a, u) => (f u).map fun (i, x) => { cyc := at_ a, tid := a.tid, idx := i, val := x }

/-- FSTAT and DITH of the cohort threads; a helper's stay (R38, R40, R141). -/
def Group.putStatus (g : Group) : List (View × Put) → Group
  | [] => g
  | (a, u) :: rest =>
    let g := if a.helper then g
      else
        let t := g.thread a.tid
        if u.flags = 0#32 ∧ u.dith = none then g
        else g.putThread a.tid { t.addFlags u.flags with dith := u.dith.getD t.dith }
    g.putStatus rest

/-- Results on their way to v registers, which no token covers (R80, R85). -/
def Pass.addV (p : Pass) (l : List (Due Carrier)) : Pass :=
  { p with dueV := p.dueV ++ l, covered := p.covered.filter fun x => !l.any fun d => d.tid == x.2.1 && d.idx == x.2.2 }

/-- Writing fixed-latency results (R80). p0 discards a write (R290). -/
def Pass.putResults (p : Pass) (at_ : View → Nat) (l : List (View × Put)) : Pass :=
  { p.addV (dues at_ Put.v l) with
    dueX := p.dueX ++ dues at_ Put.x l
    dueP := p.dueP ++ (dues at_ Put.p l).filter fun d => d.idx != 0 }

/-- The state after an instruction of fixed latency: its results on their way, its flags set, its pass past it. -/
def State.writeBack (s : State) (g : Group) (p : Pass) (kind : Kind) (st lat : Nat) (l : List (View × Put)) : State :=
  let at_ : View → Nat := fun a => match kind with
    | .cohort => s.cycle + p.beats - 1 + lat
    | _ => a.cyc + lat
  let p' := (p.putResults at_ l).past s.cur kind s.cycle st
  s.putGroup s.cur.gid { g.putStatus l with passes := putAt g.passes s.cur.pid p' }

/-- A per-thread instruction that computes registers from registers (R143, R282): each thread and helper that passes the
guard writes what `f` gives from all views and its own. -/
def laneOp (s : State) (st : BitVec 2) (lat : Nat) (n : Needs) (f : List View → View → Put) : Res :=
  opening s .lane n fun g p vs =>
    .next (s.writeBack g p .lane st.toNat lat ((vs.filter fun a => a.passes s.cur.guard).map fun a => (a, f vs a)))

/-- A cohort instruction over its participants (R299): `f` gives each participant its writes. -/
def cohortOp (s : State) (st : BitVec 2) (lat : Nat) (n : Needs) (f : List View → View → Put) : Res :=
  opening s .cohort n fun g p vs =>
    .next (s.writeBack g p .cohort st.toNat lat ((participants vs s.cur.guard).map fun a => (a, f vs a)))

/-- The g results of a per-pass instruction (R293), each with its pass, which ends only once they are written (R86). -/
def Group.putG (g : Group) (pid cyc : Nat) (l : List (Nat × Quad)) : Group :=
  { g with dueG := g.dueG ++ l.map fun (i, x) => { cyc := cyc, tid := pid, idx := i, val := x } }

/-- A per-pass instruction on registers (R143, R293): it runs when some cohort thread passes the guard. `f` reads the view of
the lowest-TID passing cohort thread; its g writes go to the group and its v and p writes to every cohort thread and every
helper's copy (R144). -/
def passOp (s : State) (st : BitVec 2) (n : Needs) (fg : View → List (Nat × Quad)) (f : View → Put) : Res :=
  opening s .pass n fun g p vs =>
    match participants vs s.cur.guard with
    | [] => .next (s.writeBack g p .pass st.toNat 4 [])
    | a :: _ => .next (s.writeBack (g.putG s.cur.pid (s.cycle + 4) (fg a)) p .pass st.toNat 4 (vs.map fun b => (b, f a)))

/-- An instruction without register results that has acted: its pass past it. -/
def State.passBy (s : State) (kind : Kind) (st : Nat) (loud : Bool) : State :=
  match s.issuing with
  | none => s
  | some (g, p) =>
    let p' := { p.past s.cur kind s.cycle st with loud := p.loud || loud }
    s.putGroup s.cur.gid { g with passes := putAt g.passes s.cur.pid p' }

/-- The pass stays at the word, which issues again: what it waits at (R156). -/
def State.holdAt (s : State) (h : Hold) : State :=
  match s.issuing with
  | none => s
  | some (g, p) => s.putGroup s.cur.gid { g with passes := putAt g.passes s.cur.pid { p with hold := h } }

/-- After a word that DBG.STEP allowed, the stopped pass stands again, unless the word still waits or none has acted: `before` is the
pass as it was (R159). -/
def State.afterStep (s : State) (gid pid : Nat) (before : Pass) : State :=
  s.onGroup gid fun g =>
    if g.stepOne && before.run == .stopped then
      match lookup g.passes pid with
      | none => { g with stepOne := false }
      | some p => if p.hold = .none ∧ p ≠ before then { g with stepOne := false } else g
    else g

/-- Threads that are not retired (R148). -/
def Group.live (g : Group) : Nat := g.threads.countP fun (_, t) => t.place != .retired

/-- When every thread has retired, a running group is Draining; one that halts meanwhile is Draining when it is resumed (R133, R155). -/
def Group.drainIfDone (g : Group) : Group :=
  if g.live ≠ 0 then g
  else match g.st with
    | .running => { g with st := .draining }
    | .halting => { g with before := if g.before = .running then .draining else g.before }
    | _ => g

/-- A g register as a per-pass instruction or a count reads it now (R293). -/
def State.gNow (s : State) (g : Group) (i : Nat) : Quad := readDue 0 i s.cycle g.owedG 0 (readAt 0#64 g.g i)

/-- A pennant's change has not reached its copy yet: at most 40 cycles from its issue (R176). -/
def Change.moves (c : Change) (now : Nat) : Bool := decide (now < c.at_ + 40)

/-- The conditions of a FENCE for one thread (R228): 0 group, 1 team, 2 die, 3 module, 4 system. -/
def State.fenceMet (s : State) (gid tid : Nat) (g : Group) (scope : Nat) : Bool :=
  let t := g.thread tid
  t.hs == 0 && decide (t.hm ≤ s.now) && (scope == 0 || (match s.teamOf g with
      | none => true
      | some m => !m.moving.any fun c => c.gid == gid && c.tid == tid && c.moves s.cycle))
    && (decide (scope < 4) || decide (t.hx ≤ s.now))
    && !(s.accesses.any fun (_, a) => a.gid == gid && a.tids.contains tid && !a.helper && a.act != .read
        && (decide (a.space = .hbm) || decide (a.space = .scratch) || scope == 4))
    && !(s.replies.any fun (_, r) => r.gid == gid && r.tids.contains tid
        && (decide (r.space = .hbm) || decide (r.space = .scratch) || scope == 4))

end Sys2Proof.Machine
end

