-- ==== Sys2Proof/Machine/Fetch.lean ====
section
/-! DEFINITION. Fetching the next word of a pass with its prefixes (04_encoding R71 to R76, R87 step 1; 14_isa_control R264). -/

namespace Sys2Proof.Machine

/-- The bytes of the text at a halfword offset of a block, at most one word. -/
def Kernel.bytesAt (k : Kernel) (blk off : Nat) : List Byte :=
  match k.block blk with
  | none => []
  | some b => (k.text.drop (b + 2 * off)).take 4

/-- The major opcode of a 32-bit word (R77). -/
def opOf (bytes : List Byte) : Nat := natOfBytes bytes / 8 % 128

/-- The first halfword's bit 0: a 32-bit word (R71). -/
def isWide (bytes : List Byte) : Bool := match bytes with
  | b :: _ => b.getLsbD 0
  | [] => false

/-- A memory instruction, which a HINT may stand before (R76). -/
def isMemWord (bytes : List Byte) : Bool := isWide bytes && decide (0x30 ≤ opOf bytes) && decide (opOf bytes ≤ 0x48)

/-- A word an IF may stand before: 16-bit with E = 0, or 32-bit and no BLK or terminator (R76). -/
def isGuardable (bytes : List Byte) : Bool :=
  if isWide bytes then !(decide (0x70 ≤ opOf bytes) && decide (opOf bytes ≤ 0x75))
  else match bytes with
    | b :: _ => !b.getLsbD 1
    | [] => false

/-- What a pass meets at its offset: an instruction with its prefixes, no instruction, or a word behind what a block can hold (R264). -/
inductive Met where
  | word (i : Instr) (next : Nat) (guard : Option (Nat × Bool)) (hint : Option Nat)
  | illegal
  | beyond
  deriving DecidableEq, Repr

/-- The instruction word at an offset, with the guard and hint that its prefixes gave. -/
noncomputable def meetWord (k : Kernel) (blk off : Nat) (guard : Option (Nat × Bool)) (hint : Option Nat) : Met :=
  if off ≥ 4096 then .beyond
  else
    match decode (k.bytesAt blk off) with
    | (.instr i, n) => .word i (off + n / 2) guard hint
    | _ => .illegal

/-- The guarded word after an IF, if one may stand there; `mem` after a HINT, when it must be a memory instruction. An IF that names no
predicate faults itself, whatever word of that kind stands behind it (R75): it is met as a guarded NOP, which takes that fault. -/
noncomputable def meetGuarded (k : Kernel) (blk off : Nat) (mem : Bool) (p : BitVec 7) (sense : Bool) (hint : Option Nat) : Met :=
  let bytes := k.bytesAt blk off
  if off ≥ 4096 then .beyond
  else if !(isGuardable bytes && (!mem || isMemWord bytes)) then .illegal
  else if 96 ≤ p.toNat then .word .nop off (some (p.toNat, sense)) hint
  else meetWord k blk off (some (p.toNat, sense)) hint

/-- What stands at an offset of a block: at most a HINT, then at most an IF, then a word (R76). -/
noncomputable def meet (k : Kernel) (blk off : Nat) : Met :=
  if off ≥ 4096 then .beyond
  else match (decode (k.bytesAt blk off)).1 with
  | .guard p v => meetGuarded k blk (off + 1) false p v none
  | .hint c => if off + 1 ≥ 4096 then .beyond else match (decode (k.bytesAt blk (off + 1))).1 with
    | .guard p v => meetGuarded k blk (off + 2) true p v (some c.toNat)
    | _ => if isMemWord (k.bytesAt blk (off + 1)) then meetWord k blk (off + 1) none (some c.toNat) else .illegal
  | _ => meetWord k blk off none none

/-- The word a pass issues next and the record of it, the offset of its first prefix first (R73); of a word behind what a block can hold, the
largest offset, also where a prefix stands before it (R264). -/
noncomputable def State.nextWord (s : State) (gid pid : Nat) (g : Group) (p : Pass) : Instr × Cur :=
  let at_ := p.off
  match s.code g p.handler with
  | none => (.illegalInstruction, { gid := gid, pid := pid, at_ := at_, next := p.off, guard := none, hint := none })
  | some k => match meet k p.blk p.off with
    | .word i next guard hint => (i, { gid := gid, pid := pid, at_ := at_, next := next, guard := guard, hint := hint })
    | .illegal => (.illegalInstruction, { gid := gid, pid := pid, at_ := at_, next := p.off, guard := none, hint := none })
    | .beyond => (.illegalInstruction, { gid := gid, pid := pid, at_ := 0xFFF, next := p.off, guard := none, hint := none })

/-- The row is an event, which the agenda may name; an instruction word is run by a pass only. -/
def isEvent (i : Instr) : Bool :=
  match i with
  | .illegalInstruction => false
  | _ => (codeOf i).isNone

end Sys2Proof.Machine
end

