-- ==== Sys2Proof/Machine/Int.lean ====
section
/-! DEFINITION. The integer, logic, bit, move, immediate, compare and predicate instructions (15_isa_integer R282 to R292) and
their 16-bit forms (04_encoding R74). -/

namespace Sys2Proof.Machine

/-! ### What they compute -/

/-- Smaller and larger as i32 and as n32 (R283). -/
def minI (x y : Word) : Word := if x.toInt ≤ y.toInt then x else y
def maxI (x y : Word) : Word := if x.toInt ≤ y.toInt then y else x
def minN (x y : Word) : Word := if x.toNat ≤ y.toNat then x else y
def maxN (x y : Word) : Word := if x.toNat ≤ y.toNat then y else x

/-- |i32(a)| mod 2^32 (R283). -/
def absWord (x : Word) : Word := if x.toInt < 0 then 0 - x else x

/-- The sum as i32, clamped to −2^31 .. 2^31 − 1 (R283). -/
def addSatI (x y : Word) : Word :=
  let t := x.toInt + y.toInt
  if t > 2147483647 then 0x7FFFFFFF#32 else if t < -2147483648 then 0x80000000#32 else x + y

/-- The sum as n32, clamped to 2^32 − 1 (R283). -/
def addSatN (x y : Word) : Word := if x.toNat + y.toNat ≥ 2 ^ 32 then 0xFFFFFFFF#32 else x + y

/-- Bits 63:32 of the products as i64 and as n64 (R284). -/
def mulHighI (x y : Word) : Word := ((x.signExtend 64 * y.signExtend 64) >>> 32).setWidth 32
def mulHighN (x y : Word) : Word := ((x.setWidth 64 * y.setWidth 64) >>> 32).setWidth 32

/-- One byte of a word, widened with or without its sign. -/
def byteAs (signed : Bool) (x : Word) (k : Nat) : Word :=
  let b : BitVec 8 := (x >>> (8 * k)).setWidth 8
  if signed then b.signExtend 32 else b.setWidth 32

/-- d plus the four byte products (R284). -/
def dot4 (signed : Bool) (d x y : Word) : Word :=
  d + byteAs signed x 0 * byteAs signed y 0 + byteAs signed x 1 * byteAs signed y 1 + byteAs signed x 2 * byteAs signed y 2
    + byteAs signed x 3 * byteAs signed y 3

/-- The shifts of R285 by an n32 count. -/
def shlWord (x c : Word) : Word := if c.toNat ≥ 32 then 0 else x <<< c.toNat
def shrWord (x c : Word) : Word := if c.toNat ≥ 32 then 0 else x >>> c.toNat
def sraWord (x c : Word) : Word := x.sshiftRight (min c.toNat 31)
def rotlWord (x c : Word) : Word := x.rotateLeft (c.toNat % 32)
def shlQuad (x : Quad) (c : Word) : Quad := if c.toNat ≥ 64 then 0 else x <<< c.toNat
def shrQuad (x : Quad) (c : Word) : Quad := if c.toNat ≥ 64 then 0 else x >>> c.toNat
def sraQuad (x : Quad) (c : Word) : Quad := x.sshiftRight (min c.toNat 63)

/-- The bit counts of R288. -/
def popcount (x : Word) : Word := BitVec.ofNat 32 ((List.range 32).countP fun i => x.getLsbD i)
def leadingZeros (x : Word) : Word := BitVec.ofNat 32 (((List.range 32).find? fun i => x.getLsbD (31 - i)).getD 32)
def trailingZeros (x : Word) : Word := BitVec.ofNat 32 (((List.range 32).find? fun i => x.getLsbD i).getD 32)

/-- Bit i of the result is bit 31 − i (R288). -/
def reverseBits (x : Word) : Word := (List.range 32).foldl (fun r i => r ||| bit1 32 (x.getLsbD (31 - i)) <<< i) 0#32

/-- pos and len of a field operand (R288). -/
def fieldPos (b : Word) : Nat := b.toNat % 32
def fieldLen (b : Word) : Nat := min (b.toNat / 256 % 64) (32 - fieldPos b)

/-- The field of a, zero- or sign-extended; 0 when empty (R288). -/
def fieldN (a b : Word) : Word := BitVec.ofNat 32 (a.toNat / 2 ^ fieldPos b % 2 ^ fieldLen b)
def fieldI (a b : Word) : Word :=
  let n := fieldLen b
  if n = 0 then 0 else (fieldN a b <<< (32 - n)).sshiftRight (32 - n)

/-- ((2^len − 1) << pos) mod 2^32 (R288). -/
def fieldMask (b : Word) : Word := BitVec.ofNat 32 ((2 ^ fieldLen b - 1) * 2 ^ fieldPos b)

/-- d with the field replaced by a's low bits (R288). -/
def insertField (d a b : Word) : Word := (d &&& ~~~fieldMask b) ||| (a <<< fieldPos b &&& fieldMask b)

/-- The conditions 0 to 5 of R290: eq ne lt le gt ge of a three-way comparison. -/
def condition (c : Nat) (lt eq : Bool) : Bool :=
  match c with
  | 0 => eq
  | 1 => !eq
  | 2 => lt
  | 3 => lt || eq
  | 4 => !(lt || eq)
  | _ => !lt

def compareI (c : BitVec 3) (x y : Word) : Bool := condition c.toNat (decide (x.toInt < y.toInt)) (x == y)
def compareN (c : BitVec 3) (x y : Word) : Bool := condition c.toNat (decide (x.toNat < y.toNat)) (x == y)

/-- FCMP's conditions (R290, R26). -/
def compareF (c : BitVec 3) (x y : Carrier) : Bool :=
  let u := carrierVal x
  let w := carrierVal y
  if u.isNan || w.isNan then c == 1 || c == 7
  else if c == 6 then true
  else if c == 7 then false
  else condition c.toNat (decide (Val.cmp u w < 0)) (decide (Val.cmp u w = 0))

/-! ### Their shapes -/

/-- A word result in v[D]: S = 0 (R282). -/
def putWord (d : BitVec 6) (w : Word) : List (Nat × Carrier) := [(d.toNat, Carrier.ofWord w)]

/-- A pair result in v[D], v[D+1] (R282). -/
def putPair (d : BitVec 6) (q : Quad) : List (Nat × Carrier) :=
  [(d.toNat, Carrier.ofWord (q.setWidth 32)), (d.toNat + 1, Carrier.ofWord ((q >>> 32).setWidth 32))]

/-- v[D] := f(a). -/
def intOp1 (st : State) (s : BitVec 2) (d a : BitVec 6) (f : Word → Word) : Res :=
  laneOp st s 4 { rv := [(a.toNat, 1)], wv := [(d.toNat, 1)] } fun _ x => { v := putWord d (f (x.w a)) }

/-- v[D] := f(a, b). -/
def intOp2 (st : State) (s : BitVec 2) (d a b : BitVec 6) (f : Word → Word → Word) : Res :=
  laneOp st s 4 { rv := [(a.toNat, 1), (b.toNat, 1)], wv := [(d.toNat, 1)] } fun _ x => { v := putWord d (f (x.w a) (x.w b)) }

/-- v[D] := f(d, a, b). -/
def intOp3 (st : State) (s : BitVec 2) (d a b : BitVec 6) (f : Word → Word → Word → Word) : Res :=
  laneOp st s 4 { rv := [(d.toNat, 1), (a.toNat, 1), (b.toNat, 1)], wv := [(d.toNat, 1)] } fun _ x =>
    { v := putWord d (f (x.w d) (x.w a) (x.w b)) }

/-- pair D := f(pair A, pair B). -/
def wideOp2 (st : State) (s : BitVec 2) (d a b : BitVec 6) (f : Quad → Quad → Quad) : Res :=
  laneOp st s 4 { rv := [(a.toNat, 2), (b.toNat, 2)], wv := [(d.toNat, 2)] } fun _ x => { v := putPair d (f (x.pair a) (x.pair b)) }

/-- pair D := f(pair A, v[B]) (R285). -/
def wideShift (st : State) (s : BitVec 2) (d a b : BitVec 6) (f : Quad → Word → Quad) : Res :=
  laneOp st s 4 { rv := [(a.toNat, 2), (b.toNat, 1)], wv := [(d.toNat, 2)] } fun _ x => { v := putPair d (f (x.pair a) (x.w b)) }

/-- v[D] := v[A], W and S (R286). -/
def copyOp (st : State) (s : BitVec 2) (d a : BitVec 6) : Res :=
  laneOp st s 4 { rv := [(a.toNat, 1)], wv := [(d.toNat, 1)] } fun _ x => { v := [(d.toNat, x.c a)] }

/-- A move to or from extended registers: without the group's grant, the misuse fault in each passing thread (R149, R286). -/
def grantOp (st : State) (s : BitVec 2) (n : Needs) (f : View → Put) : Res :=
  opening st .lane n fun g p vs =>
    let act := vs.filter fun a => a.passes st.cur.guard
    if g.grant then .next (st.writeBack g p .lane s.toNat 4 (act.map fun a => (a, f a)))
    else .next ((st.writeBack g p .lane s.toNat 4 []).takeFaults st.cur.gid st.cur.pid st.cur.at_
      ((act.filter fun a => !a.helper).map fun a => { tid := a.tid, code := 0x0E, detail := 0, addr := 0 }))

/-- p[P] := f(a, b) (R290). -/
def compareOp (st : State) (s : BitVec 2) (lat : Nat) (p : BitVec 7) (a b : BitVec 6) (f : Carrier → Carrier → Bool) : Res :=
  laneOp st s lat { rv := [(a.toNat, 1), (b.toNat, 1)], wp := [p.toNat] } fun _ x => { p := [(p.toNat, f (x.c a) (x.c b))] }

/-- p[PD] := f(p[PD], q) with q = p[PA] xor NA (R291); `readsD` when PD is a source. -/
def predOp (st : State) (s : BitVec 2) (d q : BitVec 7) (n : BitVec 1) (readsD : Bool) (f : Bool → Bool → Bool) : Res :=
  laneOp st s 4 { rp := if readsD then [d.toNat, q.toNat] else [q.toNat], wp := [d.toNat] } fun _ x =>
    { p := [(d.toNat, f (x.p d.toNat) (x.p q.toNat ^^ n == 1#1))] }

/-! ### The instructions -/

/-- R74. 16-bit IADD of v[D] and v[A] into v[D]. -/
def execIadd16 (d : BitVec 6) (a : BitVec 4) (st : State) : Res :=
  intOp2 st 0 d d (a.setWidth 6) (· + ·)

/-- R74. 16-bit ISUB into v[D]. -/
def execIsub16 (d : BitVec 6) (a : BitVec 4) (st : State) : Res :=
  intOp2 st 0 d d (a.setWidth 6) (· - ·)

/-- R74. 16-bit IMUL into v[D]. -/
def execImul16 (d : BitVec 6) (a : BitVec 4) (st : State) : Res :=
  intOp2 st 0 d d (a.setWidth 6) (· * ·)

/-- R74. 16-bit AND into v[D]. -/
def execAnd16 (d : BitVec 6) (a : BitVec 4) (st : State) : Res :=
  intOp2 st 0 d d (a.setWidth 6) (· &&& ·)

/-- R74. 16-bit OR into v[D]. -/
def execOr16 (d : BitVec 6) (a : BitVec 4) (st : State) : Res :=
  intOp2 st 0 d d (a.setWidth 6) (· ||| ·)

/-- R74. 16-bit XOR into v[D]. -/
def execXor16 (d : BitVec 6) (a : BitVec 4) (st : State) : Res :=
  intOp2 st 0 d d (a.setWidth 6) (· ^^^ ·)

/-- R74. 16-bit SHL into v[D]. -/
def execShl16 (d : BitVec 6) (a : BitVec 4) (st : State) : Res :=
  intOp2 st 0 d d (a.setWidth 6) shlWord

/-- R74. 16-bit SHR into v[D]. -/
def execShr16 (d : BitVec 6) (a : BitVec 4) (st : State) : Res :=
  intOp2 st 0 d d (a.setWidth 6) shrWord

/-- R74. 16-bit SRA into v[D]. -/
def execSra16 (d : BitVec 6) (a : BitVec 4) (st : State) : Res :=
  intOp2 st 0 d d (a.setWidth 6) sraWord

/-- R74. 16-bit signed minimum into v[D]. -/
def execImin16 (d : BitVec 6) (a : BitVec 4) (st : State) : Res :=
  intOp2 st 0 d d (a.setWidth 6) minI

/-- R74. 16-bit signed maximum into v[D]. -/
def execImax16 (d : BitVec 6) (a : BitVec 4) (st : State) : Res :=
  intOp2 st 0 d d (a.setWidth 6) maxI

/-- R74. 16-bit MOV: v[D] := v[A] for A in v0–v15, W and S. -/
def execMov16 (d : BitVec 6) (a : BitVec 4) (st : State) : Res :=
  copyOp st 0 d (a.setWidth 6)

/-- R283. v[D] := (a + b) mod 2^32. -/
def execIadd (s : BitVec 2) (d : BitVec 6) (a : BitVec 6) (b : BitVec 6) (st : State) : Res :=
  intOp2 st s d a b (· + ·)

/-- R283. v[D] := (a − b) mod 2^32. -/
def execIsub (s : BitVec 2) (d : BitVec 6) (a : BitVec 6) (b : BitVec 6) (st : State) : Res :=
  intOp2 st s d a b (· - ·)

/-- R283. Smaller operand as i32. -/
def execImin (s : BitVec 2) (d : BitVec 6) (a : BitVec 6) (b : BitVec 6) (st : State) : Res :=
  intOp2 st s d a b minI

/-- R283. Larger operand as i32. -/
def execImax (s : BitVec 2) (d : BitVec 6) (a : BitVec 6) (b : BitVec 6) (st : State) : Res :=
  intOp2 st s d a b maxI

/-- R283. Smaller operand as n32. -/
def execNmin (s : BitVec 2) (d : BitVec 6) (a : BitVec 6) (b : BitVec 6) (st : State) : Res :=
  intOp2 st s d a b minN

/-- R283. Larger operand as n32. -/
def execNmax (s : BitVec 2) (d : BitVec 6) (a : BitVec 6) (b : BitVec 6) (st : State) : Res :=
  intOp2 st s d a b maxN

/-- R283. Absolute value of i32(a), modulo 2^32. -/
def execIabs (s : BitVec 2) (d : BitVec 6) (a : BitVec 6) (st : State) : Res :=
  intOp1 st s d a absWord

/-- R283. (−a) mod 2^32. -/
def execIneg (s : BitVec 2) (d : BitVec 6) (a : BitVec 6) (st : State) : Res :=
  intOp1 st s d a (fun x => 0 - x)

/-- R283. 64-bit pair addition. -/
def execIaddW (s : BitVec 2) (d : BitVec 6) (a : BitVec 6) (b : BitVec 6) (st : State) : Res :=
  wideOp2 st s d a b (· + ·)

/-- R283. 64-bit pair subtraction. -/
def execIsubW (s : BitVec 2) (d : BitVec 6) (a : BitVec 6) (b : BitVec 6) (st : State) : Res :=
  wideOp2 st s d a b (· - ·)

/-- R283. Saturating i32 addition. -/
def execIadds (s : BitVec 2) (d : BitVec 6) (a : BitVec 6) (b : BitVec 6) (st : State) : Res :=
  intOp2 st s d a b addSatI

/-- R283. Saturating n32 addition. -/
def execNadds (s : BitVec 2) (d : BitVec 6) (a : BitVec 6) (b : BitVec 6) (st : State) : Res :=
  intOp2 st s d a b addSatN

/-- R284. (a × b) mod 2^32. -/
def execImul (s : BitVec 2) (d : BitVec 6) (a : BitVec 6) (b : BitVec 6) (st : State) : Res :=
  intOp2 st s d a b (· * ·)

/-- R284. High 32 bits of the signed product. -/
def execImulh (s : BitVec 2) (d : BitVec 6) (a : BitVec 6) (b : BitVec 6) (st : State) : Res :=
  intOp2 st s d a b mulHighI

/-- R284. High 32 bits of the unsigned product. -/
def execNmulh (s : BitVec 2) (d : BitVec 6) (a : BitVec 6) (b : BitVec 6) (st : State) : Res :=
  intOp2 st s d a b mulHighN

/-- R284. v[D] := (v[D] + a × b) mod 2^32. -/
def execImad (s : BitVec 2) (d : BitVec 6) (a : BitVec 6) (b : BitVec 6) (st : State) : Res :=
  intOp3 st s d a b (fun d x y => d + x * y)

/-- R284. Pair D plus the signed product, modulo 2^64. -/
def execImadW (s : BitVec 2) (d : BitVec 6) (a : BitVec 6) (b : BitVec 6) (st : State) : Res :=
  laneOp st s 4 { rv := [(d.toNat, 2), (a.toNat, 1), (b.toNat, 1)], wv := [(d.toNat, 2)] } fun _ x =>
    { v := putPair d (x.pair d + (x.w a).signExtend 64 * (x.w b).signExtend 64) }

/-- R284. Accumulates the dot product of four signed bytes. -/
def execIdot4 (s : BitVec 2) (d : BitVec 6) (a : BitVec 6) (b : BitVec 6) (st : State) : Res :=
  intOp3 st s d a b (dot4 true)

/-- R284. Accumulates the dot product of four unsigned bytes. -/
def execNdot4 (s : BitVec 2) (d : BitVec 6) (a : BitVec 6) (b : BitVec 6) (st : State) : Res :=
  intOp3 st s d a b (dot4 false)

/-- R285. Bitwise AND. -/
def execAnd (s : BitVec 2) (d : BitVec 6) (a : BitVec 6) (b : BitVec 6) (st : State) : Res :=
  intOp2 st s d a b (· &&& ·)

/-- R285. Bitwise OR. -/
def execOr (s : BitVec 2) (d : BitVec 6) (a : BitVec 6) (b : BitVec 6) (st : State) : Res :=
  intOp2 st s d a b (· ||| ·)

/-- R285. Bitwise XOR. -/
def execXor (s : BitVec 2) (d : BitVec 6) (a : BitVec 6) (b : BitVec 6) (st : State) : Res :=
  intOp2 st s d a b (· ^^^ ·)

/-- R285. a and not b. -/
def execAndn (s : BitVec 2) (d : BitVec 6) (a : BitVec 6) (b : BitVec 6) (st : State) : Res :=
  intOp2 st s d a b (fun x y => x &&& ~~~y)

/-- R285. a or not b. -/
def execOrn (s : BitVec 2) (d : BitVec 6) (a : BitVec 6) (b : BitVec 6) (st : State) : Res :=
  intOp2 st s d a b (fun x y => x ||| ~~~y)

/-- R285. Bitwise NOT of a. -/
def execNot (s : BitVec 2) (d : BitVec 6) (a : BitVec 6) (st : State) : Res :=
  intOp1 st s d a (fun x => ~~~x)

/-- R285. Logical left shift; 0 when the count is 32 or more. -/
def execShl (s : BitVec 2) (d : BitVec 6) (a : BitVec 6) (b : BitVec 6) (st : State) : Res :=
  intOp2 st s d a b shlWord

/-- R285. Logical right shift. -/
def execShr (s : BitVec 2) (d : BitVec 6) (a : BitVec 6) (b : BitVec 6) (st : State) : Res :=
  intOp2 st s d a b shrWord

/-- R285. Arithmetic right shift. -/
def execSra (s : BitVec 2) (d : BitVec 6) (a : BitVec 6) (b : BitVec 6) (st : State) : Res :=
  intOp2 st s d a b sraWord

/-- R285. Rotate left by c mod 32. -/
def execRotl (s : BitVec 2) (d : BitVec 6) (a : BitVec 6) (b : BitVec 6) (st : State) : Res :=
  intOp2 st s d a b rotlWord

/-- R285. 64-bit pair left shift. -/
def execShlW (s : BitVec 2) (d : BitVec 6) (a : BitVec 6) (b : BitVec 6) (st : State) : Res :=
  wideShift st s d a b shlQuad

/-- R285. 64-bit pair logical right shift. -/
def execShrW (s : BitVec 2) (d : BitVec 6) (a : BitVec 6) (b : BitVec 6) (st : State) : Res :=
  wideShift st s d a b shrQuad

/-- R285. 64-bit pair arithmetic right shift. -/
def execSraW (s : BitVec 2) (d : BitVec 6) (a : BitVec 6) (b : BitVec 6) (st : State) : Res :=
  wideShift st s d a b sraQuad

/-- R288. Population count. -/
def execPopc (s : BitVec 2) (d : BitVec 6) (a : BitVec 6) (st : State) : Res :=
  intOp1 st s d a popcount

/-- R288. Count of leading zeros. -/
def execClz (s : BitVec 2) (d : BitVec 6) (a : BitVec 6) (st : State) : Res :=
  intOp1 st s d a leadingZeros

/-- R288. Count of trailing zeros. -/
def execCtz (s : BitVec 2) (d : BitVec 6) (a : BitVec 6) (st : State) : Res :=
  intOp1 st s d a trailingZeros

/-- R288. Bit reversal. -/
def execBrev (s : BitVec 2) (d : BitVec 6) (a : BitVec 6) (st : State) : Res :=
  intOp1 st s d a reverseBits

/-- R288. Signed bit-field extract. -/
def execBfei (s : BitVec 2) (d : BitVec 6) (a : BitVec 6) (b : BitVec 6) (st : State) : Res :=
  intOp2 st s d a b fieldI

/-- R288. Unsigned bit-field extract. -/
def execBfen (s : BitVec 2) (d : BitVec 6) (a : BitVec 6) (b : BitVec 6) (st : State) : Res :=
  intOp2 st s d a b fieldN

/-- R288. Bit-field insert into v[D]. -/
def execBfi (s : BitVec 2) (d : BitVec 6) (a : BitVec 6) (b : BitVec 6) (st : State) : Res :=
  intOp3 st s d a b insertField

/-- R288. Builds a bit-field mask. -/
def execBmsk (s : BitVec 2) (d : BitVec 6) (b : BitVec 6) (st : State) : Res :=
  intOp1 st s d b fieldMask

/-- R289. Adds the sign-extended 10-bit immediate. -/
def execIaddi (s : BitVec 2) (d : BitVec 6) (a : BitVec 6) (i : BitVec 10) (st : State) : Res :=
  intOp1 st s d a (fun x => x + i.signExtend 32)

/-- R289. ANDs with the sign-extended immediate. -/
def execAndi (s : BitVec 2) (d : BitVec 6) (a : BitVec 6) (i : BitVec 10) (st : State) : Res :=
  intOp1 st s d a (fun x => x &&& i.signExtend 32)

/-- R289. Left shift by an immediate count. -/
def execShli (s : BitVec 2) (d : BitVec 6) (a : BitVec 6) (n : BitVec 5) (st : State) : Res :=
  intOp1 st s d a (fun x => x <<< n.toNat)

/-- R289. Logical right shift by an immediate count. -/
def execShri (s : BitVec 2) (d : BitVec 6) (a : BitVec 6) (n : BitVec 5) (st : State) : Res :=
  intOp1 st s d a (fun x => x >>> n.toNat)

/-- R289. Arithmetic right shift by an immediate count. -/
def execSrai (s : BitVec 2) (d : BitVec 6) (a : BitVec 6) (n : BitVec 5) (st : State) : Res :=
  intOp1 st s d a (fun x => x.sshiftRight n.toNat)

/-- R289. Loads the sign-extended 16-bit immediate. -/
def execLdi (s : BitVec 2) (d : BitVec 6) (i : BitVec 16) (st : State) : Res :=
  laneOp st s 4 { wv := [(d.toNat, 1)] } fun _ _ => { v := putWord d (i.signExtend 32) }

/-- R289. Replaces bits 31:16 of v[D] with the immediate. -/
def execLdih (s : BitVec 2) (d : BitVec 6) (i : BitVec 16) (st : State) : Res :=
  intOp1 st s d d (fun x => i ++ x.setWidth 16)

/-- R286. Copies v[A] to v[D] with S. -/
def execMov (s : BitVec 2) (d : BitVec 6) (a : BitVec 6) (st : State) : Res :=
  copyOp st s d a

/-- R286. Copies extended register x[A] to v[D]. -/
def execXmov (s : BitVec 2) (d : BitVec 6) (a : BitVec 6) (st : State) : Res :=
  grantOp st s { wv := [(d.toNat, 1)], rx := [a.toNat], ext := true } fun x => { v := [(d.toNat, x.x a.toNat)] }

/-- R286. Copies v[A] to extended register x[D]. -/
def execXset (s : BitVec 2) (d : BitVec 6) (a : BitVec 6) (st : State) : Res :=
  grantOp st s { rv := [(a.toNat, 1)], ext := true } fun x => { x := [(d.toNat, x.c a)] }

/-- R287. Copies v[A] to v[D] when p[P] equals V. -/
def execSel (s : BitVec 2) (p : BitVec 7) (d : BitVec 6) (a : BitVec 6) (v : BitVec 1) (st : State) : Res :=
  laneOp st s 4 { rv := [(a.toNat, 1), (d.toNat, 1)], wv := [(d.toNat, 1)], rp := [p.toNat] } fun _ x =>
    { v := [(d.toNat, if x.p p.toNat == (v == 1#1) then x.c a else x.c d)] }

/-- R290. Signed i32 compare into p[P]. -/
def execIcmp (s : BitVec 2) (c : BitVec 3) (p : BitVec 7) (a : BitVec 6) (b : BitVec 6) (st : State) : Res :=
  compareOp st s 4 p a b fun x y => compareI c x.w y.w

/-- R290. Unsigned n32 compare into p[P]. -/
def execNcmp (s : BitVec 2) (c : BitVec 3) (p : BitVec 7) (a : BitVec 6) (b : BitVec 6) (st : State) : Res :=
  compareOp st s 4 p a b fun x y => compareN c x.w y.w

/-- R290. Carrier compare, ordered and unordered, into p[P]. -/
def execFcmp (s : BitVec 2) (c : BitVec 3) (p : BitVec 7) (a : BitVec 6) (b : BitVec 6) (st : State) : Res :=
  compareOp st s 6 p a b (compareF c)

/-- R291. p[PD] := p[PA] xor NA. -/
def execPmov (s : BitVec 2) (d : BitVec 7) (q : BitVec 7) (n : BitVec 1) (st : State) : Res :=
  predOp st s d q n false fun _ y => y

/-- R291. Predicate AND into p[PD]. -/
def execPand (s : BitVec 2) (d : BitVec 7) (q : BitVec 7) (n : BitVec 1) (st : State) : Res :=
  predOp st s d q n true fun x y => x && y

/-- R291. Predicate OR into p[PD]. -/
def execPor (s : BitVec 2) (d : BitVec 7) (q : BitVec 7) (n : BitVec 1) (st : State) : Res :=
  predOp st s d q n true fun x y => x || y

/-- R291. Predicate XOR into p[PD]. -/
def execPxor (s : BitVec 2) (d : BitVec 7) (q : BitVec 7) (n : BitVec 1) (st : State) : Res :=
  predOp st s d q n true fun x y => x ^^ y

/-- R291. Sets p[PD] to the constant k. -/
def execPset (s : BitVec 2) (d : BitVec 7) (k : BitVec 1) (st : State) : Res :=
  laneOp st s 4 { wp := [d.toNat] } fun _ _ => { p := [(d.toNat, k == 1#1)] }

/-- R292. v[D] := 1 when p[P] is true, else 0. -/
def execPtov (s : BitVec 2) (p : BitVec 7) (d : BitVec 6) (st : State) : Res :=
  laneOp st s 4 { rp := [p.toNat], wv := [(d.toNat, 1)] } fun _ x => { v := putWord d (bit1 32 (x.p p.toNat)) }

/-- R292. p[P] := W of v[A] is non-zero. -/
def execVtop (s : BitVec 2) (p : BitVec 7) (a : BitVec 6) (st : State) : Res :=
  laneOp st s 4 { rv := [(a.toNat, 1)], wp := [p.toNat] } fun _ x => { p := [(p.toNat, x.w a != 0#32)] }

end Sys2Proof.Machine
end

