-- ==== Sys2Proof/Machine/Uniform.lean ====
section
/-! DEFINITION. The uniform instructions: the group's g registers (15_isa_integer R293 to R296). -/

namespace Sys2Proof.Machine

/-- g[D] := f(view), reading the g registers listed (R293). -/
def uniformOp (st : State) (s : BitVec 2) (d : BitVec 6) (reads : List (BitVec 6)) (f : View → Quad) : Res :=
  passOp st s { rg := reads.map (·.toNat) } (fun x => [(d.toNat, f x)]) fun _ => {}

/-- GCMP's conditions: 0 to 5 as i64, 6 ltu, 7 geu (R296). -/
def compareG (c : BitVec 3) (x y : Quad) : Bool :=
  if c == 6 then decide (x.toNat < y.toNat)
  else if c == 7 then decide (y.toNat ≤ x.toNat)
  else condition c.toNat (decide (x.toInt < y.toInt)) (x == y)

/-- R294. Uniform 64-bit addition. -/
def execGadd (s : BitVec 2) (d : BitVec 6) (a : BitVec 6) (b : BitVec 6) (st : State) : Res :=
  uniformOp st s d [a, b] fun x => (· + ·) (x.g a.toNat) (x.g b.toNat)

/-- R294. Uniform 64-bit subtraction. -/
def execGsub (s : BitVec 2) (d : BitVec 6) (a : BitVec 6) (b : BitVec 6) (st : State) : Res :=
  uniformOp st s d [a, b] fun x => (· - ·) (x.g a.toNat) (x.g b.toNat)

/-- R294. Uniform 64-bit multiplication. -/
def execGmul (s : BitVec 2) (d : BitVec 6) (a : BitVec 6) (b : BitVec 6) (st : State) : Res :=
  uniformOp st s d [a, b] fun x => (· * ·) (x.g a.toNat) (x.g b.toNat)

/-- R294. Uniform left shift. -/
def execGshl (s : BitVec 2) (d : BitVec 6) (a : BitVec 6) (b : BitVec 6) (st : State) : Res :=
  uniformOp st s d [a, b] fun x => (fun (x y : Quad) => if y.toNat ≥ 64 then 0 else x <<< y.toNat) (x.g a.toNat) (x.g b.toNat)

/-- R294. Uniform logical right shift. -/
def execGshr (s : BitVec 2) (d : BitVec 6) (a : BitVec 6) (b : BitVec 6) (st : State) : Res :=
  uniformOp st s d [a, b] fun x => (fun (x y : Quad) => if y.toNat ≥ 64 then 0 else x >>> y.toNat) (x.g a.toNat) (x.g b.toNat)

/-- R294. Uniform AND. -/
def execGand (s : BitVec 2) (d : BitVec 6) (a : BitVec 6) (b : BitVec 6) (st : State) : Res :=
  uniformOp st s d [a, b] fun x => (· &&& ·) (x.g a.toNat) (x.g b.toNat)

/-- R294. Uniform OR. -/
def execGor (s : BitVec 2) (d : BitVec 6) (a : BitVec 6) (b : BitVec 6) (st : State) : Res :=
  uniformOp st s d [a, b] fun x => (· ||| ·) (x.g a.toNat) (x.g b.toNat)

/-- R294. Uniform signed minimum. -/
def execGmin (s : BitVec 2) (d : BitVec 6) (a : BitVec 6) (b : BitVec 6) (st : State) : Res :=
  uniformOp st s d [a, b] fun x => (fun (x y : Quad) => if x.toInt ≤ y.toInt then x else y) (x.g a.toNat) (x.g b.toNat)

/-- R294. Uniform signed maximum. -/
def execGmax (s : BitVec 2) (d : BitVec 6) (a : BitVec 6) (b : BitVec 6) (st : State) : Res :=
  uniformOp st s d [a, b] fun x => (fun (x y : Quad) => if x.toInt ≤ y.toInt then y else x) (x.g a.toNat) (x.g b.toNat)

/-- R295. g[D] := g[A]. -/
def execGmov (s : BitVec 2) (d : BitVec 6) (a : BitVec 6) (st : State) : Res :=
  uniformOp st s d [a] fun x => x.g a.toNat

/-- R295. g[D] := v[B] of the lowest passing thread, zero-extended. -/
def execGfrom (s : BitVec 2) (d : BitVec 6) (b : BitVec 6) (st : State) : Res :=
  passOp st s { rv := [(b.toNat, 1)], source := true } (fun x => [(d.toNat, (x.w b).setWidth 64)]) fun _ => {}

/-- R295. g[D] := the pair v[B], v[B+1] of the source thread. -/
def execGfromw (s : BitVec 2) (d : BitVec 6) (b : BitVec 6) (st : State) : Res :=
  passOp st s { rv := [(b.toNat, 2)], source := true } (fun x => [(d.toNat, x.pair b)]) fun _ => {}

/-- R295. Writes g[A] bits 31:0 to v[D] of every cohort thread. -/
def execGto (s : BitVec 2) (d : BitVec 6) (a : BitVec 6) (st : State) : Res :=
  passOp st s { rg := [a.toNat], wv := [(d.toNat, 1)] } (fun _ => []) fun x => { v := putWord d ((x.g a.toNat).setWidth 32) }

/-- R295. Writes g[A] bits 63:32 to v[D] of every cohort thread. -/
def execGtoh (s : BitVec 2) (d : BitVec 6) (a : BitVec 6) (st : State) : Res :=
  passOp st s { rg := [a.toNat], wv := [(d.toNat, 1)] } (fun _ => []) fun x =>
    { v := putWord d ((x.g a.toNat >>> 32).setWidth 32) }

/-- R295. g[D] := the sign-extended 16-bit immediate. -/
def execGldi (s : BitVec 2) (d : BitVec 6) (i : BitVec 16) (st : State) : Res :=
  uniformOp st s d [] fun _ => i.signExtend 64

/-- R295. g[D] := g[A] + the sign-extended IMM10. -/
def execGaddi (s : BitVec 2) (d : BitVec 6) (a : BitVec 6) (i : BitVec 10) (st : State) : Res :=
  uniformOp st s d [a] fun x => x.g a.toNat + i.signExtend 64

/-- R296. Compares g registers and writes p[P] in every cohort thread. -/
def execGcmp (s : BitVec 2) (c : BitVec 3) (p : BitVec 7) (a : BitVec 6) (b : BitVec 6) (st : State) : Res :=
  passOp st s { rg := [a.toNat, b.toNat], wp := [p.toNat] } (fun _ => []) fun x =>
    { p := [(p.toNat, compareG c (x.g a.toNat) (x.g b.toNat))] }

end Sys2Proof.Machine
end

