-- ==== Sys2Proof/Machine/Lanes.lean ====
section
/-! DEFINITION. Cross-lane and cohort instructions: LANE, COLL, VOTE, VBAL and MATCH (15_isa_integer R297 to R304). -/

namespace Sys2Proof.Machine

/-- The view of a position, if it is occupied (R297). -/
def atPos (vs : List View) (pos : Nat) : Option View := vs.find? fun y => y.pos == pos

/-- A move along a rank (R298): the reader at lane j takes v[A] of lane `src j c`, with c = v[B]; its own v[A] when that lane
is outside the rank or unoccupied (R297). -/
def laneMove (st : State) (s : BitVec 2) (d a b : BitVec 6) (quad : Bool) (src : Nat → Word → Int) : Res :=
  laneOp st s 8 { rv := [(a.toNat, 1), (b.toNat, 1)], wv := [(d.toNat, 1)], quad := quad } fun vs x =>
    let j := x.pos % 32
    let i := src j (x.w b)
    let own := x.c a
    { v := [(d.toNat,
        if 0 ≤ i ∧ i < 32 then match atPos vs (x.pos / 32 * 32 + i.toNat) with
          | none => own
          | some y => y.c a
        else own)] }

/-- A cohort instruction that gives each participant v writes from the participants in ascending TID (R299). -/
def collOp (st : State) (s : BitVec 2) (d : BitVec 6) (reads : List (BitVec 6)) (f : List View → View → List (Nat × Carrier)) : Res :=
  cohortOp st s 24 { rv := reads.map fun a => (a.toNat, 1), wv := [(d.toNat, 1)] } fun vs x =>
    { v := f (participants vs st.cur.guard) x }

/-- A reduction to one word, given to every participant (R300). -/
def reduceOp (st : State) (s : BitVec 2) (d a : BitVec 6) (f : List Carrier → Word) : Res :=
  collOp st s d [a] fun l _ => putWord d (f (l.map (·.c a)))

/-- The words combined from the first on; there is at least one participant when it is used. -/
def foldWords (f : Word → Word → Word) : List Word → Word
  | [] => 0
  | x :: rest => rest.foldl f x

/-- The sum of v[A] over participants whose TID is below a bound (R300). -/
def sumBefore (a : BitVec 6) (bound : Nat) (l : List View) : Word :=
  ((l.filter fun y => decide (y.tid < bound)).map (·.w a)).foldl (· + ·) 0

/-- The index r of a participant (R299). -/
def rankIn (tid : Nat) (l : List View) : Nat := l.countP fun y => decide (y.tid < tid)

/-- The TID of the participant with the largest i32 v[A], the lowest on a tie (R300). -/
def largestTid (a : BitVec 6) (l : List View) : Nat :=
  (l.foldl (fun best y => match best with
    | none => some y
    | some b => if (b.w a).toInt < (y.w a).toInt then some y else some b) (none : Option View)).elim 0 (·.tid)

/-- One level of the tree of R41: neighbours combined, an odd last one passed on; and whether a node was invalid. -/
def treeLevel : List Carrier → List Carrier × Bool
  | x :: y :: rest =>
    let (v, bad) := Val.add (carrierVal x) (carrierVal y)
    let (l, b) := treeLevel rest
    (carryVal v :: l, bad || b)
  | l => (l, false)

/-- The tree sum of R41, level by level; `fuel` bounds the levels. -/
def treeFrom : Nat → List Carrier → Carrier × Bool
  | 0, l => (l.headD Carrier.zero, false)
  | n + 1, l =>
    match l with
    | [] => (Carrier.zero, false)
    | [x] => (x, false)
    | _ =>
      let (l', b) := treeLevel l
      let (r, b') := treeFrom n l'
      (r, b || b')

/-- The tree sum of R41 over carriers. -/
def treeSum (l : List Carrier) : Carrier × Bool :=
  match l with
  | [x] => (carryVal (carrierVal x), false)
  | _ => treeFrom l.length l

/-- The better of two carriers that are not NaN for CRFMIN and CRFMAX (R300, R26): between zeros the minimum takes −0 and the
maximum +0. Two equal infinities may differ in S, which is copied (R25): which of them is taken, no rule says. -/
def betterCarrier (least : Bool) (x y : Carrier) : Carrier :=
  let c := Val.cmp (carrierVal x) (carrierVal y)
  if c < 0 then (if least then x else y)
  else if c > 0 then (if least then y else x)
  else if x.w == y.w && x.s != y.s then (if Config.firstInf x y then x else y)
  else if x.w.getLsbD 31 == least then x else y

/-- CRFMIN and CRFMAX over the participants (R300). -/
def chooseCarrier (least : Bool) (l : List Carrier) : Carrier :=
  if l.any fun x => (carrierVal x).isNan then Carrier.nan
  else match l with
    | [] => Carrier.zero
    | x :: rest => rest.foldl (betterCarrier least) x

/-- A vote over q of the participants (R301). -/
def voteOp (st : State) (s : BitVec 2) (d q : BitVec 7) (n : BitVec 1) (f : List Bool → View → Bool) : Res :=
  cohortOp st s 24 { rp := [q.toNat], wp := [d.toNat] } fun vs x =>
    { p := [(d.toNat, f ((participants vs st.cur.guard).map fun y => y.p q.toNat ^^ n == 1#1) x)] }

/-- Booleans as the bits of a word, the first as bit 0. -/
def ballot : List Bool → Word
  | [] => 0
  | b :: rest => bit1 32 b ||| ballot rest <<< 1

/-- R298. Reads v[A] from lane c of the rank. -/
def execRshf (s : BitVec 2) (d : BitVec 6) (a : BitVec 6) (b : BitVec 6) (st : State) : Res :=
  laneMove st s d a b false fun _ c => (c.toNat : Int)

/-- R298. Reads v[A] from lane j − c. -/
def execRshfu (s : BitVec 2) (d : BitVec 6) (a : BitVec 6) (b : BitVec 6) (st : State) : Res :=
  laneMove st s d a b false fun j c => (j : Int) - c.toNat

/-- R298. Reads v[A] from lane j + c. -/
def execRshfd (s : BitVec 2) (d : BitVec 6) (a : BitVec 6) (b : BitVec 6) (st : State) : Res :=
  laneMove st s d a b false fun j c => (j : Int) + c.toNat

/-- R298. Reads v[A] from lane j xor c. -/
def execRshfx (s : BitVec 2) (d : BitVec 6) (a : BitVec 6) (b : BitVec 6) (st : State) : Res :=
  laneMove st s d a b false fun j c => ((BitVec.ofNat 32 j ^^^ c).toNat : Int)

/-- R298. Quad horizontal swap, lane j xor 1. -/
def execQswph (s : BitVec 2) (d : BitVec 6) (a : BitVec 6) (st : State) : Res :=
  laneMove st s d a a true fun j _ => ((j ^^^ 1 : Nat) : Int)

/-- R298. Quad vertical swap, lane j xor 2. -/
def execQswpv (s : BitVec 2) (d : BitVec 6) (a : BitVec 6) (st : State) : Res :=
  laneMove st s d a a true fun j _ => ((j ^^^ 2 : Nat) : Int)

/-- R298. Quad diagonal swap, lane j xor 3. -/
def execQswpd (s : BitVec 2) (d : BitVec 6) (a : BitVec 6) (st : State) : Res :=
  laneMove st s d a a true fun j _ => ((j ^^^ 3 : Nat) : Int)

/-- R298. Quad broadcast from member c[1:0]. -/
def execQbcst (s : BitVec 2) (d : BitVec 6) (a : BitVec 6) (b : BitVec 6) (st : State) : Res :=
  laneMove st s d a b true fun j c => ((j / 4 * 4 + c.toNat % 4 : Nat) : Int)

/-- R300. Integer sum over the participants. -/
def execCradd (s : BitVec 2) (d : BitVec 6) (a : BitVec 6) (st : State) : Res :=
  reduceOp st s d a fun xs => (xs.map (·.w)).foldl (· + ·) 0

/-- R300. Signed minimum over the participants. -/
def execCrmin (s : BitVec 2) (d : BitVec 6) (a : BitVec 6) (st : State) : Res :=
  reduceOp st s d a fun xs => foldWords minI (xs.map (·.w))

/-- R300. Signed maximum over the participants. -/
def execCrmax (s : BitVec 2) (d : BitVec 6) (a : BitVec 6) (st : State) : Res :=
  reduceOp st s d a fun xs => foldWords maxI (xs.map (·.w))

/-- R300. Bitwise AND over the participants. -/
def execCrand (s : BitVec 2) (d : BitVec 6) (a : BitVec 6) (st : State) : Res :=
  reduceOp st s d a fun xs => foldWords (· &&& ·) (xs.map (·.w))

/-- R300. Bitwise OR over the participants. -/
def execCror (s : BitVec 2) (d : BitVec 6) (a : BitVec 6) (st : State) : Res :=
  reduceOp st s d a fun xs => foldWords (· ||| ·) (xs.map (·.w))

/-- R300. Bitwise XOR over the participants. -/
def execCrxor (s : BitVec 2) (d : BitVec 6) (a : BitVec 6) (st : State) : Res :=
  reduceOp st s d a fun xs => foldWords (· ^^^ ·) (xs.map (·.w))

/-- R300. Inclusive prefix sum over the participants. -/
def execCscani (s : BitVec 2) (d : BitVec 6) (a : BitVec 6) (st : State) : Res :=
  collOp st s d [a] fun l x => putWord d (sumBefore a (x.tid + 1) l)

/-- R300. Exclusive prefix sum over the participants. -/
def execCscane (s : BitVec 2) (d : BitVec 6) (a : BitVec 6) (st : State) : Res :=
  collOp st s d [a] fun l x => putWord d (sumBefore a x.tid l)

/-- R300. Carrier tree sum in the fixed order of R41. -/
def execCrfadd (s : BitVec 2) (d : BitVec 6) (a : BitVec 6) (st : State) : Res :=
  cohortOp st s 24 { rv := [(a.toNat, 1)], wv := [(d.toNat, 1)] } fun vs _ =>
    let r := treeSum ((participants vs st.cur.guard).map (·.c a))
    { v := [(d.toNat, r.1)], flags := invalidFlag r.2 }

/-- R300. Smallest carrier over the participants. -/
def execCrfmin (s : BitVec 2) (d : BitVec 6) (a : BitVec 6) (st : State) : Res :=
  collOp st s d [a] fun l _ => [(d.toNat, chooseCarrier true (l.map (·.c a)))]

/-- R300. Largest carrier over the participants. -/
def execCrfmax (s : BitVec 2) (d : BitVec 6) (a : BitVec 6) (st : State) : Res :=
  collOp st s d [a] fun l _ => [(d.toNat, chooseCarrier false (l.map (·.c a)))]

/-- R300. Writes the participant index r. -/
def execCrank (s : BitVec 2) (d : BitVec 6) (st : State) : Res :=
  collOp st s d [] fun l x => putWord d (BitVec.ofNat 32 (rankIn x.tid l))

/-- R300. Writes the participant count n. -/
def execCsize (s : BitVec 2) (d : BitVec 6) (st : State) : Res :=
  collOp st s d [] fun l _ => putWord d (BitVec.ofNat 32 l.length)

/-- R300. TID of the participant with the largest i32 value. -/
def execCmaxi (s : BitVec 2) (d : BitVec 6) (a : BitVec 6) (st : State) : Res :=
  collOp st s d [a] fun l _ => putWord d (BitVec.ofNat 32 (largestTid a l))

/-- R301. True in every participant when any predicate is true. -/
def execVany (s : BitVec 2) (d : BitVec 7) (q : BitVec 7) (n : BitVec 1) (st : State) : Res :=
  voteOp st s d q n fun qs _ => qs.any id

/-- R301. True when every predicate is true. -/
def execVall (s : BitVec 2) (d : BitVec 7) (q : BitVec 7) (n : BitVec 1) (st : State) : Res :=
  voteOp st s d q n fun qs _ => qs.all id

/-- R301. True when every predicate is equal. -/
def execVuni (s : BitVec 2) (d : BitVec 7) (q : BitVec 7) (n : BitVec 1) (st : State) : Res :=
  voteOp st s d q n fun qs _ => qs.all id || !qs.any id

/-- R301. True in participant 0 only. -/
def execCelect (s : BitVec 2) (d : BitVec 7) (st : State) : Res :=
  cohortOp st s 24 { wp := [d.toNat] } fun vs x =>
    { p := [(d.toNat, rankIn x.tid (participants vs st.cur.guard) == 0)] }

/-- R302. Ballot of p[P] over the positions of the reader's rank. -/
def execVbal (s : BitVec 2) (p : BitVec 7) (d : BitVec 6) (st : State) : Res :=
  laneOp st s 8 { rp := [p.toNat], wv := [(d.toNat, 1)] } fun vs x =>
    { v := putWord d (ballot ((List.range 32).map fun i => match atPos vs (x.pos / 32 * 32 + i) with
        | none => false
        | some y => y.p p.toNat)) }

/-- R302. Ballot of p[P] over the reader's quad. -/
def execVbalQuad (s : BitVec 2) (p : BitVec 7) (d : BitVec 6) (st : State) : Res :=
  laneOp st s 8 { rp := [p.toNat], wv := [(d.toNat, 1)], quad := true } fun vs x =>
    { v := putWord d (ballot ((List.range 4).map fun i => match atPos vs (x.pos / 4 * 4 + i) with
        | none => false
        | some y => y.p p.toNat)) }

/-- R303. Mask of the rank's participants whose v[A] is bit-identical to the reader's. -/
def execMatchRank (s : BitVec 2) (d : BitVec 6) (a : BitVec 6) (st : State) : Res :=
  cohortOp st s 24 { rv := [(a.toNat, 1)], wv := [(d.toNat, 1)] } fun vs x =>
    { v := putWord d (ballot ((List.range 32).map fun i =>
        ((participants vs st.cur.guard).any fun y => y.pos == x.pos / 32 * 32 + i && decide (y.c a = x.c a)))) }

end Sys2Proof.Machine
end

