-- ==== Sys2Proof/Machine/Special.lean ====
section
/-! DEFINITION. The error bounds of R309, R320 and R252. Each transcendental function is enclosed between two exact numbers by fixed-point
arithmetic; the part's own result, which the spec leaves open, is held within the bound around that enclosure. A function that the spec calls
non-decreasing is given by the operand from which on each result is reached. -/

namespace Sys2Proof.Machine

/-- Fixed point: a number is held as its integer part times 2^200. -/
def fixP : Nat := 200

/-- log2 e, ln 2 and 2π times 2^200, and 1/(2π) times 2^400, each rounded down. -/
def log2eFix : Nat := 2318321547468254865173387471183990171487108758923299108729110
def ln2Fix : Nat := 1113844574712631719546256151097547306333272293549090750737802
def twoPiFix : Nat := 10096689509235987743946820282484873672429286842977325943070736
def invTwoPiFix : Nat :=
  410977832395975605218853833625233461132178843898737362007205898620758186588316929411123559258072822909570399674468614023

/-- Two numbers that a value lies between. -/
structure Encl where
  lo : Ex
  hi : Ex
  deriving DecidableEq, Repr

/-- A fixed-point integer as a number. -/
def fixEx (i : Int) : Ex := { Ex.ofInt i with e := -(fixP : Int) }

/-- 2^(R ÷ 2^64) between A and B, both times 2^200, from the leading bits of R; `s` is 2^(2^-i) from below, less than 2 units off. -/
def exp2Go : Nat → Nat → Nat → Nat → Nat → Nat × Nat × Nat
  | 0, s, _, a, b => (s, a, b)
  | n + 1, s, r, a, b =>
    let s' := isqrt (s * 2 ^ fixP)
    if r / 2 ^ 63 = 1 then exp2Go n s' (r * 2 % 2 ^ 64) (a * s' / 2 ^ fixP) (b * (s' + 2) / 2 ^ fixP + 1)
    else exp2Go n s' (r * 2 % 2 ^ 64) a b

/-- 2^x. -/
def exp2Encl (x : Ex) : Encl :=
  let (q, r, _) := x.onGrid (-64)
  let t : Int := if x.neg then -(q : Int) - (if r = 0 then 0 else 1) else q
  let k := t / 2 ^ 64
  let (s, a, b) := exp2Go 64 (2 * 2 ^ fixP) (t % 2 ^ 64).toNat (2 ^ fixP) (2 ^ fixP)
  let b := if r = 0 then b else b * (s + 2) / 2 ^ fixP + 1
  { lo := { neg := false, n := a, d := 1, e := k - fixP }, hi := { neg := false, n := b, d := 1, e := k - fixP } }

/-- e^x. -/
def expEncl (x : Ex) : Encl :=
  let lower := x.mul (fixEx log2eFix)
  let upper := x.mul (fixEx (log2eFix + 1))
  if x.neg then { lo := (exp2Encl upper).lo, hi := (exp2Encl lower).hi } else { lo := (exp2Encl lower).lo, hi := (exp2Encl upper).hi }

/-- The bits of log2 of a number in [1, 2) that lies between A and B, both times 2^200: the bits found and how many are missing. -/
def log2Go : Nat → Nat → Nat → Nat → Nat × Nat
  | 0, _, _, acc => (acc, 0)
  | n + 1, a, b, acc =>
    let a2 := a * a / 2 ^ fixP
    let b2 := b * b / 2 ^ fixP + 1
    if 2 ^ (fixP + 1) ≤ a2 then log2Go n (a2 / 2) (b2 / 2 + 1) (2 * acc + 1)
    else if b2 < 2 ^ (fixP + 1) then log2Go n a2 b2 (2 * acc)
    else (acc, n + 1)

/-- log2 x for x > 0. -/
def log2Encl (x : Ex) : Encl :=
  let k := x.log2
  let (q, r, _) := x.onGrid (k - fixP)
  let (acc, left) := log2Go 60 q (if r = 0 then q else q + 1) 0
  let bits : Int := 60 - (left : Int)
  { lo := (Ex.ofInt k).add { neg := false, n := acc, d := 1, e := -bits }
    hi := (Ex.ofInt k).add { neg := false, n := acc + 1, d := 1, e := -bits } }

/-- ln of what lies in an enclosure of positive numbers. -/
def lnEncl (x : Encl) : Encl :=
  let lo := (log2Encl x.lo).lo
  let hi := (log2Encl x.hi).hi
  { lo := lo.mul (fixEx (if lo.neg then ln2Fix + 1 else ln2Fix)), hi := hi.mul (fixEx (if hi.neg then ln2Fix else ln2Fix + 1)) }

/-- The angle x modulo 2π in [−π, π), times 2^200, for x ≥ 0. -/
def angleFix (x : Ex) : Int :=
  let turns := ((x.mul { neg := false, n := invTwoPiFix, d := 1, e := -400 }).onGrid (-(fixP : Int))).1 % 2 ^ fixP
  let turn : Int := if turns < 2 ^ (fixP - 1) then turns else (turns : Int) - 2 ^ fixP
  turn * twoPiFix / 2 ^ fixP

/-- The sum of a series from the term `t` of degree `k` on, each next term being −t θ² ÷ ((k+1)(k+2)). -/
def trigGo : Nat → Int → Nat → Int → Int → Int
  | 0, _, _, _, sum => sum
  | n + 1, th2, k, t, sum =>
    let t' := -(t * th2 / 2 ^ fixP) / (((k + 1) * (k + 2) : Nat) : Int)
    trigGo n th2 (k + 2) t' (sum + t')

/-- sin x and cos x for x ≥ 0, within 2^-100. -/
def trigEncl (sine : Bool) (x : Ex) : Encl :=
  let th := angleFix x
  let th2 := th * th / 2 ^ fixP
  let t : Int := if sine then th else 2 ^ fixP
  let y := fixEx (trigGo 48 th2 (if sine then 1 else 0) t t)
  { lo := y.sub (Ex.pow2 (-100)), hi := y.add (Ex.pow2 (-100)) }

/-- 1 ÷ (1 + e^−x); near 0 it lies between 1/2 + x/4 and 1/2 + x/4 − x³/48. -/
def sigmEncl (x : Ex) : Encl :=
  let one := Ex.ofNat 1
  let line := (Ex.pow2 (-1)).add (x.scale (-2))
  let cubic := line.sub ((x.mul (x.mul x)).div (Ex.ofNat 48))
  if x.abs.le (Ex.pow2 (-30)) then (if x.neg then { lo := line, hi := cubic } else { lo := cubic, hi := line }) else
  if (Ex.ofNat 256).le x.abs then (if x.neg then { lo := Ex.zero false, hi := Ex.pow2 (-300) } else { lo := one.sub (Ex.pow2 (-300)), hi := one })
  else if x.neg then
    let e := expEncl x
    { lo := e.lo.div (one.add e.lo), hi := e.hi.div (one.add e.hi) }
  else
    let e := expEncl x.negate
    { lo := one.div (one.add e.hi), hi := one.div (one.add e.lo) }

/-- tanh x for x > 0: x − x³/3 ≤ tanh x ≤ x − x³/3 + 2x⁵/15 near 0, else (1 − e^−2x) ÷ (1 + e^−2x). -/
def tanhEncl (x : Ex) : Encl :=
  let one := Ex.ofNat 1
  if (Ex.ofNat 64).le x then { lo := one.sub (Ex.pow2 (-150)), hi := one }
  else if x.le (Ex.pow2 (-12)) then
    let x2 := x.mul x
    let low := x.sub ((x.mul x2).div (Ex.ofNat 3))
    { lo := low, hi := low.add (((x.mul (x2.mul x2)).scale 1).div (Ex.ofNat 15)) }
  else
    let e := expEncl (x.scale 1).negate
    { lo := (one.sub e.hi).div (one.add e.hi), hi := (one.sub e.lo).div (one.add e.lo) }

/-- u(y) of R309 as an exponent: the carrier step at a number. -/
def stepAt (x : Ex) : Int := if x.isZero then -150 else max x.log2 (-126) - 24

/-- The larger of two numbers, and the smaller. -/
def Ex.max (x y : Ex) : Ex := if x.lt y then y else x
def Ex.min (x y : Ex) : Ex := if x.lt y then x else y

/-- 2 u(f) for f in an enclosure (R309). Where an end is a power of two, f itself lies on the side of the smaller step, as `Encl`'s
functions reach a power of two only where they are exact. -/
def twoSteps (f : Encl) : Ex := Ex.pow2 (Min.min (stepAt f.lo) (stepAt f.hi) + 1)

/-- A free carrier held between two numbers; anything else becomes the carrier of `mid`. -/
def between (lo hi mid : Ex) (y : Carrier) : Carrier :=
  match carrierVal y with
  | .num r => if lo.le r && r.le hi then carry r else carry mid
  | _ => carry mid

/-- A free carrier held within a bound around an enclosure and within the range [lo, hi] that the rule's exact values give. -/
def within (f : Encl) (bound lo hi : Ex) (y : Carrier) : Carrier :=
  between (Ex.max lo (f.lo.sub bound)) (Ex.min hi (f.hi.add bound)) f.lo y

/-! ### Non-decreasing functions -/

/-- The place of a finite carrier on the grid: neighbours are consecutive, and both zeros have place 0. -/
def placeOf (c : Carrier) : Int :=
  let m : Int := (2 * (c.w.toNat % 2 ^ 31) + c.s.toNat : Nat)
  if c.w.getLsbD 31 then -m else m

/-- The place of the overflow carrier. -/
def topPlace : Int := 2 * 0x7F7FFFFF + 1

/-- The carrier at a place; a zero takes the sign given. -/
def placeCarrier (zero : Bool) (i : Int) : Carrier :=
  { w := BitVec.ofNat 32 ((if i < 0 ∨ (i = 0 ∧ zero) then 2 ^ 31 else 0) + i.natAbs / 2 % 2 ^ 31), s := decide (i.natAbs % 2 = 1) }

/-- The last place at or below a number, and the first at or above it. -/
def placeDown (x : Ex) : Int :=
  if x.isZero then 0
  else
    let u := Max.max (x.log2 - 24) (-150)
    let (q, r, _) := x.onGrid u
    let m := Min.min ((u + 150) * 2 ^ 24 + q) topPlace
    if x.neg then -Min.min (m + if r = 0 then 0 else 1) topPlace else m
def placeUp (x : Ex) : Int := -placeDown x.negate

/-- The largest of the `n` places above `lo` that the operand `x` has reached; `lo` when it has reached none. -/
def reachedPlace (from_ : Int → Int) (x lo : Int) : Nat → Int
  | 0 => lo
  | n + 1 => if from_ (lo + (n + 1 : Nat)) ≤ x then lo + (n + 1 : Nat) else reachedPlace from_ x lo n

/-- A non-decreasing function at an operand, between two places. -/
def rise (from_ : Int → Int) (fn : Nat) (x lo hi : Int) : Carrier :=
  placeCarrier (Config.zeroSign fn x) (reachedPlace from_ x lo (hi - lo).toNat)

/-- The lowest and the highest place within a bound around an enclosure and within the range [lo, hi]. -/
def lowestPlace (f : Encl) (bound lo : Ex) : Int := placeUp (Ex.max lo (f.lo.sub bound))
def highestPlace (f : Encl) (bound hi : Ex) : Int := placeDown (Ex.min hi (f.hi.add bound))

/-- The value at a place. -/
def placeVal (i : Int) : Ex := match carrierVal (placeCarrier false i) with
  | .num x => x
  | _ => Ex.zero false

/-- 2^a for an exact number (R309, R252): exact at integers down to −150, 0 to 2^-150 below; elsewhere the free carrier `y` within two
steps of 2^a and between the neighbouring exact powers. -/
def powerOf (a : Ex) (y : Carrier) : Carrier :=
  if (Ex.ofNat 128).le a then Carrier.overflow false
  else if a.lt (Ex.ofInt (-200)) then between (Ex.zero false) (Ex.pow2 (-150)) (Ex.zero false) y
  else
    let (q, cut) := wholePart a
    let k : Int := if a.neg then -(q : Int) else q
    if !cut && decide (-150 ≤ k) then carry (Ex.pow2 k)
    else
      let lo := if a.neg then k - 1 else k
      let f := exp2Encl a
      within f (twoSteps f) (if lo < -150 then Ex.zero false else Ex.pow2 lo) (Ex.pow2 (Max.max (lo + 1) (-150))) y

end Sys2Proof.Machine
end

