-- ==== Sys2Proof/Machine/Float.lean ====
section
/-! DEFINITION. Float arithmetic, conversion and random numbers (16_isa_float R305 to R320) and the 16-bit float forms (R74). -/

namespace Sys2Proof.Machine

/-! ### What they compute -/

/-- A result and whether it was invalid, as a carrier (R29, R30). -/
def invCarry (r : Val × Bool) : Carrier × Bool := (carryVal r.1, r.2)

/-- |x| of a result; an exact zero is +0 (R306). -/
def absInv (r : Val × Bool) : Val × Bool :=
  match r.1 with
  | .nan => r
  | .inf _ => (.inf false, r.2)
  | .num x => (.num x.abs, r.2)

/-- The operand FMIN and FMAX choose (R307); `strict` gives NaN when either operand is NaN. -/
def chooseOf (least strict : Bool) (x y : Carrier) : Carrier :=
  let nx := (carrierVal x).isNan
  let ny := (carrierVal y).isNan
  if nx && ny then Carrier.nan
  else if nx then (if strict then Carrier.nan else y)
  else if ny then (if strict then Carrier.nan else x)
  else betterCarrier least x y

/-- FABS and FNEG: a sign change that keeps S; NaN is canonical (R308, R25). -/
def signOp (f : Word → Word) (c : Carrier) : Carrier := if (carrierVal c).isNan then Carrier.nan else { c with w := f c.w }

/-- Rounding to a whole number (R308); a zero keeps the operand's sign. -/
def roundWhole (mode : Round) (c : Carrier) : Carrier :=
  match carrierVal c with
  | .nan => Carrier.nan
  | .inf neg => Carrier.inf neg
  | .num x =>
    let (q, r, den) := x.onGrid 0
    let q' := if r = 0 then q else if goesUp mode x.neg q r den 0 0 then q + 1 else q
    carry { neg := x.neg, n := q', d := 1, e := 0 }

/-- The class mask of R308. -/
def classMask (c : Carrier) : Word :=
  let neg := c.w.getLsbD 31
  let e := c.w.toNat / 2 ^ 23 % 256
  let f := c.w.toNat % 2 ^ 23
  let k := if e = 255 then (if f = 0 then (if neg then 0 else 7) else 8)
    else if e ≠ 0 then (if neg then 1 else 6)
    else if f ≠ 0 ∨ c.s then (if neg then 2 else 5)
    else if neg then 3 else 4
  (1#32 <<< (k : Nat)) ||| (bit1 32 c.s <<< 9)

/-- An exact even power of two, its half exponent. -/
def evenPower (a : Ex) : Option Int :=
  let k := a.log2
  if k % 2 = 0 ∧ (Ex.pow2 k).eq a then some (k / 2) else none

/-- The last place at or below 1/√a, for a number without denominator. -/
def rsqrtPlace (a : Ex) : Int :=
  let k : Nat := 64 + Nat.log2 a.n
  let (n, e) := if a.e % 2 = 0 then (a.n, a.e) else (2 * a.n, a.e - 1)
  placeDown { neg := false, n := isqrt (2 ^ (2 * k) / n), d := 1, e := -e / 2 - k }

/-- FRSQ (R309): one of the two carriers around 1/√a, which are those within 1 u; not increasing. -/
def frsqOf (c : Carrier) : Carrier × Bool :=
  match carrierVal c with
  | .nan => (Carrier.nan, false)
  | .inf neg => if neg then (Carrier.nan, true) else (Carrier.zero, false)
  | .num a =>
    if a.isZero then (Carrier.inf a.neg, false)
    else if a.neg then (Carrier.nan, true)
    else match evenPower a with
      | some h => (carry (Ex.pow2 (-h)), false)
      | none => (rise Config.frsq 0 (-placeOf c) (rsqrtPlace a) (rsqrtPlace a + 1), false)

/-- FSQRT (R309), correctly rounded to odd. -/
def fsqrtOf (c : Carrier) : Carrier × Bool :=
  match carrierVal c with
  | .nan => (Carrier.nan, false)
  | .inf neg => if neg then (Carrier.nan, true) else (Carrier.inf false, false)
  | .num a => if a.isZero then (Carrier.zeroOf a.neg, false) else if a.neg then (Carrier.nan, true) else (sqrtCarry a, false)

/-- FEXP2 (R309): exact at integers down to −150, 0 to 2^-150 below; elsewhere within two steps of 2^a and between the neighbouring exact
powers. -/
def fexp2Of (c : Carrier) : Carrier × Bool :=
  match carrierVal c with
  | .nan => (Carrier.nan, false)
  | .inf neg => (if neg then Carrier.zero else Carrier.inf false, false)
  | .num a =>
    (if (Ex.ofNat 128).le a then Carrier.overflow false
    else if a.lt (Ex.ofInt (-200)) then rise Config.fexp2 1 (placeOf c) 0 1
    else
      let (q, cut) := wholePart a
      let k : Int := if a.neg then -(q : Int) else q
      if !cut && decide (-150 ≤ k) then carry (Ex.pow2 k)
      else
        let lo := if a.neg then k - 1 else k
        let f := exp2Encl a
        rise Config.fexp2 1 (placeOf c) (lowestPlace f (twoSteps f) (if lo < -150 then Ex.zero false else Ex.pow2 lo))
          (highestPlace f (twoSteps f) (Ex.pow2 (Max.max (lo + 1) (-150)))), false)

/-- FLOG2 (R309): exact at powers of two; elsewhere within the bound and between the neighbouring integers. -/
def flog2Of (c : Carrier) : Carrier × Bool :=
  match carrierVal c with
  | .nan => (Carrier.nan, false)
  | .inf neg => if neg then (Carrier.nan, true) else (Carrier.inf false, false)
  | .num a =>
    if a.isZero then (Carrier.inf true, false)
    else if a.neg then (Carrier.nan, true)
    else if (Ex.pow2 a.log2).eq a then (carry (Ex.ofInt a.log2), false)
    else
      let f := log2Encl a
      let bound := Ex.max (twoSteps f) (Ex.pow2 (-24))
      (rise Config.flog2 2 (placeOf c) (lowestPlace f bound (Ex.ofInt a.log2)) (highestPlace f bound (Ex.ofInt (a.log2 + 1))), false)

/-- The magnitude of a carrier, S kept. -/
def magnitude (c : Carrier) : Carrier := { c with w := c.w &&& 0x7FFFFFFF#32 }

/-- An odd function from its values at magnitudes (R309). -/
def oddFrom (neg : Bool) (y : Carrier) : Carrier := if neg then { y with w := y.w ^^^ 0x80000000#32 } else y

/-- FSIN (R309), odd bit for bit and within 2^-22 of [-1, 1]. -/
def fsinOf (c : Carrier) : Carrier × Bool :=
  match carrierVal c with
  | .nan => (Carrier.nan, false)
  | .inf _ => (Carrier.nan, true)
  | .num a =>
    if a.isZero then (Carrier.zeroOf a.neg, false)
    else
      let one := (Ex.ofNat 1).add (Ex.pow2 (-22))
      (oddFrom a.neg (within (trigEncl true a.abs) (Ex.pow2 (-22)) one.negate one (Config.fsin (magnitude c))), false)

/-- FCOS (R309). -/
def fcosOf (c : Carrier) : Carrier × Bool :=
  match carrierVal c with
  | .nan => (Carrier.nan, false)
  | .inf _ => (Carrier.nan, true)
  | .num a =>
    if a.isZero then (carry (Ex.ofNat 1), false)
    else
      let one := (Ex.ofNat 1).add (Ex.pow2 (-22))
      (within (trigEncl false a.abs) (Ex.pow2 (-22)) one.negate one (Config.fcos c), false)

/-- The lowest result of FTANH at a place above 0. Where tanh crosses a power of two its bound grows; what the operands below allow holds
on. -/
def tanhLow (i : Int) : Int :=
  ((List.range 4).map fun j =>
    let f := tanhEncl (placeVal (Max.max 1 (i - (j : Nat))))
    lowestPlace f (twoSteps f) (Ex.zero false)).foldl Max.max 0

/-- FTANH (R309), odd bit for bit. -/
def ftanhOf (c : Carrier) : Carrier × Bool :=
  match carrierVal c with
  | .nan => (Carrier.nan, false)
  | .inf neg => (oddFrom neg (carry (Ex.ofNat 1)), false)
  | .num a =>
    if a.isZero then (Carrier.zeroOf a.neg, false)
    else
      let f := tanhEncl a.abs
      let i := placeOf (magnitude c)
      (oddFrom a.neg (rise Config.ftanh 3 i (tanhLow i) (highestPlace f (twoSteps f) (Ex.ofNat 1))), false)

/-- The lowest result of FSIGM at a place; see `tanhLow`. At 0 the function crosses 1/2, and the operands below lie close to it. -/
def sigmLow (i : Int) : Int :=
  ((List.range 4).map fun j =>
    let f := sigmEncl (placeVal (i - (j : Nat)))
    lowestPlace f (twoSteps f) (Ex.zero false)).foldl Max.max (if 0 ≤ i then placeUp ((Ex.pow2 (-1)).sub (Ex.pow2 (-25))) else 0)

/-- FSIGM (R309). -/
def fsigmOf (c : Carrier) : Carrier × Bool :=
  match carrierVal c with
  | .nan => (Carrier.nan, false)
  | .inf neg => (if neg then Carrier.zero else carry (Ex.ofNat 1), false)
  | .num a =>
    let f := sigmEncl a
    (rise Config.fsigm 4 (placeOf c) (sigmLow (placeOf c)) (highestPlace f (twoSteps f) (Ex.ofNat 1)), false)

/-- −ln(−ln u) for u = (2n + 1) ÷ 2^25, between two places within the bound and [−2.86, 17.33] (R320). -/
def gumbelOf (n : Nat) : Carrier :=
  let u : Ex := { neg := false, n := 2 * n + 1, d := 1, e := -25 }
  let l := lnEncl { lo := u, hi := u }
  let g := lnEncl { lo := l.hi.negate, hi := l.lo.negate }
  let f : Encl := { lo := g.hi.negate, hi := g.lo.negate }
  let bound := Ex.max (twoSteps f) (Ex.pow2 (-21))
  rise Config.rngg 5 n (lowestPlace f bound { neg := true, n := 286, d := 100, e := 0 })
    (highestPlace f bound { neg := false, n := 1733, d := 100, e := 0 })

/-- RNGG (R320): a non-decreasing function of RNGU's carrier for the key and counter. -/
def gumbel (key counter : Word) : Carrier := gumbelOf ((rng32 key counter) >>> 8).toNat

/-- FSCL (R311). -/
def scaleCarrier (c : Carrier) (n : Int) : Carrier :=
  match carrierVal c with
  | .nan => Carrier.nan
  | .inf neg => Carrier.inf neg
  | .num x => if x.isZero then c else if n > 1000 then Carrier.overflow x.neg
    else if n < -1000 then carry { neg := x.neg, n := 1, d := 1, e := -1000 } else carry (x.scale n)

/-- FEXPO (R311). -/
def exponentOf (c : Carrier) : Word :=
  match carrierVal c with
  | .num x => if x.isZero then 0x80000000#32 else BitVec.ofInt 32 x.log2
  | _ => 0x7FFFFFFF#32

/-- FMANT (R311). -/
def mantissaOf (c : Carrier) : Carrier :=
  match carrierVal c with
  | .nan => Carrier.nan
  | .inf neg => Carrier.inf neg
  | .num x => if x.isZero then c else carry (x.scale (-x.log2))

/-- FCVT's result (R312, R32, R25): NaN and infinities keep their W, with S = 0. -/
def cvtResult (c : Carrier) (code : Nat) : Carrier :=
  match carrierVal c with
  | .num _ => cvtTo c code
  | _ => { c with s := false }

/-- DITH after an element finalised under a mode: advanced exactly once under SR (R38). -/
def dithAfter (r : BitVec 4) (d : Word) : Option Word := if r == 5#4 then some (dithNext d) else none

/-- One element finalised to a float format: its value, its flags, DITH afterwards (R34, R38). -/
def finElem (code : Nat) (r : BitVec 4) (d : Word) (c : Carrier) : Fin × Word × Option Word :=
  match floatFmt code, roundOf r.toNat with
  | some f, some mode =>
    let x := finVal (carrierVal c) f mode d.toNat (2 ^ 32)
    (x.1, x.2, dithAfter r d)
  | _, _ => (.num false 0 0, 0#32, none)

/-- The pattern of a finalised element (R34). -/
def elemPattern (code : Nat) (x : Fin) : Nat := match floatFmt code with
  | some f => finPattern f x
  | none => 0

/-- FTOI and FFIN's integer targets (R317, R36). -/
def toInteger (d : BitVec 6) (code : Nat) (r : BitVec 4) (dith : Word) (c : Carrier) : Put :=
  match intBounds code, roundOf r.toNat with
  | some (lo, hi), some mode =>
    let x := finInt (carrierVal c) lo hi mode dith.toNat (2 ^ 32)
    { v := putWord d (BitVec.ofInt 32 x.1), flags := x.2, dith := dithAfter r dith }
  | _, _ => {}

/-- A word with `n` bits from `pos` up replaced. -/
def setBits (w : Word) (pos n x : Nat) : Word :=
  (w &&& ~~~(BitVec.ofNat 32 ((2 ^ n - 1) * 2 ^ pos))) ||| BitVec.ofNat 32 (x % 2 ^ n * 2 ^ pos)

/-- The widths and formats of FUNPK's classes (R316). -/
def unpackBits : Nat → Nat
  | 0 => 16
  | 1 => 16
  | 2 => 8
  | 3 => 8
  | _ => 4

def unpackElem (cls bits : Nat) : Carrier :=
  match cls with
  | 0 => fmtCarrier fmtBF16 bits
  | 1 => fmtCarrier fmtF16 bits
  | 2 => fmtCarrier fmtE4M3 bits
  | 3 => fmtCarrier fmtE5M2 bits
  | _ => fmtCarrier fmtE2M1 bits

/-- The integer in the low bits of a word (R318). -/
def integerIn (code : Nat) (w : Word) : Int :=
  match code with
  | 9 => (w.setWidth 8).toInt
  | 10 => (w.setWidth 8).toNat
  | 11 => (w.setWidth 16).toInt
  | 12 => w.toInt
  | _ => w.toNat

/-! ### Their shapes -/

/-- v[D] := f(a), a carrier and whether it was invalid, with FI on the operand and FO on the result (R305, R31). -/
def carrierOp (st : State) (s : BitVec 2) (i o : BitVec 1) (lat : Nat) (d a : BitVec 6) (f : Carrier → Carrier × Bool) : Res :=
  laneOp st s lat { rv := [(a.toNat, 1)], wv := [(d.toNat, 1)] } fun _ x =>
    let r := f (flushIn (i == 1#1) (x.c a))
    { v := [(d.toNat, flushOut (o == 1#1) r.1)], flags := invalidFlag r.2 }

/-- v[D] := carry(f(a, b)) (R305). -/
def floatOp2 (st : State) (s : BitVec 2) (i o : BitVec 1) (lat : Nat) (d a b : BitVec 6) (f : Val → Val → Val × Bool) : Res :=
  laneOp st s lat { rv := [(a.toNat, 1), (b.toNat, 1)], wv := [(d.toNat, 1)] } fun _ x =>
    let r := invCarry (f (carrierVal (flushIn (i == 1#1) (x.c a))) (carrierVal (flushIn (i == 1#1) (x.c b))))
    { v := [(d.toNat, flushOut (o == 1#1) r.1)], flags := invalidFlag r.2 }

/-- v[D] := carry(f(d, a, b)) (R306). -/
def floatOp3 (st : State) (s : BitVec 2) (i o : BitVec 1) (d a b : BitVec 6) (f : Val → Val → Val → Val × Bool) : Res :=
  laneOp st s 6 { rv := [(d.toNat, 1), (a.toNat, 1), (b.toNat, 1)], wv := [(d.toNat, 1)] } fun _ x =>
    let r := invCarry (f (carrierVal (flushIn (i == 1#1) (x.c d))) (carrierVal (flushIn (i == 1#1) (x.c a)))
      (carrierVal (flushIn (i == 1#1) (x.c b))))
    { v := [(d.toNat, flushOut (o == 1#1) r.1)], flags := invalidFlag r.2 }

/-- v[D] := the chosen operand (R307). -/
def chooseOp (st : State) (s : BitVec 2) (i o : BitVec 1) (d a b : BitVec 6) (least strict : Bool) : Res :=
  laneOp st s 6 { rv := [(a.toNat, 1), (b.toNat, 1)], wv := [(d.toNat, 1)] } fun _ x =>
    { v := [(d.toNat, flushOut (o == 1#1)
        (chooseOf least strict (flushIn (i == 1#1) (x.c a)) (flushIn (i == 1#1) (x.c b))))] }

/-! ### The instructions -/

/-- R74. 16-bit carrier FADD into v[D] without flushing. -/
def execFadd16 (d : BitVec 6) (a : BitVec 4) (st : State) : Res :=
  floatOp2 st 0 0 0 6 d d (a.setWidth 6) Val.add

/-- R74. 16-bit carrier FSUB into v[D]. -/
def execFsub16 (d : BitVec 6) (a : BitVec 4) (st : State) : Res :=
  floatOp2 st 0 0 0 6 d d (a.setWidth 6) fun x y => Val.add x y.negate

/-- R74. 16-bit carrier FMUL into v[D]. -/
def execFmul16 (d : BitVec 6) (a : BitVec 4) (st : State) : Res :=
  floatOp2 st 0 0 0 6 d d (a.setWidth 6) Val.mul

/-- R74. 16-bit FMAX into v[D]. -/
def execFmax16 (d : BitVec 6) (a : BitVec 4) (st : State) : Res :=
  chooseOp st 0 0 0 d d (a.setWidth 6) false false

/-- R306. Carrier addition, rounded to odd. -/
def execFadd (s : BitVec 2) (i : BitVec 1) (o : BitVec 1) (d : BitVec 6) (a : BitVec 6) (b : BitVec 6) (st : State) : Res :=
  floatOp2 st s i o 6 d a b Val.add

/-- R306. Carrier subtraction. -/
def execFsub (s : BitVec 2) (i : BitVec 1) (o : BitVec 1) (d : BitVec 6) (a : BitVec 6) (b : BitVec 6) (st : State) : Res :=
  floatOp2 st s i o 6 d a b fun x y => Val.add x y.negate

/-- R306. Absolute carrier difference. -/
def execFabsd (s : BitVec 2) (i : BitVec 1) (o : BitVec 1) (d : BitVec 6) (a : BitVec 6) (b : BitVec 6) (st : State) : Res :=
  floatOp2 st s i o 6 d a b fun x y => absInv (Val.add x y.negate)

/-- R306. Carrier multiplication. -/
def execFmul (s : BitVec 2) (i : BitVec 1) (o : BitVec 1) (d : BitVec 6) (a : BitVec 6) (b : BitVec 6) (st : State) : Res :=
  floatOp2 st s i o 6 d a b Val.mul

/-- R306. Fused a × b + d with one rounding. -/
def execFfma (s : BitVec 2) (i : BitVec 1) (o : BitVec 1) (d : BitVec 6) (a : BitVec 6) (b : BitVec 6) (st : State) : Res :=
  floatOp3 st s i o d a b fun z x y => Val.fma x y z

/-- R306. Fused a × b − d. -/
def execFfms (s : BitVec 2) (i : BitVec 1) (o : BitVec 1) (d : BitVec 6) (a : BitVec 6) (b : BitVec 6) (st : State) : Res :=
  floatOp3 st s i o d a b fun z x y => Val.fma x y z.negate

/-- R306. Fused d − a × b. -/
def execFnfma (s : BitVec 2) (i : BitVec 1) (o : BitVec 1) (d : BitVec 6) (a : BitVec 6) (b : BitVec 6) (st : State) : Res :=
  floatOp3 st s i o d a b fun z x y => Val.fma x.negate y z

/-- R307. Smaller carrier; a single NaN operand is ignored. -/
def execFmin (s : BitVec 2) (i : BitVec 1) (o : BitVec 1) (d : BitVec 6) (a : BitVec 6) (b : BitVec 6) (st : State) : Res :=
  chooseOp st s i o d a b true false

/-- R307. Larger carrier; a single NaN operand is ignored. -/
def execFmax (s : BitVec 2) (i : BitVec 1) (o : BitVec 1) (d : BitVec 6) (a : BitVec 6) (b : BitVec 6) (st : State) : Res :=
  chooseOp st s i o d a b false false

/-- R307. Smaller carrier; any NaN gives the canonical NaN. -/
def execFminn (s : BitVec 2) (i : BitVec 1) (o : BitVec 1) (d : BitVec 6) (a : BitVec 6) (b : BitVec 6) (st : State) : Res :=
  chooseOp st s i o d a b true true

/-- R307. Larger carrier; any NaN gives the canonical NaN. -/
def execFmaxn (s : BitVec 2) (i : BitVec 1) (o : BitVec 1) (d : BitVec 6) (a : BitVec 6) (b : BitVec 6) (st : State) : Res :=
  chooseOp st s i o d a b false true

/-- R308. Clears the sign bit of W and keeps S. -/
def execFabs (s : BitVec 2) (i : BitVec 1) (o : BitVec 1) (d : BitVec 6) (a : BitVec 6) (st : State) : Res :=
  carrierOp st s i o 6 d a fun c => (signOp (fun w => w &&& 0x7FFFFFFF#32) c, false)

/-- R308. Inverts the sign bit of W and keeps S. -/
def execFneg (s : BitVec 2) (i : BitVec 1) (o : BitVec 1) (d : BitVec 6) (a : BitVec 6) (st : State) : Res :=
  carrierOp st s i o 6 d a fun c => (signOp (fun w => w ^^^ 0x80000000#32) c, false)

/-- R309. Reciprocal, rounded to odd. -/
def execFrcp (s : BitVec 2) (i : BitVec 1) (o : BitVec 1) (d : BitVec 6) (a : BitVec 6) (st : State) : Res :=
  carrierOp st s i o 16 d a fun c => invCarry (Val.div (.num (Ex.ofNat 1)) (carrierVal c))

/-- R309. Reciprocal square root within 1 ulp. -/
def execFrsq (s : BitVec 2) (i : BitVec 1) (o : BitVec 1) (d : BitVec 6) (a : BitVec 6) (st : State) : Res :=
  carrierOp st s i o 16 d a frsqOf

/-- R309. Square root, rounded to odd. -/
def execFsqrt (s : BitVec 2) (i : BitVec 1) (o : BitVec 1) (d : BitVec 6) (a : BitVec 6) (st : State) : Res :=
  carrierOp st s i o 16 d a fsqrtOf

/-- R309. 2^a within 2 ulp. -/
def execFexp2 (s : BitVec 2) (i : BitVec 1) (o : BitVec 1) (d : BitVec 6) (a : BitVec 6) (st : State) : Res :=
  carrierOp st s i o 16 d a fexp2Of

/-- R309. log2 a within the stated bound. -/
def execFlog2 (s : BitVec 2) (i : BitVec 1) (o : BitVec 1) (d : BitVec 6) (a : BitVec 6) (st : State) : Res :=
  carrierOp st s i o 16 d a flog2Of

/-- R309. Sine within 2^−22 absolute. -/
def execFsin (s : BitVec 2) (i : BitVec 1) (o : BitVec 1) (d : BitVec 6) (a : BitVec 6) (st : State) : Res :=
  carrierOp st s i o 16 d a fsinOf

/-- R309. Cosine within 2^−22 absolute. -/
def execFcos (s : BitVec 2) (i : BitVec 1) (o : BitVec 1) (d : BitVec 6) (a : BitVec 6) (st : State) : Res :=
  carrierOp st s i o 16 d a fcosOf

/-- R309. Hyperbolic tangent within 2 ulp. -/
def execFtanh (s : BitVec 2) (i : BitVec 1) (o : BitVec 1) (d : BitVec 6) (a : BitVec 6) (st : State) : Res :=
  carrierOp st s i o 16 d a ftanhOf

/-- R309. Logistic sigmoid within 2 ulp. -/
def execFsigm (s : BitVec 2) (i : BitVec 1) (o : BitVec 1) (d : BitVec 6) (a : BitVec 6) (st : State) : Res :=
  carrierOp st s i o 16 d a fsigmOf

/-- R308. Floor of the carrier value. -/
def execFflr (s : BitVec 2) (i : BitVec 1) (o : BitVec 1) (d : BitVec 6) (a : BitVec 6) (st : State) : Res :=
  carrierOp st s i o 6 d a fun c => (roundWhole .rd c, false)

/-- R308. Ceiling of the carrier value. -/
def execFceil (s : BitVec 2) (i : BitVec 1) (o : BitVec 1) (d : BitVec 6) (a : BitVec 6) (st : State) : Res :=
  carrierOp st s i o 6 d a fun c => (roundWhole .ru c, false)

/-- R308. Carrier value truncated toward zero. -/
def execFtrnc (s : BitVec 2) (i : BitVec 1) (o : BitVec 1) (d : BitVec 6) (a : BitVec 6) (st : State) : Res :=
  carrierOp st s i o 6 d a fun c => (roundWhole .rz c, false)

/-- R308. Carrier value rounded to the nearest integer, ties to even. -/
def execFrndn (s : BitVec 2) (i : BitVec 1) (o : BitVec 1) (d : BitVec 6) (a : BitVec 6) (st : State) : Res :=
  carrierOp st s i o 6 d a fun c => (roundWhole .rne c, false)

/-- R308. Class mask of the carrier. -/
def execFclass (s : BitVec 2) (i : BitVec 1) (_o : BitVec 1) (d : BitVec 6) (a : BitVec 6) (st : State) : Res :=
  laneOp st s 6 { rv := [(a.toNat, 1)], wv := [(d.toNat, 1)] } fun _ x =>
    { v := putWord d (classMask (flushIn (i == 1#1) (x.c a))) }

/-- R310. Carrier division, rounded to odd. -/
def execFdiv (s : BitVec 2) (i : BitVec 1) (o : BitVec 1) (d : BitVec 6) (a : BitVec 6) (b : BitVec 6) (st : State) : Res :=
  floatOp2 st s i o 16 d a b Val.div

/-- R311. a × 2^n, where n is the i32 in v[B]. -/
def execFscl (s : BitVec 2) (i : BitVec 1) (o : BitVec 1) (d : BitVec 6) (a : BitVec 6) (b : BitVec 6) (st : State) : Res :=
  laneOp st s 6 { rv := [(a.toNat, 1), (b.toNat, 1)], wv := [(d.toNat, 1)] } fun _ x =>
    { v := [(d.toNat, flushOut (o == 1#1) (scaleCarrier (flushIn (i == 1#1) (x.c a)) (x.w b).toInt))] }

/-- R311. Integer floor of log2 |a|. -/
def execFexpo (s : BitVec 2) (i : BitVec 1) (_o : BitVec 1) (d : BitVec 6) (a : BitVec 6) (st : State) : Res :=
  laneOp st s 6 { rv := [(a.toNat, 1)], wv := [(d.toNat, 1)] } fun _ x =>
    { v := putWord d (exponentOf (flushIn (i == 1#1) (x.c a))) }

/-- R311. Mantissa of a scaled into ±[1, 2). -/
def execFmant (s : BitVec 2) (i : BitVec 1) (o : BitVec 1) (d : BitVec 6) (a : BitVec 6) (st : State) : Res :=
  carrierOp st s i o 6 d a fun c => (mantissaOf c, false)

/-- R312. Rounds to odd on the grid of a target format plus two bits. -/
def execFcvt (s : BitVec 2) (i : BitVec 1) (o : BitVec 1) (d : BitVec 6) (a : BitVec 6) (f : BitVec 4) (st : State) : Res :=
  laneOp st s 6 { rv := [(a.toNat, 1)], wv := [(d.toNat, 1)], ok := decide (f.toNat < 8) } fun _ x =>
    { v := [(d.toNat, flushOut (o == 1#1) (cvtResult (flushIn (i == 1#1) (x.c a)) f.toNat))] }

/-- R313. Finalises the carrier to a format under a rounding mode, setting FSTAT. -/
def execFfin (s : BitVec 2) (r : BitVec 4) (d : BitVec 6) (a : BitVec 6) (f : BitVec 4) (st : State) : Res :=
  laneOp st s 6 { rv := [(a.toNat, 1)], wv := [(d.toNat, 1)], ok := decide (f.toNat ≠ 8 ∧ f.toNat < 14) } fun _ x =>
    if f.toNat < 8 then
      let r := finElem f.toNat r x.th.dith (x.c a)
      { v := [(d.toNat, finCarrier r.1)], flags := r.2.1, dith := r.2.2 }
    else toInteger d f.toNat r x.th.dith (x.c a)

/-- R314. Finalises two carriers to BF16 or F16 and packs them into one word. -/
def execFpack (s : BitVec 2) (r : BitVec 3) (t : BitVec 1) (d : BitVec 6) (a : BitVec 6) (b : BitVec 6) (st : State) : Res :=
  laneOp st s 6 { rv := [(a.toNat, 1), (b.toNat, 1)], wv := [(d.toNat, 1)] } fun _ x =>
    let code := if t == 1#1 then 2 else 1
    let lo := finElem code (r.setWidth 4) x.th.dith (x.c a)
    let hi := finElem code (r.setWidth 4) (lo.2.2.getD x.th.dith) (x.c b)
    { v := putWord d (BitVec.ofNat 32 (elemPattern code hi.1 * 2 ^ 16 + elemPattern code lo.1))
      flags := lo.2.1 ||| hi.2.1, dith := hi.2.2 }

/-- R315. Finalises to E4M3 or E5M2 into one byte lane of v[D]. -/
def execFpk8 (s : BitVec 2) (r : BitVec 4) (d : BitVec 6) (a : BitVec 6) (l : BitVec 2) (f : BitVec 4) (st : State) : Res :=
  laneOp st s 6 { rv := [(d.toNat, 1), (a.toNat, 1)], wv := [(d.toNat, 1)], ok := f == 3#4 || f == 4#4 } fun _ x =>
    let e := finElem f.toNat r x.th.dith (x.c a)
    { v := putWord d (setBits (x.w d) (8 * l.toNat) 8 (elemPattern f.toNat e.1)), flags := e.2.1, dith := e.2.2 }

/-- R316. Unpacks one narrow element of v[A] into an exact carrier. -/
def execFunpk (s : BitVec 2) (d : BitVec 6) (a : BitVec 6) (l : BitVec 3) (c : BitVec 3) (st : State) : Res :=
  laneOp st s 6 { rv := [(a.toNat, 1)], wv := [(d.toNat, 1)], ok := decide (l.toNat * unpackBits c.toNat < 32) } fun _ x =>
    { v := [(d.toNat, unpackElem c.toNat ((x.w a).toNat / 2 ^ (l.toNat * unpackBits c.toNat) % 2 ^ unpackBits c.toNat))] }

/-- R317. Finalises the carrier to an integer format. -/
def execFtoi (s : BitVec 2) (r : BitVec 4) (d : BitVec 6) (a : BitVec 6) (f : BitVec 4) (st : State) : Res :=
  laneOp st s 6 { rv := [(a.toNat, 1)], wv := [(d.toNat, 1)], ok := decide (9 ≤ f.toNat ∧ f.toNat < 14) } fun _ x =>
    toInteger d f.toNat r x.th.dith (x.c a)

/-- R318. Converts an integer of the given format to a carrier. -/
def execItof (s : BitVec 2) (d : BitVec 6) (a : BitVec 6) (f : BitVec 4) (st : State) : Res :=
  laneOp st s 6 { rv := [(a.toNat, 1)], wv := [(d.toNat, 1)], ok := decide (9 ≤ f.toNat ∧ f.toNat < 14) } fun _ x =>
    { v := [(d.toNat, carry (Ex.ofInt (integerIn f.toNat (x.w a))))] }

/-- R319. p[P] := the sticky bit of v[A]. -/
def execStkget (s : BitVec 2) (p : BitVec 7) (a : BitVec 6) (st : State) : Res :=
  laneOp st s 4 { rv := [(a.toNat, 1)], wp := [p.toNat] } fun _ x => { p := [(p.toNat, (x.c a).s)] }

/-- R319. Sets the sticky bit of v[D] from p[P]. -/
def execStkset (s : BitVec 2) (p : BitVec 7) (d : BitVec 6) (st : State) : Res :=
  laneOp st s 4 { rv := [(d.toNat, 1)], rp := [p.toNat], wv := [(d.toNat, 1)] } fun _ x =>
    { v := [(d.toNat, { w := x.w d, s := x.p p.toNat })] }

/-- R320. Counter-based mix32 random word. -/
def execRng32 (s : BitVec 2) (d : BitVec 6) (a : BitVec 6) (b : BitVec 6) (st : State) : Res :=
  laneOp st s 6 { rv := [(a.toNat, 1), (b.toNat, 1)], wv := [(d.toNat, 1)] } fun _ x =>
    { v := putWord d (rng32 (x.w a) (x.w b)) }

/-- R320. Uniform carrier in (0, 1). -/
def execRngu (s : BitVec 2) (d : BitVec 6) (a : BitVec 6) (b : BitVec 6) (st : State) : Res :=
  laneOp st s 6 { rv := [(a.toNat, 1), (b.toNat, 1)], wv := [(d.toNat, 1)] } fun _ x =>
    { v := [(d.toNat, rngu (x.w a) (x.w b))] }

/-- R320. Gumbel sample −ln(−ln u). -/
def execRngg (s : BitVec 2) (d : BitVec 6) (a : BitVec 6) (b : BitVec 6) (st : State) : Res :=
  laneOp st s 16 { rv := [(a.toNat, 1), (b.toNat, 1)], wv := [(d.toNat, 1)] } fun _ x =>
    { v := [(d.toNat, gumbel (x.w a) (x.w b))] }

end Sys2Proof.Machine
end

