-- ==== Sys2Proof/Machine/Control.lean ====
section
/-! DEFINITION. The 16-bit escapes, terminators, traps and returns, special registers and HALT (14_isa_control R263 to R267, R277
to R281; 08_group R137, R150 to R153, R158; 04_encoding R82, R86, R87). -/

namespace Sys2Proof.Machine

/-! ### Escapes -/

/-- A word without effect that takes one beat, counting as `n` under R79. -/
def beatOp (st : State) (n : Nat) : Res := opening st .pass {} fun _ _ _ => .next (st.passBy .pass n false)

/-- R267. One beat; no effect. -/
def execNop (st : State) : Res := beatOp st 0

/-- R267. One beat, counting as s = n under R79. -/
def execStall (n : BitVec 4) (st : State) : Res := beatOp st n.toNat

/-- The tokens of a mask (R75). -/
def tokensOf (m : BitVec 3) : List Nat := (List.range 3).filter fun i => m.getLsbD i

/-- R82. WAIT issues when every token in its mask is clear; it raises the late faults of those tokens (R203, R325). -/
def execWait (m : BitVec 3) (st : State) : Res :=
  opening st .pass {} fun g p _ =>
    let toks := tokensOf m
    if toks.any fun t => st.tokenPending st.cur.gid t then .next (st.holdAt .wait)
    else
      let s := st.passBy .pass 0 false
      .next ((s.onGroup st.cur.gid fun g => g.dropLate toks p).takeFaults st.cur.gid st.cur.pid st.cur.at_ (lateOf toks g p))

/-- R267. Ends the pass; its cohort goes, ready, to the bin at the next word (R137). A next word at offset 4096 is no word of the block:
its fault is taken here, with OFFSET 0xFFF, and no thread goes there (R264). -/
def execYield (st : State) : Res :=
  opening st .pass {} fun g p _ =>
    if 4096 ≤ st.cur.next then .next (st.faultAll p 0x01 0 0) else
    let p' := { p.past st.cur .pass st.cycle 0 with
      ended := true, exits := p.cohort.map fun t => (t, .bin p.handler p.blk st.cur.next) }
    .next (st.putGroup st.cur.gid { g with passes := putAt g.passes st.cur.pid p' })

/-- A group stops with a pass as the stopped pass; its other passes are held (R158). -/
def Group.stopAt (g : Group) (pid : Nat) : Group :=
  { g with st := if g.st = .running then .stopped else g.st
           passes := g.passes.map fun (k, p) => (k, { p with run := if k = pid then .stopped else if p.run = .running then .held else p.run }) }

/-- R158. The breakpoint fault, or in debug mode the group stops with this pass as the stopped pass at the next word. A stopped pass that meets
one under DBG.STEPPASS is the stopped pass already and runs on to its end (DESIGN CHOICE, log 86). -/
def execBrk (c : BitVec 11) (st : State) : Res :=
  opening st .pass {} fun g p _ =>
    if (st.ctx g.ctx).debug then .next ((st.passBy .pass 0 false).onGroup st.cur.gid fun g => g.stopAt st.cur.pid)
    else .next (st.faultAll p 0x10 c.toNat 0)

/-- R87. Every cohort thread takes the illegal-instruction fault at the word, once the late faults of R83 are taken. -/
def execIllegalInstruction (st : State) : Res :=
  match st.issuing with
  | none => .refused .noPass
  | some (g, p) =>
    if !mayIssue st g p then .next st
    else if !(lateOf [4] g p).isEmpty then
      .next ((st.putGroup st.cur.gid (g.dropLate [4] p)).takeFaults st.cur.gid st.cur.pid st.cur.at_ (lateOf [4] g p))
    else .next (st.faultAll p 0x01 0 0)

/-! ### Terminators -/

/-- What a terminator does with a thread: where it goes, with the link CALL writes; or the illegal-operand fault of R116. -/
inductive Target where
  | go (e : Exit) (link : Option Nat)
  | bad
  deriving DecidableEq, Repr

/-- A branch to a block id: its entry bin, when the id is valid (R116). -/
def Kernel.branch (k : Kernel) (h : Bool) (t : Nat) (link : Option Nat) : Target :=
  if (k.block t).isSome then .go (.bin h t 0) link else .bad

/-- The end of a pass at its terminator (R137, R265). Threads whose target is invalid fault and join no bin. -/
def terminate (st : State) (n : Needs) (f : Kernel → Pass → View → Target) : Res :=
  opening st .lane n fun g p vs =>
    match st.code g p.handler with
    | none => .next (st.faultAll p 0x02 0 0)
    | some k =>
      let ts := (vs.filter fun a => !a.helper).map fun a => (a, f k p a)
      let p' := { p.past st.cur .lane st.cycle 0 with
        ended := true
        exits := ts.filterMap fun (a, t) => match t with | .go e _ => some (a.tid, e) | .bad => none
        loud := p.loud || ts.any fun (_, t) => match t with | .go .retire _ => true | _ => false
        dueV := p.dueV ++ ts.filterMap fun (a, t) => match t with
          | .go _ (some l) => some { cyc := a.cyc, tid := a.tid, idx := 63, val := Carrier.ofWord (BitVec.ofNat 32 l) }
          | _ => none }
      let s := st.putGroup st.cur.gid { g with passes := putAt g.passes st.cur.pid p' }
      .next (s.takeFaults st.cur.gid st.cur.pid st.cur.at_ (ts.filterMap fun (a, t) => match t with
        | .bad => some { tid := a.tid, code := 0x02, detail := 0, addr := 0 }
        | _ => none))

/-- R265. Each thread goes to the entry bin of block T. -/
def execJmp (_s : BitVec 2) (t : BitVec 12) (st : State) : Res := terminate st {} fun k p _ => k.branch p.handler t.toNat none

/-- R265. Block T when p[P] equals V, else the fall-through block. -/
def execBrc (_s : BitVec 2) (t : BitVec 12) (p : BitVec 7) (v : BitVec 1) (st : State) : Res :=
  terminate st { rp := [p.toNat] } fun k q a =>
    k.branch q.handler (if a.p p.toNat == (v == 1#1) then t.toNat else k.fall q.blk) none

/-- R265. The block id held in v[A]. -/
def execBrx (_s : BitVec 2) (a : BitVec 6) (st : State) : Res :=
  terminate st { rv := [(a.toNat, 1)] } fun k q x => k.branch q.handler (x.w a).toNat none

/-- A kernel whose threads have a slot for v63 (R266). -/
def State.linkOk (s : State) : Bool := match s.issuing with
  | none => true
  | some (g, _) => decide (64 ≤ s.regs g)

/-- R265. v63 := the fall-through block id, and block T. -/
def execCall (_s : BitVec 2) (t : BitVec 12) (st : State) : Res :=
  terminate st { ok := st.linkOk } fun k q _ =>
    if (k.block (k.fall q.blk)).isSome then k.branch q.handler t.toNat (some (k.fall q.blk)) else .bad

/-- R265. Retires when p[P] equals V, else falls through. -/
def execExit (_s : BitVec 2) (p : BitVec 7) (v : BitVec 1) (st : State) : Res :=
  terminate st { rp := [p.toNat] } fun k q a =>
    if a.p p.toNat == (v == 1#1) then .go .retire none else k.branch q.handler (k.fall q.blk) none

/-! ### Traps and returns -/

/-- R277. The user-trap fault in each passing thread, with the code; the resume record points at the TRAP itself, behind its
prefix if it has one. -/
def execTrap (s : BitVec 2) (c : BitVec 11) (st : State) : Res :=
  opening st .lane {} fun _ _ vs =>
    .next ((st.passBy .lane s.toNat true).takeFaults st.cur.gid st.cur.pid (st.cur.next - 2)
      ((participants vs st.cur.guard).map fun a => { tid := a.tid, code := 0x11, detail := c.toNat, addr := 0 }))

/-- Length in halfwords of the word at an offset (R71). -/
def Kernel.lenAt (k : Kernel) (blk off : Nat) : Nat := if isWide (k.bytesAt blk off) then 2 else 1

/-- An IF halfword (R75). -/
def Kernel.ifAt (k : Kernel) (blk off : Nat) : Bool := match k.bytesAt blk off with
  | b :: _ => b.toNat % 32 == 6
  | [] => false

/-- A terminator word (R265). -/
def Kernel.terminatorAt (k : Kernel) (blk off : Nat) : Bool :=
  let b := k.bytesAt blk off
  isWide b && decide (0x71 ≤ opOf b) && decide (opOf b ≤ 0x75)

/-- The last word that a skip passes over: the one at the offset, or the word that an IF there guards (R76, R152). -/
def Kernel.bodyAt (k : Kernel) (blk off : Nat) : Nat := if k.ifAt blk off then off + 1 else off

/-- What TRET does with a thread (R152). -/
inductive Back where
  | go (blk off : Nat)
  | retire
  | bad
  deriving DecidableEq, Repr

/-- One thread's return from the handler. A word at offset 4096 or beyond is no word of the block: the thread takes that fault (R264). -/
def State.returnThread (s : State) (gid pid tid : Nat) (b : Back) : State :=
  match lookup s.groups gid with
  | none => s
  | some g =>
    if g.dead then s else
    match b with
    | .bad => s.endByFault gid tid (g.thread tid).fcode 0x02
    | .retire =>
      let g := g.leave pid tid
      s.putGroup gid ((g.putThread tid { g.thread tid with place := .retired, wait := .ready }).drainIfDone)
    | .go blk off =>
      let g := g.leave pid tid
      let t := { g.thread tid with
        place := .bin false blk off, wait := .ready, woken := false, res := { blk := blk, off := off, cause := 0 } }
      let s := s.putGroup gid (g.putThread tid t)
      if 4096 ≤ off then s.faultThread gid blk 0xFFF { tid := tid, code := 0x01, detail := 0, addr := 0 } else s

def State.returnThreads (s : State) (gid pid : Nat) : List (Nat × Back) → State
  | [] => s
  | (tid, b) :: rest => (s.returnThread gid pid tid b).returnThreads gid pid rest

/-- A thread has a result of the pass still to come (R278). -/
def State.owedIn (s : State) (gid : Nat) (p : Pass) (tid : Nat) : Bool :=
  s.resultOwed gid tid || (p.dueV.any fun d => d.tid == tid && decide (s.cycle < d.cyc))
    || (p.dueX.any fun d => d.tid == tid && decide (s.cycle < d.cyc)) || p.dueP.any fun d => d.tid == tid && decide (s.cycle < d.cyc)

/-- TRET (R152, R278): threads outside a handler take the illegal-instruction fault; the others leave the pass, which waits at the word until
their earlier results are written. -/
def returnOp (st : State) (s : BitVec 2) (f : Kernel → Thread → Back) : Res :=
  opening st .lane {} fun g p vs =>
    let l := participants vs st.cur.guard
    let out := l.filter fun a => a.th.res.cause != 5
    let inn := l.filter fun a => a.th.res.cause == 5
    if inn.any fun a => st.owedIn st.cur.gid p a.tid then .next (st.holdAt .results) else
    let s1 := (st.passBy .lane s.toNat false).returnThreads st.cur.gid st.cur.pid
      (inn.map fun a => (a.tid, match st.kernel g.ctx g.slot g.kern with
        | none => .bad
        | some k => f k a.th))
    .next (s1.takeFaults st.cur.gid st.cur.pid st.cur.at_ (out.map fun a => { tid := a.tid, code := 0x01, detail := 0, addr := 0 }))

/-- R152. Back to the bin of FRES, ready. -/
def execTretResume (s : BitVec 2) (st : State) : Res :=
  returnOp st s fun k t => if (k.block t.res.blk).isSome then .go t.res.blk t.res.off else .bad

/-- R152. Back to the word after the one at OFFSET; a skipped IF also skips its guarded word. -/
def execTretSkip (s : BitVec 2) (st : State) : Res :=
  returnOp st s fun k t =>
    let body := k.bodyAt t.res.blk t.res.off
    if (k.block t.res.blk).isNone || k.terminatorAt t.res.blk t.res.off then .bad
    else .go t.res.blk (body + k.lenAt t.res.blk body)

/-- R152. The thread retires. -/
def execTretRetire (s : BitVec 2) (st : State) : Res := returnOp st s fun _ _ => .retire

/-! ### Special registers -/

/-- The numbers of Table 14-2. -/
def specialListed (n : Nat) : Bool := decide (n ≤ 0x19) || n == 0x800 || n == 0x801

/-- What an SMOV reads (Table 14-2), and the thread with its capture. `t` is the module time of the beat. -/
def smovRead (s : State) (g : Group) (p : Pass) (n : Nat) (a : View) : Carrier × Thread :=
  let time := a.cyc * 5 / 7
  let hor := max a.th.hm a.th.hx
  let word := fun (x : Nat) => (Carrier.ofWord (BitVec.ofNat 32 x), a.th)
  let inHandler := a.th.res.cause == 5
  match n with
  | 0x000 => word a.tid
  | 0x001 => word (a.tid / 4)
  | 0x002 => word (a.tid % 4)
  | 0x003 => word g.grpid
  | 0x004 => word g.nthr
  | 0x005 => word (match s.teamOf g with | none => 0 | some t => t.index)
  | 0x006 => word g.gint
  | 0x007 => word (dieOfCore g.core)
  | 0x008 => word (clusterOfCore g.core % 8)
  | 0x009 => word (g.core % 8)
  | 0x00A => word p.positions.length
  | 0x00B => word a.pos
  | 0x00C => word p.blk
  | 0x00D => (Carrier.ofWord (BitVec.ofNat 32 time), { a.th with mtime := some (BitVec.ofNat 32 (time / 2 ^ 32)) })
  | 0x00E => (Carrier.ofWord (a.th.mtime.getD (BitVec.ofNat 32 (time / 2 ^ 32))), a.th)
  | 0x00F => (Carrier.ofWord (BitVec.ofNat 32 hor), { a.th with horiz := some (BitVec.ofNat 32 (hor / 2 ^ 32)) })
  | 0x010 => (Carrier.ofWord (a.th.horiz.getD (BitVec.ofNat 32 (hor / 2 ^ 32))), a.th)
  | 0x011 => (Carrier.ofWord a.th.dith, a.th)
  | 0x012 => (Carrier.ofWord a.th.fstat, a.th)
  | 0x013 => word g.ctx
  | 0x014 => word g.kern
  | 0x015 => (Carrier.ofWord (if inHandler then a.th.res.word else 0), a.th)
  | 0x016 => word (if inHandler then a.th.fcode + a.th.fdetail * 2 ^ 8 else 0)
  | 0x017 => word (if inHandler then a.th.fad.toNat % 2 ^ 32 else 0)
  | 0x018 => word (if inHandler then a.th.fad.toNat / 2 ^ 32 else 0)
  | 0x019 => (a.v 63, a.th)
  | 0x800 => word (if a.th.gctl.getD g.schk then 1 else 0)
  | _ => word (a.th.bank + (s.cluster (clusterOfCore g.core)).mode a.th.bank * 2 ^ 6 + (if a.th.bankRef then 2 ^ 8 else 0))

/-- A thread of the pass, or a helper's copy, replaced. -/
def Group.putMember (g : Group) (pid tid : Nat) (helper : Bool) (t : Thread) : Group :=
  if helper then match lookup g.passes pid with
    | none => g
    | some p => { g with passes := putAt g.passes pid { p with helpers := putAt p.helpers tid t } }
  else g.putThread tid t

/-- Captures of an SMOV. -/
def Group.putMembers (g : Group) (pid : Nat) : List (View × Thread) → Group
  | [] => g
  | (a, t) :: rest => (if t = a.th then g else g.putMember pid a.tid a.helper t).putMembers pid rest

/-- R279. v[D] := the special register; S = 0 except for LINK. -/
def execSmov (s : BitVec 2) (d : BitVec 6) (n : BitVec 12) (st : State) : Res :=
  let nn := n.toNat
  opening st .lane { wv := [(d.toNat, 1)], rv := [], priv := decide (0x800 ≤ nn), ok := specialListed nn && (nn != 0x19 || st.linkOk) }
    fun g p vs =>
      let act := (vs.filter fun a => a.passes st.cur.guard).map fun a => (a, smovRead st g p nn a)
      let s1 := st.writeBack g p .lane s.toNat 4 (act.map fun (a, r) => (a, ({ v := [(d.toNat, r.1)] } : Put)))
      .next (s1.onGroup st.cur.gid fun g => g.putMembers st.cur.pid (act.map fun x => (x.1, x.2.2)))

/-- What an SSET does in one thread (R279, R153, R39, R40): the thread's new values, or a fault code. -/
inductive Set1 where
  | thread (t : Thread)
  | link (c : Carrier)
  | gctl (b : Bool)
  | bank (b m : Nat)
  | fault (code : Nat)

def ssetWrite (n : Nat) (a : View) (c : Carrier) : Set1 :=
  let inHandler := a.th.res.cause == 5
  match n with
  | 0x011 => .thread { a.th with dith := if c.w = 0#32 then 1#32 else c.w }
  | 0x012 => .thread (a.th.setFlags c.w)
  | 0x015 => if inHandler then .thread { a.th with
      res := { a.th.res with blk := c.w.toNat % 2 ^ 12, off := c.w.toNat / 2 ^ 12 % 2 ^ 12 } } else .fault 0x02
  | 0x016 => .fault (if inHandler then 0x13 else 0x02)
  | 0x017 => .fault (if inHandler then 0x13 else 0x02)
  | 0x018 => .fault (if inHandler then 0x13 else 0x02)
  | 0x019 => .link c
  | 0x800 => .gctl (c.w.getLsbD 0)
  | 0x801 => .bank (c.w.toNat % 64) (c.w.toNat / 64 % 4)
  | _ => .fault 0x13

/-- A bank-mode request is refused (R211), in the mode that the requests before it have left. -/
def bankRefused (s : State) (c : Cluster) (b m : Nat) : Bool :=
  m == 3 || b == 63 || (m == 2 && b != 63)
    || (c.mode b == 1 && m != 1 && (match c.team with
        | none => false
        | some t => match lookup s.teams t with
          | none => false
          | some x => (x.banks.take ((x.scratch + 2 ^ 19 - 1) / 2 ^ 19)).contains b))

/-- One thread's bank-mode request (R210, R211): refused, already so, or waiting to be applied; one that finds an earlier request for its bank
waits for its turn behind it. -/
def State.bankRequest (s : State) (gid tid b m : Nat) : State :=
  match lookup s.groups gid with
  | none => s
  | some g =>
    let cl := clusterOfCore g.core
    let c := s.cluster cl
    let behind := c.changes.any fun (_, _, b', _) => b' == b
    let no := !behind && bankRefused s c b m
    let s := s.putGroup gid (g.putThread tid { g.thread tid with bank := b, bankRef := no })
    if no || (!behind && c.mode b == m) then s
    else { s with clusters := putAt s.clusters cl { c with changes := c.changes ++ [(gid, tid, b, m)] } }

/-- The SSETs of the threads of one word, in ascending TID (R280). -/
def State.ssetAll (s : State) (gid pid : Nat) : List (View × Set1) → State
  | [] => s
  | (a, x) :: rest =>
    (match x with
      | .thread t => s.onGroup gid fun g => g.putMember pid a.tid a.helper t
      | .link c => s.onGroup gid fun g => match lookup g.passes pid with
        | none => g
        | some p => { g with passes := putAt g.passes pid (p.addV [(⟨a.cyc, a.tid, 63, c⟩ : Due Carrier)]) }
      | .gctl b => s.onGroup gid fun g => if a.helper then g.putMember pid a.tid true { a.th with gctl := some b } else { g with schk := b }
      | .bank b m => if a.helper then s.onGroup gid fun g => g.putMember pid a.tid true { a.th with bank := b } else s.bankRequest gid a.tid b m
      | .fault _ => s).ssetAll gid pid rest

/-- Some accepted bank-mode request of the pass's threads is not applied yet (R210). -/
def State.bankWaits (s : State) (g : Group) (p : Pass) : Bool :=
  (s.cluster (clusterOfCore g.core)).changes.any fun (gi, ti, _, _) => gi == s.cur.gid && p.cohort.contains ti

/-- R279. The special register := v[D], before the next word of the pass issues; a BANKCTL request holds the pass until it is
applied or refused (R210). -/
def execSset (s : BitVec 2) (d : BitVec 6) (n : BitVec 12) (st : State) : Res :=
  let nn := n.toNat
  opening st .lane { rv := [(d.toNat, 1)], priv := decide (0x800 ≤ nn), ok := specialListed nn && (nn != 0x19 || st.linkOk) }
    fun g p vs =>
      if nn = 0x801 ∧ p.hold = .bank then (if st.bankWaits g p then .next st else .next (st.passBy .lane s.toNat false))
      else
        let act := (vs.filter fun a => a.passes st.cur.guard).map fun a => (a, ssetWrite nn a (a.c d))
        let s1 := st.ssetAll st.cur.gid st.cur.pid act
        let s2 := if nn = 0x801 ∧ s1.bankWaits g p then s1.holdAt .bank else s1.passBy .lane s.toNat false
        .next (s2.takeFaults st.cur.gid st.cur.pid st.cur.at_ (act.filterMap fun (a, x) => match x with
          | .fault code => if a.helper then none else some ({ tid := a.tid, code := code, detail := 0, addr := 0 } : Flt)
          | _ => none))

/-- R281. The effect of a PREEMPT of the context; a halt already in progress is not changed. -/
def execHalt (s : BitVec 2) (st : State) : Res :=
  opening st .pass { priv := true } fun g _ vs =>
    let s1 := st.passBy .pass s.toNat false
    if (participants vs st.cur.guard).isEmpty then .next s1
    else match (st.ctx g.ctx).halt with
      | some _ => .next s1
      | none => .next (s1.beginHalt g.ctx fun h => { h with byHalt := true })

end Sys2Proof.Machine
end

