-- ==== Sys2Proof/Machine/Barriers.lean ====
section
/-! DEFINITION. Transaction barriers, group barriers, engine counters, pennants and extended registers (09_barrier R160 to R170,
R173 to R176; 14_isa_control R268 to R271, R276; 08_group R148, R149). -/

namespace Sys2Proof.Machine

/-! ### The transaction barrier -/

/-- A barrier of a group (R161). -/
def Group.bar (g : Group) (b : Nat) : Barrier := readAt Barrier.zero g.bars b

def Group.putBar (g : Group) (b : Nat) (x : Barrier) : Group := { g with bars := writeAt Barrier.zero g.bars b x }

/-- The fault of an instruction that acts on a barrier: one that the group does not have, or an uninitialised one (R160, R162). It is the
instruction's own, behind the checks of R87. -/
def Group.barFault (g : Group) (b : Nat) : Option Nat :=
  if g.nbars ≤ b then some 0x02 else if (g.bar b).expect = 0 then some 0x09 else none

/-- Threads of a word fault at it with a code. -/
def State.faultEach (s : State) (l : List Nat) (code : Nat) : State :=
  s.takeFaults s.cur.gid s.cur.pid s.cur.at_ (l.map fun t => { tid := t, code := code, detail := 0, addr := 0 })

/-- A record released from a barrier moves to the tail of its deque, carrying the barrier's error bit (R128, R168). -/
def Team.release (t : Team) (err : Bool) (r : Nat) : Team :=
  match lookup t.recs r with
  | none => t
  | some x =>
    { t with
      recs := putAt t.recs r { x with parked := none, err := err }
      deques := t.deques.map fun (d, l) => (d, if l.contains r then l.filter (· != r) ++ [r] else l) }

/-- Held MDEP arrivals applied as far as the phase takes them (R164). -/
def Barrier.applyHeld (b : Barrier) : Barrier :=
  let k := min b.heldArr b.arrive.toNat
  { b with arrive := b.arrive - BitVec.ofNat 16 k, heldArr := b.heldArr - k }

/-- The counts of a phase are both zero (R165). -/
def Barrier.full (b : Barrier) : Bool := b.expect != 0 && b.arrive == 0 && b.sectors == 0

/-- One completion of a phase: PHASE, ARRIVE, held arrivals, parked records, blocked threads (R165). -/
def State.completePhase (s : State) (gid b : Nat) : State :=
  match lookup s.groups gid with
  | none => s
  | some g =>
    let x := g.bar b
    let s := { s with teams := s.teams.map fun (k, t) => (k, if k = g.team then x.chain.foldl (fun t r => t.release x.err r) t else t) }
    let x' := ({ x with phase := x.phase + 1, arrive := x.expect, chain := [] } : Barrier).applyHeld
    s.putGroup gid (((g.putBar b x').wakeAll (.barrier b)).wakeAll (.arrival b))

/-- Completions as long as the counts are zero; each uses up a held arrival, which bounds them (R165). -/
def State.completeFrom : Nat → State → Nat → Nat → State
  | 0, s, _, _ => s
  | n + 1, s, gid, b =>
    match lookup s.groups gid with
    | none => s
    | some g => if (g.bar b).full then completeFrom n (s.completePhase gid b) gid b else s

/-- The test for completion after an event at a barrier. -/
def State.barrierCheck (s : State) (gid b : Nat) : State :=
  match lookup s.groups gid with
  | none => s
  | some g => State.completeFrom ((g.bar b).heldArr + 1) s gid b

/-- `n` arrivals, at most as many as are missing (R163). -/
def State.arriveAt (s : State) (gid b n : Nat) : State :=
  (s.onGroup gid fun g => g.putBar b { g.bar b with arrive := (g.bar b).arrive - BitVec.ofNat 16 n }).barrierCheck gid b

/-- A Sector event, or a Failure event when `err` (R163). -/
def State.sectorAt (s : State) (gid b : Nat) (err : Bool) : State :=
  (s.onGroup gid fun g => g.putBar b { g.bar b with
    sectors := (g.bar b).sectors - 1, err := (g.bar b).err || err }).barrierCheck gid b

/-- The arrival of a retired MDEP command: held when the phase has no arrival missing (R164). -/
def State.mdepArrive (s : State) (gid b : Nat) : State :=
  match lookup s.groups gid with
  | none => s
  | some g =>
    let x := g.bar b
    if x.expect = 0 then s
    else if x.arrive = 0 then s.putGroup gid (g.putBar b { x with heldArr := x.heldArr + 1 })
    else s.arriveAt gid b 1

/-- A BINIT is refused (R162). -/
def binitBad (g : Group) (b n : Nat) : Bool :=
  let x := g.bar b
  n == 0 || (x.expect != 0 && (x.arrive != x.expect || x.sectors != 0 || !x.chain.isEmpty))
    || g.threads.any fun (_, t) => t.wait == .barrier b || t.wait == .arrival b

/-- R162. EXPECT and ARRIVE from bits 15:0 of g[GS], SECTORS and ERR cleared. -/
def execBinit (s : BitVec 2) (b : BitVec 6) (u : BitVec 4) (st : State) : Res :=
  opening st .pass { rg := [u.toNat] } fun g p vs =>
    if (participants vs st.cur.guard).isEmpty then .next (st.passBy .pass s.toNat false)
    else
      let n := (st.gNow g u.toNat).toNat % 2 ^ 16
      if g.nbars ≤ b.toNat then .next (st.faultAll p 0x02 0 0)
      else if binitBad g b.toNat n then .next (st.faultAll p 0x09 0 0)
      else .next ((st.passBy .pass s.toNat false).onGroup st.cur.gid fun g => g.putBar b.toNat
        { g.bar b.toNat with expect := BitVec.ofNat 16 n, arrive := BitVec.ofNat 16 n, sectors := 0, err := false })

/-- Threads of the word block at it with cause 2. -/
def State.blockAll (s : State) (w : Wait) (l : List Nat) : State :=
  s.onGroup s.cur.gid fun g => l.foldl (fun g t => g.block s.cur.pid t s.cur.at_ 2 w) g

/-- R163, R164, R166. Each passing thread arrives, once its earlier stores are ordered as a FENCE at group scope orders them; the
threads beyond the missing arrivals block and run the word again after the next completion. -/
def execBarv (s : BitVec 2) (b : BitVec 6) (st : State) : Res :=
  opening st .lane {} fun g _ vs =>
    let l := (participants vs st.cur.guard).map (·.tid)
    if l.isEmpty then .next (st.passBy .lane s.toNat false)
    else match g.barFault b.toNat with
      | some c => .next ((st.passBy .lane s.toNat true).faultEach l c)
      | none =>
        if !(l.all fun t => st.fenceMet st.cur.gid t g 0) then .next (st.holdAt .access)
        else
          let n := min l.length (g.bar b.toNat).arrive.toNat
          let s1 := (st.passBy .lane s.toNat true).blockAll (.arrival b.toNat) (l.drop n)
          .next (if n = 0 then s1 else s1.arriveAt st.cur.gid b.toNat n)

/-- A per-pass arrival (R163, R164); with `expect` also the expectation of g[GS] sectors. -/
def barvOp (st : State) (s : BitVec 2) (b : BitVec 6) (u : Option (BitVec 4)) : Res :=
  opening st .pass { rg := u.toList.map (·.toNat) } fun g p vs =>
    if (participants vs st.cur.guard).isEmpty then .next (st.passBy .pass s.toNat false)
    else match g.barFault b.toNat with
      | some c => .next (st.faultAll p c 0 0)
      | none =>
        if (g.bar b.toNat).arrive = 0 then .next ((st.passBy .pass s.toNat true).blockAll (.arrival b.toNat) p.cohort)
        else
          let add := match u with
            | none => 0#32
            | some r => (st.gNow g r.toNat).setWidth 32
          .next (((st.passBy .pass s.toNat true).onGroup st.cur.gid fun g => g.putBar b.toNat
            { g.bar b.toNat with sectors := (g.bar b.toNat).sectors + add }).arriveAt st.cur.gid b.toNat 1)

/-- R163. One arrival per pass. -/
def execBarvPass (s : BitVec 2) (b : BitVec 6) (st : State) : Res := barvOp st s b none

/-- R163. One arrival and the expectation of g[GS] sectors. -/
def execBarvExpect (s : BitVec 2) (b : BitVec 6) (u : BitVec 4) (st : State) : Res := barvOp st s b (some u)

/-- A view's wait that has ended is used up by the word that runs again. -/
def Group.clearWoken (g : Group) (l : List Nat) : Group := l.foldl (fun g t => g.putThread t { g.thread t with woken := false }) g

/-- R167, R269. Threads whose phase differs, or that a completion released, write PHASE and ERR; the others block. A helper waits for
nothing: its pass copy takes PHASE and ERR as they are (DESIGN CHOICE, log 85). -/
def execBwait (s : BitVec 2) (d b : BitVec 6) (st : State) : Res :=
  opening st .lane { rv := [(d.toNat, 1)], wv := [(d.toNat, 1)] } fun g p vs =>
    let x := g.bar b.toNat
    let act := vs.filter fun a => a.passes st.cur.guard
    let coh := act.filter fun a => !a.helper
    match g.barFault b.toNat with
    | some c => .next ((st.passBy .lane s.toNat (!coh.isEmpty)).faultEach (coh.map (·.tid)) c)
    | none =>
      let goes := fun (a : View) => a.helper || a.th.woken || (x.phase.toNat != (a.w d).toNat % 16)
      let val := Carrier.ofWord (BitVec.ofNat 32 (x.phase.toNat + if x.err then 16 else 0))
      let s1 := st.writeBack g p .lane s.toNat 0 ((act.filter goes).map fun a => (a, { v := [(d.toNat, val)] }))
      .next ((s1.onGroup st.cur.gid fun g => g.clearWoken (coh.map (·.tid))).blockAll (.barrier b.toNat)
        ((coh.filter fun a => !goes a).map (·.tid)))

/-- R167. p[P] := the phase differs from the awaited one. -/
def execBtest (s : BitVec 2) (p : BitVec 7) (a b : BitVec 6) (st : State) : Res :=
  opening st .lane { rv := [(a.toNat, 1)], wp := [p.toNat] } fun g q vs =>
    let x := g.bar b.toNat
    let act := vs.filter fun v => v.passes st.cur.guard
    let coh := act.filter fun v => !v.helper
    match g.barFault b.toNat with
    | some c => .next ((st.passBy .lane s.toNat (!coh.isEmpty)).faultEach (coh.map (·.tid)) c)
    | none => .next (st.writeBack g q .lane s.toNat 4 (act.map fun v => (v, { p := [(p.toNat, x.phase.toNat != (v.w a).toNat % 16)] })))

/-! ### The group barrier -/

/-- One thread's arrival at the group barrier (R148, R170): the group, and the fault of a mismatch. `own` is its count. -/
def Group.bargArrive (g : Group) (pid tid off : Nat) (all : Bool) (own : Nat) : Group × Option Flt :=
  let bad : Flt := { tid := tid, code := 0x0D, detail := 0, addr := 0 }
  if !all && (own == 0 || decide (g.nthr < own)) then (g, some bad)
  else
    let (need, matches_) := match g.gbar.count with
      | none => (own, true)
      | some (c, firstAll) => (c, (all && firstAll) || own == c)
    if !matches_ then (g, some bad)
    else
      let first := match g.gbar.count with
        | none => (own, all)
        | some c => c
      let g := g.block pid tid off 2 .groupBarrier
      if g.gbar.arrived + 1 = need then ({ g with gbar := { count := none, arrived := 0 } }.wakeAll .groupBarrier, none)
      else ({ g with gbar := { count := some first, arrived := g.gbar.arrived + 1 } }, none)

/-- The arrivals of the threads of one word in ascending TID, each with its own count. -/
def State.bargAll (s : State) (gid pid off : Nat) (all : Bool) : List (Nat × Nat) → State
  | [] => s
  | (t, own) :: rest =>
    match lookup s.groups gid with
    | none => s
    | some g => match g.bargArrive pid t off all (if all then g.live else own) with
      | (g', none) => (s.putGroup gid g').bargAll gid pid off all rest
      | (_, some f) => (s.takeFault gid pid off f).bargAll gid pid off all rest

/-- The count that a thread's BARG carries: bits 15:0 of g[D], read in its beat (R80, R170). -/
def View.bargCount (a : View) (d : Option (BitVec 6)) : Nat := match d with
  | none => 0
  | some r => (a.g r.toNat).toNat % 2 ^ 16

/-- BARG (R170): a released thread goes on; the others arrive and block. -/
def bargOp (st : State) (s : BitVec 2) (d : Option (BitVec 6)) : Res :=
  opening st .lane { rg := d.toList.map (·.toNat) } fun g _ vs =>
    let l := participants vs st.cur.guard
    let fresh := l.filter fun a => !a.th.woken
    if !(fresh.all fun a => st.fenceMet st.cur.gid a.tid g 0) then .next (st.holdAt .access)
    else
      let s1 := (st.passBy .lane s.toNat (!fresh.isEmpty)).onGroup st.cur.gid fun g => g.clearWoken (l.map (·.tid))
      .next (s1.bargAll st.cur.gid st.cur.pid st.cur.at_ d.isNone (fresh.map fun a => (a.tid, a.bargCount d)))

/-- R170. Arrival counting all live threads. -/
def execBarg (s : BitVec 2) (st : State) : Res := bargOp st s none

/-- R170. Arrival with the count from bits 15:0 of g[D]. -/
def execBargCount (s : BitVec 2) (d : BitVec 6) (st : State) : Res := bargOp st s (some d)

/-! ### Engine counters -/

/-- An engine counter of a group (R173). -/
def Group.counter (g : Group) (cls : Nat) : Nat := readAt 0 g.count cls

def Group.setCounter (g : Group) (cls n : Nat) : Group := { g with count := writeAt 0 g.count cls n }

/-- R270, R174. The pass waits until the counter is at most n. -/
def execWaite (s : BitVec 2) (c : BitVec 2) (i : BitVec 8) (st : State) : Res :=
  opening st .pass {} fun g _ vs =>
    if (participants vs st.cur.guard).isEmpty || decide (g.counter c.toNat ≤ i.toNat) then .next (st.passBy .pass s.toNat false)
    else .next (st.holdAt .waite)

/-! ### Pennants -/

/-- A change at a pennant's home in a beat's cycle, on its way to the eight copies (R175, R176). -/
def Team.pennant (t : Team) (gid tid cyc f : Nat) (x : Quad) : Team :=
  { t with home := writeAt 0 t.home f x
           moving := t.moving ++ (List.range 8).map fun c => { core := c, pen := f, val := x, gid := gid, tid := tid, at_ := cyc } }

/-- The changes of one word, in ascending TID (R175). -/
def State.pennants (s : State) (gid team : Nat) (f : Nat) (op : Quad → Quad → Quad) : List (View × Quad) → State
  | [] => s
  | (v, x) :: rest =>
    (match lookup s.teams team with
      | none => s
      | some t => { s with teams := putAt s.teams team (t.pennant gid v.tid v.cyc f (op (readAt 0 t.home f) x)) }).pennants gid team f op rest

/-- PNSET, PNMIN, PNMAX (R175, R271): each passing thread changes the pennant with its pair. -/
def pennantOp (st : State) (s : BitVec 2) (a : BitVec 6) (f : BitVec 4) (op : Quad → Quad → Quad) : Res :=
  opening st .lane { rv := [(a.toNat, 2)] } fun g _ vs =>
    let l := participants vs st.cur.guard
    .next ((st.passBy .lane s.toNat (!l.isEmpty)).pennants st.cur.gid g.team f.toNat op (l.map fun x => (x, x.pair a)))

/-- R175. f := operand. -/
def execPnset (s : BitVec 2) (a : BitVec 6) (f : BitVec 4) (st : State) : Res := pennantOp st s a f fun _ x => x

/-- R175. f := min(f, operand) as i64. -/
def execPnmin (s : BitVec 2) (a : BitVec 6) (f : BitVec 4) (st : State) : Res :=
  pennantOp st s a f fun old x => if x.toInt < old.toInt then x else old

/-- R175. f := max(f, operand) as i64. -/
def execPnmax (s : BitVec 2) (a : BitVec 6) (f : BitVec 4) (st : State) : Res :=
  pennantOp st s a f fun old x => if old.toInt < x.toInt then x else old

/-- A core's copy of a pennant as a beat's cycle finds it: with every change that has had its 40 cycles (R175, R176). -/
def Team.copyAt (t : Team) (core f cyc : Nat) : Quad :=
  t.moving.foldl (fun x c => if c.core = core ∧ c.pen = f ∧ !c.moves cyc then c.val else x) (readAt 0 t.copies (core * 16 + f))

def State.pennantCopy (s : State) (f cyc : Nat) : Quad := match s.issuing with
  | none => 0
  | some (g, _) => match s.teamOf g with
    | none => 0
    | some t => t.copyAt (g.core % 8) f cyc

/-- R175. v[D], v[D+1] := the core's copy, L = 4. -/
def execPnrd (s : BitVec 2) (d : BitVec 6) (f : BitVec 4) (st : State) : Res :=
  laneOp st s 4 { wv := [(d.toNat, 2)] } fun _ a => { v := putPair d (st.pennantCopy f.toNat a.cyc) }

/-! ### Extended registers -/

/-- The group's threads have fresh extended registers: zero with S = 0 (R149). -/
def Group.clearX (g : Group) : Group :=
  { g with threads := g.threads.map fun (k, t) => (k, { t with x := [] })
           passes := g.passes.map fun (k, p) => (k, { p with dueX := [], helpers := p.helpers.map fun (i, t) => (i, { t with x := [] }) }) }

/-- R149, R276. A request for NTHR sets: taken when that many are free and no request waits before it, else the cohort blocks. -/
def execAcqx (s : BitVec 2) (st : State) : Res :=
  opening st .pass { ext := true } fun g p vs =>
    let cl := clusterOfCore g.core
    let c := st.cluster cl
    if (participants vs st.cur.guard).isEmpty then .next (st.passBy .pass s.toNat false)
    else if p.cohort.any fun t => (g.thread t).woken then
      .next ((st.passBy .pass s.toNat false).onGroup st.cur.gid fun g => g.clearWoken p.cohort)
    else if g.grant then .next (st.faultAll p 0x0E 0 0)
    else if c.xqueue.isEmpty ∧ g.nthr ≤ c.xfree then
      let s1 := (st.passBy .pass s.toNat false).onGroup st.cur.gid fun g => { g.clearX with grant := true }
      .next { s1 with clusters := putAt s1.clusters cl { c with xfree := c.xfree - g.nthr } }
    else
      let s1 := (st.passBy .pass s.toNat true).blockAll .acqx p.cohort
      .next { s1 with clusters := putAt s1.clusters cl { c with
        xqueue := if c.xqueue.any fun (i, _) => i == st.cur.gid then c.xqueue else c.xqueue ++ [(st.cur.gid, g.nthr)] } }

/-- The group's grant ended: its sets return to the pool and its values are gone (R149). -/
def State.dropGrant (s : State) (gid : Nat) : State :=
  match lookup s.groups gid with
  | none => s
  | some g =>
    if !g.grant then s
    else
      let cl := clusterOfCore g.core
      let c := s.cluster cl
      { s.putGroup gid { g.clearX with grant := false } with
        clusters := putAt s.clusters cl { c with xfree := c.xfree + g.nthr } }

/-- R149, R276. Returns the grant. -/
def execRelx (s : BitVec 2) (st : State) : Res :=
  opening st .pass {} fun g p vs =>
    if (participants vs st.cur.guard).isEmpty then .next (st.passBy .pass s.toNat false)
    else if !g.grant then .next (st.faultAll p 0x0E 0 0)
    else .next ((st.passBy .pass s.toNat false).dropGrant st.cur.gid)

/-- R149. The first waiting request is granted whole when enough sets are free. -/
def execXregGrant (cluster : Nat) (st : State) : Res :=
  let c := st.cluster cluster
  match c.xqueue with
  | [] => .next st
  | (gid, n) :: rest =>
    if c.xfree < n then .next st
    else
      let s1 := { st with clusters := putAt st.clusters cluster { c with xfree := c.xfree - n, xqueue := rest } }
      .next (s1.onGroup gid fun g => { (g.clearX.wakeAll .acqx) with grant := true })

/-- R176. The oldest change on its way to a core's copy reaches it. -/
def execPennantCopyUpdate (team core : Nat) (st : State) : Res :=
  match lookup st.teams team with
  | none => .next st
  | some t => match t.moving.find? fun c => c.core == core % 8 with
    | none => .next st
    | some m => .next { st with teams := putAt st.teams team { t with
        copies := writeAt 0 t.copies (core % 8 * 16 + m.pen) m.val
        moving := t.moving.erase m } }

end Sys2Proof.Machine
end

