-- ==== Sys2Proof/Machine/Weir.lean ====
section
/-! DEFINITION. The weir: starting and ending passes, the fantail, barrier deadlock (08_group R134 to R148), and the end of groups
and teams (07_kernel R122, R128). -/

namespace Sys2Proof.Machine

/-! ### Bins -/

/-- A thread ready in a bin (R134). -/
def Thread.readyIn (t : Thread) (h : Bool) (k : BinKey) : Bool := t.place == .bin h k.1 k.2 && t.wait == .ready

/-- The keys of the bins of the kernel or of the handler. -/
def Group.binKeys (g : Group) (h : Bool) : List BinKey :=
  (g.threads.filterMap fun (_, t) => match t.place with
    | .bin h' b o => if h' = h then some (b, o) else none
    | _ => none).eraseDups

def keyLt (a b : BinKey) : Bool := decide (a.1 < b.1) || (a.1 == b.1 && decide (a.2 < b.2))

/-- The smallest key of a list. -/
def leastKey : List BinKey → Option BinKey
  | [] => none
  | k :: rest => match leastKey rest with
    | none => some k
    | some m => some (if keyLt k m then k else m)

/-- The ready threads of a bin, in ascending TID. -/
def Group.readyThreads (g : Group) (h : Bool) (k : BinKey) : List Nat := (g.threads.filter fun (_, t) => t.readyIn h k).map (·.1)

/-- A thread in a handler that is not blocked there, with a resume key below a bin's (R136). -/
def heldBack (g : Group) (k : BinKey) : Bool :=
  g.threads.any fun (_, t) => t.res.cause == 5 && t.place != .retired && t.wait == .ready && keyLt (t.res.blk, t.res.off) k

/-- A bin of the group's own kernel that R136 lets start, apart from a sweep's exclusion. -/
def Group.selectable (g : Group) (k : BinKey) : Bool :=
  !(g.readyThreads false k).isEmpty
    && !(g.passes.any fun (_, p) => !p.handler && decide (p.blk ≤ k.1))
    && !heldBack g k

/-- A handler bin that R136 lets start. -/
def Group.selectableH (g : Group) (k : BinKey) : Bool :=
  !(g.readyThreads true k).isEmpty && !(g.passes.any fun (_, p) => p.handler && p.blk == k.1 && p.start == k.2)

/-- The header of a block: its BLK word read as R263 lays it out. -/
def Kernel.header (k : Kernel) (blk : Nat) : Option (List Nat) :=
  let b := k.bytesAt blk 0
  if b.length < 4 then none else unpackSegs blkSegs (natOfBytes b)

/-- N of a block (R145). -/
def Kernel.noDemote (k : Kernel) (blk : Nat) : Bool := match k.header blk with
  | some [_, _, _, _, n] => n == 1
  | _ => false

/-- A selection: handler or kernel, the bin, and the fantail afterwards (R136, R146). A sweep does not end for want of an unvisited bin
while a pass of the kernel is in progress, which may hold back a bin that the sweep has yet to run: so a third bin runs within the same
sweep, as R147 and the worked fantail say (DEDUCED, notes/assumptions/61.md). -/
def State.select (s : State) (g : Group) : Option (Bool × BinKey × Fantail) :=
  match leastKey ((g.binKeys true).filter g.selectableH) with
  | some k => some (true, k, g.fan)
  | none =>
    let all := (g.binKeys false).filter g.selectable
    match g.fan.sweep with
    | none => (leastKey all).map fun k => (false, k, g.fan)
    | some seen =>
      match leastKey (all.filter fun k => !seen.contains k) with
      | some k =>
        let free := match s.code g false with
          | none => false
          | some c => c.noDemote k.1
        some (false, k, { g.fan with sweep := some (if free then seen else k :: seen) })
      | none =>
        if g.passes.any fun (_, p) => !p.handler then none
        else (leastKey all).map fun k => (false, k, { idle := 0, seen := [], sweep := none })

/-- What a thread holds at a cycle: in a pass in progress, its registers with the results that are readable by then. -/
def Group.held (g : Group) (c tid : Nat) : Thread :=
  let t := g.thread tid
  match t.place with
  | .pass pid => match lookup g.passes pid with
    | none => t
    | some p => p.heldAt c tid t
  | _ => t

/-- The helpers of a pass of a quad block: the missing members below NTHR of every quad of the cohort, with what their threads hold as
the pass starts (R141). -/
def Group.helpersOf (g : Group) (c : Nat) (cohort : List Nat) : Table Thread :=
  (((cohort.map (· / 4)).eraseDups.flatMap fun q => (List.range 4).map (4 * q + ·)).filter fun t =>
    decide (t < g.nthr) && !cohort.contains t).foldr (fun t l => putAt l t (g.held c t)) []

/-- A pass of a bin's ready threads begins (R72, R136, R142, R263). Its BLK word gives the staged count and the attributes; a
staged count above REGS, or a header that is no BLK, faults in every cohort thread at (block, 0), also of a pass that starts behind the
BLK (DEDUCED, log 71). -/
def State.startPass (s : State) (gid : Nat) (g : Group) (h : Bool) (k : BinKey) (fan : Fantail) : State :=
  let cohort := g.readyThreads h k
  let pid := s.stamp
  let head := match s.code g h with
    | none => none
    | some c => c.header k.1
  let base : Pass := { handler := h, blk := k.1, start := k.2, off := if k.2 = 0 then 2 else k.2, staged := 0, quad := false, ext := false,
                       noDemote := false, cohort := cohort, helpers := [], dueV := [], covered := [], dueX := [], dueP := [], next := s.cycle,
                       hold := .none, exits := [], ended := false, loud := false,
                       run := if g.st = .stopped then .stopped else .running }
  let p := match head with
    | some [_, live, q, x, n] =>
      { base with staged := 2 * live, quad := q == 1, ext := x == 1, noDemote := n == 1,
                  helpers := if q = 1 then g.helpersOf s.cycle cohort else [] }
    | _ => base
  let g' := { g with
    threads := g.threads.map fun (i, t) => (i, if cohort.contains i then { t with place := .pass pid, owed := [] } else t)
    passes := putAt g.passes pid p
    fan := fan
    stepBin := none
    stepNew := false
    stepOne := g.stepOne || g.stepNew }
  let s1 := { (s.putGroup gid g') with stamp := s.stamp + 1 }
  let faults := fun (code : Nat) => s1.takeFaults gid pid 0 (cohort.map fun t => { tid := t, code := code, detail := 0, addr := 0 })
  match head with
  | some [_, live, _, _, _] => if s.regs g < 2 * live then faults 0x02 else s1
  | _ => faults 0x01

/-- A pass starts with no result of its threads outstanding (R86): a bin is selected by readiness alone, and its start waits for them
(DEDUCED, log 79). -/
def State.startsClean (s : State) (gid : Nat) (g : Group) (h : Bool) (k : BinKey) : Bool :=
  !(g.readyThreads h k).any (s.resultOwed gid)

/-- R136. The weir starts a pass of the bin it selects, once no result of its threads is outstanding (R86); in a stopped group only under a
debug command, and of the bin that DBG.STEPBIN named (R159). A sweep that is due begins first (R146). -/
def execPassStart (gid : Nat) (st : State) : Res :=
  match lookup st.groups gid with
  | none => .next st
  | some g =>
    if !(g.st == .running || (g.st == .stopped && g.stepNew)) || decide (4 ≤ g.passes.length)
        || (g.fan.sweep.isNone && decide (16 ≤ g.fan.idle)) then .next st
    else match g.stepBin with
      | some k =>
        if (g.readyThreads false k).isEmpty || !st.startsClean gid g false k then .next st else .next (st.startPass gid g false k g.fan)
      | none => match st.select g with
        | none => .next st
        | some (h, k, fan) => if st.startsClean gid g h k then .next (st.startPass gid g h k fan) else .next st

/-- R146. At 16 idle passes a sweep begins with U as its visited set. -/
def execFantailSweep (gid : Nat) (st : State) : Res :=
  match lookup st.groups gid with
  | none => .next st
  | some g =>
    if g.fan.sweep.isNone ∧ 16 ≤ g.fan.idle then .next (st.putGroup gid { g with fan := { g.fan with sweep := some g.fan.seen } })
    else .next st

/-! ### The end of a pass -/

/-- Every result of the pass, its g results among them, is written and no token of the group is pending, also between the beats of an LDFE,
but for those of blocked LDFEs, around which a pass ends (R82, R86, R328). -/
def State.settled (s : State) (gid pid : Nat) (p : Pass) : Bool :=
  !(s.accesses.any fun (_, a) => a.gid == gid && ((a.pid == pid && a.fill.isSome) || decide (a.tok < 3)))
    && !(s.results.any fun (_, r) => r.gid == gid && (r.pid == pid || decide (r.tok < 3)))
    && decide (max (lastDue p.dueV) (max (lastDue p.dueX) (lastDue p.dueP)) ≤ s.cycle)
    && (match lookup s.groups gid with
      | none => true
      | some g => (g.dueG.all fun d => d.tid != pid || decide (d.cyc ≤ s.cycle)) && g.passes.all fun (_, q) => q.beatTok.isNone)

/-- The pass is idle (R145). -/
def Pass.idle (p : Pass) : Bool :=
  !p.loud && !p.cohort.isEmpty && p.cohort.all fun t => match lookup p.exits t with
    | some (.bin _ b _) => decide (b ≤ p.blk)
    | _ => false

/-- The fantail after a pass (R145, R146). A sweep has begun once 16 passes are counted: nothing is counted and no bin joins its visited set
from then on. -/
def Fantail.after (f : Fantail) (p : Pass) : Fantail :=
  if p.noDemote || p.handler then f
  else if p.loud then { idle := 0, seen := [], sweep := none }
  else match f.sweep with
    | some _ => f
    | none => if p.idle && decide (f.idle < 16) then { f with idle := f.idle + 1, seen := if f.seen.contains (p.blk, p.start) then f.seen else (p.blk, p.start) :: f.seen } else f

/-- The threads of an ended pass in their target bins, or retired (R137). -/
def Group.disperse (g : Group) (p : Pass) : List (Nat × Exit) → Group
  | [] => g
  | (tid, e) :: rest =>
    let t := p.commit tid (g.thread tid)
    (g.putThread tid (match e with
      | .retire => { t with place := .retired, wait := .ready, res := { t.res with cause := if t.res.cause = 5 then 5 else 0 } }
      | .bin h b o => t.goto h b o)).disperse p rest

/-- R137. The pass ends: at its terminator or a YIELD once its results are written, or when no thread is left in it. -/
def execPassEnd (gid pid : Nat) (st : State) : Res :=
  match lookup st.groups gid with
  | none => .next st
  | some g => match lookup g.passes pid with
    | none => .next st
    | some p =>
      if !(p.ended || p.cohort.isEmpty) || !st.settled gid pid p then .next st
      else
        let g := g.disperse p (p.exits.filter fun (t, _) => p.cohort.contains t)
        .next (st.putGroup gid { g.drainIfDone with
          passes := drop g.passes pid, fan := g.fan.after p
          stepOne := g.stepOne && p.run != .stopped, stepAll := g.stepAll && p.run != .stopped })

/-! ### Deadlock -/

/-- A wait that only the group itself could end (R148). -/
def Wait.own : Wait → Bool
  | .barrier _ => true
  | .arrival _ => true
  | .groupBarrier => true
  | _ => false

/-- The condition of R148; of a group that runs: a stopped group raises it once it runs again (DEDUCED, log 72). -/
def Group.deadlocked (g : Group) : Bool :=
  g.st == .running && g.passes.isEmpty && (List.range 4).all (fun c => g.counter c == 0) && decide (0 < g.live)
    && g.threads.all fun (_, t) => t.place == .retired || t.wait.own

/-- The faults of blocked threads at their waiting words. -/
def State.faultBlocked (s : State) (gid : Nat) (code : Nat) (addr : Quad) : List (Nat × Thread) → State
  | [] => s
  | (tid, t) :: rest =>
    (match t.place with
      | .bin _ b o => s.faultThread gid b o { tid := tid, code := code, detail := 0, addr := addr }
      | _ => s).faultBlocked gid code addr rest

/-- R148. Every blocked thread takes the barrier-deadlock fault at its waiting word, and a phase of the group barrier that can no longer
fill ends with no count (R170). -/
def execBarrierDeadlock (gid : Nat) (st : State) : Res :=
  match lookup st.groups gid with
  | none => .next st
  | some g =>
    if g.deadlocked then
      .next ((st.putGroup gid { g with gbar := { count := none, arrived := 0 } }).faultBlocked gid 0x0C 0
        (g.threads.filter fun (_, t) => t.place != .retired))
    else .next st

/-! ### The end of groups and teams -/

/-- A command of a ring reaches its end with a status and a result (R104, R105). -/
def State.finishCmd (s : State) (ring seq status result : Nat) : State :=
  let r := s.ring ring
  match lookup r.cmds seq with
  | none => s
  | some c => s.putRing ring { r with cmds := putAt r.cmds seq { c with st := .done, status := status, result := result } }

/-- The horizon that a command's completion record waits for (R104). -/
def State.cmdHorizon (s : State) (ring seq h : Nat) : State :=
  let r := s.ring ring
  match lookup r.cmds seq with
  | none => s
  | some c => s.putRing ring { r with cmds := putAt r.cmds seq { c with horizon := max c.horizon h } }

/-- A LAUNCH whose last team has ended completes (R122); one that a GRAPH.REPLAY issued counts for the replay (R112). -/
def State.launchEnds (s : State) (lid : Nat) : State :=
  match lookup s.launches lid with
  | none => s
  | some l =>
    if l.next = l.teams ∧ l.live = 0 then
      let s := { s with launches := drop s.launches lid }
      match lookup (s.ring l.ring).cmds l.seq with
      | none => s
      | some c => match c.replay with
        | none => s.finishCmd l.ring l.seq 0 0
        | some (next, count, _) =>
          if next = count ∧ !(s.launches.any fun (_, m) => m.ring == l.ring && m.seq == l.seq) then s.finishCmd l.ring l.seq 0 c.result else s
    else s

/-- The records of a team's pool that a core could take: neither parked nor dropped (R125, R126). -/
def Team.openRecs (t : Team) : List Nat := (t.recs.filter fun (_, r) => r.parked.isNone).map (·.1)

/-- One context fault record for each group whose barrier held dropped records (R128). -/
def State.dropParked (s : State) (ctx : Nat) : List (Nat × Group) → State
  | [] => s
  | (_, g) :: rest =>
    (if g.bars.any fun (_, b) => !b.chain.isEmpty then
        s.putFaultRecord ctx (faultRecord 0x0C 0 g.kern g.grpid 0 0 s.now)
      else s).dropParked ctx rest

/-- A team whose groups have ended and whose pool holds no record ends; its parked records are dropped (R122, R128). -/
def State.teamEnds (s : State) (tid : Nat) : State :=
  match lookup s.teams tid with
  | none => s
  | some t =>
    let mine := s.groups.filter fun (_, g) => g.team == tid
    if mine.all (fun (_, g) => g.st == .ended) && t.openRecs.isEmpty && t.bufs.all fun (_, b) => b.recs.isEmpty then
      let s := s.dropParked t.ctx mine
      let c := s.cluster t.cluster
      let s := { s with
        groups := s.groups.filter fun (_, g) => g.team != tid
        teams := drop s.teams tid
        clusters := putAt s.clusters t.cluster { c with team := none } }
      match lookup s.launches t.launch with
      | none => s
      | some l => ({ s with launches := putAt s.launches t.launch { l with live := l.live - 1 } }).launchEnds t.launch
    else s

/-- What a group's end leaves: its horizon for the LAUNCH's record, its extended registers, its tiles (R104, R122, R149). -/
def State.endGroup (s : State) (gid : Nat) (g : Group) : State :=
  let s := s.dropGrant gid
  let cl := clusterOfCore g.core
  let c := s.cluster cl
  let s := { s with
    clusters := putAt s.clusters cl { c with xqueue := c.xqueue.filter fun (i, _) => i != gid }
    tiles := s.tiles.filter fun (k, _) => k / 16 != gid }
  let s := s.noteStores gid g
  (s.putGroup gid { g with st := .ended, grant := false, threads := [], passes := [] }).teamEnds g.team

/-- R122. A group whose threads have retired (or that a fault ended) and whose engine counters are zero ends. -/
def execGroupEnd (gid : Nat) (st : State) : Res :=
  match lookup st.groups gid with
  | none => .next st
  | some g =>
    if g.st = .draining ∧ g.passes.isEmpty ∧ (List.range 4).all (fun c => g.counter c == 0) then .next (st.endGroup gid g)
    else .next st

end Sys2Proof.Machine
end

