-- ==== Sys2Proof/Machine/Mem.lean ====
section
/-! DEFINITION. Memory instructions: loads, stores, atomics, fences and cache operations, and the events of their homes (12_memory
R207 to R231; 17_isa_memory R324 to R335; 11_link R196, R197, R203, R204). -/

namespace Sys2Proof.Machine

/-! ### Making an access -/

/-- What one thread asks of memory. -/
structure Ask where
  addr : Quad
  align : Nat
  size : Nat
  write : Bool
  act : Act
  fill : Option Fill := none
  acquire : Bool := false
  /-- spaces that the instruction refuses (R325 step 4) -/
  refuse : List Space := []
  /-- its exact address lies beyond the 64 bits of an address (R7), so that R207 gives no space -/
  beyond : Bool := false
  deriving DecidableEq, Repr

/-- What becomes of it: it is on its way, it faults, or it waits for a copy-on-write resolution. -/
inductive Fate where
  | gone
  | fault (code : Nat)
  | cow (k : Nat)
  deriving DecidableEq, Repr

/-- Steps 1 to 4 of R325. -/
def State.site (s : State) (g : Group) (q : Ask) : Trans :=
  if q.addr.toNat % q.align ≠ 0 then .fault 0x04
  else if q.beyond then .fault 0x05
  else match s.locate g q.addr q.write with
    | .ok space key cls leaf => if q.refuse.contains space then .fault 0x09 else .ok space key cls leaf
    | r => r

/-- The leaf of an address that translates gets its A and D, also where a later check refuses the access (R181). -/
def State.siteTouch (s : State) (g : Group) (q : Ask) : State :=
  if q.addr.toNat % q.align ≠ 0 ∨ q.beyond then s
  else match s.locate g q.addr q.write with
    | .ok _ _ _ leaf => s.touch leaf q.write
    | _ => s

/-- The resolution of a leaf, joined or begun (R188, R189). -/
def State.cowFor (s : State) (ctx leaf frame : Nat) : State × Nat :=
  match s.cows.find? fun (_, c) => c.leaf == leaf with
  | some (k, _) => (s, k)
  | none => ({ s with cows := putAt s.cows s.stamp { ctx := ctx, leaf := leaf, frame := frame, st := .waiting }, stamp := s.stamp + 1 }, s.stamp)

/-- The cache class of an access (R214, R215): its HINT or its leaf's; a host line is kept only through a leaf of CLASS 2. -/
def classOf (hint : Option Nat) (space : Space) (leafCls : Nat) : Nat :=
  if space = .host ∧ leafCls ≠ 2 then 3 else hint.getD leafCls

/-- An access leaves its threads in the beat of a cycle (R324, R325). -/
def State.ask (s0 : State) (g : Group) (tids : List Nat) (helper : Bool) (tok beat : Nat) (q : Ask) : State × Fate :=
  let s := s0.siteTouch g q
  match s0.site g q with
  | .fault c => (s, .fault c)
  | .cow leaf frame =>
    let (s, k) := s.cowFor g.ctx leaf frame
    (s, .cow k)
  | .ok space key cls _ =>
    let s := if space = .scratch ∧ q.act ≠ .read then s.onThreads s.cur.gid tids fun t => { t with hs := t.hs + 1 } else s
    let a : Access := { gid := s.cur.gid, pid := s.cur.pid, tids := tids, helper := helper, tok := tok, addr := q.addr, space := space,
                        key := key, size := q.size, act := q.act, fill := q.fill, acquire := q.acquire,
                        cls := classOf s.cur.hint space cls, since := s.now, ctx := g.ctx, port := s.portFor space key, beat := beat }
    ({ s with accesses := putAt s.accesses s.stamp a, stamp := s.stamp + 1 }, .gone)

/-- The accesses of the threads of one word, in ascending TID. -/
def State.askAll (s : State) (g : Group) (tok : Nat) : List (View × Ask) → State × List (View × Ask × Fate)
  | [] => (s, [])
  | (a, q) :: rest =>
    let (s, f) := s.ask g [a.tid] a.helper tok a.cyc q
    let (s, l) := s.askAll g tok rest
    (s, (a, q, f) :: l)

/-- Each line of each beat counted once in its window (R218). `seen` holds the beats and lines counted so far. -/
def State.countLines (s : State) (g : Group) (seen : List (Nat × Nat)) : List (Nat × Quad) → State
  | [] => s
  | (cyc, addr) :: rest =>
    match s.locate g addr false with
    | .ok space key _ _ =>
      if space = .scratch ∨ seen.contains (cyc, lineOf key) then s.countLines g seen rest
      else (s.windowLine (dieOfCore g.core) g.ctx addr.toNat (lineOf key) true).countLines g ((cyc, lineOf key) :: seen) rest
    | _ => s.countLines g seen rest

/-- A result on its way. -/
def State.send (s : State) (r : Result) : State := { s with results := putAt s.results s.stamp r, stamp := s.stamp + 1 }

/-- A result that reads zero: a helper's access that would fault (R141). -/
def State.helperZero (s : State) (tok : Nat) (a : View) (q : Ask) : State :=
  match q.fill with
  | none => s
  | some f => s.send { gid := s.cur.gid, pid := s.cur.pid, tids := [a.tid], helper := true, tok := tok, addr := q.addr, fill := f,
                       bytes := List.replicate q.size 0, vals := [], fail := 0 }

def State.helperZeros (s : State) (tok : Nat) : List (View × Ask × Fate) → State
  | [] => s
  | (a, q, f) :: rest => (if a.helper && f != .gone then s.helperZero tok a q else s).helperZeros tok rest

/-- Threads of the word that block for a resolution (R188). -/
def Group.blockCows (g : Group) (pid off : Nat) : List (View × Ask × Fate) → Group
  | [] => g
  | (a, q, f) :: rest => (match f with
    | .cow k => g.block pid a.tid off 2 (.cow k q.addr)
    | _ => g).blockCows pid off rest

/-- The faults of a word's accesses. -/
def faultsOf (l : List (View × Ask × Fate)) : List Flt :=
  l.filterMap fun (a, q, f) => match f with
    | .fault c => if a.helper then none else some { tid := a.tid, code := c, detail := 0, addr := q.addr }
    | _ => none

/-- A per-thread memory instruction issues (R324, R325): each thread's access, its faults and its waits; `u` gives FSTAT and DITH
of a thread whose access is made. -/
def State.memAct (s : State) (g : Group) (stall tok : Nat) (loud : Bool) (l : List (View × Ask × Put)) : State :=
  let s1 := (s.nameToken s.cur.gid tok).passBy .lane stall (loud && l.any fun (a, _) => !a.helper)
  let (s2, fates) := s1.askAll g tok (l.map fun (a, q, _) => (a, q))
  let made := fates.filter fun (_, _, f) => f == .gone
  let s3 := (s2.countLines g [] (made.map fun (a, q, _) => (a.cyc, q.addr))).helperZeros tok fates
  let status := (l.filter fun (a, q, _) => made.any fun (b, r, _) => b.tid == a.tid && r == q).map fun (a, _, u) => (a, u)
  let s4 := s3.onGroup s.cur.gid fun g => (g.putStatus status).blockCows s.cur.pid s.cur.at_ fates
  s4.takeFaults s.cur.gid s.cur.pid s.cur.at_ (faultsOf fates)

/-- The access keeps its pass from being quiet as it issues (R145): a store or an atomic, but for a compare and swap, which does so only
when it succeeds. -/
def Ask.loud (q : Ask) : Bool := q.write && (match q.act with
  | .atom .cas _ _ => false
  | _ => true)

/-- A memory instruction of one access for each thread that passes the guard; helpers only load (R141). -/
def memOp (st : State) (s : BitVec 2) (tok : Nat) (n : Needs) (f : View → Ask) (u : View → Put := fun _ => {}) : Res :=
  opening st .lane n fun g _ vs =>
    let l := (vs.filter fun a => a.passes st.cur.guard && (!a.helper || !(f a).write)).map fun a => (a, f a, u a)
    .next (st.memAct g s.toNat tok (l.any fun (_, q, _) => q.loud) l)

/-- The address of R324: g[G] + W of v[A] × 2^k. -/
def View.at_ (a : View) (g : BitVec 4) (i : BitVec 6) (k : Nat) : Quad := a.g g.toNat + (a.w i).setWidth 64 <<< k

/-! ### Loads and stores -/

/-- The registers of a format M access: the index, and the data read and written. -/
def memNeeds (g : BitVec 4) (a : BitVec 6) (rv wv : List (Nat × Nat)) : Needs :=
  { rv := (a.toNat, 1) :: rv, wv := wv, rg := [g.toNat] }

/-- R326. Loads of 1, 2, 4 or 8 bytes. -/
def execLd (s z : BitVec 2) (x q : BitVec 1) (d : BitVec 6) (g : BitVec 4) (a : BitVec 6) (t : BitVec 2) (st : State) : Res :=
  let k := z.toNat
  memOp st s t.toNat (memNeeds g a [] [(d.toNat, if k = 3 then 2 else 1)]) fun v =>
    { addr := v.at_ g a k, align := 2 ^ k, size := 2 ^ k, write := false, act := .read, acquire := q == 1#1,
      fill := some (if k < 2 then .narrow d.toNat (x == 1#1) else .words d.toNat (k - 1)) }

/-- R326. 16 bytes into v[D..D+3]. -/
def execLdq (s : BitVec 2) (q : BitVec 1) (d : BitVec 6) (g : BitVec 4) (a : BitVec 6) (t : BitVec 2) (st : State) : Res :=
  memOp st s t.toNat (memNeeds g a [] [(d.toNat, 4)]) fun v =>
    { addr := v.at_ g a 4, align := 16, size := 16, write := false, act := .read, acquire := q == 1#1, fill := some (.words d.toNat 4) }

/-- The bytes and the nibble of an element of a narrow format (R327): size, and the address with its nibble. -/
def elemSize (f : Nat) : Nat := if f = 0 then 4 else if f = 1 ∨ f = 2 then 2 else 1

def View.elemAt (v : View) (f : Nat) (g : BitVec 4) (a : BitVec 6) : Quad × Bool :=
  if f = 7 then (v.g g.toNat + (v.w a).setWidth 64 >>> 1, (v.w a).getLsbD 0)
  else (v.at_ g a (if f = 0 then 2 else if f = 1 ∨ f = 2 then 1 else 0), false)

/-- R327. One element of a narrow format as the carrier that denotes it. -/
def execLdf (s : BitVec 2) (f : BitVec 4) (d : BitVec 6) (g : BitVec 4) (a : BitVec 6) (t : BitVec 2) (st : State) : Res :=
  let c := f.toNat
  memOp st s t.toNat { memNeeds g a [] [(d.toNat, 1)] with ok := decide (c ≤ 4 ∨ c = 7) } fun v =>
    { addr := (v.elemAt c g a).1, align := elemSize c, size := elemSize c, write := false, act := .read,
      fill := some (.elem d.toNat c (v.elemAt c g a).2) }

/-- The W of `n` registers from D, lowest first. -/
def View.wordBytes (v : View) (d n : Nat) : List Byte := (List.range n).flatMap fun i => leBytes 4 (v.v (d + i)).w.toNat

/-- The stores of R326, which a release store also is after its fence. -/
def storeAsk (v : View) (k : Nat) (d : BitVec 6) (g : BitVec 4) (a : BitVec 6) : Ask :=
  { addr := v.at_ g a k, align := 2 ^ k, size := 2 ^ k, write := true, act := .write ((v.wordBytes d.toNat (max 1 (2 ^ k / 4))).take (2 ^ k)) }

/-- The scope that a release store's fence has for a thread (R230). -/
def State.releaseScope (s : State) (g : Group) (q : Ask) : Nat :=
  match s.site g q with
  | .ok .peer _ _ _ => 4
  | .ok .host _ _ _ => 4
  | _ => 3

/-- Earlier loads of a thread have bound their values (R226, R228). -/
def State.loadsBound (s : State) (gid : Nat) (tids : List Nat) : Bool :=
  !(s.accesses.any fun (_, a) => a.gid == gid && a.act == .read && !a.helper && tids.any a.tids.contains)

/-- The link-timeout faults that a FENCE of system scope raises (R203, R228). -/
def fenceLate (g : Group) (tids : List Nat) : List Flt :=
  tids.filterMap fun t => ((g.thread t).late.find? fun l => l.tok == 5).map fun l => { tid := t, code := l.code, detail := 0, addr := l.addr }

/-- Those faults taken off the threads. -/
def Group.dropFenceLate (g : Group) (tids : List Nat) : Group :=
  { g with threads := g.threads.map fun (k, t) => (k, if tids.contains k then { t with late := t.late.filter fun l => l.tok != 5 } else t) }

/-- R326, R230. Stores of 1, 2, 4 or 8 bytes; with release, after a fence of module or system scope. -/
def execSt (s z : BitVec 2) (r : BitVec 1) (d : BitVec 6) (g : BitVec 4) (a : BitVec 6) (st : State) : Res :=
  let k := z.toNat
  opening st .lane (memNeeds g a [(d.toNat, if k = 3 then 2 else 1)] []) fun gr _ vs =>
    let l := participants vs st.cur.guard
    let asks := l.map fun v => (v, storeAsk v k d g a, ({} : Put))
    if r = 0#1 then .next (st.memAct gr s.toNat 3 true asks)
    else if !(asks.all fun (v, q, _) => st.fenceMet st.cur.gid v.tid gr (st.releaseScope gr q)) || !st.loadsBound st.cur.gid (l.map (·.tid)) then
      .next (st.holdAt .release)
    else
      let wide := (asks.filter fun (_, q, _) => st.releaseScope gr q == 4).map fun (v, _) => v.tid
      let late := fenceLate gr wide
      let s1 := st.onGroup st.cur.gid fun g => g.dropFenceLate wide
      let s2 := s1.memAct (gr.dropFenceLate wide) s.toNat 3 true (asks.filter fun (v, _) => !(late.any fun f => f.tid == v.tid))
      .next (s2.takeFaults st.cur.gid st.cur.pid st.cur.at_ late)

/-- R326. 16 bytes from v[D..D+3]. -/
def execStq (s : BitVec 2) (d : BitVec 6) (g : BitVec 4) (a : BitVec 6) (st : State) : Res :=
  memOp st s 3 (memNeeds g a [(d.toNat, 4)] []) fun v =>
    { addr := v.at_ g a 4, align := 16, size := 16, write := true, act := .write (v.wordBytes d.toNat 4) }

/-- STF (R327): the element finalised to a format and stored. -/
def storeElem (st : State) (s : BitVec 2) (code : Nat) (r : BitVec 4) (d : BitVec 6) (g : BitVec 4) (a : BitVec 6) : Res :=
  memOp st s 3 (memNeeds g a [(d.toNat, 1)] [])
    (fun v =>
      let (addr, high) := v.elemAt code g a
      let bits := elemPattern code (finElem code r v.th.dith (v.c d)).1
      { addr := addr, align := elemSize code, size := elemSize code, write := true,
        act := if code = 7 then .nibble high (bits % 16) else .write (leBytes (elemSize code) bits) })
    fun v => { flags := (finElem code r v.th.dith (v.c d)).2.1, dith := (finElem code r v.th.dith (v.c d)).2.2 }

/-- R327. Stores the element finalised to F32. -/
def execStfF32 (s : BitVec 2) (r : BitVec 4) (d : BitVec 6) (g : BitVec 4) (a : BitVec 6) (st : State) : Res := storeElem st s 0 r d g a

/-- R327. Stores the element finalised to BF16. -/
def execStfBf16 (s : BitVec 2) (r : BitVec 4) (d : BitVec 6) (g : BitVec 4) (a : BitVec 6) (st : State) : Res := storeElem st s 1 r d g a

/-- R327. Stores the element finalised to F16. -/
def execStfF16 (s : BitVec 2) (r : BitVec 4) (d : BitVec 6) (g : BitVec 4) (a : BitVec 6) (st : State) : Res := storeElem st s 2 r d g a

/-- R327. Stores the element finalised to E4M3. -/
def execStfE4m3 (s : BitVec 2) (r : BitVec 4) (d : BitVec 6) (g : BitVec 4) (a : BitVec 6) (st : State) : Res := storeElem st s 3 r d g a

/-- R327. Stores the element finalised to E5M2. -/
def execStfE5m2 (s : BitVec 2) (r : BitVec 4) (d : BitVec 6) (g : BitVec 4) (a : BitVec 6) (st : State) : Res := storeElem st s 4 r d g a

/-- R327. Stores the element finalised to E2M1, one nibble in one atomic write. -/
def execStfE2m1 (s : BitVec 2) (r : BitVec 4) (d : BitVec 6) (g : BitVec 4) (a : BitVec 6) (st : State) : Res := storeElem st s 7 r d g a

/-- R326. The register image in 8 bytes. -/
def execStimg (s : BitVec 2) (d : BitVec 6) (g : BitVec 4) (a : BitVec 6) (st : State) : Res :=
  memOp st s 3 (memNeeds g a [(d.toNat, 1)] []) fun v =>
    { addr := v.at_ g a 3, align := 8, size := 8, write := true,
      act := .write (leBytes 8 ((v.c d).w.toNat + if (v.c d).s then 2 ^ 32 else 0)) }

/-- R326. The register image, S included. -/
def execLdimg (s : BitVec 2) (d : BitVec 6) (g : BitVec 4) (a : BitVec 6) (t : BitVec 2) (st : State) : Res :=
  memOp st s t.toNat (memNeeds g a [] [(d.toNat, 1)]) fun v =>
    { addr := v.at_ g a 3, align := 8, size := 8, write := false, act := .read, fill := some (.image d.toNat) }

/-! ### Atomics -/

/-- The bytes an atomic operation covers. -/
def AtomOp.bytes : AtomOp → Nat
  | .addW => 8
  | _ => 4

/-- The new value of an atomic operation (R331). `x` is the operand, for `fadd` a register image; `y` the new value of `cas`. -/
def atomNew (op : AtomOp) (old x y : Quad) : Quad :=
  let o := old.setWidth 32
  let w := x.setWidth 32
  let wide := fun (r : Word) => r.setWidth 64
  match op with
  | .add => wide (o + w)
  | .minI => wide (if w.toInt < o.toInt then w else o)
  | .maxI => wide (if o.toInt < w.toInt then w else o)
  | .minN => wide (if w.toNat < o.toNat then w else o)
  | .maxN => wide (if o.toNat < w.toNat then w else o)
  | .and => wide (o &&& w)
  | .or => wide (o ||| w)
  | .xor => wide (o ^^^ w)
  | .exch => wide w
  | .cas => if o = w then y else wide o
  | .addW => old + x
  | .fadd =>
    let sum := (Val.add (carrierVal (Carrier.ofWord o)) (carrierVal { w := w, s := x.getLsbD 32 })).1
    BitVec.ofNat 64 (finPattern fmtF32 (finVal sum fmtF32 .rne 0 1).1)

/-- The operands of an atomic operation in a thread. -/
def View.operands (v : View) (op : AtomOp) (d : BitVec 6) : Quad × Quad :=
  match op with
  | .addW => (v.pair d, 0)
  | .fadd => (BitVec.ofNat 64 ((v.c d).w.toNat + if (v.c d).s then 2 ^ 32 else 0), 0)
  | .cas => ((v.w d).setWidth 64, (v.v (d.toNat + 1)).w.setWidth 64)
  | _ => ((v.w d).setWidth 64, 0)

/-- ATOM and RED (R331, R332); host memory is refused. -/
def atomOp (st : State) (s : BitVec 2) (op : AtomOp) (d : BitVec 6) (g : BitVec 4) (a : BitVec 6) (t : Option (BitVec 2)) : Res :=
  let n := op.bytes
  let regs := match op with
    | .addW => 2
    | .cas => 2
    | _ => 1
  memOp st s (match t with | none => 3 | some x => x.toNat)
    (memNeeds g a [(d.toNat, regs)] (if t.isSome then [(d.toNat, n / 4)] else [])) fun v =>
    { addr := v.at_ g a (if n = 8 then 3 else 2), align := n, size := n, write := true, refuse := [.host],
      act := .atom op (v.operands op d).1 (v.operands op d).2, fill := if t.isSome then some (.words d.toNat (n / 4)) else none }

/-- R331. Atomic add, the old value returned. -/
def execAtomAdd (s : BitVec 2) (d : BitVec 6) (g : BitVec 4) (a : BitVec 6) (t : BitVec 2) (st : State) : Res := atomOp st s .add d g a (some t)

/-- R331. Atomic signed minimum, the old value returned. -/
def execAtomMinI (s : BitVec 2) (d : BitVec 6) (g : BitVec 4) (a : BitVec 6) (t : BitVec 2) (st : State) : Res := atomOp st s .minI d g a (some t)

/-- R331. Atomic signed maximum, the old value returned. -/
def execAtomMaxI (s : BitVec 2) (d : BitVec 6) (g : BitVec 4) (a : BitVec 6) (t : BitVec 2) (st : State) : Res := atomOp st s .maxI d g a (some t)

/-- R331. Atomic unsigned minimum, the old value returned. -/
def execAtomMinN (s : BitVec 2) (d : BitVec 6) (g : BitVec 4) (a : BitVec 6) (t : BitVec 2) (st : State) : Res := atomOp st s .minN d g a (some t)

/-- R331. Atomic unsigned maximum, the old value returned. -/
def execAtomMaxN (s : BitVec 2) (d : BitVec 6) (g : BitVec 4) (a : BitVec 6) (t : BitVec 2) (st : State) : Res := atomOp st s .maxN d g a (some t)

/-- R331. Atomic AND, the old value returned. -/
def execAtomAnd (s : BitVec 2) (d : BitVec 6) (g : BitVec 4) (a : BitVec 6) (t : BitVec 2) (st : State) : Res := atomOp st s .and d g a (some t)

/-- R331. Atomic OR, the old value returned. -/
def execAtomOr (s : BitVec 2) (d : BitVec 6) (g : BitVec 4) (a : BitVec 6) (t : BitVec 2) (st : State) : Res := atomOp st s .or d g a (some t)

/-- R331. Atomic XOR, the old value returned. -/
def execAtomXor (s : BitVec 2) (d : BitVec 6) (g : BitVec 4) (a : BitVec 6) (t : BitVec 2) (st : State) : Res := atomOp st s .xor d g a (some t)

/-- R331. Atomic exchange, the old value returned. -/
def execAtomExch (s : BitVec 2) (d : BitVec 6) (g : BitVec 4) (a : BitVec 6) (t : BitVec 2) (st : State) : Res := atomOp st s .exch d g a (some t)

/-- R331. Atomic compare and swap, the old value returned. -/
def execAtomCas (s : BitVec 2) (d : BitVec 6) (g : BitVec 4) (a : BitVec 6) (t : BitVec 2) (st : State) : Res := atomOp st s .cas d g a (some t)

/-- R331. Atomic 64-bit add, the old value returned. -/
def execAtomAddW (s : BitVec 2) (d : BitVec 6) (g : BitVec 4) (a : BitVec 6) (t : BitVec 2) (st : State) : Res := atomOp st s .addW d g a (some t)

/-- R331. Atomic F32 add, the old value returned. -/
def execAtomFadd (s : BitVec 2) (d : BitVec 6) (g : BitVec 4) (a : BitVec 6) (t : BitVec 2) (st : State) : Res := atomOp st s .fadd d g a (some t)

/-- R332. Reduction add. -/
def execRedAdd (s : BitVec 2) (d : BitVec 6) (g : BitVec 4) (a : BitVec 6) (st : State) : Res := atomOp st s .add d g a none

/-- R332. Reduction signed minimum. -/
def execRedMinI (s : BitVec 2) (d : BitVec 6) (g : BitVec 4) (a : BitVec 6) (st : State) : Res := atomOp st s .minI d g a none

/-- R332. Reduction signed maximum. -/
def execRedMaxI (s : BitVec 2) (d : BitVec 6) (g : BitVec 4) (a : BitVec 6) (st : State) : Res := atomOp st s .maxI d g a none

/-- R332. Reduction unsigned minimum. -/
def execRedMinN (s : BitVec 2) (d : BitVec 6) (g : BitVec 4) (a : BitVec 6) (st : State) : Res := atomOp st s .minN d g a none

/-- R332. Reduction unsigned maximum. -/
def execRedMaxN (s : BitVec 2) (d : BitVec 6) (g : BitVec 4) (a : BitVec 6) (st : State) : Res := atomOp st s .maxN d g a none

/-- R332. Reduction AND. -/
def execRedAnd (s : BitVec 2) (d : BitVec 6) (g : BitVec 4) (a : BitVec 6) (st : State) : Res := atomOp st s .and d g a none

/-- R332. Reduction OR. -/
def execRedOr (s : BitVec 2) (d : BitVec 6) (g : BitVec 4) (a : BitVec 6) (st : State) : Res := atomOp st s .or d g a none

/-- R332. Reduction XOR. -/
def execRedXor (s : BitVec 2) (d : BitVec 6) (g : BitVec 4) (a : BitVec 6) (st : State) : Res := atomOp st s .xor d g a none

/-- R332. Reduction 64-bit add. -/
def execRedAddW (s : BitVec 2) (d : BitVec 6) (g : BitVec 4) (a : BitVec 6) (st : State) : Res := atomOp st s .addW d g a none

/-- R332. Reduction F32 add. -/
def execRedFadd (s : BitVec 2) (d : BitVec 6) (g : BitVec 4) (a : BitVec 6) (st : State) : Res := atomOp st s .fadd d g a none

/-! ### Fences -/

/-- A FENCE completes for a list of threads (R228). -/
def State.fenceDone (s : State) (gid : Nat) (g : Group) (scope : Nat) (hz : Bool) (tids : List Nat) : Bool :=
  tids.all (fun t => s.fenceMet gid t g scope) && (hz || s.loadsBound gid tids)

/-- R228. The pass stays at the FENCE until it has completed in every thread; at system scope it raises the link-timeout faults of
failed peer stores. -/
def execFence (s : BitVec 2) (m : BitVec 4) (h : BitVec 1) (st : State) : Res :=
  opening st .lane {} fun g _ vs =>
    let tids := (participants vs st.cur.guard).map (·.tid)
    if !st.fenceDone st.cur.gid g m.toNat (h == 1#1) tids then .next (st.holdAt (.fence m.toNat (h == 1#1) tids st.cur.next s.toNat))
    else
      let s1 := st.passBy .lane s.toNat false
      if m ≠ 4#4 then .next s1
      else .next ((s1.onGroup st.cur.gid fun g => g.dropFenceLate tids).takeFaults st.cur.gid st.cur.pid st.cur.at_ (fenceLate g tids))

/-- R228. A waiting FENCE completes in a pass that may issue, and its beats and stall field count from there (R79); one that has faults to
raise raises them when its pass issues it again. -/
def execFenceComplete (gid pid : Nat) (st : State) : Res :=
  match lookup st.groups gid with
  | none => .next st
  | some g => match lookup g.passes pid with
    | none => .next st
    | some p => match p.hold with
      | .fence scope hz tids next stall =>
        if !mayIssue { st with cur := { st.cur with gid := gid, pid := pid } } g p || !st.fenceDone gid g scope hz tids
            || (scope == 4 && !(fenceLate g tids).isEmpty) then .next st
        else
          let p' := { p with off := next, next := nextIssue .lane p st.cycle stall, hold := .none }
          .next ((st.putGroup gid { g with passes := putAt g.passes pid p' }).afterStep gid pid p)
      | _ => .next st

/-! ### Homes -/

/-- Two byte ranges share a byte (R209). -/
def overlaps (k n k' n' : Nat) : Bool := decide (k < k' + n') && decide (k' < k + n)

/-- The frame under a key is migrating (R192). -/
def State.migratingAt (s : State) (key : Nat) : Bool := decide (key < hbmEnd) && (s.frame (key / 2 ^ 16)).st == .migrating

/-- A prefetch, which orders nothing (R333). -/
def Access.prefetch (a : Access) : Bool := a.act == .read && a.fill.isNone

/-- An earlier access `b` that `a` comes after: of its thread, as R226 and R229 order them; of its beat, to a location of its own (R222);
and on its port, which requests cross in issue order (R194). -/
def Access.behind (a b : Access) : Bool :=
  (b.gid == a.gid && !a.prefetch && !b.prefetch
    && ((b.pid == a.pid && b.beat == a.beat && overlaps a.key a.size b.key b.size)
      || (a.tids.any b.tids.contains && (overlaps a.key a.size b.key b.size || b.acquire || (a.act != .read && b.act == .read)))))
    || (a.port.isSome && b.port == a.port)

/-- An access to a peer has had no response for 4 µs, or its port has to leave Up: only its failure is left (R195, R203). -/
def State.expired (s : State) (port : Option Nat) (since : Nat) : Bool := match port with
  | none => false
  | some p => decide (since + 4000 ≤ s.now) || !s.portUp p

/-- No access with a number below `k` waits to cross a port, which requests cross in issue order (R194). -/
def State.portClear (s : State) (k : Nat) (port : Option Nat) : Bool :=
  port.isNone || s.accesses.all fun (j, b) => decide (k ≤ j) || b.port != port

/-- An access may be performed: what it comes behind is done, its frame does not migrate (R192), and a peer is in reach (R196, R203). -/
def State.mayPerform (s : State) (k : Nat) (a : Access) : Bool :=
  !s.migratingAt a.key && (a.space != .peer || a.port.isSome) && !s.expired a.port a.since
    && s.accesses.all fun (j, b) => decide (k ≤ j) || !a.behind b

/-- The core of a group, for the copies that its accesses pass. -/
def State.coreOf (s : State) (gid : Nat) : Nat := match lookup s.groups gid with
  | none => 0
  | some g => g.core

/-- A write performed at its home: the copies on its way discarded (R213), its place in the coherence order (R222), and its write
completion time on the way to its threads (R227), through a port, with the result `via` in the same answer. -/
def State.writeHome (s : State) (gid : Nat) (tids : List Nat) (key : Nat) (addr : Quad) (since : Nat) (port via : Option Nat) (bytes : List Byte)
    (ext : Nat) : State :=
  let twc := s.twcOf key bytes.length ext
  let s := (s.passWrite (s.coreOf gid) (lineOf key)).arrive key bytes gid tids ext
  let r : Reply := { gid := gid, tids := tids, space := keySpace key, key := key, twc := twc, since := since, addr := addr,
                     port := port, via := via }
  { s with replies := putAt s.replies s.stamp r, stamp := s.stamp + 1 }

/-- A write of an instruction that is performed as it issues: its scratchpad count, then its home; `via` numbers the result that comes in
its answer. -/
def State.writeNow (s : State) (gid : Nat) (tids : List Nat) (key : Nat) (addr : Quad) (bytes : List Byte) (via : Option Nat) : State :=
  let s := if keySpace key = .scratch then s.onThreads gid tids fun t => { t with hs := t.hs + 1 } else s
  s.writeHome gid tids key addr s.now (s.portFor (keySpace key) key) via bytes 0

/-- The result of an access that has been performed. -/
def Access.result (a : Access) (f : Fill) (bytes : List Byte) (fail : Nat) : Result :=
  { gid := a.gid, pid := a.pid, tids := a.tids, helper := a.helper, tok := a.tok, addr := a.addr, fill := f, bytes := bytes, vals := [],
    fail := fail }

/-- The answer of an access: its result, through the port of its access. -/
def Access.answer (a : Access) (f : Fill) (bytes : List Byte) (fail : Nat) : Result :=
  { a.result f bytes fail with port := a.port, since := a.since, wrote := a.act != .read }

/-- A pass makes a successful compare and swap known (R145). -/
def State.loudPass (s : State) (gid pid : Nat) : State := s.onGroup gid fun g => g.loud pid

/-- A thread's access fails (R203, R204): a load's or atomic's at its token, a store's at the next FENCE of system scope; a prefetch does
nothing (R333). -/
def State.failAccess (s : State) (k : Nat) (a : Access) (code : Nat) : State :=
  if a.prefetch then { s with accesses := drop s.accesses k }
  else
    let s := { s with accesses := drop s.accesses k }.countTimeout (a.port <|> s.portToward a.key)
    match a.fill with
    | some f => s.send (a.result f [] code)
    | none => s.onThreads a.gid a.tids fun t => { t with late := t.late ++ [(⟨5, 0x0F, a.addr⟩ : Late)] }

/-- A store or atomic arrives at its home (R221 to R223, R331). An atomic or reduction that meets data beyond correction has no effect: at a
peer it is answered with an error (R204). -/
def State.performWrite (s : State) (k : Nat) (a : Access) (ext : Nat) : State :=
  let s := { s with accesses := drop s.accesses k }
  let old := s.latestBytes a.key a.size
  let bytes := match a.act with
    | .read => old
    | .write b => b
    | .nibble high val =>
      let b := (old.headD 0).toNat
      [BitVec.ofNat 8 (if high then b % 16 + val * 16 else b / 16 * 16 + val)]
    | .atom op x y => leBytes a.size (atomNew op (BitVec.ofNat 64 (leNat old)) x y).toNat
  let fails := match a.act with
    | .atom _ _ _ => s.badIn a.key a.size
    | _ => false
  if fails && a.space == .peer then s.failAccess k a 0x14 else
  let s := if !fails then s.writeHome a.gid a.tids a.key a.addr a.since a.port (a.fill.map fun _ => s.stamp + 1) bytes ext
    else if a.space = .scratch then s.onThreads a.gid a.tids fun t => { t with hs := t.hs - 1 } else s
  let s := s.countBad fails
  let s := match a.act with
    | .atom .cas x _ => if !fails && BitVec.ofNat 32 (leNat old) == x.setWidth 32 then s.loudPass a.gid a.pid else s
    | _ => s
  match a.fill with
  | none => s
  | some f => s.send (a.answer f old (if fails then 0x14 else 0))

/-- Offsets of the 64-bit words of a line whose data is beyond correction at its home (R379). -/
def State.flawsOf (s : State) (line : Nat) : List Nat := ((List.range 16).map (8 * ·)).filter fun i => s.badIn (line + i) 8

/-- A fetched line placed in a die's cache (R213, R214): in its place of a window (R218), or under its class. -/
def State.placeDie (s : State) (die ctx addr line : Nat) (data : List Byte) (flaws : List Nat) (expiry : Option Nat) (cls : Nat) : State :=
  let place := match s.windowOf die ctx addr with
    | some (w, o, true) => s.placeOf die w o
    | _ => none
  match place with
  | some (k, c) => { s with copies := putAt s.copies k { c with line := line, data := data, flaws := flaws, expiry := expiry, stale := false } }
  | none => s.allocate (.die die) line data flaws expiry cls

/-- Who fetches a line: its core, its context, the address that it names and its cache class. -/
structure Fetch where
  core : Nat
  ctx : Nat
  addr : Nat
  cls : Nat

/-- An access as the fetch of its line. -/
def State.fetchOf (s : State) (a : Access) : Fetch := { core := s.coreOf a.gid, ctx := a.ctx, addr := a.addr.toNat, cls := a.cls }

/-- A fetched line placed in the requester's caches (R213 to R218). -/
def State.placeLine (s : State) (f : Fetch) (line : Nat) (data : List Byte) (flaws : List Nat) (expiry : Option Nat) : State :=
  (s.placeDie (dieOfCore f.core) f.ctx f.addr line data flaws expiry f.cls).allocate (.cluster (clusterOfCore f.core)) line data flaws expiry f.cls

/-- A thread's own write, for the reads of an access (R225). -/
def Pending.ownOf (w : Pending) (a : Access) : Bool := w.gid == a.gid && a.tids.any w.tids.contains

/-- A thread of the access numbered `k` has a write to the line whose T_wc it has not seen pass: an earlier one on its way, one that waits
for its T_wc, or one whose reply has not come (R225). -/
def State.unseen (s : State) (k : Nat) (a : Access) : Bool :=
  (s.accesses.any fun (j, b) => decide (j < k) && b.gid == a.gid && a.tids.any b.tids.contains && b.act != .read && lineOf b.key == lineOf a.key) ||
  (s.pend.any fun w => w.ownOf a && lineOf w.key == lineOf a.key)
    || s.replies.any fun (_, r) => r.gid == a.gid && a.tids.any r.tids.contains && lineOf r.key == lineOf a.key

/-- The bytes of an access out of a line's copy. -/
def Access.slice (a : Access) (line : Nat) (data : List Byte) : List Byte := (data.drop (a.key - line)).take a.size

/-- A copy that serves a read (R212, R213, R220). -/
def State.serving (s : State) (cid : CacheId) (line : Nat) : Option (Nat × Copy) :=
  s.copies.find? fun (_, c) => decide (c.cache = cid) && decide (c.line = line) && c.serves s.now

/-- Where a read meets data beyond correction (R379): nowhere, in a copy, or at its home. -/
inductive Flaw where
  | none
  | copy
  | home
  deriving DecidableEq, Repr

/-- What a range of a copy is spoilt by. -/
def Copy.flaw (c : Copy) (off n : Nat) : Flaw := if c.flaws.any fun f => decide (f < off + n) && decide (off < f + 8) then .copy else .none

/-- The copy that serves a core's read of a line (R212, R213): its cluster's, else its die's. -/
def State.copyAt (s : State) (core line : Nat) : Option (Nat × Copy) :=
  s.serving (.cluster (clusterOfCore core)) line <|> s.serving (.die (dieOfCore core)) line

/-- A fetch served by a copy of its cluster or die (R212 to R214, R220), with the copy; from the die's it comes into the cluster's. -/
def State.fetchCopy (s : State) (f : Fetch) (line : Nat) : Option (State × Copy) :=
  let cl := CacheId.cluster (clusterOfCore f.core)
  match s.serving cl line with
  | some (k, c) => some (s.hit k c f.cls, c)
  | none => match s.serving (.die (dieOfCore f.core)) line with
    | some (k, c) => some ((s.hit k c f.cls).allocate cl line c.data c.flaws c.expiry f.cls, c)
    | none => none

/-- A fetch of a line at its home: a lease when one is left, and the copies that it allows (R213, R221); a lease from a peer is converted
(R197). -/
def State.fetchHome (s : State) (f : Fetch) (line : Nat) : State :=
  match s.lease line (s.leaseLen f.ctx line) with
  | none => s
  | some e => (s.grantLease line e).placeLine f line (s.bytes line 128) (s.flawsOf line) (some (if keySpace line = .peer then e - 64 else e))

/-- A read served by a copy. -/
def State.readCopy (s : State) (a : Access) : Option (State × List Byte × Flaw) :=
  let line := lineOf a.key
  (s.fetchCopy (s.fetchOf a) line).map fun (s, c) => (s, a.slice line c.data, c.flaw (a.key - line) a.size)

/-- What a range is spoilt by at its home. -/
def State.homeFlaw (s : State) (key n : Nat) : Flaw := if s.badIn key n then .home else .none

/-- A byte that an agent of a core's cluster reads is beyond correction (R379): in the copy that serves it, else at its home. -/
def State.badAt (s : State) (core key : Nat) : Bool :=
  match if keySpace key = .scratch then none else s.copyAt core (lineOf key) with
  | some (_, c) => c.flaw (key - lineOf key) 1 != .none
  | none => s.badIn key 1

/-- A read at the home, with a lease on its line when one is left (R221); none on data beyond correction. -/
def State.readHome (s : State) (a : Access) : State × List Byte × Flaw :=
  (if s.badIn a.key a.size then s else s.fetchHome (s.fetchOf a) (lineOf a.key), s.bytes a.key a.size, s.homeFlaw a.key a.size)

/-- The value of a read that reaches the machinery of its space, and where it meets data beyond correction (R208, R215, R220 to R225,
R379). -/
def State.readValue (s : State) (k : Nat) (a : Access) (early : Bool) : State × List Byte × Flaw :=
  let line := lineOf a.key
  let seenAs := fun (sel : Pending → Bool) => (List.range a.size).map fun i => overlay sel (a.key + i) s.pend (s.byte (a.key + i))
  match a.space with
  | .scratch => (s, s.bytes a.key a.size, s.homeFlaw a.key a.size)
  | .host =>
    match if s.unseen k a then none else s.readCopy a with
    | some r => r
    | none =>
      let me := a.tids.map fun t => (a.gid, t)
      let s := if early then { s with pend := s.pend.map fun w => if overlaps w.key w.bytes.length a.key a.size then
                  { w with seen := w.seen ++ me.filter fun x => !w.seen.contains x } else w } else s
      let v := seenAs fun w => early || w.ownOf a || me.any w.seen.contains
      (if a.cls ≠ 3 ∧ !s.unseen k a then s.placeLine (s.fetchOf a) line (s.bytes line 128) (s.flawsOf line) none else s, v, s.homeFlaw a.key a.size)
  | _ =>
    if s.unseen k a then
      if s.pend.any fun w => w.ownOf a && overlaps w.key w.bytes.length a.key a.size then
        (s, seenAs fun w => w.ownOf a, s.homeFlaw a.key a.size)
      else s.readHome a
    else (s.readCopy a).getD (s.readHome a)

/-- A read is performed: its data, or the uncorrectable-ECC fault, is on its way (R325, R379); at a peer the error is its answer (R204). A
prefetch only places its line (R333). -/
def State.performRead (s : State) (k : Nat) (a : Access) (early : Bool) : State :=
  let (s, v, bad) := { s with accesses := drop s.accesses k }.readValue k a early
  if bad = .home ∧ a.space = .peer then s.failAccess k a 0x14
  else
    let s := s.countBad (bad != .none)
    match a.fill with
    | none => s
    | some f => s.send (if bad = .none then a.answer f v 0 else a.answer f [] 0x14)

/-- R221, R225. A read reaches the copy or home that serves it; `early` is a host read that sees writes before their T_wc (R224). -/
def execHomeRead (k : Nat) (early : Bool) (st : State) : Res :=
  match lookup st.accesses k with
  | none => .next st
  | some a => if a.act != .read || !st.mayPerform k a then .next st else .next (st.performRead k a early)

/-- The horizons after a write completion time (R227, R197). -/
def Thread.horizon (t : Thread) (r : Reply) : Thread :=
  match r.space with
  | .scratch => { t with hs := t.hs - 1 }
  | .hbm => { t with hm := max t.hm (r.twc + 4) }
  | .peer => { t with hx := max t.hx (r.twc + 68) }
  | .host => { t with hx := max t.hx (r.twc + 4) }

/-- The system-scope horizon that a write completion time gives (R227, R197). -/
def Reply.horizon (r : Reply) : Nat := match r.space with
  | .scratch => 0
  | .peer => r.twc + 68
  | _ => r.twc + 4

/-- The answer that a write completion time belongs to has not come, or it comes too late (R203): one that comes with a result waits for the
result, and once that is there in time so is it. -/
def State.replyWaits (s : State) (r : Reply) : Bool := match r.via with
  | none => s.expired r.port r.since
  | some k => (lookup s.results k).isSome

/-- R227. A write completion time or a scratchpad answer reaches its threads; when their group has ended, the completion record that waits
for its stores (R104). -/
def execWriteTimeReply (k : Nat) (st : State) : Res :=
  match lookup st.replies k with
  | none => .next st
  | some r => if st.replyWaits r then .next st else .next (({ st with replies := drop st.replies k }.onThreads r.gid r.tids fun t => t.horizon r).noteHorizon r.gid r.horizon)

/-- R220. A copy whose lease has expired serves no more. -/
def execLeaseExpiry (k : Nat) (st : State) : Res :=
  match lookup st.copies k with
  | none => .next st
  | some c => match c.expiry with
    | none => .next st
    | some e => if st.now < e then .next st else .next { st with copies := putAt st.copies k { c with stale := true } }

/-! ### Results -/

/-- The registers of a result, lowest first (R24, R326, R327). -/
def Fill.values (f : Fill) (bytes : List Byte) (vals : List Carrier) : List (Nat × Carrier) :=
  let x := leNat bytes
  match f with
  | .words d n => (List.range n).map fun i => (d + i, Carrier.ofWord (BitVec.ofNat 32 (x / 2 ^ (32 * i))))
  | .narrow d signed =>
    let w := 8 * bytes.length
    [(d, Carrier.ofWord (BitVec.ofNat 32 (if signed && decide (2 ^ (w - 1) ≤ x) then x + 2 ^ 32 - 2 ^ w else x)))]
  | .image d => [(d, { w := BitVec.ofNat 32 x, s := x / 2 ^ 32 % 2 == 1 })]
  | .elem d code high => match floatFmt code with
    | none => []
    | some fm => [(d, fmtCarrier fm (if code = 7 then (if high then x / 16 else x % 16) else x))]
  | .uniform _ => []
  | .ready d => (List.range vals.length).map fun i => (d + i, vals.getD i Carrier.zero)

/-- A result written in a thread that has left the pass; a fixed-latency result that completes later stays in its register (R84). -/
def Group.deliverLeft (g : Group) (tid cyc : Nat) (l : List (Nat × Carrier)) : Group :=
  match lookup g.threads tid with
  | none => g
  | some t => g.putThread tid { t with
      v := (l.filter fun x => decide (readAt 0 t.owed x.1 ≤ cyc)).foldl (fun v x => writeAt Carrier.zero v x.1 x.2) t.v }

/-- The registers of a thread, or of a helper's copy, written by a result: within its pass from this cycle on, covered by its token (R85),
or in the thread when it has left (R82, R84). A thread that has left a quad block takes its own result; the helper in its place does not
(R141). -/
def Group.deliver (g : Group) (pid tid cyc : Nat) (helper : Bool) (tok : Nat) (l : List (Nat × Carrier)) : Group :=
  match lookup g.passes pid with
  | some p =>
    if (if helper then (lookup p.helpers tid).isSome else p.cohort.contains tid) then
      let p' := p.addV (l.map fun x => (⟨cyc, tid, x.1, x.2⟩ : Due Carrier))
      { g with passes := putAt g.passes pid { p' with covered := if tok < 3 then p'.covered ++ l.map fun x => (tok, tid, x.1) else p'.covered } }
    else if helper then g
    else g.deliverLeft tid cyc l
  | none => if helper then g else g.deliverLeft tid cyc l

/-- The g register of an LDG result. -/
def Group.deliverG (g : Group) (pid cyc : Nat) (f : Fill) (bytes : List Byte) : Group :=
  match f with
  | .uniform d => g.putG pid cyc [(d, BitVec.ofNat 64 (leNat bytes))]
  | _ => g

/-- The failure of a result recorded for the word that waits for it (R203, R325); of a per-pass load in every cohort thread. -/
def Group.failLate (g : Group) (r : Result) : Group :=
  let tids := match r.fill, lookup g.passes r.pid with
    | .uniform _, some p => p.cohort
    | _, _ => if r.helper then [] else r.tids
  tids.foldl (fun g t => match lookup g.threads t with
    | none => g
    | some th => g.putThread t { th with late := th.late ++ [{ tok := r.tok, code := r.fail, addr := r.addr }] }) g

/-- R82. A result returns: it writes its registers, or its failure waits for the word that waits for its token. -/
def execTokenResultWrite (k : Nat) (st : State) : Res :=
  match lookup st.results k with
  | none => .next st
  | some r =>
    let s := { st with results := drop st.results k }
    if st.now < r.due ∨ (r.fail = 0 ∧ st.expired r.port r.since) then .next st
    else if r.fail ≠ 0 then
      let s := s.onGroup r.gid fun g => g.failLate r
      .next (if r.helper then s.onGroup r.gid fun g => r.tids.foldl (fun g t =>
        g.deliver r.pid t st.cycle true r.tok ((r.fill.values (List.replicate 16 0) []).map fun (i, _) => (i, Carrier.zero))) g else s)
    else .next (s.onGroup r.gid fun g =>
      (r.tids.foldl (fun g t => g.deliver r.pid t st.cycle r.helper r.tok (r.fill.values r.bytes r.vals)) g).deliverG r.pid st.cycle r.fill r.bytes)

/-! ### Peer accesses that fail -/

/-- A store whose write completion time never comes (R203). -/
def State.failReply (s : State) (k : Nat) (r : Reply) : State :=
  ({ s with replies := drop s.replies k }.countTimeout r.port).onThreads r.gid r.tids fun t =>
    { t with late := t.late ++ [(⟨5, 0x0F, r.addr⟩ : Late)] }

/-- A peer's answer that never comes: the access fails at its token; what it wrote stands (R203). -/
def State.failAnswer (s : State) (k : Nat) (r : Result) : State :=
  { s with results := putAt s.results k { r with bytes := [], fail := 0x0F, port := none }
           replies := s.replies.filter fun x => x.2.via != some k }.countTimeout r.port

/-- R203. A peer access fails after 4 µs without a response, or at once without a route. -/
def execPeerAccessTimeout (isWrite : Bool) (k : Nat) (st : State) : Res :=
  match lookup st.accesses k, lookup st.results k, lookup st.replies k with
  | some a, _, _ =>
    if a.space = .peer ∧ isWrite = (a.act != .read) ∧ (st.expired a.port a.since ∨ a.port.isNone) then .next (st.failAccess k a 0x0F)
    else .next st
  | none, some r, _ => if isWrite = r.wrote ∧ r.fail = 0 ∧ st.expired r.port r.since then .next (st.failAnswer k r) else .next st
  | none, none, some r =>
    if isWrite ∧ r.space = .peer ∧ r.via.isNone ∧ st.expired r.port r.since then .next (st.failReply k r) else .next st
  | none, none, none => .next st

/-! ### Prefetch and cache operations -/

/-- The line of an address of R333 and R334. -/
def View.lineAt (v : View) (g : BitVec 4) (a : BitVec 6) : Quad := v.at_ g a 7

/-- One thread's prefetch leaves it (R333): its window place is taken, and its line is fetched as a read by it would. -/
def State.prefetch (s : State) (g : Group) (tid : Nat) (addr : Quad) : State :=
  match s.locate g addr false with
  | .ok space key cls leaf =>
    let s := s.touch leaf false
    let c := classOf s.cur.hint space cls
    let a : Access := { gid := s.cur.gid, pid := s.cur.pid, tids := [tid], helper := true, tok := 3, addr := addr, space := space,
                        key := lineOf key, size := 128, act := .read, fill := none, acquire := false, cls := c, since := s.now, ctx := g.ctx,
                        port := s.portFor space key }
    if space = .scratch ∨ !s.reached space key then s
    else
      let s := s.windowLine (dieOfCore g.core) g.ctx addr.toNat (lineOf key) false
      if space = .host ∧ c = 3 then s else { s with accesses := putAt s.accesses s.stamp a, stamp := s.stamp + 1 }
  | _ => s

def State.prefetchAll (s : State) (g : Group) : List (Nat × Quad) → State
  | [] => s
  | (t, a) :: rest => (s.prefetch g t a).prefetchAll g rest

/-- R333. Each thread's line is fetched into its cluster's and die's caches; no fault and no order. -/
def execPftch (s : BitVec 2) (g : BitVec 4) (a : BitVec 6) (st : State) : Res :=
  opening st .lane (memNeeds g a [] []) fun gr _ vs =>
    .next ((st.passBy .lane s.toNat false).prefetchAll gr ((participants vs st.cur.guard).map fun v =>
      (v.tid, v.lineAt g a &&& ~~~127#64)))

/-- A thread's writes to a line are visible, or answered (R334 `cwb`). -/
def State.lineQuiet (s : State) (gid tid line : Nat) : Bool :=
  !(s.accesses.any fun (_, b) => b.gid == gid && b.tids.contains tid && b.act != .read && lineOf b.key == line)
    && !(s.pend.any fun w => w.gid == gid && w.tids.contains tid && lineOf w.key == line)
    && !(s.replies.any fun (_, r) => r.gid == gid && r.tids.contains tid && r.space == .scratch && lineOf r.key == line)

/-- A key that no line has. -/
def noLine : Nat := 2 ^ 80

/-- The line that a CACHE operation names (R325 steps 1 and 2): a code when it faults; an address that does not translate names no line. -/
def State.cacheLine (s : State) (g : Group) (addr : Quad) : Trans :=
  if addr.toNat % 128 ≠ 0 then .fault 0x04
  else if fld addr 63 52 ≠ 0 then s.locate g addr false
  else match s.locate g addr false with
    | .ok space key cls leaf => .ok space key cls leaf
    | _ => .ok .scratch noLine 0 none

/-- `cinv` on one line: its copies are discarded, and a window's line becomes stale (R334, R218). -/
def State.invalidate (s : State) (g : Group) (line : Nat) : State := s.passWrite g.core line

/-- CWB, CINV and CWBI (R334): `wait` for the thread's own writes, then `inv` the copies. -/
def cacheOp (st : State) (s : BitVec 2) (g : BitVec 4) (a : BitVec 6) (wait inv : Bool) : Res :=
  opening st .lane (memNeeds g a [] []) fun gr _ vs =>
    let l := (participants vs st.cur.guard).map fun v => (v, v.lineAt g a, st.cacheLine gr (v.lineAt g a))
    let oks := l.filterMap fun (v, _, t) => match t with
      | .ok _ key _ _ => some (v.tid, key)
      | _ => none
    let st := l.foldl (fun s (_, _, t) => match t with
      | .ok _ _ _ leaf => s.touch leaf false
      | _ => s) st
    if wait && !(oks.all fun (t, key) => st.lineQuiet st.cur.gid t (lineOf key)) then .next (st.holdAt .cwb)
    else
      let s1 := st.passBy .lane s.toNat false
      let s2 := if inv then oks.foldl (fun s x => s.invalidate gr x.2) s1 else s1
      .next (s2.takeFaults st.cur.gid st.cur.pid st.cur.at_ (l.filterMap fun (v, addr, t) => match t with
        | .fault c => some { tid := v.tid, code := c, detail := 0, addr := addr }
        | _ => none))

/-- R334. Waits until the thread's earlier writes to the line have reached their T_wc. -/
def execCwb (s : BitVec 2) (g : BitVec 4) (a : BitVec 6) (st : State) : Res := cacheOp st s g a true false

/-- R334. Discards the copies of the line in the thread's cluster and die. -/
def execCinv (s : BitVec 2) (g : BitVec 4) (a : BitVec 6) (st : State) : Res := cacheOp st s g a false true

/-- R334. CWB, then CINV. -/
def execCwbi (s : BitVec 2) (g : BitVec 4) (a : BitVec 6) (st : State) : Res := cacheOp st s g a true true

/-- R334. 128 zero bytes as one write. -/
def execCzero (s : BitVec 2) (g : BitVec 4) (a : BitVec 6) (st : State) : Res :=
  memOp st s 3 (memNeeds g a [] []) fun v =>
    { addr := v.lineAt g a, align := 128, size := 128, write := true, act := .write (List.replicate 128 0) }

/-! ### Retention windows -/

/-- A window released (R219): its lines stay as ordinary lines of the normal class, as far as their sets have ways for them (R213). -/
def State.release (s : State) (die w : Nat) : State :=
  let x := s.window die w
  if !x.pinned then s
  else State.trimDie (die := die) { s with
    windows := writeAt Window.zero s.windows (die * 8 + w) { x with pinned := false }
    copies := s.copies.filterMap fun (k, c) =>
      if c.cache = .die die ∧ c.window.map Prod.fst = some w then
        (if c.data.isEmpty then none else some (k, { c with window := none, prot := false }))
      else some (k, c) }

/-- EWAYS of a window (R217), after its own release. -/
def State.ewaysFor (s : State) (die w ctx ways : Nat) (mask : BitVec 16) : Nat :=
  let others := (List.range 8).filter (· != w)
  let mine := (others.map fun i => if (s.window die i).pinned && (s.window die i).ctx == ctx then (s.window die i).eways else 0).sum
  let held := fun (slice : Nat) => (others.map fun i =>
    if (s.window die i).pinned && (s.window die i).mask.getLsbD slice then (s.window die i).eways else 0).sum
  let most := ((List.range 16).filter fun i => mask.getLsbD i).foldl (fun m i => max m (held i)) 0
  min ways (min ((s.ctx ctx).ways - mine) (12 - most))

/-- A PIN's operands are refused (R216). -/
def pinBad (base info : Quad) : Bool :=
  base.toNat % 2 ^ 16 != 0 || fld base 63 52 != 0 || fld info 19 0 == 0 || decide (16 < fld info 24 20)
    || (fld info 24 20 != 0 && fld info 47 32 == 0) || fld info 31 25 != 0 || fld info 63 48 != 0

/-- R216, R217. Programs a retention window of the die. -/
def execPin (s : BitVec 2) (w : BitVec 3) (a b : BitVec 6) (st : State) : Res :=
  opening st .pass { rg := [a.toNat, b.toNat] } fun g p vs =>
    let base := st.gNow g a.toNat
    let info := st.gNow g b.toNat
    if (participants vs st.cur.guard).isEmpty then .next (st.passBy .pass s.toNat false)
    else if pinBad base info then .next (st.faultAll p 0x09 0 0)
    else
      let die := dieOfCore g.core
      let s1 := (st.passBy .pass s.toNat true).release die w.toNat
      let mask := BitVec.ofNat 16 (fld info 47 32)
      let x : Window := { pinned := true, eways := s1.ewaysFor die w.toNat g.ctx (fld info 24 20) mask, ways := fld info 24 20, ctx := g.ctx,
                          mask := mask, base := base, len := fld info 19 0, hits := 0, fills := 0, ovf := 0 }
      .next ({ s1 with windows := writeAt Window.zero s1.windows (die * 8 + w.toNat) x }.trimDie die)

/-- R219. Releases a retention window of the die. -/
def execUnpin (s : BitVec 2) (w : BitVec 3) (st : State) : Res :=
  opening st .pass {} fun g _ vs =>
    if (participants vs st.cur.guard).isEmpty then .next (st.passBy .pass s.toNat false)
    else .next ((st.passBy .pass s.toNat true).release (dieOfCore g.core) w.toNat)

/-! ### Uniform loads and stores -/

/-- A per-pass or cohort access: its address, its threads, its fault or wait in every cohort thread (R143, R188, R335). -/
def State.askPass (s : State) (g : Group) (p : Pass) (tids : List Nat) (tok : Nat) (q : Ask) (done : State → State) : State :=
  match s.ask g tids false tok s.cycle q with
  | (s', .gone) => done (s'.countLines g [] [(s.cycle, q.addr)])
  | (s', .fault c) => s'.faultAll p c 0 q.addr
  | (s', .cow k) => (s'.loudPass s.cur.gid s.cur.pid).blockAll (.cow k q.addr) p.cohort

/-- g[A] + IMM10 × 8 (R55, R335). -/
def uniformAddr (x : Quad) (i : BitVec 10) : Quad := x + i.signExtend 64 <<< 3

/-- R335. g[D] := 8 bytes; the pass waits for them. -/
def execLdg (s : BitVec 2) (d a : BitVec 6) (i : BitVec 10) (st : State) : Res :=
  opening st .pass { rg := [a.toNat] } fun g p vs =>
    match participants vs st.cur.guard with
    | [] => .next (st.passBy .pass s.toNat false)
    | l => .next (st.askPass g p (l.map (·.tid)) 4
        { addr := uniformAddr (st.gNow g a.toNat) i, align := 8, size := 8, write := false, act := .read, fill := some (.uniform d.toNat) }
        (·.passBy .pass s.toNat false))

/-- R335. Stores g[D]. -/
def execStg (s : BitVec 2) (d a : BitVec 6) (i : BitVec 10) (st : State) : Res :=
  opening st .pass { rg := [a.toNat, d.toNat] } fun g p vs =>
    match participants vs st.cur.guard with
    | [] => .next (st.passBy .pass s.toNat false)
    | l => .next (st.askPass g p (l.map (·.tid)) 3
        { addr := uniformAddr (st.gNow g a.toNat) i, align := 8, size := 8, write := true,
          act := .write (leBytes 8 (st.gNow g d.toNat).toNat) }
        (·.passBy .pass s.toNat true))

end Sys2Proof.Machine
end

