-- ==== Sys2Proof/Machine/Claims.lean ====
section
/-! DEFINITION. Instructions whose step is atomic at a home and that act as they issue: DRAW and its shards (16_isa_float R321 to R323;
11_link R205, R206), STCMP (17_isa_memory R329, R330), QPOST (R342) and the full-empty accesses (R328; 09_barrier R171, R172). -/

namespace Sys2Proof.Machine

/-- The threads' earlier accesses leave an atomic step of theirs free to take effect now (R226): their loads have bound their
values, no access of theirs to the range is under way, and its frame does not migrate (R192). -/
def State.mayActNow (s : State) (tids : List Nat) (key n : Nat) : Bool :=
  !s.migratingAt key && !(s.accesses.any fun (_, b) => b.gid == s.cur.gid && !b.helper && tids.any b.tids.contains
    && (b.act == .read || overlaps key n b.key b.size))

/-- A field of a structure in memory, by its lowest bit and its width. -/
def bitsOf (x lo n : Nat) : Nat := x / 2 ^ lo % 2 ^ n

/-- An atomic step on a structure of `size` bytes, aligned to its size. -/
def homeAsk (addr : Quad) (size : Nat) (refuse : List Space) : Ask :=
  { addr := addr, align := size, size := size, write := true, act := .read, refuse := refuse }

/-- Some threads of the pass fault at the word. -/
def State.faultThese (s : State) (tids : List Nat) (code detail : Nat) (addr : Quad) : State :=
  s.takeFaults s.cur.gid s.cur.pid s.cur.at_ (tids.map fun t => { tid := t, code := code, detail := detail, addr := addr })

/-- The cohort waits at the word for a resolution (R188). -/
def State.cowThese (s : State) (ctx leaf frame : Nat) (addr : Quad) (tids : List Nat) : State :=
  let (s, k) := s.cowFor ctx leaf frame
  (s.loudPass s.cur.gid s.cur.pid).blockAll (.cow k addr) tids

/-! ### DRAW -/

/-- A candidate: its value, its index and its carrier with noise added (R322). -/
structure Cand where
  c : Carrier
  n : Word
  z : Carrier
  deriving DecidableEq, Repr

/-- The better of two candidates by value, the smaller index on equal values (R26, R322). -/
def Cand.better (a b : Cand) : Cand :=
  let k := Val.cmp (carrierVal a.z) (carrierVal b.z)
  if k > 0 then a else if k < 0 then b else if a.n.toNat ≤ b.n.toNat then a else b

def bestCand : List Cand → Option Cand
  | [] => none
  | a :: rest => match bestCand rest with
    | none => some a
    | some b => some (a.better b)

/-- The status of a list of values (R322): 1 a NaN, 2 an infinity, 3 all −∞, 0 otherwise. -/
def drawStatus (l : List Carrier) : Nat :=
  if l.any fun c => (carrierVal c).isNan then 1
  else if l.any fun c => carrierVal c == .inf false then 2
  else if l.all fun c => carrierVal c == .inf true then 3
  else 0

/-- The key of a draw (R322). -/
def drawKey (seed : Nat) (index : Word) : Word :=
  mix32 (BitVec.ofNat 32 seed ^^^ mix32 (BitVec.ofNat 32 (seed / 2 ^ 32) + index))

/-- The candidates of the participants. -/
def candidates (seed : Nat) (index : Word) (a : BitVec 6) (l : List View) : List Cand :=
  l.map fun v =>
    let n := (v.v (a.toNat + 1)).w
    { c := v.c a, n := n, z := carryVal (Val.add (carrierVal (v.c a)) (carrierVal (gumbel (drawKey seed index) n))).1 }

/-- The slot of R321 is well formed. -/
def slotOk (x : Nat) : Bool := bitsOf x 176 80 == 0 && decide (bitsOf x 128 32 ≤ 4)

/-- The pass issues nothing until a DRAW's results are readable (R322). -/
def State.raiseNext (s : State) (p : Pass) (lat : Nat) : State :=
  s.onGroup s.cur.gid fun g => match lookup g.passes s.cur.pid with
    | none => g
    | some q => { g with passes := putAt g.passes s.cur.pid { q with next := max q.next (s.cycle + p.beats - 1 + lat) } }

/-- Every cohort thread but those listed writes v[D]; a thread that a decided sharded draw released writes its own winner (R206). -/
def drawPuts (d : BitVec 6) (w : Word) (skip : List Nat) (vs : List View) : List (View × Put) :=
  (vs.filter fun v => !v.helper && !skip.contains v.tid).map fun v => (v, { v := [(d.toNat, Carrier.ofWord (v.th.drawn.getD w))] })

/-- Released threads have used up their result. -/
def State.clearDrawn (s : State) (tids : List Nat) : State :=
  s.onThreads s.cur.gid tids fun t => { t with drawn := none, mark := none, woken := false }

/-- What a DRAW works on: its operands, the views of the pass, the threads that draw, those that a decided sharded draw released and
those that a fault concerns. -/
structure Drawing where
  stall : Nat
  d : BitVec 6
  a : BitVec 6
  addr : Quad
  vs : List View
  l : List View
  done : List View
  who : List Nat

/-- A fault of a DRAW in every cohort thread but those that a decided sharded draw released, which complete (R143, R206). -/
def State.drawFault (s : State) (g : Group) (p : Pass) (w : Drawing) (code detail : Nat) (addr : Quad) : State :=
  match w.done with
  | [] => s.faultThese w.who code detail addr
  | _ => (((s.writeBack g p .cohort w.stall 24 (drawPuts w.d 0 w.who w.vs)).raiseNext p 24).clearDrawn (w.done.map (·.tid))).faultThese
      w.who code detail addr

/-- One draw over the participants, decided at the slot's home (R322, R323). -/
def State.drawHere (s : State) (g : Group) (p : Pass) (w : Drawing) (key x : Nat) : State :=
  let tids := w.l.map (·.tid)
  let st := drawStatus (w.l.map fun (v : View) => v.c w.a)
  let index := BitVec.ofNat 32 (bitsOf x 64 32)
  if bitsOf x 128 32 ≠ 0 then s.drawFault g p w 0x0B (bitsOf x 128 32) 0
  else if st ≠ 0 then
    let gid := s.cur.gid
    (s.drawFault g p w 0x0B st 0).writeNow gid tids (key + 16) w.addr (leBytes 4 st) none
  else match bestCand (candidates (bitsOf x 0 64) index w.a w.l) with
    | none => s
    | some b =>
      let s1 := (s.writeBack g p .cohort w.stall 24 (drawPuts w.d b.n [] w.vs)).raiseNext p 24
      ((s1.loudPass s.cur.gid s.cur.pid).clearDrawn (w.done.map (·.tid))).writeNow s.cur.gid tids (key + 8) w.addr
        (leBytes 4 (index + 1#32).toNat ++ leBytes 4 b.n.toNat) none

/-- What is left of the pass waits at the DRAW for the winner (R83, R322): the cohort threads that were no participants. -/
def State.holdDraw (s : State) (slot index : Nat) (d : BitVec 6) (tids : List Nat) (stall : Nat) : State :=
  s.onGroup s.cur.gid fun g => match lookup g.passes s.cur.pid with
    | none => g
    | some q =>
      if tids.isEmpty then g
      else { g with passes := putAt g.passes s.cur.pid { q with off := s.cur.at_, hold := .draw slot index d.toNat tids s.cur.next stall } }

/-- A shard's draw (R205): its local winner is posted, unless its threads carry the mark of this draw, its participants block, and the
other threads of the cohort wait for the winner in the pass (R322; DEDUCED, log 17). -/
def State.drawShard (s : State) (g : Group) (p : Pass) (w : Drawing) (key x : Nat) : State :=
  let index := BitVec.ofNat 32 (bitsOf x 64 32)
  let fresh := w.l.filter fun v => v.th.mark != some (w.addr, index.toNat)
  let tids := w.l.map (·.tid)
  if bitsOf x 128 32 ≠ 0 then s.drawFault g p w 0x0B (bitsOf x 128 32) 0
  else
    let puts := (drawPuts w.d 0 tids w.vs).filter fun (v, _) => w.done.any fun x => x.tid == v.tid
    let s1 := ((s.writeBack g p .cohort w.stall 24 puts).raiseNext p 24).clearDrawn (w.done.map (·.tid))
    let s2 := match bestCand (candidates (bitsOf x 0 64) index w.a fresh) with
      | none => s1
      | some b =>
        let sh : Shard := { ctx := g.ctx, slot := key, addr := w.addr, val := b.z, idx := b.n.toNat,
                            status := drawStatus (fresh.map fun (v : View) => v.c w.a) % 3, draw := index.toNat }
        { s1 with shards := putAt s1.shards s1.stamp sh, stamp := s1.stamp + 1 }
    (((s2.loudPass s.cur.gid s.cur.pid).onThreads s.cur.gid tids fun t => { t with mark := some (w.addr, index.toNat) }).blockAll
      (.draw key) tids).holdDraw key index.toNat w.d (w.who.filter fun t => !tids.contains t) w.stall

/-- The pass stands at a DRAW until a sharded draw is decided (R322). -/
def waitsForDraw (p : Pass) : Bool := match p.hold with
  | .draw _ _ _ _ _ _ => true
  | _ => false

/-- R322. Gumbel-max choice among the participants at a DRAW slot; a slot that the ECC cannot correct is the fault 0x14 (R379, log 67). The
one g[G] of the instruction is read in its first beat's cycle (R80; DEDUCED, log 82). -/
def execDraw (s : BitVec 2) (d : BitVec 6) (g : BitVec 4) (a : BitVec 6) (st : State) : Res :=
  opening st .cohort { rv := [(a.toNat, 2)], wv := [(d.toNat, 1)], rg := [g.toNat] } fun gr p vs =>
    let all := participants vs st.cur.guard
    let done := all.filter fun v => v.th.drawn.isSome
    let w : Drawing := { stall := s.toNat, d := d, a := a, addr := st.gNow gr g.toNat, vs := vs, l := all.filter fun v => v.th.drawn.isNone,
                         done := done, who := p.cohort.filter fun t => !(done.any fun v => v.tid == t) }
    match w.l with
    | [] => match done with
      | [] => .next (if waitsForDraw p then st else st.passBy .cohort s.toNat false)
      | v :: _ =>
        .next (((st.writeBack gr p .cohort s.toNat 24 (drawPuts d (v.th.drawn.getD 0) [] vs)).raiseNext p 24).clearDrawn (done.map (·.tid)))
    | _ => if waitsForDraw p then .next st else match st.site gr (homeAsk w.addr 32 [.peer, .host]) with
      | .fault c => .next ((st.siteTouch gr (homeAsk w.addr 32 [.peer, .host])).drawFault gr p w c 0 w.addr)
      | .cow leaf frame => .next (st.cowThese gr.ctx leaf frame w.addr w.who)
      | .ok _ key _ leaf =>
        if !st.mayActNow (w.l.map (·.tid)) key 32 then .next (st.holdAt .access)
        else
          let s1 := (st.touch leaf true).countLines gr [] [(st.cycle, w.addr)]
          let x := leNat (s1.latestBytes key 32)
          if st.badIn key 32 then .next ((s1.countBad true).drawFault gr p w 0x14 0 w.addr)
          else if !slotOk x then .next (s1.drawFault gr p w 0x09 0 w.addr)
          else if 2 ≤ bitsOf x 160 8 then .next (s1.drawShard gr p w key x)
          else .next (s1.drawHere gr p w key x)

/-- The threads of a group blocked in a draw at a slot. -/
def drawWaiters (slot index : Nat) (g : Group) : List (Nat × Thread) :=
  g.threads.filter fun (_, t) => t.wait == .draw slot && (match t.mark with
    | some (_, i) => i == index
    | none => false)

/-- The passes that wait at a DRAW for the draw: group, pass, and what the pass holds. -/
def State.drawHolds (s : State) (slot index : Nat) : List (Nat × Nat × Pass) :=
  s.groups.flatMap fun (gid, g) => (g.passes.filter fun (_, p) => match p.hold with
    | .draw k i _ _ _ _ => k == slot && i == index
    | _ => false).map fun (pid, p) => (gid, pid, p)

/-- The waiters of every group. -/
def State.allWaiters (s : State) (slot index : Nat) : List (Nat × Nat) :=
  s.groups.flatMap fun (gid, g) => (drawWaiters slot index g).map fun (tid, _) => (gid, tid)

/-- The home's write enters the horizons of the draw's participants (R323, R227); `twc` is its T_wc, none when nothing is written. -/
def Thread.sawDraw (t : Thread) (slot : Nat) (twc : Option Nat) : Thread :=
  match twc with
  | none => t
  | some w => { t with hm := if keySpace slot = .scratch then t.hm else max t.hm (w + 4) }

/-- The threads that wait in their passes take the numeric fault at the DRAW (R206). -/
def State.failHolds (s : State) (status : Nat) : List (Nat × Nat × Pass) → State
  | [] => s
  | (gid, pid, p) :: rest =>
    let tids := match p.hold with
      | .draw _ _ _ l _ _ => l.filter p.cohort.contains
      | _ => []
    ((s.onGroup gid fun g => match lookup g.passes pid with
      | none => g
      | some q => { g with passes := putAt g.passes pid { q with hold := .none } }).takeFaults gid pid p.off
        (tids.map fun t => { tid := t, code := 0x0B, detail := status, addr := 0 })).afterStep gid pid p |>.failHolds status rest

/-- Every blocked DRAW of the draw takes the numeric fault with the status as detail (R206), once the home's write is in its horizons
(R323). -/
def State.failWaiters (s : State) (slot status : Nat) (twc : Option Nat) : List (Nat × Nat) → State
  | [] => s
  | (gid, tid) :: rest =>
    (match lookup s.groups gid with
      | none => s
      | some g => match (g.thread tid).place with
        | .bin _ b o => (s.onThread gid tid fun t => { t.sawDraw slot twc with mark := none }).faultThread gid b o
            { tid := tid, code := 0x0B, detail := status, addr := 0 }
        | _ => s).failWaiters slot status twc rest

/-- A draw that fails, in every thread that waits for it. -/
def State.failDraws (s : State) (slot index status : Nat) (twc : Option Nat) : State :=
  (s.failWaiters slot status twc (s.allWaiters slot index)).failHolds status (s.drawHolds slot index)

/-- A pass that waited at a DRAW goes on past it with v[D] written in its threads (R322). -/
def Pass.drawn (p : Pass) (cyc : Nat) (w : Word) : Pass :=
  match p.hold with
  | .draw _ _ d tids next stall =>
    { p.addV ((tids.filter p.cohort.contains).map fun t => ⟨cyc, t, d, Carrier.ofWord w⟩) with
      off := next, hold := .none, next := max p.next (nextIssue .cohort p cyc stall) }
  | _ => p

/-- Every blocked DRAW of the draw completes with the winner's index; the write's time enters its horizons (R206, R323). -/
def State.finishDraws (s : State) (slot index : Nat) (w : Word) (twc : Nat) : State :=
  let s := (s.allWaiters slot index).foldl (fun s x => s.onThread x.1 x.2 fun t =>
    { t.wake.sawDraw slot (some twc) with drawn := some w }) s
  (s.drawHolds slot index).foldl (fun s x => (s.onGroup x.1 fun g =>
    { g with passes := putAt g.passes x.2.1 (x.2.2.drawn s.cycle w) }).afterStep x.1 x.2.1 x.2.2) s

/-- The values of the arrivals as candidates. -/
def Draw.cands (d : Draw) : List Cand := d.vals.map fun (c, n, _) => { c := c, n := BitVec.ofNat 32 n, z := c }

/-- The status of a decided draw (R206): the lowest of the shards' NaN and +∞ reports, 3 when every winner is −∞, else 0. -/
def Draw.status (d : Draw) : Nat :=
  if d.vals.any fun (_, _, st) => st == 1 then 1
  else if d.vals.any fun (_, _, st) => st == 2 then 2
  else if d.vals.all fun (c, _, _) => carrierVal c == .inf true then 3
  else 0

/-- The draw whose arrivals are complete is decided at the slot's home (R206). -/
def State.decideDraw (s : State) (slot index : Nat) (d : Draw) : State :=
  let s := { s with draws := drop s.draws slot }
  if d.status ≠ 0 then
    let twc := s.twcOf (slot + 16) 4 0
    let s := (s.arrive (slot + 16) (leBytes 4 d.status) 0 [] 0).arrive (slot + 21) [0] 0 [] 0
    s.failDraws slot index d.status (some twc)
  else match bestCand d.cands with
    | none => s
    | some w =>
      let twc := s.twcOf (slot + 8) 8 0
      let s := (s.arrive (slot + 8) (leBytes 4 (BitVec.ofNat 32 (index + 1)).toNat ++ leBytes 4 w.n.toNat) 0 [] 0).arrive (slot + 21) [0] 0 [] 0
      s.finishDraws slot index w.n twc

/-- LEASE.LINKTO of a draw has passed since its first arrival (R206). -/
def Draw.late (d : Draw) (s : State) : Bool := decide (d.since + (s.ctx d.ctx).linkto * 1000 ≤ s.now)

/-- R206. A shard's local winner arrives at the slot's home; one that comes LEASE.LINKTO after the first finds the draw timed out. -/
def execDrawShardArrival (k : Nat) (st : State) : Res :=
  match lookup st.shards k with
  | none => .next st
  | some h =>
    if (lookup st.draws h.slot).any fun d => d.late st then .next st else
    let s := { st with shards := drop st.shards k }
    let x := leNat (s.latestBytes h.slot 32)
    if bitsOf x 128 32 ≠ 0 then .next (s.failDraws h.slot h.draw (bitsOf x 128 32) none)
    else
      let d0 : Draw := (lookup s.draws h.slot).getD { since := s.now, ctx := h.ctx, vals := [] }
      let d := { d0 with vals := d0.vals ++ [(h.val, h.idx, h.status)] }
      let n := bitsOf x 168 8 + 1
      if bitsOf x 160 8 ≤ n then .next (s.decideDraw h.slot (bitsOf x 64 32) d)
      else .next ({ s with draws := putAt s.draws h.slot d }.arrive (h.slot + 21) [BitVec.ofNat 8 n] 0 [] 0)

/-- R206. Arrivals still missing LEASE.LINKTO after the first: status 4, and every blocked DRAW faults with it. -/
def execDrawShardTimeout (slot : Nat) (st : State) : Res :=
  match lookup st.draws slot with
  | none => .next st
  | some d =>
    if !d.late st then .next st
    else
      let x := leNat (st.latestBytes slot 32)
      let s := { st with draws := drop st.draws slot }
      let twc := s.twcOf (slot + 16) 4 0
      let s := (s.arrive (slot + 16) (leBytes 4 4) 0 [] 0).arrive (slot + 21) [0] 0 [] 0
      .next (s.failDraws slot (bitsOf x 64 32) 4 (some twc))

/-! ### Stream compaction -/

/-- A register result of all cohort threads, and of the helpers when `helpers` says so, covered by a token. -/
def State.sendAll (s : State) (p : Pass) (tok : Nat) (d : Nat) (c : Carrier) (helpers : Bool) : State :=
  let r : Result := { gid := s.cur.gid, pid := s.cur.pid, tids := p.cohort, helper := false, tok := tok, addr := 0, fill := .ready d,
                      bytes := [], vals := [c], fail := 0 }
  let s := s.send r
  if helpers && !p.helpers.isEmpty then s.send { r with tids := p.helpers.map (·.1), helper := true } else s

/-- The element stores of a claim (R330). -/
def elemAsk (base : Nat) (i : Nat) (w : Word) : Ask :=
  { addr := BitVec.ofNat 64 (base + 4 * i), align := 4, size := 4, write := true, act := .write (leBytes 4 w.toNat),
    beyond := decide (2 ^ 64 ≤ base + 4 * i) }

/-- The first element address that does not translate as a write, and how. -/
def State.firstBad (s : State) (g : Group) : List Ask → Option (Quad × Trans)
  | [] => none
  | q :: rest => match s.site g q with
    | .ok _ _ _ _ => s.firstBad g rest
    | t => some (q.addr, t)

/-- The leaves of the element addresses before the first that does not translate (R181). -/
def State.touchAsks (s : State) (g : Group) : List Ask → State
  | [] => s
  | q :: rest => match s.site g q with
    | .ok _ _ _ _ => (s.siteTouch g q).touchAsks g rest
    | _ => s.siteTouch g q

/-- The claim and its stores (R330). `x` is the descriptor as read at its home. -/
def State.compact (s : State) (g : Group) (p : Pass) (l : List View) (stall tok : Nat) (d a : BitVec 6) (addr : Quad) (key x : Nat) : State :=
  let base := bitsOf x 0 64
  let cap := bitsOf x 64 32
  let tail := bitsOf x 96 32
  let n := l.length
  let m := if cap ≤ tail then 0 else min n (cap - tail)
  let asks : List (View × Ask) := ((List.range m).zip l).map fun (r, v) => (v, elemAsk base (tail + r) (v.w d))
  if bitsOf x 160 96 ≠ 0 ∨ 1 < bitsOf x 128 32 then s.faultAll p 0x09 0 addr
  else if base % 4 ≠ 0 then s.faultAll p 0x04 0 (BitVec.ofNat 64 base)
  else match s.firstBad g (asks.map (·.2)) with
    | some (at_, .cow leaf frame) => (s.touchAsks g (asks.map (·.2))).cowThese g.ctx leaf frame at_ p.cohort
    | some (at_, .fault c) => (s.touchAsks g (asks.map (·.2))).faultAll p c 0 at_
    | _ =>
      let s1 := s.passBy .cohort stall true
      let s2 := s1.writeNow s.cur.gid (l.map (·.tid)) (key + 12) addr
        (leBytes 4 (BitVec.ofNat 32 (tail + m)).toNat ++ if m < n then leBytes 4 1 else []) none
      let s3 := (s2.askAll g 3 asks).1
      let s4 := s3.countLines g [] ((s.cycle, addr) :: asks.map fun (v, q) => (v.cyc, q.addr))
      s4.sendAll p tok a.toNat (Carrier.ofWord (BitVec.ofNat 32 m)) true

/-- R330. Claims queue elements and compacts the participants' words into them; a descriptor that the ECC cannot correct is the fault
0x14 (R379, log 67). The one g[G] of the instruction is read in its first beat's cycle (R80; DEDUCED, log 82). -/
def execStcmp (s : BitVec 2) (d : BitVec 6) (g : BitVec 4) (a : BitVec 6) (t : BitVec 2) (st : State) : Res :=
  opening st .cohort { rv := [(d.toNat, 1)], wv := [(a.toNat, 1)], rg := [g.toNat] } fun gr p vs =>
    let l := participants vs st.cur.guard
    let addr := st.gNow gr g.toNat
    let st := st.nameToken st.cur.gid t.toNat
    if l.isEmpty then .next ((st.passBy .cohort s.toNat false).sendAll p t.toNat a.toNat Carrier.zero false)
    else match st.site gr (homeAsk addr 32 [.peer, .host]) with
      | .fault c => .next ((st.siteTouch gr (homeAsk addr 32 [.peer, .host])).faultAll p c 0 addr)
      | .cow leaf frame => .next (st.cowThese gr.ctx leaf frame addr p.cohort)
      | .ok _ key _ leaf =>
        if !st.mayActNow (l.map (·.tid)) key 32 then .next (st.holdAt .access)
        else if st.badIn key 32 then .next (((st.touch leaf true).countBad true).faultAll p 0x14 0 addr)
        else
          let s1 := st.touch leaf true
          .next (s1.compact gr p l s.toNat t.toNat d a addr key (leNat (s1.latestBytes key 32)))

/-! ### Posting packets -/

/-- The queue header of Table 17-3 is well formed. -/
def headerOk (x : Nat) : Bool :=
  bitsOf x 197 315 == 0 && decide (4 ≤ bitsOf x 192 5) && decide (bitsOf x 192 5 ≤ 20) && bitsOf x 0 64 % 64 == 0

/-- A result of one thread, covered by a token; or its late fault. From a header at a peer it comes through a port (R203, R325). -/
def State.sendOne (s : State) (tid tok : Nat) (addr : Quad) (d : Nat) (w : Word) (fail : Nat) (port : Option Nat) : State :=
  s.send { gid := s.cur.gid, pid := s.cur.pid, tids := [tid], helper := false, tok := tok, addr := addr, fill := .ready d, bytes := [],
           vals := [Carrier.ofWord w], fail := fail, port := port, since := s.now, wrote := true }

/-- The slot that a claim would take, in exact addresses (R7), with its packet (R342). -/
def slotAsk (v : View) (d : BitVec 6) (x : Nat) : Ask :=
  let w := bitsOf x 64 64
  let at_ := bitsOf x 0 64 + 64 * (w % 2 ^ bitsOf x 192 5)
  { addr := BitVec.ofNat 64 at_, align := 64, size := 64, write := true, beyond := decide (2 ^ 64 ≤ at_),
    act := .write (leBytes 4 w ++ v.wordBytes (d.toNat + 1) 15) }

/-- One thread's claim and packet (R342); the queue is full when WIDX − RIDX, exact (R7), is at least its size. A header at a peer that is
beyond correction is answered with an error (R204). -/
def State.post (s0 : State) (g : Group) (v : View) (tok : Nat) (d a : BitVec 6) (addr : Quad) : State × (View × Ask × Fate) :=
  let q := homeAsk addr 64 [.host]
  let s := s0.siteTouch g q
  match s0.site g q with
  | .fault c => (s, (v, q, .fault c))
  | .cow leaf frame =>
    let (s, k) := s.cowFor g.ctx leaf frame
    (s, (v, q, .cow k))
  | .ok space key _ _ =>
    let port := s.portFor space key
    if !s.reached space key then ((s.countTimeout (s.portToward key)).sendOne v.tid tok addr a.toNat 0 0x0F none, (v, q, .gone))
    else if s.badIn key 64 then
      ((if space = .peer then s.countTimeout port else s.countBad true).sendOne v.tid tok addr a.toNat 0 0x14 port, (v, q, .gone))
    else
      let x := leNat (s.latestBytes key 64)
      let w := bitsOf x 64 64
      if !headerOk x then (s, (v, q, .fault 0x09))
      else if bitsOf x 128 64 + 2 ^ bitsOf x 192 5 ≤ w then (s.sendOne v.tid tok addr a.toNat 0xFFFFFFFF#32 0 port, (v, q, .gone))
      else
        let slot := slotAsk v d x
        match s.ask g [v.tid] false 3 v.cyc slot with
        | (s, .gone) =>
          let s := s.writeNow s.cur.gid [v.tid] (key + 8) addr (leBytes 8 (w + 1)) (port.map fun _ => s.stamp + 1)
          (s.sendOne v.tid tok addr a.toNat (BitVec.ofNat 32 w) 0 port, (v, slot, .gone))
        | (s, f) => (s, (v, slot, f))

def State.postAll (s : State) (g : Group) (tok : Nat) (d a : BitVec 6) (gi : Nat) : List View → State × List (View × Ask × Fate)
  | [] => (s, [])
  | v :: rest =>
    let (s, r) := s.post g v tok d a (v.g gi)
    let (s, l) := s.postAll g tok d a gi rest
    (s, r :: l)

/-- R342. Each passing thread claims a slot of a ring and writes a 64-byte packet. It counts as a store for R145 also where it finds the ring
full and writes nothing (DEDUCED, log 84). A claim at a peer crosses its port behind what waits there (R194). -/
def execQpost (s : BitVec 2) (d : BitVec 6) (g : BitVec 4) (a : BitVec 6) (t : BitVec 2) (st : State) : Res :=
  opening st .lane { rv := [(d.toNat + 1, 15)], wv := [(a.toNat, 1)], rg := [g.toNat] } fun gr _ vs =>
    let l := participants vs st.cur.guard
    let ready := l.all fun v => match st.site gr (homeAsk (v.g g.toNat) 64 [.host]) with
      | .ok space key _ _ => st.mayActNow [v.tid] key 64 && st.portClear st.stamp (st.portFor space key)
      | _ => true
    if !ready then .next (st.holdAt .access)
    else
      let s1 := (st.nameToken st.cur.gid t.toNat).passBy .lane s.toNat !l.isEmpty
      let (s2, fates) := s1.postAll gr t.toNat d a g.toNat l
      let lines := fates.filterMap fun (v, q, f) => if f = .gone then some (v.cyc, q.addr) else none
      let s3 := (s2.countLines gr [] (l.map (fun v => (v.cyc, v.g g.toNat)) ++ lines)).onGroup st.cur.gid fun g =>
        g.blockCows st.cur.pid st.cur.at_ fates
      .next (s3.takeFaults st.cur.gid st.cur.pid st.cur.at_ (faultsOf fates))

/-! ### Full-empty accesses -/

/-- Whether an access goes on at a granule of that state (R171): 0 LDFE, 1 LDFE consume, 2 STFE, 3 STFE wait-empty. -/
def granuleGoes (op : Nat) (full : Bool) : Bool := if op ≤ 1 then full else op == 2 || !full

/-- The bit after an access that went on (R171). -/
def granuleAfter (op : Nat) (full : Bool) : Bool := if op = 1 then false else if op = 0 then full else true

/-- The granule's memory key in its team. -/
def Team.granuleKey (t : Team) (n : Nat) : Nat := t.scratchAt (16 * n)

/-- An access performed at its granule: what it reads, and the state after it. -/
def State.granuleAct (s : State) (key op : Nat) (bytes : List Byte) : State × List Byte :=
  let old := s.bytes key 16
  let full := readAt false s.full key
  let s := { s with full := writeAt false s.full key (granuleAfter op full) }
  (if op ≤ 1 then s else { s with mem := writeBytes s.mem key bytes }, old)

/-- The blocked accesses of a granule, retried in the order the threads blocked; one that finds its state unchanged goes to the back,
and a change of the bit retries every one that remains (R172). A load whose data is beyond correction ends there and leaves the bit as it
was (R325, R379; DESIGN CHOICE, log 83). -/
def State.retryGranule : Nat → State → Nat → Nat → List Waiter → List Waiter → State
  | 0, s, team, _, todo, back =>
    match lookup s.teams team with
    | none => s
    | some t => { s with teams := putAt s.teams team { t with queue := t.queue ++ back ++ todo } }
  | fuel + 1, s, team, key, todo, back =>
    match todo with
    | [] => match lookup s.teams team with
      | none => s
      | some t => { s with teams := putAt s.teams team { t with queue := t.queue ++ back } }
    | w :: rest =>
      let full := readAt false s.full key
      let waits := match lookup s.groups w.gid with
        | none => false
        | some g => (g.thread w.tid).wait == .granule w.gran
      if !waits then retryGranule fuel s team key rest back
      else if !granuleGoes w.op full then retryGranule fuel s team key rest (back ++ [w])
      else if w.op ≤ 1 ∧ s.badIn key 16 then
        retryGranule fuel ((s.countBad true).onThread w.gid w.tid fun t => { t.wake with got := none }) team key rest back
      else
        let (s, old) := s.granuleAct key w.op w.bytes
        let s := s.onThread w.gid w.tid fun t => { t.wake with got := some old }
        if granuleAfter w.op full = full then retryGranule fuel s team key rest back
        else retryGranule fuel s team key (rest ++ back) []

/-- The retry after a change of a granule's bit. -/
def State.granuleChanged (s : State) (team n : Nat) : State :=
  match lookup s.teams team with
  | none => s
  | some t =>
    let mine := t.queue.filter fun w => w.gran == n
    let s := { s with teams := putAt s.teams team { t with queue := t.queue.filter fun w => w.gran != n } }
    s.retryGranule ((mine.length + 1) * (mine.length + 1)) team (t.granuleKey n) mine []

/-- A full-empty access blocks (R171): cause 3, at the back of its granule's order; a load's token stays pending (R328). -/
def State.blockGranule (s : State) (team n tid op tok : Nat) (bytes : List Byte) : State :=
  let s := s.onGroup s.cur.gid fun g => g.block s.cur.pid tid s.cur.at_ 3 (.granule n)
  let s := if tok < 3 then s.onThread s.cur.gid tid fun t => { t with ltok := some tok } else s
  match lookup s.teams team with
  | none => s
  | some t => { s with teams := putAt s.teams team { t with queue := t.queue ++ [(⟨n, s.cur.gid, tid, op, bytes⟩ : Waiter)] } }

/-- The granule of an address (R171, R328), or the code of its fault. -/
def granuleOf (t : Team) (addr : Quad) : Nat ⊕ Nat :=
  if addr.toNat % 16 ≠ 0 then .inr 0x04
  else if 0xFF00000000000000 ≤ addr.toNat ∧ addr.toNat < 0xFF00000000000000 + t.scratch then .inl ((addr.toNat - 0xFF00000000000000) / 16)
  else .inr 0x05

/-- The result of a full-empty load, or its late fault (R325). -/
def State.sendGranule (s : State) (v : View) (tok : Nat) (d : BitVec 6) (addr : Quad) (bytes : List Byte) (fail : Nat) : State :=
  s.send { gid := s.cur.gid, pid := s.cur.pid, tids := [v.tid], helper := v.helper, tok := tok, addr := addr, fill := .words d.toNat 4,
           bytes := bytes, vals := [], fail := fail }

/-- One thread's full-empty access (R171, R328). A helper reads a full granule without changing it, and reads zero from an empty one or
where it would fault. The bit is tested before the data: a load blocks at an empty granule whatever its ECC says, and one that would go on
but meets data beyond correction reports late and leaves the bit as it was (R325, R379; DESIGN CHOICE, log 83). -/
def State.granuleOne (s : State) (team : Nat) (tok : Nat) (d : BitVec 6) (op : Nat) (v : View) (addr : Quad) : State × Option Flt :=
  match lookup s.teams team with
  | none => (s, some { tid := v.tid, code := 0x05, detail := 0, addr := addr })
  | some t => match granuleOf t addr with
    | .inr c => if v.helper then (s.sendGranule v tok d addr (List.replicate 16 0) 0, none)
        else (s, some { tid := v.tid, code := c, detail := 0, addr := addr })
    | .inl n =>
      let key := t.granuleKey n
      let full := readAt false s.full key
      if v.helper then (s.sendGranule v tok d addr (if full && !s.badIn key 16 then s.bytes key 16 else List.replicate 16 0) 0, none)
      else if v.th.woken then
        let s := s.onThread s.cur.gid v.tid fun t => { t with woken := false, got := none, ltok := none }
        (if op ≤ 1 then (match v.th.got with
          | some b => s.sendGranule v tok d addr b 0
          | none => s.sendGranule v tok d addr [] 0x14) else s, none)
      else
        let bytes := v.wordBytes d.toNat 4
        if !granuleGoes op full then (s.blockGranule team n v.tid op tok bytes, none)
        else if op ≤ 1 ∧ s.badIn key 16 then ((s.countBad true).sendGranule v tok d addr [] 0x14, none)
        else
          let (s, old) := s.granuleAct key op bytes
          let s := if granuleAfter op full = full then s else s.granuleChanged team n
          (if op ≤ 1 then s.sendGranule v tok d addr old 0 else s, none)

def State.granuleAll (s : State) (team : Nat) (tok : Nat) (d : BitVec 6) (op : Nat) : List (View × Quad) → State × List Flt
  | [] => (s, [])
  | (v, addr) :: rest =>
    let (s, f) := s.granuleOne team tok d op v addr
    let (s, l) := s.granuleAll team tok d op rest
    (s, f.toList ++ l)

/-- One beat of a full-empty access, of the cycle `c`, at its granules, in ascending TID; `rest` holds the threads of the beats to come,
between which other cores' accesses take effect (R172), and `after` the cycle from which the next word may issue. The beats issue on
consecutive cycles, however late their accesses reach their home (R79). -/
def granuleBeat (st : State) (gr : Group) (p : Pass) (tok op : Nat) (d : BitVec 6) (l : List (View × Quad)) (rest : List (List Nat)) (c after : Nat) :
    Res :=
  let ready := l.all fun (v, addr) => v.helper || (match st.locate gr addr false with
    | .ok .scratch key _ _ => st.mayActNow [v.tid] key 16
    | _ => true)
  let loud := decide (2 ≤ op) && !l.isEmpty
  let goes := fun (q : Pass) => match rest with
    | [] => { q with off := st.cur.next, next := after, hold := .none, loud := q.loud || loud }
    | _ => { q with next := c + 1, hold := .beats tok (c + 1) after rest, loud := q.loud || loud }
  if !ready then .next (match p.hold with
    | .beats _ _ _ _ => st
    | _ => st.holdAt .access)
  else
    let s1 := (st.nameToken st.cur.gid tok).onGroup st.cur.gid fun g => match lookup g.passes st.cur.pid with
      | none => g
      | some q => { g with passes := putAt g.passes st.cur.pid (goes q) }
    let (s2, faults) := s1.granuleAll gr.team tok d op l
    .next (s2.takeFaults st.cur.gid st.cur.pid st.cur.at_ faults)

/-- The beats of a pass that are still to act: the cycle of the next, the cycle after them, and their threads. -/
def Pass.beatsLeft (p : Pass) : Option (Nat × Nat × List (List Nat)) := match p.hold with
  | .beats _ at_ after left => some (at_, after, left)
  | _ => none

/-- LDFE and STFE, beat by beat (R140, R172); each beat reads its operands in its own cycle (R80). -/
def granuleOp (st : State) (s : BitVec 2) (tok op : Nat) (n : Needs) (d : BitVec 6) (g : BitVec 4) (a : BitVec 6) : Res :=
  match st.issuing.bind fun x => x.2.beatsLeft.map fun y => (x.1, x.2, y) with
  | some (gr, p, at_, after, left) =>
    if !mayIssue st gr p then .next st
    else
      let tids := left.headD []
      let l := ((p.views gr at_).filter fun v => tids.contains v.tid).map fun v => viewAt gr p v.pos v.tid at_
      granuleBeat st gr p tok op d (l.map fun v => (v, v.at_ g a 4)) (left.drop 1) at_ after
  | none =>
    opening st .lane n fun gr p vs =>
      let l := (vs.filter fun v => v.passes st.cur.guard && (!v.helper || op ≤ 1)).map fun v => (v, v.at_ g a 4)
      let beat := fun i => l.filter fun (v, _) => v.cyc == st.cycle + i
      granuleBeat st gr p tok op d (beat 0) (((List.range (p.beats - 1)).map fun i => (beat (i + 1)).map fun (v, _) => v.tid))
        st.cycle (nextIssue .lane p st.cycle s.toNat)

/-- R328. Full-empty load of a granule. -/
def execLdfe (s : BitVec 2) (c : BitVec 1) (d : BitVec 6) (g : BitVec 4) (a : BitVec 6) (t : BitVec 2) (st : State) : Res :=
  granuleOp st s t.toNat c.toNat (memNeeds g a [] [(d.toNat, 4)]) d g a

/-- R328. Full-empty store of a granule. -/
def execStfe (s : BitVec 2) (w : BitVec 1) (d : BitVec 6) (g : BitVec 4) (a : BitVec 6) (st : State) : Res :=
  granuleOp st s 3 (2 + w.toNat) (memNeeds g a [(d.toNat, 4)] []) d g a

end Sys2Proof.Machine
end

