-- ==== Sys2Proof/Machine/Pages.lean ====
section
/-! DEFINITION. The frame unit's instructions and events: page operations (10_page R185, R186), copy-on-write resolutions (R188, R189,
R381), migration (R192), and the page-table writes of MAP, UNMAP and CTX.DESTROY (R382, R383). -/

namespace Sys2Proof.Machine

/-! ### Level-4 entries -/

/-- What a walk to a level-4 entry finds: a status of R185, or the entry's address and value. -/
inductive Entry where
  | bad (status : Nat)
  | at_ (key : Nat) (e : Quad)
  deriving DecidableEq, Repr

/-- The walk to the level-4 entry of an address over the levels that remain (R179, R185 statuses 3 and 4). -/
def State.entryFrom (s : State) : List (Nat × Nat) → Nat → Nat → Entry
  | [], node, va => .at_ (node + 8 * (va / 2 ^ 16 % 512)) (s.latest8 (node + 8 * (va / 2 ^ 16 % 512)))
  | (shift, code) :: rest, node, va =>
    let e := s.latest8 (node + 8 * (va / 2 ^ shift % 512))
    if !e.getLsbD 0 then .bad 4
    else if fld e 7 6 = 0 then (if tableShapeOk e then s.entryFrom rest (fld e 51 12 * 2 ^ 12) va else .bad 4)
    else if code ≠ 0 ∧ fld e 7 6 = code ∧ leafShapeOk e shift then .bad 3
    else .bad 4

/-- The level-4 entry of an address of a context; a misaligned address or one above 2^52 has status 3. -/
def State.entry (s : State) (ctx va : Nat) : Entry :=
  if va % 2 ^ 16 ≠ 0 ∨ 2 ^ 52 ≤ va then .bad 3
  else s.entryFrom (levels.take 3) (fld (s.ctx ctx).ptroot 51 12 * 2 ^ 12) va

/-- A counted mapping (R183): a valid 64 KiB TYPE 0 leaf with CNT. -/
def countedEntry (e : Quad) : Bool := e.getLsbD 0 && e.getLsbD 2 && fld e 7 6 == 1 && fld e 9 8 == 0

/-- A counted mapping with a reserved bit set (Table 10-1, R5). -/
def Entry.unclean : Entry → Bool
  | .bad _ => false
  | .at_ _ e => countedEntry e && fld e 15 12 != 0

/-- The frame of a leaf. -/
def frameOf (e : Quad) : Nat := fld e 51 16

/-- A source leaf that R185 refuses with status 6. -/
def State.notCounted (s : State) (e : Quad) : Bool := !countedEntry e || (s.frame (frameOf e)).count == 0

/-- The lowest status of a list; 0 when it is empty. -/
def lowest : List Nat → Nat
  | [] => 0
  | a :: rest => match rest with
    | [] => a
    | _ => min a (lowest rest)

/-- The statuses of a run of destination leaves of a PGALLOC or PGSHARE. -/
def destStatus : Entry → List Nat
  | .bad n => [n]
  | .at_ _ e => if e.getLsbD 0 then [5] else []

/-- The statuses of a source leaf of a PGFREE or PGSHARE. -/
def State.sourceStatus (s : State) : Entry → List Nat
  | .bad n => [n]
  | .at_ _ e => if s.notCounted e then [6] else []

/-- The entries of a run of pages. -/
def State.run (s : State) (ctx va n : Nat) : List Entry := (List.range n).map fun i => s.entry ctx (va + i * 2 ^ 16)

/-- An entry's address, for the checks against resolutions. -/
def Entry.keys : Entry → List Nat
  | .bad _ => []
  | .at_ k _ => [k]

/-- A resolution that has been decided holds its leaf until it completes (R188). -/
def State.leafHeld (s : State) (keys : List Nat) : Bool :=
  s.cows.any fun (_, c) => keys.contains c.leaf && c.st != .waiting

/-- The latest T_wc of the writes to a list of entries (R186). -/
def State.entriesTwc (s : State) (keys : List Nat) : Nat := keys.foldl (fun t k => max t (s.twcOver k 8)) s.now

/-! ### Page operations -/

/-- A page operation's outcome: the state, what it writes to g[D], and the entries it wrote. -/
abbrev PgOut := State × Quad × List Nat

/-- Frames from the pool head mapped at a run of entries (R183, R185). -/
def State.allocEntries (s : State) (q : Nat) : List Entry → State
  | [] => s
  | .bad _ :: rest => s.allocEntries q rest
  | .at_ k _ :: rest =>
    match lookup s.pools q with
    | none => s
    | some pl => match s.takeHead q pl with
      | none => s
      | some (f, s) => ((s.putFrame f { s.frame f with st := .allocated, count := 1, pool := some q }).writePte k (countedLeaf f)).allocEntries q rest

/-- PGALLOC (R185). -/
def State.pgAlloc (s : State) (ctx : Nat) (va n : Quad) : PgOut :=
  let count := n.toNat
  let pool := s.poolOf ctx
  let misplaced := va.toNat % 2 ^ 16 != 0 || decide (2 ^ 52 ≤ va.toNat)
  if count = 0 ∨ 4096 < count then (s, BitVec.ofNat 64 (if pool.isNone then 2 else if misplaced then 3 else 7), [])
  else
    let es := s.run ctx va.toNat count
    let short := match pool with
      | some (_, pl) => decide (pl.free.length < count + pl.reserve)
      | none => false
    let st := lowest ((if short then [1] else []) ++ (if pool.isNone then [2] else []) ++ (if misplaced then [3] else []) ++ es.flatMap destStatus)
    match pool with
    | some (q, _) => if st = 0 then (s.allocEntries q es, 0, es.flatMap Entry.keys) else (s, BitVec.ofNat 64 st, [])
    | none => (s, BitVec.ofNat 64 st, [])

/-- PGSHARE (R185): the destination is a copy of the source with A = D = 0, and both are copy-on-write. -/
def State.pgShare (s : State) (ctx : Nat) (dst src : Quad) : PgOut :=
  let d := s.entry ctx dst.toNat
  let e := s.entry ctx src.toNat
  let full := match e with
    | .at_ _ x => if (s.frame (frameOf x)).count = 65535 then [7] else []
    | .bad _ => []
  let st := lowest ((if (s.poolOf ctx).isNone then [2] else []) ++ destStatus d ++ s.sourceStatus e ++ full)
  match d, e with
  | .at_ kd _, .at_ ke x =>
    if st ≠ 0 then (s, BitVec.ofNat 64 st, [])
    else
      let f := frameOf x
      let s := s.putFrame f { s.frame f with count := (s.frame f).count + 1 }
      ((s.writePte ke (x ||| 8#64)).writePte kd ((x ||| 8#64) &&& ~~~0x30#64), 0, [kd, ke])
  | _, _ => (s, BitVec.ofNat 64 st, [])

/-- A run of counted leaves zeroed, each frame's COUNT lowered (R183, R185). -/
def State.freeEntries (s : State) : List Entry → State
  | [] => s
  | .bad _ :: rest => s.freeEntries rest
  | .at_ k e :: rest => ((s.writePte k 0).decCount (frameOf e)).freeEntries rest

/-- PGFREE (R185). -/
def State.pgFree (s : State) (ctx : Nat) (va n : Quad) : PgOut :=
  let count := n.toNat
  let none_ := (s.poolOf ctx).isNone
  let misplaced := va.toNat % 2 ^ 16 != 0 || decide (2 ^ 52 ≤ va.toNat)
  if count = 0 ∨ 4096 < count then (s, BitVec.ofNat 64 (if none_ then 2 else if misplaced then 3 else 7), [])
  else
    let es := s.run ctx va.toNat count
    let st := lowest ((if none_ then [2] else []) ++ (if misplaced then [3] else []) ++ es.flatMap s.sourceStatus)
    if st = 0 then (s.freeEntries es, 0, es.flatMap Entry.keys) else (s, BitVec.ofNat 64 st, [])

/-- PGINFO (R185, Table 10-2). -/
def State.pgInfo (s : State) (ctx : Nat) (va : Quad) : PgOut :=
  match s.entry ctx (va.toNat / 2 ^ 16 * 2 ^ 16) with
  | .at_ _ e => (s, if countedEntry e then s.frameImage (frameOf e) else 0xFFFFFFFFFFFFFFFF#64, [])
  | .bad _ => (s, 0xFFFFFFFFFFFFFFFF#64, [])

/-- PGRSV (R185). -/
def State.pgRsv (s : State) (ctx : Nat) (n : Quad) : PgOut :=
  match s.poolOf ctx with
  | none => (s, 0xFFFFFFFFFFFFFFFF#64, [])
  | some (q, pl) => ({ s with pools := putAt s.pools q { pl with reserve := n.toNat % 2 ^ 32 } }, BitVec.ofNat 64 pl.reserve, [])

/-- What a page operation waits at: a resolution that holds one of its entries (R188), or the holder of the frame that a PGSHARE would
share (R186), the only wait that a halt abandons (R156). -/
def State.pageWait (s : State) (keys : List Nat) (src : Option Nat) : Option Hold :=
  if s.leafHeld keys then some .leaf
  else match src with
    | none => none
    | some f => if s.chunks.any fun (_, c) => c.wframes.contains f then some .share else none

/-- The first of some pages of a context whose counted mapping has a reserved bit set. -/
def State.uncleanPage (s : State) (ctx : Nat) (l : List Nat) : Option Quad :=
  (l.find? fun va => (s.entry ctx va).unclean).map (BitVec.ofNat 64)

/-- The common shape of the page operations (R83, R186): decided and applied in one step, its status written once its entries have
reached their completion time. `unclean` is a page whose mapping, which the operation would act on, has a reserved bit set: the descriptor
fault, and no effect (R5; DEDUCED, log 89). -/
def pageOp (st : State) (s : BitVec 2) (d : BitVec 6) (regs : List Nat) (touched : Group → List Nat × Option Nat) (f : State → Group → PgOut)
    (unclean : Group → Option Quad := fun _ => none) : Res :=
  opening st .pass { rg := regs } fun g p vs =>
    match participants vs st.cur.guard with
    | [] => .next (st.passBy .pass s.toNat false)
    | l =>
      let (keys, src) := touched g
      match st.pageWait keys src with
      | some h => .next (st.holdAt h)
      | none => match unclean g with
        | some va => .next (st.faultAll p 0x09 0 va)
        | none =>
          let (s1, x, written) := f st g
          .next ((s1.passBy .pass s.toNat true).send
          { gid := st.cur.gid, pid := st.cur.pid, tids := l.map (·.tid), helper := false, tok := 4, addr := 0, fill := .uniform d.toNat,
            bytes := leBytes 8 x.toNat, vals := [], fail := 0, due := s1.entriesTwc written })

/-- The entries of a run, at most the 4096 that a page operation may touch. -/
def State.runKeys (s : State) (ctx : Nat) (va n : Quad) : List Nat :=
  if 4096 < n.toNat then [] else (s.run ctx va.toNat n.toNat).flatMap Entry.keys

/-- R185. Maps a run of new pool frames as counted leaves. -/
def execPgalloc (s : BitVec 2) (d a b : BitVec 6) (st : State) : Res :=
  pageOp st s d [a.toNat, b.toNat] (fun g => (st.runKeys g.ctx (st.gNow g a.toNat) (st.gNow g b.toNat), none))
    fun t g => t.pgAlloc g.ctx (t.gNow g a.toNat) (t.gNow g b.toNat)

/-- R185, R186. Shares a counted leaf copy-on-write. -/
def execPgshare (s : BitVec 2) (d a b : BitVec 6) (st : State) : Res :=
  pageOp st s d [a.toNat, b.toNat]
    (fun g =>
      let src := st.entry g.ctx (st.gNow g b.toNat).toNat
      ((st.entry g.ctx (st.gNow g a.toNat).toNat).keys ++ src.keys, match src with
        | .at_ _ e => if countedEntry e then some (frameOf e) else none
        | .bad _ => none))
    (fun t g => t.pgShare g.ctx (t.gNow g a.toNat) (t.gNow g b.toNat))
    fun g => if (st.pgShare g.ctx (st.gNow g a.toNat) (st.gNow g b.toNat)).2.1 = 0 then st.uncleanPage g.ctx [(st.gNow g b.toNat).toNat] else none

/-- R185. Zeroes a run of counted leaves. -/
def execPgfree (s : BitVec 2) (d a b : BitVec 6) (st : State) : Res :=
  pageOp st s d [a.toNat, b.toNat] (fun g => (st.runKeys g.ctx (st.gNow g a.toNat) (st.gNow g b.toNat), none))
    (fun t g => t.pgFree g.ctx (t.gNow g a.toNat) (t.gNow g b.toNat))
    fun g => if (st.pgFree g.ctx (st.gNow g a.toNat) (st.gNow g b.toNat)).2.1 = 0 then
      st.uncleanPage g.ctx ((List.range (st.gNow g b.toNat).toNat).map fun i => (st.gNow g a.toNat).toNat + i * 2 ^ 16) else none

/-- R185. The frame entry of a counted leaf. -/
def execPginfo (s : BitVec 2) (d a : BitVec 6) (st : State) : Res :=
  pageOp st s d [a.toNat] (fun g => ((st.entry g.ctx ((st.gNow g a.toNat).toNat / 2 ^ 16 * 2 ^ 16)).keys, none))
    (fun t g => t.pgInfo g.ctx (t.gNow g a.toNat)) fun g => st.uncleanPage g.ctx [(st.gNow g a.toNat).toNat / 2 ^ 16 * 2 ^ 16]

/-- R185. The old reserve, and the new one set. -/
def execPgrsv (s : BitVec 2) (d a : BitVec 6) (st : State) : Res :=
  pageOp st s d [a.toNat] (fun _ => ([], none)) fun t g => t.pgRsv g.ctx (t.gNow g a.toNat)

/-! ### Copy-on-write -/

/-- The threads blocked on a resolution. -/
def State.cowWaiters (s : State) (k : Nat) : List (Nat × Nat × Quad) :=
  s.groups.flatMap fun (gid, g) => g.threads.filterMap fun (tid, t) => match t.wait with
    | .cow j addr => if j = k then some (gid, tid, addr) else none
    | _ => none

/-- The pool-exhausted fault in every blocked thread, in place of the COW fault (R188). -/
def State.exhaust (s : State) : List (Nat × Nat × Quad) → State
  | [] => s
  | (gid, tid, addr) :: rest =>
    (match lookup s.groups gid with
      | none => s
      | some g => match (g.thread tid).place with
        | .bin _ b o => s.faultThread gid b o { tid := tid, code := 0x08, detail := 0, addr := addr }
        | _ => s).exhaust rest

/-- R188. The frame unit decides a resolution in one step. -/
def execCowResolution (k : Nat) (st : State) : Res :=
  match lookup st.cows k with
  | none => .next st
  | some c =>
    if c.st ≠ .waiting ∨ st.leafHeld [c.leaf] then .next st
    else match st.decideCow c.ctx c.leaf c.frame with
      | (s, .exhausted) => .next ({ s with cows := drop s.cows k }.exhaust (s.cowWaiters k))
      | (s, .copied n) => .next (s.cowDecided k c (some n))
      | (s, _) => .next (s.cowDecided k c none)

/-- A thread that a resolution releases: ready with cause 0 (R188), or still in its handler. -/
def Thread.resolved (t : Thread) : Thread :=
  { t.wake with res := if t.res.cause = 5 then t.res else { t.res with cause := 0 } }

/-- R381. A decided resolution completes once its writes have reached their T_wc: its new frame is Allocated, and its threads are
ready. -/
def execCowThreadRelease (k : Nat) (st : State) : Res :=
  match lookup st.cows k with
  | none => .next st
  | some c => match c.st with
    | .waiting => .next st
    | .decided until_ n =>
      if st.now < until_ then .next st
      else
        let s := match n with
          | none => st
          | some f => st.settleFrame f
        .next ((s.cowWaiters k).foldl (fun s x => s.onThread x.1 x.2.1 Thread.resolved) { s with cows := drop s.cows k })

/-! ### Migration -/

/-- A frame stands on a free list, of a pool or of its die. -/
def State.listed (s : State) (f : Nat) : Bool :=
  s.pools.any (fun (_, p) => p.free.contains f) || (readAt [] s.dieFree (f / 2 ^ 20)).any fun (a, n) => decide (a ≤ f) && decide (f < a + n)

/-- R192, R380. A frame on a retired row migrates once nothing uses it, and is Allocated again when its copy is done; one that is Free, which
MAP may use all the same (R183), is Free again then (DEDUCED, log 90). -/
def execFrameMigration (frame : Nat) (st : State) : Res :=
  let x := st.frame frame
  if !st.mod.migrate.contains frame then .next st
  else match x.st with
    | .migrating =>
      let s := if x.count = 0 ∧ x.users = 0 ∧ st.listed frame then st.putFrame frame { x with st := .free } else st.settleFrame frame
      .next { s with mod := { st.mod with migrate := st.mod.migrate.filter (· != frame) } }
    | .inFlight => .next st
    | _ => if x.users = 0 then .next (st.putFrame frame { x with st := .migrating }) else .next st

/-! ### MAP and UNMAP (R382) -/

/-- The level whose leaves have a size code: the shift of its index, and the levels above it. -/
def leafLevel (code : Nat) : Option (Nat × List (Nat × Nat)) :=
  if code = 1 then some (16, levels.take 3) else if code = 2 then some (25, levels.take 2) else if code = 3 then some (34, levels.take 1)
  else none

/-- The entry of an address at the level below the given ones, if every node on the path is well formed. -/
def State.nodeEntry (s : State) (shift : Nat) : List (Nat × Nat) → Nat → Nat → Option Nat
  | [], node, va => some (node + 8 * (va / 2 ^ shift % 512))
  | (sh, _) :: rest, node, va =>
    let e := s.latest8 (node + 8 * (va / 2 ^ sh % 512))
    if e.getLsbD 0 && fld e 7 6 == 0 && tableShapeOk e then s.nodeEntry shift rest (fld e 51 12 * 2 ^ 12) va else none

/-- The PTE image of a MAP is accepted for its count of leaves (R382 step 2). -/
def mapImageOk (e : Quad) (shift count : Nat) : Bool :=
  e.getLsbD 0 && leafShapeOk e shift && !e.getLsbD 2 && decide (fld e 51 16 * 2 ^ 16 + count * 2 ^ shift ≤ 2 ^ 52)
    && (fld e 9 8 != 0 || (List.range count).all fun i => decide (reservedFrames ≤ (fld e 51 16 + i * 2 ^ (shift - 16)) % 2 ^ 20))

/-- The leaves of a MAP: each entry's address, none where the path is broken. -/
def State.mapKeys (s : State) (ctx : Nat) (va shift : Nat) (above : List (Nat × Nat)) (count : Nat) : List (Option Nat) :=
  (List.range count).map fun i => s.nodeEntry shift above (fld (s.ctx ctx).ptroot 51 12 * 2 ^ 12) (va + i * 2 ^ shift)

/-- An entry is a counted leaf, or a table entry with one below it: the leaves that a MAP over it would lose
(R382 step 4; DEDUCED, log 66). The list holds the levels below the entry's own. -/
def State.anyCounted (s : State) : List (Nat × Nat) → Quad → Bool
  | [], e => countedEntry e
  | _ :: rest, e =>
    if e.getLsbD 0 && fld e 7 6 == 0 && tableShapeOk e then
      (List.range 512).any fun i => s.anyCounted rest (s.latest8 (fld e 51 12 * 2 ^ 12 + 8 * i))
    else countedEntry e

/-- The status of a MAP, with the entries it writes (R382). -/
def State.mapStatus (s : State) (ctx : Nat) (va : Quad) (e : Quad) (count : Nat) : Nat × List Nat × Nat :=
  match leafLevel (fld e 7 6) with
  | none => (3, [], 0)
  | some (shift, above) =>
    if count = 0 ∨ 65536 < count ∨ fld va 63 52 ≠ 0 ∨ va.toNat % 2 ^ shift ≠ 0 ∨ 2 ^ 52 < va.toNat + count * 2 ^ shift then (3, [], 0)
    else if !mapImageOk e shift count then (3, [], 0)
    else
      let keys := s.mapKeys ctx va.toNat shift above count
      if keys.any Option.isNone then (8, [], 0)
      else
        let ks := keys.filterMap id
        if ks.any fun k => s.anyCounted (levels.drop (above.length + 1)) (s.latest8 k) then (3, [], 0) else (0, ks, shift)

/-- The leaves of a MAP written, FRAME advanced over them. -/
def State.mapWrite (s : State) (e : Quad) (shift : Nat) : Nat → List Nat → State
  | _, [] => s
  | i, k :: rest => (s.writePte k (e + BitVec.ofNat 64 (i * 2 ^ shift))).mapWrite e shift (i + 1) rest

/-- The leaves of an UNMAP from an address on (R382 steps 3 and 5): a status, or each leaf's entry, value and shift.
A missing node or leaf of the range (8) goes before a leaf that begins below its address (3) (log 66). -/
def State.unmapRun (s : State) (ctx : Nat) : Nat → Nat → Nat ⊕ List (Nat × Quad × Nat)
  | 0, _ => .inr []
  | n + 1, va =>
    if 2 ^ 52 ≤ va then .inl 3
    else match s.walk ctx (BitVec.ofNat 64 va) with
      | .bad _ => .inl 8
      | .leaf k e shift =>
        match s.unmapRun ctx n ((va / 2 ^ shift + 1) * 2 ^ shift) with
        | .inl c => .inl c
        | .inr l => if va % 2 ^ shift ≠ 0 then .inl 3 else .inr ((k, e, shift) :: l)

/-- The status of an UNMAP, with its leaves. -/
def State.unmapStatus (s : State) (ctx : Nat) (va : Quad) (count : Nat) : Nat ⊕ List (Nat × Quad × Nat) :=
  if count = 0 ∨ 65536 < count ∨ fld va 63 52 ≠ 0 ∨ va.toNat % 2 ^ 16 ≠ 0 ∨ 2 ^ 52 < va.toNat + count * 2 ^ 16 then .inl 3
  else s.unmapRun ctx count va.toNat

/-- The leaves of an UNMAP invalidated, COUNT lowered for the counted ones (R191). -/
def State.unmapWrite (s : State) : List (Nat × Quad × Nat) → State
  | [] => s
  | (k, e, _) :: rest =>
    let s := s.writePte k 0
    (if countedEntry e then s.decCount (frameOf e) else s).unmapWrite rest

/-- The runs of frames under a list of leaves. -/
def leafSpans (l : List (Nat × Quad × Nat)) : List Span :=
  l.filterMap fun (_, e, shift) => if fld e 9 8 = 0 then some (frameOf e, 2 ^ (shift - 16)) else none

/-- No chunk holds a frame of the runs (R191). -/
def State.spansIdle (s : State) (l : List Span) : Bool :=
  s.frames.all fun (f, x) => x.users == 0 || !(l.any fun (a, n) => decide (a ≤ f) && decide (f < a + n))

/-! ### The release of a destroyed context (R383) -/

/-- The counted mappings below a node zeroed, level by level. -/
def releaseNode : List (Nat × Nat) → Nat → State → State
  | [], _, s => s
  | (_, code) :: rest, node, s =>
    (List.range 512).foldl (fun s i =>
      let k := node + 8 * i
      let e := s.latest8 k
      if !e.getLsbD 0 then s
      else if fld e 7 6 = 0 then (if tableShapeOk e then releaseNode rest (fld e 51 12 * 2 ^ 12) s else s)
      else if code = 1 ∧ countedEntry e then (s.writePte k 0).decCount (frameOf e)
      else s) s

/-- The counted mappings of a context's page table released. -/
def State.releaseTable (s : State) (ctx : Nat) : State :=
  releaseNode levels (fld (s.ctx ctx).ptroot 51 12 * 2 ^ 12) s

end Sys2Proof.Machine
end

