-- ==== Sys2Proof/Machine/Tensor.lean ====
section
/-! DEFINITION. Tensor descriptors: their fields, checks, element places and segment tables (13_matrix R256 to R262). -/

namespace Sys2Proof.Machine

/-- A tensor descriptor (Table 13-6). -/
structure Tensor where
  base : Nat
  rank : Nat
  fmt : Nat
  lab : Bool
  brows : Nat
  bcols : Nat
  labOff : Nat
  /-- SIZE0 to SIZE4 -/
  sizes : List Nat
  /-- STRIDE1 to STRIDE4 -/
  strides : List Int
  scaleOff : Nat
  segOff : Nat
  /-- its reserved bits are zero -/
  clean : Bool
  deriving DecidableEq, Repr

/-- A 32-bit field as a signed number. -/
def signed32 (x : Nat) : Int := (BitVec.ofNat 32 x).toInt

/-- The fields of a descriptor's 64 bytes. -/
def readTensor (bytes : List Byte) : Tensor :=
  let x := leNat bytes
  { base := bitsOf x 0 64, rank := bitsOf x 64 8, fmt := bitsOf x 72 4, lab := bitsOf x 76 1 == 1, brows := bitsOf x 80 8, bcols := bitsOf x 88 8,
    labOff := bitsOf x 96 32, sizes := (List.range 5).map fun d => bitsOf x (128 + 32 * d) 32,
    strides := (List.range 4).map fun d => signed32 (bitsOf x (288 + 32 * d) 32), scaleOff := bitsOf x 416 32, segOff := bitsOf x 448 32,
    clean := bitsOf x 77 3 == 0 && bitsOf x 480 32 == 0 }

def Tensor.size (t : Tensor) (d : Nat) : Nat := t.sizes.getD d 0

/-- STRIDEd, d from 1. -/
def Tensor.stride (t : Tensor) (d : Nat) : Int := t.strides.getD (d - 1) 0

/-- The element width in bits (R18). -/
def Tensor.bits (t : Tensor) : Nat := fmtBits t.fmt

def Tensor.blocked (t : Tensor) : Bool := t.brows != 0 && t.bcols != 0

/-- The byte size of a block. -/
def Tensor.blockBytes (t : Tensor) : Nat := 2 ^ (t.brows + t.bcols) * t.bits / 8

/-- A list put in ascending order of a key. -/
def insertBy (key : Nat × Nat → Nat) (x : Nat × Nat) : List (Nat × Nat) → List (Nat × Nat)
  | [] => [x]
  | y :: rest => if key x ≤ key y then x :: y :: rest else y :: insertBy key x rest

/-- The test of R260 over (|stride|, count) of the dimensions in ascending |stride|, from a span. -/
def spans (span : Nat) : List (Nat × Nat) → Bool
  | [] => true
  | (stride, n) :: rest => decide (span ≤ stride) && spans (span + stride * (n - 1)) rest

/-- A write descriptor is injective (R260). -/
def Tensor.injective (t : Tensor) : Bool :=
  if (List.range t.rank).any fun d => t.size d == 0 then true
  else
    let span := if t.blocked then (t.size 0 + 2 ^ t.bcols - 1) / 2 ^ t.bcols * t.blockBytes else t.size 0 * t.bits / 8
    let count := fun d => if t.blocked && d == 1 then (t.size 1 + 2 ^ t.brows - 1) / 2 ^ t.brows else t.size d
    let dims := ((List.range t.rank).filter fun d => decide (1 ≤ d) && decide (2 ≤ count d)).map fun d => ((t.stride d).natAbs, count d)
    spans span (dims.foldr (insertBy (·.1)) [])

/-- The checks of R259 but for the segment table; `width` is the access width of its space. -/
def Tensor.ok (t : Tensor) (width : Nat) (write : Bool) : Bool :=
  t.clean && decide (1 ≤ t.rank) && decide (t.rank ≤ 5) && decide (t.fmt < 14)
    && (List.range 5).all (fun d => decide (d < t.rank) || t.size d == 0)
    && (List.range 4).all (fun d => decide (d + 1 < t.rank) || t.stride (d + 1) == 0)
    && t.base % width == 0 && (List.range t.rank).all (fun d => d == 0 || t.stride d % width == 0)
    && (t.brows == 0) == (t.bcols == 0) && decide (t.brows ≤ 15) && decide (t.bcols ≤ 15)
    && (!t.blocked || (decide (2 ≤ t.rank) && t.blockBytes % width == 0))
    && !(t.fmt == 7 && t.size 0 % 2 == 1) && !((t.fmt == 5 || t.fmt == 6) && t.size 0 % 4 != 0)
    && (!t.lab || t.labOff % 4 == 0) && (!write || t.injective)

/-- The bit at which an element begins, from BASE (R257); indices of the five dimensions. -/
def Tensor.place (t : Tensor) (i : List Nat) : Int :=
  let at_ := fun d => i.getD d 0
  let outer := fun (l : List Nat) => (l.map fun d => (at_ d : Int) * t.stride d * 8).foldl (· + ·) 0
  if t.blocked then
    ((at_ 1 / 2 ^ t.brows : Nat) : Int) * t.stride 1 * 8 + ((at_ 0 / 2 ^ t.bcols * 2 ^ (t.brows + t.bcols) * t.bits : Nat) : Int)
      + (((at_ 1 % 2 ^ t.brows * 2 ^ t.bcols + at_ 0 % 2 ^ t.bcols) * t.bits : Nat) : Int) + outer [2, 3, 4]
  else ((at_ 0 * t.bits : Nat) : Int) + outer [1, 2, 3, 4]

/-- The number of a line (i1, …, i4) (R257). -/
def Tensor.line (t : Tensor) (i : List Nat) : Nat :=
  i.getD 1 0 + t.size 1 * (i.getD 2 0 + t.size 2 * (i.getD 3 0 + t.size 3 * i.getD 4 0))

/-- The address of a plane at an offset from BASE: a device virtual address modulo 2^64, a scratchpad offset as it is (R256). -/
def Tensor.plane (t : Tensor) (scr : Bool) (off : Nat) : Nat := if scr then t.base + off else (t.base + off) % 2 ^ 64

/-- The address of a line's label. -/
def Tensor.labelAt (t : Tensor) (scr : Bool) (line : Nat) : Nat := t.plane scr t.labOff + 4 * line

/-- The address of a line's scale `b`. -/
def Tensor.scaleAt (t : Tensor) (scr : Bool) (line b : Nat) : Nat := t.plane scr t.scaleOff + b + (t.size 0 + 31) / 32 * line

/-- The sizes as counted: 1 in a dimension at or above RANK. -/
def Tensor.extent (t : Tensor) (d : Nat) : Nat := if d < t.rank then t.size d else 1

/-- The lines of a tensor, in order. -/
def Tensor.lines (t : Tensor) : Nat := t.extent 1 * (t.extent 2 * (t.extent 3 * t.extent 4))

/-- The indices of the element with a number in traversal order, dimension 0 fastest. -/
def Tensor.indices (t : Tensor) (n : Nat) : List Nat :=
  let e := t.extent
  [n % e 0, n / e 0 % e 1, n / (e 0 * e 1) % e 2, n / (e 0 * e 1 * e 2) % e 3, n / (e 0 * e 1 * e 2 * e 3)]

/-- How many elements the tensor has. -/
def Tensor.elems (t : Tensor) : Nat := t.extent 0 * t.lines

/-- An index lies within the sizes (R258). -/
def Tensor.inside (t : Tensor) (i : List Nat) : Bool := (List.range 5).all fun d => decide (i.getD d 0 < t.extent d)

/-! ### Reading memory as an engine does -/

/-- Bytes at an address that a thread names, each through its translation (R207); the first fault otherwise, 0x0F for a peer without a
route (R196; DEDUCED, log 80), 0x14 for a byte that the ECC cannot correct (R379, log 67). A copy that still serves holds the bytes of its home
(R220 to R222), and of a host line either will do (R215). -/
def State.engineRead (s : State) (g : Group) : Quad → Nat → List Byte ⊕ Nat
  | _, 0 => .inl []
  | a, n + 1 => match s.locate g a false with
    | .ok space key _ _ =>
      if !s.reached space key then .inr 0x0F
      else if s.badAt g.core key then .inr 0x14
      else match s.engineRead g (a + 1#64) n with
        | .inl l => .inl (s.byte key :: l)
        | .inr c => .inr c
    | .fault c => .inr c
    | .cow _ _ => .inr 0x09

/-- What an engine's read of a line leaves behind: A in its leaf (R181), its count and place in a window (R218), and its copies in the
cluster and the die, with a lease when it reaches its home (R213 to R215, R221); of the class of its leaf (DEDUCED, log 88). -/
def State.lineRead (s : State) (g : Group) (a : Quad) (space : Space) (key cls : Nat) (leaf : Option Nat) : State :=
  let s := s.touch leaf false
  if space = .scratch then s
  else
    let line := lineOf key
    let f : Fetch := { core := g.core, ctx := g.ctx, addr := a.toNat, cls := classOf none space cls }
    let s := s.windowLine (dieOfCore g.core) g.ctx a.toNat line true
    match s.fetchCopy f line with
    | some (s, _) => s
    | none =>
      if space ≠ .host then s.fetchHome f line
      else if f.cls = 3 then s else s.placeLine f line (s.bytes line 128) (s.flawsOf line) none

/-- The first address of a run of bytes in each line. -/
def linesFrom (a n : Nat) : List Nat :=
  (a :: (List.range (n / 128 + 1)).map fun i => (a / 128 + 1 + i) * 128).filter fun x => decide (x < a + n)

/-- The lines that an engine read under addresses that a thread names, up to the first that does not translate. -/
def State.readSeen (s : State) (g : Group) : List Nat → State
  | [] => s
  | a :: rest => match s.locate g (BitVec.ofNat 64 a) false with
    | .ok space key cls leaf => (s.lineRead g (BitVec.ofNat 64 a) space key cls leaf).readSeen g rest
    | _ => s

/-- Line counts of a segment table from its words; none when it breaks R262. -/
def segmentCounts (words : List Nat) (lines : Nat) : Option (List Nat) :=
  match words with
  | [] => none
  | n :: counts => if n = 0 ∨ 4096 < n ∨ counts.length ≠ n ∨ lines < counts.foldl (· + ·) 0 then none else some counts

/-- A list of bytes as 32-bit words. -/
def wordsOf (bytes : List Byte) : List Nat :=
  (List.range (bytes.length / 4)).map fun i => leNat ((bytes.drop (4 * i)).take 4)

/-- The bytes of a segment table that are read (R262): its count, and its words when the count allows them. -/
def State.segmentBytes (s : State) (g : Group) (t : Tensor) : Nat :=
  match s.engineRead g (BitVec.ofNat 64 (t.base + t.segOff)) 4 with
  | .inr _ => 4
  | .inl b => if leNat b = 0 ∨ 4096 < leNat b then 4 else 4 * (leNat b + 1)

/-- The segment table of a tensor whose BASE is an address (R262), or the fault of reading it: past the scratchpad a side's table is not
present, and a device virtual address is taken modulo 2^64 (R256). -/
def State.segments (s : State) (g : Group) (t : Tensor) (scr : Bool) : List Nat ⊕ Nat :=
  let at_ := BitVec.ofNat 64 (t.base + t.segOff)
  if scr ∧ 2 ^ 64 ≤ t.base + t.segOff then .inr 0x05
  else match s.engineRead g at_ 4 with
  | .inr c => .inr c
  | .inl b =>
    let n := leNat b
    if n = 0 ∨ 4096 < n then .inr 0x09
    else match s.engineRead g at_ (4 * (n + 1)) with
      | .inr c => .inr c
      | .inl bytes => match segmentCounts (wordsOf bytes) (t.size 1) with
        | some l => .inl l
        | none => .inr 0x09

end Sys2Proof.Machine
end

