-- ==== Sys2Proof/Machine/Labels.lean ====
section
/-! DEFINITION. Labels: summaries, relations and verdicts (13_matrix R236 to R243). -/

namespace Sys2Proof.Machine

/-- The null label. -/
def nullLabel : Nat := 0xFFFFFFFF

/-- A layout entry's offset and width (R236). -/
def entryOffset (e : Nat) : Nat := bitsOf e 0 5
def entryWidth (e : Nat) : Nat := bitsOf e 8 6

/-- A layout entry keeps R236; width 0 is an unused field. -/
def entryOk (e : Nat) : Bool :=
  bitsOf e 5 3 == 0 && bitsOf e 14 2 == 0 && decide (entryWidth e ≤ 32) && (entryWidth e == 0 || decide (entryOffset e + entryWidth e ≤ 32))

/-- The value of a field in a label (R236). -/
def fieldIn (e label : Nat) : Nat := bitsOf label (entryOffset e) (entryWidth e)

/-! ### Summaries -/

/-- Layout entry `f` of a summary (Table 13-2). -/
def sumEntry (x f : Nat) : Nat := bitsOf x (416 + 16 * f) 16

/-- A summary that is read as valid (R238). -/
def sumValid (x : Nat) : Bool :=
  bitsOf x 400 1 == 1 && bitsOf x 401 15 == 0 && bitsOf x 464 48 == 0 && bitsOf x 384 8 + bitsOf x 392 8 == 128
    && (List.range 3).all fun f => entryOk (sumEntry x f)

/-- Minimum, maximum, OR and AND of a field over labels that are not null (R236). -/
def fieldStats (e : Nat) (labels : List Nat) : Nat × Nat × Nat × Nat :=
  if entryWidth e = 0 then (0xFFFFFFFF, 0, 0, 0xFFFFFFFF)
  else ((labels.filter (· != nullLabel)).map (fieldIn e)).foldl (fun a v => (min a.1 v, max a.2.1 v, a.2.2.1 ||| v, a.2.2.2 &&& v))
    (0xFFFFFFFF, 0, 0, 0xFFFFFFFF)

/-- A summary with its statistics recomputed over 128 labels under its own layout (R237). -/
def resummarise (x : Nat) (labels : List Nat) : List Byte :=
  let stats := (List.range 3).flatMap fun f =>
    let e := sumEntry x f
    let s := fieldStats (if entryOk e then e else 0) labels
    leBytes 4 s.1 ++ leBytes 4 s.2.1 ++ leBytes 4 s.2.2.1 ++ leBytes 4 s.2.2.2
  let nulls := labels.countP (· == nullLabel)
  stats ++ leBytes 1 (labels.length - nulls) ++ leBytes 1 nulls ++ leBytes 14 (bitsOf x 400 112 / 2 * 2 + 1)

/-! ### Relations -/

/-- A term (Table 13-4). -/
structure Term where
  kind : Nat
  op : Nat
  rf : Nat
  cf : Nat
  c : Int
  deriving DecidableEq, Repr

/-- Term `i` of a relation's descriptor, its reserved bits zero. -/
def relTerm (x i : Nat) : Term :=
  let w := bitsOf x (128 + 32 * i) 32
  { kind := bitsOf w 0 3, op := bitsOf w 3 3, rf := bitsOf w 6 2, cf := bitsOf w 8 2, c := (BitVec.ofNat 16 (bitsOf w 16 16)).toInt }

def relRow (x f : Nat) : Nat := bitsOf x (16 * f) 16
def relCol (x f : Nat) : Nat := bitsOf x (64 + 16 * f) 16

/-- A term keeps Table 13-4 and R240. -/
def termOk (x i : Nat) : Bool :=
  let t := relTerm x i
  bitsOf x (138 + 32 * i) 6 == 0 && decide (t.kind ≤ 4)
    && (if t.kind = 1 ∨ t.kind = 2 then
        decide (t.rf ≤ 2) && decide (t.cf ≤ 2) && (if t.kind = 1 then decide (t.op ≤ 5) else t.op == 0)
          && entryWidth (relRow x t.rf) != 0 && entryWidth (relCol x t.cf) != 0
      else t.op == 0 && t.rf == 0 && t.cf == 0 && t.c == 0)

/-- A descriptor that MREL loads (R240). -/
def relOk (x : Nat) : Bool :=
  bitsOf x 48 16 == 0 && bitsOf x 112 16 == 0 && bitsOf x 256 256 == 0
    && (List.range 3).all (fun f => entryOk (relRow x f) && entryOk (relCol x f)) && (List.range 4).all (termOk x)

/-- The comparisons of CMP. -/
def cmpHolds (op : Nat) (a b : Int) : Bool :=
  match op with
  | 0 => decide (a = b)
  | 1 => decide (a ≠ b)
  | 2 => decide (a < b)
  | 3 => decide (a ≤ b)
  | 4 => decide (b < a)
  | _ => decide (b ≤ a)

/-- A term for a pair of labels (R241). -/
def termHolds (x : Nat) (t : Term) (a b : Nat) : Bool :=
  let f := fieldIn (relRow x t.rf) a
  let g : Int := (fieldIn (relCol x t.cf) b : Int) + t.c
  match t.kind with
  | 1 => cmpHolds t.op f g
  | 2 => decide (0 ≤ g) && decide (g < (entryWidth (relRow x t.rf) : Int)) && f.testBit g.toNat
  | 4 => false
  | _ => true

/-- The pair of labels is admitted by a relation k1 to k15 (R241). -/
def relAdmits (x a b : Nat) : Bool :=
  a != nullLabel && b != nullLabel && (List.range 4).all fun i => termHolds x (relTerm x i) a b

/-! ### Verdicts -/

/-- The summary's entry that a relation's field matches (R242), with its statistics. -/
def matched (sum layout : Nat) : Option (Nat × Nat × Nat × Nat) :=
  ((List.range 3).find? fun f => entryOffset (sumEntry sum f) == entryOffset layout && entryWidth (sumEntry sum f) == entryWidth layout).map
    fun f => (bitsOf sum (128 * f) 32, bitsOf sum (128 * f + 32) 32, bitsOf sum (128 * f + 64) 32, bitsOf sum (128 * f + 96) 32)

/-- A term provably true, and provably false, over two summaries (R242). -/
def termBounds (x sa sb : Nat) (t : Term) : Bool × Bool :=
  match t.kind with
  | 3 => (true, false)
  | 4 => (false, true)
  | 0 => (true, false)
  | _ =>
    match matched sa (relRow x t.rf), matched sb (relCol x t.cf) with
    | some (rmin, rmax, ror, rand), some (cmin, cmax, _, _) =>
      let lo : Int := (cmin : Int) + t.c
      let hi : Int := (cmax : Int) + t.c
      let rn : Int := rmin
      let rx : Int := rmax
      if t.kind = 1 then
        let equal := decide (rn = rx) && decide (rx = lo) && decide (lo = hi)
        let apart := decide (rx < lo) || decide (rn > hi)
        match t.op with
        | 0 => (equal, apart)
        | 1 => (apart, equal)
        | 2 => (decide (rx < lo), decide (rn ≥ hi))
        | 3 => (decide (rx ≤ lo), decide (rn > hi))
        | 4 => (decide (rn > hi), decide (rx ≤ lo))
        | _ => (decide (rn ≥ hi), decide (rx < lo))
      else
        let w : Int := entryWidth (relRow x t.rf)
        let from_ := (max lo 0).toNat
        let upto := (min hi (w - 1) + 1).toNat
        let range := (List.range upto).filter fun i => decide (from_ ≤ i)
        (decide (0 ≤ lo) && decide (hi < w) && range.all fun i => rand.testBit i, range.all fun i => !ror.testBit i)
    | _, _ => (false, false)

/-- The verdict from a relation and the two summaries (R243 steps 2 to 6). -/
def verdictOf (x sa sb : Nat) : Verdict :=
  let bounds := (List.range 4).map fun i => termBounds x sa sb (relTerm x i)
  if !sumValid sa || !sumValid sb then .masked
  else if bitsOf sa 384 8 = 0 ∨ bitsOf sb 384 8 = 0 then .skipped
  else if bounds.any (·.2) then .skipped
  else if bounds.all (·.1) && bitsOf sa 392 8 == 0 && bitsOf sb 392 8 == 0 then .unmasked
  else .masked

end Sys2Proof.Machine
end

