-- ==== Sys2Proof/Machine/Matrix.lean ====
section
/-! DEFINITION. The matrix engine: issuing commands, the millrace, products, tiles in memory, softmax rows, MRD and MWR (02_numbers
R42 to R47; 13_matrix R233 to R235, R244 to R254; 18_isa_matrix R343 to R361). -/

namespace Sys2Proof.Machine

/-! ### Tiles and operand words -/

def tileKey (gid t : Nat) : Nat := gid * 16 + t

def State.tile (s : State) (gid t : Nat) : Tile := (lookup s.tiles (tileKey gid t)).getD Tile.zero

def State.putTile (s : State) (gid t : Nat) (x : Tile) : State := { s with tiles := putAt s.tiles (tileKey gid t) x }

def State.coreSt (s : State) (c : Nat) : CoreSt := (lookup s.cores c).getD CoreSt.zero

def State.putCore (s : State) (c : Nat) (x : CoreSt) : State := { s with cores := putAt s.cores c x }

/-- ACC of a group's kernel (R248). -/
def State.acc (s : State) (g : Group) : Nat := match s.kernel g.ctx g.slot g.kern with
  | none => 0
  | some k => k.acc

/-- Bytes of data of a tile or image in a format (R233, R353). -/
def dataBytes (fmt : Nat) : Nat := 128 * 128 * fmtBits fmt / 8

/-- The formats of the A and B elements of a product command. -/
def MOp.formats : MOp → Nat × Nat
  | .mma m => if m = 0 then (1, 1) else if m = 1 then (2, 2) else if m = 2 then (3, 3) else if m = 3 then (4, 4) else (9, 9)
  | .mmas m => (if m < 2 then 3 else 4, if m % 2 = 0 then 3 else 4)
  | .mmax m => (m, m)
  | _ => (0, 0)

/-- A product command. -/
def MOp.product : MOp → Bool
  | .mma _ => true
  | .mmas _ => true
  | .mmax _ => true
  | _ => false

/-- The bytes of a scratchpad range of a team. -/
def State.scratchBytes (s : State) (t : Team) (off n : Nat) : List Byte := (List.range n).map fun i => s.byte (t.scratchAt (off + i))

/-- Bytes written to a scratchpad range of a team, as its banks perform them (R208). -/
def State.scratchWrite (s : State) (t : Team) (off : Nat) : List Byte → State
  | [] => s
  | b :: rest => ({ s with mem := writeAt memDefault s.mem (t.scratchAt off) b }).scratchWrite t (off + 1) rest

/-- Some byte of a scratchpad range lies in a sector that the ECC cannot correct. -/
def State.scratchBad (s : State) (t : Team) (off n : Nat) : Bool := (List.range n).any fun i => s.badIn (t.scratchAt (off + i)) 1

/-- Element `k` of line `l` of a tile at an offset, as its pattern (R23, R233). -/
def State.tileElem (s : State) (t : Team) (base fmt l k : Nat) : Nat :=
  let bits := fmtBits fmt
  let at_ := base + l * (16 * bits) + bits * k / 8
  leNat (s.scratchBytes t at_ ((bits * k % 8 + bits + 7) / 8)) / 2 ^ (bits * k % 8) % 2 ^ bits

/-- The label of a line. -/
def State.tileLabel (s : State) (t : Team) (base d l : Nat) : Nat := leNat (s.scratchBytes t (base + d + 4 * l) 4)

/-- The summary block. -/
def State.tileSummary (s : State) (t : Team) (base d : Nat) : Nat := leNat (s.scratchBytes t (base + d + 512) 64)

/-- Bytes of the scale block (R235). -/
def State.tileScales (s : State) (t : Team) (base d i n : Nat) : Nat := leNat (s.scratchBytes t (base + d + 640 + i) n)

/-! ### Issue -/

/-- A fault of an issue check: its code and its address. -/
abbrev Bad := Nat × Quad

/-- Step 4 of R346 for one base and the end of the bytes read or written from it. -/
def baseCheck (t : Team) (off n : Nat) : Option Bad :=
  let addr := BitVec.ofNat 64 (0xFF00000000000000 + off)
  if off % 64 ≠ 0 then some (0x04, addr) else if t.scratch < off + n then some (0x05, addr) else none

/-- The first fault of a list of checks. -/
def firstFault : List (Option Bad) → Option Bad
  | [] => none
  | some b :: _ => some b
  | none :: rest => firstFault rest

/-- A check that fails with a code and no address. -/
def failIf (b : Bool) (code : Nat) : Option Bad := if b then some (code, 0) else none

/-- The relation a k register names, when it is loaded (R240). -/
def Group.relation (g : Group) (k : Nat) : Option (Option (List Byte)) :=
  if k = 0 then some none else (lookup g.rels k).map some

/-- The rows of a tile whose owners are among the threads (R246). -/
def ownedRows (ownbase : Nat) (tids : List Nat) : List Nat := (List.range 128).filter fun i => tids.contains (ownbase + i)

/-- A command with nothing captured but its group, its pass and its threads. -/
def State.newCmd (s : State) (op : MOp) (tile : Nat) (tids : List Nat) : MCmd :=
  { gid := s.cur.gid, pid := s.cur.pid, at_ := s.cur.at_, issued := s.cycle, op := op, tile := tile, final := false, first := false,
    lab := false, rel := none, rows := ownedRows (s.tile s.cur.gid tile).ownbase tids, tids := tids, a := 0, b := 0, seg := none,
    started := false, verdict := none, step := 0, until_ := 0, gens := [], value := 0, bad := false }

/-- A command enters the millrace of its core (R343). -/
def State.enqueue (s : State) (core : Nat) (m : MCmd) : State :=
  let c := s.coreSt core
  { s.putCore core { c with race := putAt c.race s.stamp m } with stamp := s.stamp + 1 }

/-- The common shape of a millrace instruction (R343, R346): its checks, the stall at a full counter (R173), then its command is
queued and `also` happens at issue; `seen` is what the reads of its checks leave behind. -/
def millOp (st : State) (s : BitVec 2) (n : Needs) (check : Group → Option Team → Option Bad) (mk : Group → List Nat → MCmd)
    (also : State → State := id) (seen : Group → State → State := fun _ s => s) : Res :=
  opening st .pass n fun g p vs =>
    match (participants vs st.cur.guard).map (·.tid) with
    | [] => .next (st.passBy .pass s.toNat false)
    | tids => match check g (st.teamOf g) with
      | some (code, addr) => .next (((seen g st).countBad (code == 0x14)).faultAll p code 0 addr)
      | none =>
        if g.counter 1 = 255 then .next (st.holdAt .counter)
        else
          let s1 := ((seen g st).passBy .pass s.toNat true).onGroup st.cur.gid fun g => g.setCounter 1 (g.counter 1 + 1)
          .next (also (s1.enqueue g.core (mk g tids)))

/-- The tiles named lie below ACC (R346 step 1). -/
def tilesBad (st : State) (g : Group) (l : List Nat) : Option Bad := failIf (l.any fun t => decide (st.acc g ≤ t)) 0x02

/-- Bytes that a product command reads of one operand tile (R233, R235). -/
def operandBytes (op : MOp) (fmt : Nat) (isA k0 : Bool) : Nat :=
  let d := dataBytes fmt
  match op with
  | .mmax _ => d + 1152
  | .mmas _ => if isA then d + 1152 else d + 644
  | _ => if k0 then d else d + 576

/-- The lines of a segment (R262). -/
def segmentOf (counts : List Nat) (seg : Nat) : Nat × Nat := ((counts.take seg).foldl (· + ·) 0, counts.getD seg 0)

/-- A grouped command's descriptor passes R259 and names a segment table. -/
def Tensor.hasTable (t : Tensor) : Bool := t.ok (if t.base < 2 ^ 52 then 32 else 16) false && t.segOff != 0 && t.segOff % 4 == 0

/-- Step 6 of R346 for a grouped command (R351): the rows of the A tile in the segment, or the fault. -/
def State.groupedRows (s : State) (g : Group) (ga : Nat) (wa wb : Quad) : (Nat × Nat) ⊕ Bad :=
  let addr := s.gNow g (ga + 1)
  if 14 < ga then .inr (0x02, 0)
  else if addr.toNat % 64 ≠ 0 then .inr (0x04, addr)
  else match s.locate g addr false with
    | .fault c => .inr (c, addr)
    | .cow _ _ => .inr (0x09, addr)
    | .ok space _ _ _ =>
      if space = .peer ∨ space = .host then .inr (0x09, addr)
      else match s.engineRead g addr 64 with
        | .inr c => .inr (c, addr)
        | .inl bytes =>
          let t := readTensor bytes
          if !t.hasTable then .inr (0x09, addr)
          else match s.segments g t false with
            | .inr c => .inr (c, addr)
            | .inl counts =>
              let seg := fld wa 43 32
              if counts.length ≤ seg then .inr (0x09, addr)
              else
                let (at_, cnt) := segmentOf counts seg
                let l0 := fld wb 63 32
                .inl (at_ - l0, at_ + cnt - l0)

/-- What a grouped command's reads of its descriptor and segment table leave behind, as engine source data (R181, R213, R218, R221, R351). -/
def State.groupedSeen (s : State) (g : Group) (ga : Nat) : State :=
  let addr := s.gNow g (ga + 1)
  if 14 < ga ∨ addr.toNat % 64 ≠ 0 then s
  else match s.locate g addr false with
    | .ok space _ _ leaf =>
      if space = .peer ∨ space = .host then s.touch leaf false
      else
        let table := match s.engineRead g addr 64 with
          | .inr _ => []
          | .inl bytes =>
            let t := readTensor bytes
            if t.hasTable then linesFrom (t.base + t.segOff) (s.segmentBytes g t) else []
        s.readSeen g (linesFrom addr.toNat 64 ++ table)
    | _ => s

/-- A grouped command's word (Table 18-1). -/
def grouped (w : Quad) : Bool := w.getLsbD 63

/-- The checks of a product command before its own (R346 steps 1 to 5, R348). -/
def State.productHead (s : State) (g : Group) (team : Option Team) (op : MOp) (c ga gb k : Nat) : Option Bad :=
  let wa := s.gNow g ga
  let wb := s.gNow g gb
  let (fa, fb) := op.formats
  match team with
  | none => some (0x05, 0)
  | some t => firstFault [
      tilesBad s g [c],
      failIf (g.relation k).isNone 0x09,
      failIf (fld wa 31 25 != 0 || fld wa 62 44 != 0 || (!grouped wa && (fld wb 63 25 != 0)) || (grouped wa && fld wb 31 25 != 0)) 0x09,
      baseCheck t (fld wa 24 0) (operandBytes op fa true (k == 0)),
      baseCheck t (fld wb 24 0) (operandBytes op fb false (k == 0)),
      failIf (op == .mma 4 && (s.tile s.cur.gid c).issued) 0x02]

/-- The checks of a product command (R346). -/
def State.productBad (s : State) (g : Group) (team : Option Team) (op : MOp) (c ga gb k : Nat) : Option Bad :=
  match s.productHead g team op c ga gb k with
  | some b => some b
  | none =>
    if grouped (s.gNow g ga) then (match s.groupedRows g ga (s.gNow g ga) (s.gNow g gb) with
      | .inr b => some b
      | .inl _ => none) else none

/-- What the checks of a product command have read by then. -/
def State.productSeen (s : State) (g : Group) (op : MOp) (c ga gb k : Nat) : State :=
  if (s.productHead g (s.teamOf g) op c ga gb k).isNone && grouped (s.gNow g ga) then s.groupedSeen g ga else s

/-- A product command as it is queued. -/
def State.productCmd (s : State) (g : Group) (op : MOp) (c ga gb k : Nat) (w : BitVec 2) (tids : List Nat) : MCmd :=
  let wa := s.gNow g ga
  let wb := s.gNow g gb
  { s.newCmd op c tids with
    final := w.getLsbD 0, first := w.getLsbD 1, rel := (g.relation k).getD none, a := fld wa 24 0, b := fld wb 24 0,
    seg := if grouped wa then (match s.groupedRows g ga wa wb with
      | .inl r => some r
      | .inr _ => none) else none }

/-- The g register above GA that a grouped command reads too (R351). -/
def State.groupedReg (s : State) (ga : BitVec 4) : List Nat := match s.issuing with
  | none => []
  | some (g, _) => if grouped (s.gNow g ga.toNat) && decide (ga.toNat ≤ 14) then [ga.toNat + 1] else []

/-- MMA, MMAS and MMAX (R349). -/
def productOp (st : State) (s : BitVec 2) (op : MOp) (ok : Bool) (c ga gb k : BitVec 4) (w : BitVec 2) : Res :=
  millOp st s { rg := [ga.toNat, gb.toNat] ++ st.groupedReg ga, ok := ok } (fun g t => st.productBad g t op c.toNat ga.toNat gb.toNat k.toNat)
    (fun g tids => st.productCmd g op c.toNat ga.toNat gb.toNat k.toNat w tids)
    (seen := fun g s => s.productSeen g op c.toNat ga.toNat gb.toNat k.toNat)

/-- R349. Queues a product of A and B tiles. -/
def execMma (s : BitVec 2) (m c a b k : BitVec 4) (w : BitVec 2) (st : State) : Res := productOp st s (.mma m.toNat) true c a b k w

/-- R349. Queues a scaled FP8 product. -/
def execMmas (s : BitVec 2) (m c a b k : BitVec 4) (w : BitVec 2) (st : State) : Res := productOp st s (.mmas m.toNat) true c a b k w

/-- R349. Queues a microscaled product; formats 3 to 7 (R344). -/
def execMmax (s : BitVec 2) (m c a b k : BitVec 4) (w : BitVec 2) (st : State) : Res :=
  productOp st s (.mmax m.toNat) (decide (3 ≤ m.toNat ∧ m.toNat ≤ 7)) c a b k w

/-- The issued format of a tile changes (R348). -/
def State.setIssued (s : State) (t : Nat) (b16s : Bool) : State :=
  s.putTile s.cur.gid t { s.tile s.cur.gid t with issued := b16s }

/-- R352. Queues a zeroing of the owned rows with the tile's format and generators from g[GB]. -/
def execMzero (s : BitVec 2) (c b : BitVec 4) (w : BitVec 1) (st : State) : Res :=
  let word := fun (g : Group) => st.gNow g b.toNat
  millOp st s { rg := [b.toNat] }
    (fun g _ => firstFault [tilesBad st g [c.toNat], failIf (fld (word g) 15 1 != 0 || fld (word g) 63 32 != 0) 0x09])
    (fun g tids => { st.newCmd (.mzero (word g)) c.toNat tids with final := w == 1#1 })
    fun s1 => match st.issuing with
      | none => s1
      | some (g, _) => s1.setIssued c.toNat ((word g).getLsbD 0)

/-- The formats of MLDC and MSTC (R353). -/
def imageFormat (k : Nat) : Bool := decide (k ≤ 4) || k == 12

/-- The bytes of an image that a command reads or writes. -/
def imageBytes (fmt : Nat) (lab scales : Bool) : Nat := dataBytes fmt + if scales then 1152 else if lab then 640 else 0

/-- Checks of MLDC and MSTC (R346). -/
def State.imageBad (s : State) (g : Group) (team : Option Team) (c ga n : Nat) : Option Bad :=
  let w := s.gNow g ga
  match team with
  | none => some (0x05, 0)
  | some t => firstFault [tilesBad s g [c], failIf (fld w 63 25 != 0) 0x09, baseCheck t (fld w 24 0) n]

/-- The ROWSTATE of an image has a reserved bit set (Table 13-1, R5); it is first read as the command issues (DEDUCED, log 81). -/
def State.rowStateBad (s : State) (g : Group) (team : Option Team) (ga fmt : Nat) : Bool := match team with
  | none => false
  | some t => leNat (s.scratchBytes t (fld (s.gNow g ga) 24 0 + dataBytes fmt + 576) 64) / 2 ^ 128 != 0

/-- R353. Queues a load of an image into owned rows. -/
def execMldc (s : BitVec 2) (c a k : BitVec 4) (w : BitVec 2) (st : State) : Res :=
  millOp st s { rg := [a.toNat], ok := imageFormat k.toNat }
    (fun g t => firstFault [st.imageBad g t c.toNat a.toNat (imageBytes k.toNat (w.getLsbD 1) false),
      failIf ((st.tile st.cur.gid c.toNat).issued && k != 1#4) 0x02,
      failIf (w.getLsbD 1 && st.rowStateBad g t a.toNat k.toNat) 0x09])
    fun g tids => { st.newCmd (.mldc k.toNat) c.toNat tids with final := w.getLsbD 0, lab := w.getLsbD 1, a := fld (st.gNow g a.toNat) 24 0 }

/-- R353. Queues a store of owned rows to an image. -/
def execMstc (s : BitVec 2) (c a r k : BitVec 4) (w : BitVec 2) (st : State) : Res :=
  millOp st s { rg := [a.toNat], ok := imageFormat k.toNat }
    (fun g t => firstFault [st.imageBad g t c.toNat a.toNat (imageBytes k.toNat (w.getLsbD 1) (k == 3#4)),
      failIf (r == 5#4 || (k == 12#4 && r != 0#4)) 0x02])
    fun g tids => { st.newCmd (.mstc k.toNat r.toNat) c.toNat tids with
      final := w.getLsbD 0, lab := w.getLsbD 1, a := fld (st.gNow g a.toNat) 24 0 }

/-- R354. Queues a copy of owned rows and tile format; K = C is refused (R348). -/
def execMcopy (s : BitVec 2) (c k : BitVec 4) (w : BitVec 1) (st : State) : Res :=
  millOp st s {}
    (fun g _ => firstFault [tilesBad st g [c.toNat, k.toNat], failIf (c == k) 0x02])
    (fun _ tids => { st.newCmd (.mcopy k.toNat) c.toNat tids with final := w == 1#1 })
    fun s1 => s1.setIssued c.toNat (s1.tile s1.cur.gid k.toNat).issued

/-- R354. Queues a product of owned rows with the factor in g[GB]. -/
def execMscale (s : BitVec 2) (c b : BitVec 4) (w : BitVec 1) (st : State) : Res :=
  millOp st s { rg := [b.toNat] }
    (fun g _ => firstFault [tilesBad st g [c.toNat], failIf (fld (st.gNow g b.toNat) 63 32 != 0) 0x09,
      failIf (st.tile st.cur.gid c.toNat).issued 0x02])
    fun g tids => { st.newCmd (.mscale ((st.gNow g b.toNat).setWidth 32)) c.toNat tids with final := w == 1#1 }

/-- R355. Queues a binding, and sets the ownbase of the commands issued after it. -/
def execMdep (s : BitVec 2) (c a : BitVec 4) (st : State) : Res :=
  let word := fun (g : Group) => st.gNow g a.toNat
  millOp st s { rg := [a.toNat] }
    (fun g _ =>
      let x := word g
      firstFault [tilesBad st g [c.toNat],
        failIf (fld x 15 7 != 0 || fld x 63 25 != 0 || (!x.getLsbD 6 && fld x 5 0 != 0)) 0x09,
        failIf (x.getLsbD 6 && decide (g.nbars ≤ fld x 5 0)) 0x02,
        failIf (x.getLsbD 6 && (g.bar (fld x 5 0)).expect == 0) 0x09])
    (fun g tids => st.newCmd (.mdep (if (word g).getLsbD 6 then some (fld (word g) 5 0) else none)) c.toNat tids)
    fun s1 => match st.issuing with
      | none => s1
      | some (g, _) => s1.putTile s1.cur.gid c.toNat { s1.tile s1.cur.gid c.toNat with ownbase := fld (word g) 24 16 }

/-- R356. Queues a read of a matrix counter into g[GA]; the pass waits for it. -/
def execMstat (s : BitVec 2) (a : BitVec 4) (k : BitVec 2) (st : State) : Res :=
  millOp st s {} (fun _ _ => none) fun _ tids => st.newCmd (.mstat a.toNat k.toNat) 16 tids

/-- R356. Queues a read of a tile's progress word. -/
def execMstatProg (s : BitVec 2) (c a : BitVec 4) (st : State) : Res :=
  millOp st s {} (fun g _ => tilesBad st g [c.toNat]) fun _ tids => st.newCmd (.mprog a.toNat) c.toNat tids

/-- R358. Queues an online softmax step from a score tile into an output tile. -/
def execMsmx (s : BitVec 2) (c k : BitVec 4) (w : BitVec 1) (st : State) : Res :=
  let t := fun (i : BitVec 4) => st.tile st.cur.gid i.toNat
  millOp st s {}
    (fun g _ => firstFault [tilesBad st g [c.toNat, k.toNat],
      failIf ((t c).issued || (t k).issued || c == k || (t c).ownbase != (t k).ownbase) 0x02])
    fun _ tids => { st.newCmd (.msmx k.toNat) c.toNat tids with final := w == 1#1 }

/-- R358. Queues the division of the owned output rows by their sums. -/
def execMsmf (s : BitVec 2) (k : BitVec 4) (w : BitVec 1) (st : State) : Res :=
  millOp st s {}
    (fun g _ => firstFault [tilesBad st g [k.toNat], failIf (st.tile st.cur.gid k.toNat).issued 0x02])
    fun _ tids => { st.newCmd .msmf k.toNat tids with final := w == 1#1 }

/-! ### MREL, MRD and MWR -/

/-- R357. Loads a relation descriptor, as a load of the lowest passing thread. -/
def execMrel (s : BitVec 2) (a k : BitVec 4) (st : State) : Res :=
  opening st .pass { rg := [a.toNat] } fun g p vs =>
    match participants vs st.cur.guard with
    | [] => .next (st.passBy .pass s.toNat false)
    | v :: _ =>
      let addr := st.gNow g a.toNat
      let q : Ask := { addr := addr, align := 64, size := 64, write := false, act := .read, refuse := [.peer, .host] }
      if k = 0#4 then .next (st.faultAll p 0x02 0 0)
      else match st.site g q with
      | .fault c => .next ((st.siteTouch g q).faultAll p c 0 addr)
      | .cow _ _ => .next (st.faultAll p 0x09 0 addr)
      | .ok space key cls _ =>
        if !st.mayActNow [v.tid] key 64 then .next (st.holdAt .access)
        else
          let acc : Access := { gid := st.cur.gid, pid := st.cur.pid, tids := [v.tid], helper := false, tok := 3, addr := addr, space := space,
                                key := key, size := 64, act := .read, fill := none, acquire := false, cls := classOf st.cur.hint space cls,
                                since := st.now, ctx := g.ctx }
          let (s1, bytes, bad) := ((st.siteTouch g q).countLines g [] [(st.cycle, addr)]).readValue st.stamp acc false
          if bad ≠ .none then .next ((s1.countBad true).faultAll p 0x14 0 addr)
          else if !relOk (leNat bytes) then .next (s1.faultAll p 0x09 0 addr)
          else .next ((s1.passBy .pass s.toNat false).onGroup st.cur.gid fun g => { g with rels := putAt g.rels k.toNat bytes })

/-- A command names a tile. -/
def MCmd.names (m : MCmd) (t : Nat) : Bool :=
  m.tile == t || (match m.op with
    | .mcopy src => src == t
    | .msmx out => out == t
    | _ => false)

/-- The stamp before which commands on its tile hold back an MRD or MWR: that of its issue (R359). -/
def Pass.tileStamp (p : Pass) (now : Nat) : Nat := match p.hold with
  | .tile _ at_ => at_
  | _ => now

/-- Every command of the group that names the tile and was queued before a stamp has retired (R359). -/
def State.tileQuiet (s : State) (g : Group) (t at_ : Nat) : Bool :=
  !((s.coreSt g.core).race.any fun (k, m) => m.gid == s.cur.gid && m.names t && decide (k < at_))

/-- MRD and MWR (R346, R359): they act in every thread once the earlier commands on the tile have retired. -/
def rowOp (st : State) (s : BitVec 2) (m : BitVec 4) (n : Needs) (act : Group → Pass → List View → State) : Res :=
  opening st .lane n fun g p vs =>
    if (participants vs st.cur.guard).isEmpty ∧ st.acc g ≤ m.toNat then .next (st.passBy .lane s.toNat false)
    else if st.acc g ≤ m.toNat then .next (st.faultAll p 0x02 0 0)
    else if !st.tileQuiet g m.toNat (p.tileStamp st.stamp) then .next (st.holdAt (.tile m.toNat (p.tileStamp st.stamp)))
    else .next (act g p (vs.filter fun v => v.passes st.cur.guard))

/-- R359. Each thread reads 16 elements of its row. -/
def execMrd (s : BitVec 2) (m : BitVec 4) (d a : BitVec 6) (st : State) : Res :=
  rowOp st s m { rv := [(a.toNat, 1)], wv := [(d.toNat, 16)] } fun g p vs =>
    let t := st.tile st.cur.gid m.toNat
    st.writeBack g p .lane s.toNat 0 (vs.map fun v =>
      let cb := (v.w a).toNat % 8
      (v, if t.ownbase ≤ v.tid ∧ v.tid < t.ownbase + 128 then
        { v := (List.range 16).map fun j => (d.toNat + j, readAt Carrier.zero t.vals ((v.tid - t.ownbase) * 128 + 16 * cb + j)) } else {}))

/-- The elements one thread writes. -/
def Tile.writeRow (t : Tile) (v : View) (d a : BitVec 6) : Tile :=
  if t.ownbase ≤ v.tid ∧ v.tid < t.ownbase + 128 then
    let at_ := (v.tid - t.ownbase) * 128 + 16 * ((v.w a).toNat % 8)
    { t with vals := (List.range 16).foldl (fun l j =>
        let c := v.v (d.toNat + j)
        writeAt Carrier.zero l (at_ + j) (if t.b16s then { w := c.w &&& 0xFFFF0000#32, s := false } else c)) t.vals }
  else t

/-- R359. Each thread writes 16 elements of its row. -/
def execMwr (s : BitVec 2) (m : BitVec 4) (d a : BitVec 6) (st : State) : Res :=
  rowOp st s m { rv := [(a.toNat, 1), (d.toNat, 16)] } fun _ _ vs =>
    (st.passBy .lane s.toNat false).putTile st.cur.gid m.toNat ((vs.filter fun v => !v.helper).foldl (fun (t : Tile) v => t.writeRow v d a)
      (st.tile st.cur.gid m.toNat))

/-! ### Products -/

/-- The exact sum of values, as IEEE 754 signs a zero (R42). -/
def sumVals : List Val → Val
  | [] => .num (Ex.zero false)
  | v :: rest => rest.foldl (fun a b => (Val.add a b).1) v

/-- An element of an operand tile as a value. -/
def State.operand (s : State) (t : Team) (base fmt l k : Nat) : Val :=
  match floatFmt fmt with
  | some f => fmtVal f (s.tileElem t base fmt l k)
  | none => .nan

/-- The products of a range of k for one pair. -/
def State.products (s : State) (t : Team) (m : MCmd) (i j : Nat) (ks : List Nat) : List Val :=
  ks.map fun k => (Val.mul (s.operand t m.a m.op.formats.1 i k) (s.operand t m.b m.op.formats.2 j k)).1

/-- The I8 sum of the 128 products (R43). -/
def State.intProducts (s : State) (t : Team) (m : MCmd) (i j : Nat) : Int :=
  ((List.range 128).map fun k =>
    (BitVec.ofNat 8 (s.tileElem t m.a 9 i k)).toInt * (BitVec.ofNat 8 (s.tileElem t m.b 9 j k)).toInt).foldl (· + ·) 0

/-- 2^(e − 127), or NaN for 0xFF (R21). -/
def scaleVal (b : Nat) : Val := match scaleExp (BitVec.ofNat 8 b) with
  | none => .nan
  | some e => .num (Ex.pow2 e)

/-- What a rounding point adds to element (i, j) (R42, R44, R45), at K-step `st`. -/
def State.addend (s : State) (t : Team) (m : MCmd) (i j st : Nat) : Option Val :=
  let (fa, fb) := m.op.formats
  match m.op with
  | .mma _ => some (sumVals (s.products t m i j ((List.range 16).map (16 * st + ·))))
  | .mmas _ =>
    if st < 7 then none
    else
      let total := sumVals (s.products t m i j (List.range 128))
      let alpha := carrierVal (Carrier.ofWord (BitVec.ofNat 32 (s.tileScales t m.a (dataBytes fa) (4 * i) 4)))
      let beta := carrierVal (Carrier.ofWord (BitVec.ofNat 32 (s.tileScales t m.b (dataBytes fb) 0 4)))
      some (Val.mul (Val.mul total alpha).1 beta).1
  | _ =>
    if st < 7 then none
    else some (sumVals ((List.range 4).map fun b =>
      let dot := sumVals (s.products t m i j ((List.range 32).map (32 * b + ·)))
      (Val.mul (Val.mul dot (scaleVal (s.tileScales t m.a (dataBytes fa) (4 * i + b) 1))).1
        (scaleVal (s.tileScales t m.b (dataBytes fb) (4 * j + b) 1))).1))

/-- An element after adding a value, with one rounding: a carrier, or BF16 under the column's generator (R42, R46). -/
def roundElem (t : Tile) (j : Nat) (c : Carrier) (x : Val) : Carrier :=
  let y := (Val.add (carrierVal c) x).1
  if t.b16s then
    let r := (finVal y fmtBF16 .sr (readAt 1#16 t.gens j).toNat (2 ^ 16)).1
    Carrier.ofWord (BitVec.ofNat 32 (finPattern fmtBF16 r * 2 ^ 16))
  else carryVal y

/-- The pair (i, j) is admitted under the command's verdict (R243, R351). -/
def MCmd.admits (m : MCmd) (la lb : Nat) (i : Nat) : Bool :=
  let inSeg := match m.seg with
    | none => true
    | some (lo, hi) => decide (lo ≤ i) && decide (i < hi)
  match m.verdict with
  | some .unmasked => true
  | some .masked => inSeg && (match m.rel with
    | none => true
    | some bytes => relAdmits (leNat bytes) la lb)
  | _ => false

/-- The labels that a masked command reads; 0 where none is read. -/
def State.labelFor (s : State) (t : Team) (m : MCmd) (isA : Bool) (l : Nat) : Nat :=
  if m.rel.isNone then 0
  else if isA then s.tileLabel t m.a (dataBytes m.op.formats.1) l else s.tileLabel t m.b (dataBytes m.op.formats.2) l

/-- One element of a K-step. -/
def State.stepElem (s : State) (t : Team) (m : MCmd) (o : Tile) (i j : Nat) : Tile :=
  let at_ := i * 128 + j
  let c := readAt Carrier.zero o.vals at_
  let o := { o with admitted := writeAt false o.admitted at_ true }
  if m.bad then { o with vals := writeAt Carrier.zero o.vals at_ Carrier.nan }
  else match m.op with
    | .mma 4 => if m.step < 7 then o
      else { o with vals := writeAt Carrier.zero o.vals at_ (Carrier.ofWord (c.w + BitVec.ofInt 32 (s.intProducts t m i j))) }
    | _ => match s.addend t m i j m.step with
      | none => o
      | some x => { o with vals := writeAt Carrier.zero o.vals at_ (roundElem o j c x) }

/-- The generators after one K-step (R47). -/
def Tile.advanceGens (o : Tile) : Tile :=
  if !o.b16s then o
  else { o with gens := (List.range 128).foldl (fun l j => writeAt 1#16 l j (genNext (readAt 1#16 o.gens j))) o.gens }

/-- The accumulator after one K-step of a command that is not skipped (R349). -/
def State.kStep (s : State) (t : Team) (m : MCmd) (o : Tile) : Tile :=
  let o := o.advanceGens
  let o := m.rows.foldl (fun o i =>
    let la := s.labelFor t m true i
    (List.range 128).foldl (fun o j => if m.admits la (s.labelFor t m false j) i then s.stepElem t m o i j else o) o) o
  { o with step := (m.step + 1) % 8 }

/-! ### Softmax -/

/-- 2^(x − y) (R252). -/
def softPower (x y : Carrier) : Carrier :=
  match (Val.add (carrierVal x) (carrierVal y).negate).1 with
  | .nan => Carrier.nan
  | .inf neg => if neg then Carrier.zero else Carrier.inf false
  | .num a => powerOf a (Config.softExp x y)

/-- The larger of two carriers in R26 order; NaN when one is NaN. -/
def maxCarrier (a b : Carrier) : Carrier :=
  if (carrierVal a).isNan || (carrierVal b).isNan then Carrier.nan
  else if Val.cmp (carrierVal a) (carrierVal b) < 0 then b else a

def negInf : Carrier := Carrier.inf true

/-- add2 of R251 on the sum pair. -/
def add2 (p : Carrier × Carrier) (t : Carrier) : Carrier × Carrier :=
  let x := (Val.add (Val.add (carrierVal p.1) (carrierVal p.2)).1 (carrierVal t)).1
  let hi := carryVal x
  (hi, carryVal (Val.add x (carrierVal hi).negate).1)

def mulCarrier (a b : Carrier) : Carrier := carryVal (Val.mul (carrierVal a) (carrierVal b)).1

/-- One row of MSMX (R252): the score tile and the output tile afterwards. -/
def softRow (st : Tile × Tile) (i : Nat) : Tile × Tile :=
  let (s, o) := st
  let at_ := fun j => i * 128 + j
  let adm := (List.range 128).filter fun j => readAt false s.admitted (at_ j)
  let o := { o with labels := writeAt 0#32 o.labels i (readAt 0#32 s.labels i) }
  if adm.isEmpty then
    ({ s with vals := (List.range 128).foldl (fun l j => writeAt Carrier.zero l (at_ j) Carrier.zero) s.vals }, o)
  else
    let m := readAt negInf o.softM i
    let mblk := adm.foldl (fun a j => maxCarrier a (readAt Carrier.zero s.vals (at_ j))) negInf
    let mnew := carryVal (carrierVal (maxCarrier m mblk))
    let low := mnew == negInf
    let f := if low then carry (Ex.ofNat 1) else softPower m mnew
    let vals := (List.range 128).foldl (fun l j => writeAt Carrier.zero l (at_ j)
      (if !adm.contains j || low then Carrier.zero else softPower (readAt Carrier.zero s.vals (at_ j)) mnew)) s.vals
    let out := (List.range 128).foldl (fun l j => writeAt Carrier.zero l (at_ j) (mulCarrier (readAt Carrier.zero o.vals (at_ j)) f)) o.vals
    let hi := mulCarrier (readAt Carrier.zero o.softHi i) f
    let lo := if hi.w &&& 0x7FFFFFFF#32 = 0#32 ∧ hi.s = false then Carrier.zero else mulCarrier (readAt Carrier.zero o.softLo i) f
    let p := adm.foldl (fun p j => add2 p (readAt Carrier.zero vals (at_ j))) (hi, lo)
    ({ s with vals := vals },
     { o with vals := out, softHi := writeAt Carrier.zero o.softHi i p.1, softLo := writeAt Carrier.zero o.softLo i p.2,
              softCnt := writeAt 0#32 o.softCnt i (readAt 0#32 o.softCnt i + BitVec.ofNat 32 adm.length),
              softM := writeAt negInf o.softM i mnew })

/-- One row of MSMF (R253). -/
def softFinish (o : Tile) (i : Nat) : Tile :=
  let sum := (Val.add (carrierVal (readAt Carrier.zero o.softHi i)) (carrierVal (readAt Carrier.zero o.softLo i))).1
  let none_ := readAt 0#32 o.softCnt i == 0#32 || (match sum with
    | .num x => x.isZero
    | _ => false)
  let at_ := fun j => i * 128 + j
  if none_ then
    { o with vals := (List.range 128).foldl (fun l j => writeAt Carrier.zero l (at_ j) Carrier.zero) o.vals
             empty := writeAt false o.empty i true }
  else { o with vals := (List.range 128).foldl (fun l j => writeAt Carrier.zero l (at_ j)
           (carryVal (Val.div (carrierVal (readAt Carrier.zero o.vals (at_ j))) sum).1)) o.vals }

/-! ### Tiles: zeroing, copies and images -/

/-- A row as MZERO leaves it (R249). -/
def Tile.zeroRow (o : Tile) (i : Nat) : Tile :=
  { o with
    vals := (List.range 128).foldl (fun l j => drop l (i * 128 + j)) o.vals
    admitted := (List.range 128).foldl (fun l j => drop l (i * 128 + j)) o.admitted
    labels := drop o.labels i, softM := drop o.softM i, softHi := drop o.softHi i, softLo := drop o.softLo i, softCnt := drop o.softCnt i,
    empty := drop o.empty i }

/-- The tile after MZERO (R352). -/
def Tile.mzero (o : Tile) (rows : List Nat) (word : Quad) : Tile :=
  let o := rows.foldl Tile.zeroRow o
  let seed := fld word 31 16
  { o with
    b16s := word.getLsbD 0
    gens := (List.range 128).foldl (fun l j =>
      let g := BitVec.ofNat 16 (seed + j * 0x9E37)
      writeAt 1#16 l j (if g = 0#16 then 1#16 else g)) [] }

/-- The rows of a tile taken from another (R354). -/
def Tile.copyRow (src o : Tile) (i : Nat) : Tile :=
  { o with
    vals := (List.range 128).foldl (fun l j => writeAt Carrier.zero l (i * 128 + j) (readAt Carrier.zero src.vals (i * 128 + j))) o.vals
    admitted := (List.range 128).foldl (fun l j => writeAt false l (i * 128 + j) (readAt false src.admitted (i * 128 + j))) o.admitted
    labels := writeAt 0#32 o.labels i (readAt 0#32 src.labels i)
    softM := writeAt negInf o.softM i (readAt negInf src.softM i)
    softHi := writeAt Carrier.zero o.softHi i (readAt Carrier.zero src.softHi i)
    softLo := writeAt Carrier.zero o.softLo i (readAt Carrier.zero src.softLo i)
    softCnt := writeAt 0#32 o.softCnt i (readAt 0#32 src.softCnt i)
    empty := writeAt false o.empty i (readAt false src.empty i) }

/-- An image element as a carrier (R353). -/
def imageCarrier (fmt bits : Nat) : Carrier :=
  match floatFmt fmt with
  | some f => fmtCarrier f bits
  | none => Carrier.ofWord (BitVec.ofNat 32 bits)

/-- One row of MLDC (R353, R255). -/
def State.loadRow (s : State) (t : Team) (m : MCmd) (fmt : Nat) (o : Tile) (i : Nat) : Tile :=
  let o := { o with vals := (List.range 128).foldl (fun l j => writeAt Carrier.zero l (i * 128 + j)
    (if m.bad then Carrier.nan else imageCarrier fmt (s.tileElem t m.a fmt i j))) o.vals }
  if !m.lab then o
  else
    let d := dataBytes fmt
    { o with labels := writeAt 0#32 o.labels i (BitVec.ofNat 32 (s.tileLabel t m.a d i))
             empty := writeAt false o.empty i ((leNat (s.scratchBytes t (m.a + d + 576) 16)).testBit i) }

/-- The scale exponent of an E4M3 row (R254). -/
def rowScale (l : List Carrier) : Int :=
  let logs := l.filterMap fun c => match carrierVal c with
    | .num x => if x.isZero then none else some x.log2
    | _ => none
  match logs with
  | [] => 0
  | a :: rest => min 127 (max (-127) (8 - rest.foldl max a))

/-- The pattern MSTC stores for an element (R353, R254); `e` is the row's scale exponent. -/
def storePattern (fmt mode : Nat) (e : Int) (c : Carrier) : Nat :=
  match floatFmt fmt, roundOf mode with
  | some f, some r =>
    let v := match carrierVal c with
      | .num x => Val.num (x.scale e)
      | y => y
    finPattern f (finVal v f r 0 1).1
  | _, _ => c.w.toNat

/-- One row of MSTC: its data, its scales, and with `.lab` its label and its empty bit; canonical NaNs, or +0 in a format without NaN,
when what it reads of the image is bad (R360). -/
def State.storeRow (s : State) (t : Team) (m : MCmd) (fmt mode : Nat) (o : Tile) (i : Nat) : State :=
  let d := dataBytes fmt
  let row := (List.range 128).map fun j => if m.bad then (if fmt = 12 then Carrier.zero else Carrier.nan) else readAt Carrier.zero o.vals (i * 128 + j)
  let e := if fmt = 3 then rowScale row else 0
  let s := s.scratchWrite t (m.a + i * (d / 128)) (row.flatMap fun c => leBytes (fmtBits fmt / 8) (storePattern fmt mode e c))
  let s := if fmt = 3 then s.scratchWrite t (m.a + d + 640 + 4 * i) (List.replicate 4 (BitVec.ofInt 8 (127 - e))) else s
  if !m.lab then s
  else
    let s := s.scratchWrite t (m.a + d + 4 * i) (leBytes 4 (readAt 0#32 o.labels i).toNat)
    let at_ := m.a + d + 576 + i / 8
    let b := (leNat (s.scratchBytes t at_ 1))
    let bit := 2 ^ (i % 8)
    s.scratchWrite t at_ [BitVec.ofNat 8 (b / (2 * bit) * (2 * bit) + b % bit + if readAt false o.empty i then bit else 0)]

/-- The summary of an operand tile recomputed from its labels (R237). -/
def State.resumTile (s : State) (t : Team) (base d : Nat) : State :=
  s.scratchWrite t (base + d + 512) (resummarise (s.tileSummary t base d) ((List.range 128).map (s.tileLabel t base d)))

/-! ### The millrace -/

/-- The cycles of a K-step (R347). -/
def MOp.stepCycles : MOp → Nat
  | .mma m => if m < 2 then 16 else 8
  | .mmax m => if m = 7 then 4 else 8
  | _ => 8

/-- The cycles of a command that has no K-steps (R347). -/
def MOp.cycles : MOp → Nat
  | .mzero _ => 8
  | .mldc _ => 64
  | .mstc _ _ => 64
  | .mcopy _ => 32
  | .mscale _ => 32
  | .msmx _ => 64
  | .msmf => 32
  | _ => 1

/-- The masked command's 16 cycles come in its last K-step (R347). -/
def MCmd.extra (m : MCmd) (step : Nat) : Nat := if m.verdict = some .masked ∧ step = 7 then 16 else 0

/-- A group whose commands may start: it neither halts nor is saved (R361). -/
def State.raceOpen (s : State) (gid : Nat) : Bool := match lookup s.groups gid with
  | none => true
  | some g => g.st != .halting && g.st != .saved

/-- The verdict of a product command as it starts (R243, R351). -/
def State.verdictAt (s : State) (t : Team) (m : MCmd) : Verdict :=
  let base := match m.rel with
    | none => .unmasked
    | some bytes => verdictOf (leNat bytes) (s.tileSummary t m.a (dataBytes m.op.formats.1)) (s.tileSummary t m.b (dataBytes m.op.formats.2))
  match m.seg with
  | none => base
  | some (lo, hi) => if 128 ≤ lo ∨ hi ≤ lo then .skipped else if lo = 0 ∧ 128 ≤ hi then base else .masked

/-- What a product command reads of one operand tile holds data that the ECC cannot correct: its data, under a relation its labels and
summary, and its scales (R233, R235, R360). -/
def State.tileBad (s : State) (t : Team) (base d scales : Nat) (k0 : Bool) : Bool :=
  s.scratchBad t base d || (!k0 && s.scratchBad t (base + d) 576) || s.scratchBad t (base + d + 640) scales

/-- The reads of a product command meet data that the ECC cannot correct (R360). -/
def State.operandsBad (s : State) (t : Team) (m : MCmd) : Bool :=
  let (na, nb) := match m.op with
    | .mmax _ => (512, 512)
    | .mmas _ => (512, 4)
    | _ => (0, 0)
  s.tileBad t m.a (dataBytes m.op.formats.1) na m.rel.isNone || s.tileBad t m.b (dataBytes m.op.formats.2) nb m.rel.isNone

/-- Rows of a command marked first, as it starts (R249, R349). -/
def State.firstRows (s : State) (t : Team) (m : MCmd) (o : Tile) : Tile :=
  m.rows.foldl (fun o i => { o with
    vals := (List.range 128).foldl (fun l j => drop l (i * 128 + j)) o.vals
    admitted := (List.range 128).foldl (fun l j => drop l (i * 128 + j)) o.admitted
    labels := writeAt 0#32 o.labels i (BitVec.ofNat 32 (s.labelFor t m true i)) }) o

/-- A command starts at a cycle: its verdict and first rows, or what it does at the head of the millrace. -/
def State.startCmd (s : State) (core k : Nat) (m : MCmd) (at_ : Nat) : State :=
  let c := s.coreSt core
  let put := fun (s : State) (m : MCmd) => s.putCore core { c with race := putAt c.race k m }
  let o := s.tile m.gid m.tile
  match lookup s.groups m.gid with
  | none => s
  | some g => match s.teamOf g with
    | none => s
    | some t =>
      if m.op.product then
        match m.verdict with
        | some _ => put s { m with started := true, until_ := at_ + m.op.stepCycles + m.extra m.step }
        | none =>
          let v := s.verdictAt t m
          let m := { m with started := true, verdict := some v, gens := o.gens, bad := s.operandsBad t m }
          let m := { m with until_ := at_ + if v = .skipped then 4 else m.op.stepCycles + m.extra 0 }
          let o := { o with infl := true, step := 0 }
          put ((s.putTile m.gid m.tile (if m.first then s.firstRows t m o else o)).countBad m.bad) m
      else
        let m := { m with started := true, until_ := at_ + m.op.cycles }
        match m.op with
        | .mdep b => put (s.putTile m.gid m.tile { o with bind := b }) m
        | .mstat _ sel => put s { m with value := if sel = 0 then c.skipped else if sel = 1 then c.masked else c.unmasked }
        | .mprog _ => put s { m with value := BitVec.ofNat 64 (o.step + if o.infl then 8 else 0) }
        | .mldc fmt =>
          let bad := s.scratchBad t m.a (imageBytes fmt m.lab false)
          put ((s.putTile m.gid m.tile { o with infl := true }).countBad bad) { m with bad := bad }
        | .mstc fmt _ =>
          let bad := m.lab && s.scratchBad t (m.a + dataBytes fmt) 592
          put ((s.putTile m.gid m.tile { o with infl := true }).countBad bad) { m with bad := bad }
        | _ => put (s.putTile m.gid m.tile { o with infl := true }) m

/-- A pass of the group stands at an MRD or MWR that was issued before the command (R359). -/
def State.behindRow (s : State) (k : Nat) (m : MCmd) : Bool := match lookup s.groups m.gid with
  | none => false
  | some g => g.passes.any fun (_, p) => match p.hold with
    | .tile _ at_ => decide (at_ ≤ k)
    | _ => false

/-- R343. The next command starts at the later of the cycle after its issue and the end of the command before it. -/
def execMillraceCommandStart (core : Nat) (st : State) : Res :=
  let c := st.coreSt core
  if c.race.any fun (_, m) => m.started then .next st
  else match c.race.find? fun (_, m) => st.raceOpen m.gid with
    | none => .next st
    | some (k, m) =>
      let at_ := max (m.issued + 1) c.free
      if st.cycle < at_ ∨ st.behindRow k m then .next st else .next (st.startCmd core k m at_)

/-- The command in the millrace. -/
def CoreSt.active (c : CoreSt) : Option (Nat × MCmd) := c.race.find? fun (_, m) => m.started

/-- R42, R349. One K-step of a product command; in a halt an MMA stops at the boundary after it (R250). -/
def execKStep (core : Nat) (st : State) : Res :=
  let c := st.coreSt core
  match c.active with
  | none => .next st
  | some (k, m) =>
    if !m.op.product || m.verdict == some .skipped || decide (8 ≤ m.step) || decide (st.cycle < m.until_) then .next st
    else match lookup st.groups m.gid with
      | none => .next st
      | some g => match st.teamOf g with
        | none => .next st
        | some t =>
          let o := st.kStep t m (st.tile m.gid m.tile)
          let next := m.step + 1
          let stops := decide (next < 8) && !st.raceOpen m.gid && (match m.op with
            | .mma _ => true
            | _ => false)
          let m := { m with step := next, started := !stops,
                            until_ := if next < 8 then m.until_ + m.op.stepCycles + m.extra next else m.until_ }
          .next ((st.putTile m.gid m.tile o).putCore core { c with race := putAt c.race k m })

/-- What a command without K-steps has done when it ends. An MSTC with its labels writes the whole of ROWSTATE, its reserved bits as zero
(R5, R353; DEDUCED, log 81). -/
def State.finishMill (s : State) (t : Team) (m : MCmd) : State :=
  let o := s.tile m.gid m.tile
  match m.op with
  | .mzero word => s.putTile m.gid m.tile (o.mzero m.rows word)
  | .mldc fmt => s.putTile m.gid m.tile (m.rows.foldl (s.loadRow t m fmt) o)
  | .mstc fmt mode =>
    let s := m.rows.foldl (fun s i => s.storeRow t m fmt mode o i) s
    if m.lab then (s.scratchWrite t (m.a + dataBytes fmt + 592) (List.replicate 48 0)).resumTile t m.a (dataBytes fmt) else s
  | .mcopy src =>
    let x := s.tile m.gid src
    s.putTile m.gid m.tile { m.rows.foldl (fun o i => x.copyRow o i) o with b16s := x.b16s, gens := x.gens }
  | .mscale f => s.putTile m.gid m.tile { o with vals := m.rows.foldl (fun l i => (List.range 128).foldl (fun l j =>
      writeAt Carrier.zero l (i * 128 + j) (mulCarrier (readAt Carrier.zero o.vals (i * 128 + j)) (Carrier.ofWord f))) l) o.vals }
  | .msmx out =>
    let (a, b) := m.rows.foldl softRow (o, s.tile m.gid out)
    (s.putTile m.gid m.tile a).putTile m.gid out b
  | .msmf => s.putTile m.gid m.tile (m.rows.foldl softFinish o)
  | .mstat d _ => s.send { gid := m.gid, pid := m.pid, tids := m.tids, helper := false, tok := 4, addr := 0, fill := .uniform d,
                           bytes := leBytes 8 m.value.toNat, vals := [], fail := 0 }
  | .mprog d => s.send { gid := m.gid, pid := m.pid, tids := m.tids, helper := false, tok := 4, addr := 0, fill := .uniform d,
                         bytes := leBytes 8 m.value.toNat, vals := [], fail := 0 }
  | _ => s

/-- The tile whose binding a final command arrives on (R349, R358). -/
def MCmd.arriveTile (m : MCmd) : Nat := match m.op with
  | .msmx out => out
  | _ => m.tile

/-- A final command's arrival on its tile's barrier; with ERR when its data was bad (R169, R360). A group that a fault ended drops
it (R151). -/
def State.finalArrival (s : State) (m : MCmd) : State :=
  match lookup s.groups m.gid, (s.tile m.gid m.arriveTile).bind with
  | some g, some b =>
    if !m.final || g.dead then s
    else
      let s := if m.bad then s.putGroup m.gid (g.putBar b { g.bar b with err := true }) else s
      s.mdepArrive m.gid b
  | _, _ => s

/-- The core's counter of the verdict of a product command (R245). -/
def CoreSt.count (c : CoreSt) (m : MCmd) : CoreSt :=
  if !m.op.product then c
  else match m.verdict with
    | some .skipped => { c with skipped := c.skipped + 1 }
    | some .masked => { c with masked := c.masked + 1 }
    | some .unmasked => { c with unmasked := c.unmasked + 1 }
    | none => c

/-- R349. A command that has ended retires: its effects, INFL cleared, its counters and its arrival. -/
def execMillraceCommandRetire (core : Nat) (st : State) : Res :=
  let c := st.coreSt core
  match c.active with
  | none => .next st
  | some (k, m) =>
    let ended := if m.op.product && m.verdict != some .skipped then decide (8 ≤ m.step) else decide (m.until_ ≤ st.cycle)
    if !ended then .next st
    else match lookup st.groups m.gid with
      | none => .next (st.putCore core { c with race := drop c.race k, free := m.until_ })
      | some g =>
        let s := match st.teamOf g with
          | none => st
          | some t => st.finishMill t m
        let s := s.putCore core { (c.count m) with race := drop c.race k, free := m.until_ }
        let s := match m.op with
          | .mstat _ _ => s
          | _ => s.putTile m.gid m.tile { s.tile m.gid m.tile with infl := false, step := 0 }
        .next ((s.onGroup m.gid fun g => g.setCounter 1 (g.counter 1 - 1)).finalArrival m)

end Sys2Proof.Machine
end

