-- ==== Sys2Proof/Machine/Sluice.lean ====
section
/-! DEFINITION. The sluice: COPY, COPYT, GATH, SCAT and COPYR, their chunks and their retirement (17_isa_memory R336 to R341; 10_page
R190, R191; 11_link R198 to R202, R204; 09_barrier R163, R173). -/

namespace Sys2Proof.Machine

/-! ### Sides -/

/-- The address of team scratchpad offset 0 (R207). -/
def scratchBase : Nat := 0xFF00000000000000

/-- The place of a byte of a side, from BASE's own space: a scratchpad offset, or a device virtual address, exact (R7, R207, R337). -/
def State.sideAt (s : State) (g : Group) (scr : Bool) (a : Int) (write : Bool) : Trans :=
  if !scr then (if a < 0 ∨ 2 ^ 64 ≤ a then .fault 0x05 else s.translate g.ctx (BitVec.ofInt 64 a) write)
  else match s.teamOf g with
    | none => .fault 0x05
    | some t => if 0 ≤ a ∧ a < (t.scratch : Int) then .ok .scratch (t.scratchAt a.toNat) 0 none else .fault 0x05

/-- The memory key of a byte of a side, when it has one. -/
def State.sideKey (s : State) (g : Group) (scr : Bool) (a : Int) (write : Bool) : Option Nat :=
  match s.sideAt g scr a write with
  | .ok _ key _ _ => some key
  | _ => none

/-- `n` bytes of a side as an engine reads them (R231), and whether the ECC cannot correct some of them (R379). -/
def State.sideBytes (s : State) (g : Group) (scr : Bool) (a : Int) (n : Nat) : List Byte × Bool :=
  let keys := (List.range n).filterMap fun (i : Nat) => s.sideKey g scr (a + (i : Int)) false
  (keys.map s.byte, keys.any (s.badAt g.core))

/-- The address a fault of a side's byte reports. -/
def sideAddr (scr : Bool) (a : Int) : Quad := BitVec.ofInt 64 (if scr then a + scratchBase else a)

/-- A descriptor with a scratchpad BASE as an offset: of a side named by direction it is one, and COPYR's bases are addresses (R207, R337). -/
def sideTensor (op : EOp) (bytes : List Byte) (scr : Bool) : Tensor :=
  let t := readTensor bytes
  match op with
  | .copyr _ => if scr then { t with base := t.base - scratchBase } else t
  | _ => t

def Engine.d (e : Engine) : Tensor := sideTensor e.op e.dst e.dScr
def Engine.s (e : Engine) : Tensor := sideTensor e.op e.src e.sScr

/-! ### What a command moves -/

/-- One element's move: its destination indices, and its source indices unless it pads. -/
structure Move where
  dst : List Nat
  src : Option (List Nat)
  deriving DecidableEq, Repr

/-- The first two indices exchanged (R338). -/
def swap01 : List Nat → List Nat
  | a :: b :: rest => b :: a :: rest
  | l => l

/-- The source lines of a SCAT that reach a destination line: those in range that no later line replaces (R339). -/
def scatLines (lines : Nat) : Nat → List Nat → List (Nat × Nat)
  | _, [] => []
  | j, i :: rest => if i < lines && !rest.contains i then (j, i) :: scatLines lines (j + 1) rest else scatLines lines (j + 1) rest

/-- The moves of a command in the order of its destination, dimension 0 fastest (R199, R338, R339); SCAT's in the order of its list. -/
def Engine.lineMoves (e : Engine) : List (List Nat × Option (List Nat)) :=
  match e.op with
  | .gath => (List.range (e.d.size 1)).map fun j =>
      let i := e.idx.getD j 0
      ([0, j, 0, 0, 0], if i < e.s.size 1 then some [0, i, 0, 0, 0] else none)
  | .scat => (scatLines (e.d.size 1) 0 e.idx).map fun (j, i) => ([0, i, 0, 0, 0], some [0, j, 0, 0, 0])
  | _ => (List.range e.d.lines).map fun l =>
      let i := e.d.indices (l * e.d.extent 0)
      (i, some i)

/-- An index list with dimension 0 set. -/
def atCol (i0 : Nat) : List Nat → List Nat
  | [] => [i0]
  | _ :: rest => i0 :: rest

/-- Element `i0` of a line's move. -/
def Engine.elemMove (e : Engine) (m : List Nat × Option (List Nat)) (i0 : Nat) : Move :=
  { dst := atCol i0 m.1, src := m.2.map fun j => match e.op with
      | .copyt => swap01 (atCol i0 j)
      | _ => atCol i0 j }

/-- Bits of a chunk of destination data (R190). -/
def chunkBits : Nat := 524288

/-- Destination bits that a command moves. -/
def Engine.totalBits (e : Engine) : Nat := e.lineMoves.length * (e.d.size 0 * e.d.bits)

/-- The moves of a chunk: the elements whose first bit in the traversal lies in it (R199), each whole (R209). -/
def Engine.movesIn (e : Engine) (k : Nat) : List Move :=
  let w := e.d.bits
  (e.lineMoves.zip (List.range e.lineMoves.length)).flatMap fun (m, l) =>
    (List.range (e.d.size 0)).filterMap fun i0 =>
      let at_ := (l * e.d.size 0 + i0) * w
      if k * chunkBits ≤ at_ ∧ at_ < (k + 1) * chunkBits then some (e.elemMove m i0) else none

/-- The lines whose first element begins in a chunk: their labels and scales move with it (R341). -/
def Engine.linesIn (e : Engine) (k : Nat) : List (List Nat × Option (List Nat)) :=
  (e.lineMoves.zip (List.range e.lineMoves.length)).filterMap fun (m, l) =>
    let at_ := l * e.d.size 0 * e.d.bits
    if k * chunkBits ≤ at_ ∧ at_ < (k + 1) * chunkBits then some m else none

/-- The scale plane moves too (R341). -/
def Engine.scales (e : Engine) : Bool := e.d.scaleOff != 0 && e.s.scaleOff != 0 && (match e.op with
  | .copyr _ => false
  | _ => true)

/-- Scale bytes of a line (R257). -/
def Tensor.scaleBytes (t : Tensor) : Nat := (t.size 0 + 31) / 32

/-- The uncounted moves of a line: destination and source places, how many bytes, and what padding holds (R258). -/
def Engine.planeMoves (e : Engine) (m : List Nat × Option (List Nat)) : List (Nat × Option Nat × Nat × Byte) :=
  (if e.lab then [(e.d.labelAt e.dScr (e.d.line m.1), m.2.map fun j => e.s.labelAt e.sScr (e.s.line j), 4, 0xFF#8)] else [])
    ++ (if e.scales then [(e.d.scaleAt e.dScr (e.d.line m.1) 0, m.2.map fun j => e.s.scaleAt e.sScr (e.s.line j) 0, e.d.scaleBytes, 127#8)] else [])

/-- A scratchpad destination's summary is recomputed (R341). -/
def Engine.sums (e : Engine) : Bool := e.lab && e.dScr

/-- The bytes that hold an element: the first from BASE's space, how many, and the bit at which it begins. -/
def Tensor.bytesOf (t : Tensor) (i : List Nat) : Int × Nat × Nat :=
  let p := t.place i
  let b := (p % 8).toNat
  ((t.base : Int) + p / 8, (b + t.bits + 7) / 8, b)

/-- A byte in every 128 of every part of a chunk, and its last, side by side: scratchpad or not, the byte, written or not (R190). -/
def Engine.touches (e : Engine) (k : Nat) : List (Bool × Int × Bool) :=
  let ends := fun (scr : Bool) (a : Int) (n : Nat) (write : Bool) =>
    ((List.range ((n + 127) / 128)).map fun (i : Nat) => (scr, a + 128 * (i : Int), write)) ++ [(scr, a + (n : Int) - 1, write)]
  (e.movesIn k).flatMap (fun m =>
    let (a, n, _) := e.d.bytesOf m.dst
    ends e.dScr a n true ++ (match m.src with
      | none => []
      | some j =>
        let (a, n, _) := e.s.bytesOf j
        ends e.sScr a n false))
  ++ (e.linesIn k).flatMap (fun m => (e.planeMoves m).flatMap fun (a, f, n, _) =>
    ends e.dScr (a : Int) n true ++ (match f with
      | none => []
      | some a => ends e.sScr (a : Int) n false))
  ++ (match e.map with
    | none => []
    | some a => [(false, ((a.toNat + k / 64 * 8 : Nat) : Int), true)])

/-! ### Issue -/

/-- The candidates for the lowest and highest place along a dimension: the ends, and the ends of whole blocks. -/
def Tensor.corners (t : Tensor) (d : Nat) : List Nat :=
  let n := t.extent d
  let r := 2 ^ t.brows
  let m := (n - 1) / r * r
  ([0, n - 1] ++ if d = 1 ∧ t.blocked then [r - 1, m, m - 1] else []).filter fun i => decide (i < n)

/-- The bytes that a side's element data occupies, first and last (R261). -/
def Tensor.dataRange (t : Tensor) : Int × Int :=
  let l := (t.corners 0).flatMap fun a => (t.corners 1).flatMap fun b => (t.corners 2).flatMap fun c => (t.corners 3).flatMap fun d =>
    (t.corners 4).map fun e => t.place [a, b, c, d, e]
  match l with
  | [] => (t.base, t.base)
  | p :: rest => ((t.base : Int) + rest.foldl min p / 8, (t.base : Int) + (rest.foldl max p + (t.bits : Int) - 1) / 8)

/-- The first and last of a list of lines. -/
def lineEnds : List Nat → Option (Nat × Nat)
  | [] => none
  | l :: rest => some (rest.foldl min l, rest.foldl max l)

/-- All lines of a tensor. -/
def Tensor.allLines (t : Tensor) : Option (Nat × Nat) := if t.lines = 0 then none else some (0, t.lines - 1)

/-- A range of bytes widened over another. -/
def widen (r : Int × Int) (lo hi : Nat) : Int × Int := (min r.1 (lo : Int), max r.2 (hi : Int))

/-- A footprint (R261): the element data and, for the lines between two, the planes that move, with the summary block when the side has
one. -/
def Tensor.footprint (t : Tensor) (scr : Bool) (ls : Option (Nat × Nat)) (lab scl sum : Bool) : Int × Int :=
  let r := t.dataRange
  let r := match ls with
    | none => r
    | some (a, b) =>
      let r := if lab then widen r (t.labelAt scr a) (t.labelAt scr b + 3) else r
      if scl && t.scaleBytes != 0 then widen r (t.scaleAt scr a 0) (t.scaleAt scr b 0 + t.scaleBytes - 1) else r
  if sum then widen r (t.plane scr t.labOff + 512) (t.plane scr t.labOff + 575) else r

/-- A tensor without elements has no footprint. -/
def Tensor.empty (t : Tensor) : Bool := t.elems == 0

/-- What an engine command finds at issue: it issues, or a fault with its address, or a copy-on-write leaf. -/
inductive Issue where
  | go (e : Engine)
  | fault (code : Nat) (addr : Quad)
  | cow (leaf frame : Nat) (addr : Quad)
  deriving DecidableEq, Repr

/-- Step 1 of R337 for one descriptor. -/
def State.descriptor (s : State) (g : Group) (a : Quad) : List Byte ⊕ Nat :=
  if a.toNat % 64 ≠ 0 then .inr 0x04 else s.engineRead g a 64

/-- Step 2 of R337 for one descriptor (R259, R260, R262). -/
def State.descriptorOk (s : State) (g : Group) (t : Tensor) (scr write : Bool) : Bool :=
  t.ok (if scr then 16 else 32) write && (t.segOff == 0 || (t.segOff % 4 == 0 && (match s.segments g (if scr then { t with base := t.base + scratchBase } else t) scr with
    | .inl _ => true
    | .inr _ => false)))

/-- The destination's or source's space of a command: by direction, or by the base (R336, R207). -/
def scrOf (op : EOp) (byDir : Bool) (bytes : List Byte) : Bool :=
  match op with
  | .copyr _ => decide (scratchBase ≤ (readTensor bytes).base)
  | _ => byDir

/-- Formats of a reduction (R340). -/
def redFormat (red fmt : Nat) : Bool :=
  match red with
  | 0 => fmt == 12 || fmt == 13
  | 2 => fmt == 1
  | _ => fmt == 0

/-- The sizes agree in every dimension. -/
def sameSizes (d s : Tensor) : Bool := d.fmt == s.fmt && d.rank == s.rank && d.sizes == s.sizes

/-- The command's own checks (R338 to R341). `host` says that the destination translates to host memory. -/
def ownOk (e : Engine) (host : Bool) : Bool :=
  let d := e.d
  let s := e.s
  (match e.op with
    | .copy => sameSizes d s
    | .copyt => d.fmt == s.fmt && d.rank == s.rank && decide (2 ≤ d.rank) && d.sizes == swap01 s.sizes && decide (8 ≤ d.bits)
        && d.scaleOff == 0 && s.scaleOff == 0
    | .copyr red => sameSizes d s && redFormat red d.fmt && !host
    | _ => d.rank == 2 && s.rank == 2 && d.fmt == s.fmt && d.size 0 == s.size 0)
    && (!e.lab || (d.lab && s.lab && (!e.dScr || decide (d.lines ≤ 128))))

/-- Every part that the command touches, chunk by chunk. -/
def Engine.allTouches (e : Engine) : List (Bool × Int × Bool) := (List.range e.chunks).flatMap e.touches

/-- Some destination byte of the command translates into a space (R198, R340). -/
def State.destIn (s : State) (g : Group) (e : Engine) (x : Space) : Bool :=
  ({ e with map := none }).allTouches.any fun (scr, a, write) => write && (match s.sideAt g scr a false with
    | .ok space _ _ _ => space == x
    | _ => false)

/-- The first part that does not translate (R337 step 8). -/
def State.firstTouch (s : State) (g : Group) (e : Engine) : List (Bool × Int × Bool) → Issue
  | [] => .go e
  | (scr, a, write) :: rest => match s.sideAt g scr a write with
    | .ok _ _ _ _ => s.firstTouch g e rest
    | .fault c => .fault c (sideAddr scr a)
    | .cow leaf frame => .cow leaf frame (sideAddr scr a)

/-- The bytes of a team's scratchpad allocation. -/
def State.scratchOf (s : State) (g : Group) : Nat := match s.teamOf g with
  | none => 0
  | some x => x.scratch

/-- A scratchpad side reaches beyond the team's allocation (R337 step 6): its lowest address. -/
def State.outOfScratch (s : State) (g : Group) (t : Tensor) (scr : Bool) (lab scl sum : Bool) : Option Quad :=
  let (lo, hi) := t.footprint scr t.allLines lab scl sum
  if scr && !t.empty && (decide (lo < 0) || decide ((s.scratchOf g : Int) ≤ hi)) then some (BitVec.ofInt 64 (max lo 0 + scratchBase)) else none

/-- An index list in the scratchpad reaches beyond the team's allocation (R337 step 6). -/
def State.listOut (s : State) (g : Group) (gx : Quad) (n : Nat) : Bool :=
  fld gx 63 52 != 0 && !(decide (scratchBase ≤ gx.toNat) && decide (gx.toNat + 4 * n ≤ scratchBase + s.scratchOf g))

/-- The lines of the two sides whose planes a command moves, once its index list is known: of the destination and of the source. -/
def Engine.planeLines (e : Engine) : Option (Nat × Nat) × Option (Nat × Nat) :=
  match e.op with
  | .gath => (e.d.allLines, lineEnds (e.lineMoves.filterMap fun m => m.2.map e.s.line))
  | .scat => (lineEnds (e.lineMoves.map fun m => e.d.line m.1), lineEnds (e.lineMoves.filterMap fun m => m.2.map e.s.line))
  | _ => (e.d.allLines, e.s.allLines)

/-- Footprints that R261 refuses (R337 step 7), with the planes of the lines given. -/
def overlapBad (e : Engine) (ls : Option (Nat × Nat) × Option (Nat × Nat)) : Bool :=
  let (dl, dh) := e.d.footprint e.dScr ls.1 e.lab e.scales e.sums
  let (sl, sh) := e.s.footprint e.sScr ls.2 e.lab e.scales false
  e.dScr == e.sScr && !e.d.empty && !e.s.empty && decide (dl ≤ sh) && decide (sl ≤ dh)
    && !((match e.op with
      | .copy => true
      | .copyt => true
      | _ => false) && decide (e.d.elems * e.d.bits / 8 ≤ 65536))

/-- The index list of a GATH or SCAT, read as engine source data (R339), or its fault. -/
def State.indexList (s : State) (g : Group) (gx : Quad) (n : Nat) : List Nat ⊕ Nat :=
  match s.engineRead g gx (4 * n) with
  | .inl bytes => .inl (wordsOf bytes)
  | .inr c => .inr c

/-- What the instruction itself says of a command. -/
structure Ordered where
  op : EOp
  /-- the sides by direction (R78) -/
  dDir : Bool
  sDir : Bool
  lab : Bool
  bar : Option Nat
  /-- g[GD], g[GS] and g[GX] -/
  gd : Quad
  gs : Quad
  gx : Quad
  deriving DecidableEq, Repr

/-- The command as its descriptors give it, before its index list and its class. -/
def Ordered.engine (o : Ordered) (gid : Nat) (dst src : List Byte) : Engine :=
  { gid := gid, cls := 0, op := o.op, dst := dst, src := src, dScr := scrOf o.op o.dDir dst, sScr := scrOf o.op o.sDir src, idx := [],
    lab := o.lab, bar := o.bar, map := none, chunks := 0, started := 0, ended := 0, horizon := 0 }

/-- How many chunks a command has. -/
def Engine.chunked (e : Engine) : Engine := { e with chunks := (e.totalBits + chunkBits - 1) / chunkBits }

/-- What becomes of a command at issue, with what it has read and translated by then: the addresses of the lines read (R231), and the
parts whose pages it has translated (R190). -/
structure Issued where
  res : Issue
  lines : List Nat := []
  parts : List (Bool × Int × Bool) := []
  deriving DecidableEq, Repr

/-- The index list of a command, by its length (R339). -/
def Engine.listLen (e : Engine) : Option Nat := match e.op with
  | .gath => some (e.d.size 1)
  | .scat => some (e.s.size 1)
  | _ => none

/-- Steps 7 and 8 of R337: the overlap of the element data, then that of the planes that an index list makes known (R261), then the pages. -/
def State.issueLast (s : State) (g : Group) (o : Ordered) (e : Engine) (lines : List Nat) : Issued :=
  if overlapBad e (match e.listLen with
    | none => e.planeLines
    | some _ => (none, none)) then { res := .fault 0x0A o.gd, lines := lines }
  else match e.listLen with
    | none => { res := s.firstTouch g e.chunked e.chunked.allTouches, lines := lines, parts := e.chunked.allTouches }
    | some n =>
      let lines := lines ++ linesFrom o.gx.toNat (4 * n)
      match s.indexList g o.gx n with
      | .inr c => { res := .fault c o.gx, lines := lines }
      | .inl l =>
        let e := { e with idx := l }.chunked
        if overlapBad e e.planeLines then { res := .fault 0x0A o.gd, lines := lines }
        else { res := s.firstTouch g e e.allTouches, lines := lines, parts := e.allTouches }

/-- Steps 5 to 8 of R337 for a command whose own checks have passed. -/
def State.issueRest (s : State) (g : Group) (o : Ordered) (e : Engine) (lines : List Nat) : Issued :=
  let collective : Bool := match e.op with
    | .copy => s.destIn g e.chunked .peer
    | .copyr _ => true
    | _ => false
  if collective ∧ o.gx.toNat % 8 ≠ 0 then { res := .fault 0x04 o.gx, lines := lines }
  else if e.listLen.isSome ∧ o.gx.toNat % 4 ≠ 0 then { res := .fault 0x04 o.gx, lines := lines }
  else match s.outOfScratch g e.d e.dScr e.lab e.scales e.sums, s.outOfScratch g e.s e.sScr e.lab e.scales false with
    | some a, _ => { res := .fault 0x05 a, lines := lines }
    | none, some a => { res := .fault 0x05 a, lines := lines }
    | none, none =>
      if e.listLen.any (s.listOut g o.gx) then { res := .fault 0x05 o.gx, lines := lines }
      else
        let cls := match e.op with
          | .copy => if collective then 3 else 0
          | .copyt => 0
          | .copyr _ => 3
          | _ => 2
        s.issueLast g o { e with cls := cls, map := if collective ∧ o.gx ≠ 0#64 then some o.gx else none } lines

/-- The lines of a descriptor's segment table, which R259 reads. -/
def State.tableLines (s : State) (g : Group) (t : Tensor) (scr write : Bool) : List Nat :=
  if t.segOff = 0 ∨ !t.ok (if scr then 16 else 32) write ∨ t.segOff % 4 ≠ 0 then []
  else
    let t := if scr then { t with base := t.base + scratchBase } else t
    if scr ∧ 2 ^ 64 ≤ t.base + t.segOff then [] else linesFrom (t.base + t.segOff) (s.segmentBytes g t)

/-- The checks of R337 in order. -/
def State.issueAll (s : State) (g : Group) (o : Ordered) : Issued :=
  let own := fun (a : Quad) => if a.toNat % 64 = 0 then linesFrom a.toNat 64 else []
  match s.descriptor g o.gd with
  | .inr c => { res := .fault c o.gd, lines := own o.gd }
  | .inl dst => match s.descriptor g o.gs with
    | .inr c => { res := .fault c o.gs, lines := own o.gd ++ own o.gs }
    | .inl src =>
      let e := o.engine s.cur.gid dst src
      let lines := own o.gd ++ own o.gs ++ s.tableLines g e.d e.dScr true
      let all := lines ++ s.tableLines g e.s e.sScr false
      if !s.descriptorOk g e.d e.dScr true then { res := .fault 0x09 o.gd, lines := lines }
      else if !s.descriptorOk g e.s e.sScr false then { res := .fault 0x09 o.gs, lines := all }
      else if (match o.bar with
        | some b => !decide (b < g.nbars)
        | none => false) then { res := .fault 0x02 0, lines := all }
      else if (match o.bar with
        | some b => (g.bar b).expect == 0
        | none => false) then { res := .fault 0x09 0, lines := all }
      else if !ownOk e (s.destIn g e.chunked .host) then { res := .fault 0x09 o.gd, lines := all }
      else s.issueRest g o e all

/-- What the checks of R337 end in. -/
def State.issueEngine (s : State) (g : Group) (o : Ordered) : Issue := (s.issueAll g o).res

/-- The leaves of the pages that a command translates at issue, up to the first that does not translate (R181, R190). -/
def State.partsSeen (s : State) (g : Group) : List (Bool × Int × Bool) → State
  | [] => s
  | (scr, a, write) :: rest => match s.sideAt g scr a write with
    | .ok _ _ _ leaf => (s.touch leaf write).partsSeen g rest
    | _ => s

/-- What the reads and the translations of a command at issue leave behind (R181, R218, R221). -/
def State.issueSeen (s : State) (g : Group) (o : Ordered) : State :=
  let r := s.issueAll g o
  (s.readSeen g r.lines).partsSeen g r.parts

/-- The common shape of the engine commands (R336, R337, R173). -/
def engineOp (st : State) (s : BitVec 2) (regs : List Nat) (mk : Group → Ordered) : Res :=
  opening st .pass { rg := regs } fun g p vs =>
    if (participants vs st.cur.guard).isEmpty then .next (st.passBy .pass s.toNat false)
    else match st.issueEngine g (mk g) with
      | .fault c a => .next (((st.issueSeen g (mk g)).countBad (c == 0x14)).faultAll p c 0 a)
      | .cow leaf frame a => .next ((st.issueSeen g (mk g)).cowThese g.ctx leaf frame a p.cohort)
      | .go e =>
        if g.counter e.cls = 255 then .next (st.holdAt .counter)
        else
          let s1 := ((st.issueSeen g (mk g)).passBy .pass s.toNat true).onGroup st.cur.gid fun g => g.setCounter e.cls (g.counter e.cls + 1)
          .next { s1 with engines := putAt s1.engines s1.stamp e, stamp := s1.stamp + 1 }

/-- Direction 0 g→s, 1 s→g, 2 g→g, 3 s→s: whether the destination, and the source, is scratchpad (R78). -/
def dirDst (r : BitVec 2) : Bool := r == 0#2 || r == 3#2
def dirSrc (r : BitVec 2) : Bool := r == 1#2 || r == 3#2

/-- The barrier a command names, unless it has `.nobar` (R336). -/
def barOf (b : BitVec 6) (n : BitVec 1) : Option Nat := if n = 1#1 then none else some b.toNat

/-- What a command with directions orders. -/
def ordered (st : State) (g : Group) (op : EOp) (b : BitVec 6) (gd gs gx : BitVec 4) (r : BitVec 2) (l n : BitVec 1) : Ordered :=
  { op := op, dDir := dirDst r, sDir := dirSrc r, lab := l == 1#1, bar := barOf b n, gd := st.gNow g gd.toNat, gs := st.gNow g gs.toNat,
    gx := st.gNow g gx.toNat }

/-- A COPY reads its third register: its destination lies at a peer, so that it is collective (R198, R336). Only a stall check asks. -/
def State.readsMap (s : State) (o : Group → Ordered) : Bool := match s.issuing with
  | none => false
  | some (g, _) => g.schk && (match s.descriptor g (o g).gd, s.descriptor g (o g).gs with
    | .inl d, .inl r => s.destIn g ((o g).engine s.cur.gid d r).chunked .peer
    | _, _ => false)

/-- R338. Copies a tensor, with `.lab` its labels too. -/
def execCopy (s : BitVec 2) (b : BitVec 6) (g u x : BitVec 4) (r : BitVec 2) (l n : BitVec 1) (st : State) : Res :=
  engineOp st s ([g.toNat, u.toNat] ++ if st.readsMap fun gr => ordered st gr .copy b g u x r l n then [x.toNat] else []) fun gr => ordered st gr .copy b g u x r l n

/-- R338. Copies a tensor with dimensions 0 and 1 exchanged. -/
def execCopyt (s : BitVec 2) (b : BitVec 6) (g u : BitVec 4) (r : BitVec 2) (n : BitVec 1) (st : State) : Res :=
  engineOp st s [g.toNat, u.toNat] fun gr => ordered st gr .copyt b g u 0 r 0 n

/-- R339. Destination line j := source line idx[j]. -/
def execGath (s : BitVec 2) (b : BitVec 6) (g u x : BitVec 4) (r : BitVec 2) (l n : BitVec 1) (st : State) : Res :=
  engineOp st s [g.toNat, u.toNat, x.toNat] fun gr => ordered st gr .gath b g u x r l n

/-- R339. Destination line idx[j] := source line j. -/
def execScat (s : BitVec 2) (b : BitVec 6) (g u x : BitVec 4) (r : BitVec 2) (l n : BitVec 1) (st : State) : Res :=
  engineOp st s [g.toNat, u.toNat, x.toNat] fun gr => ordered st gr .scat b g u x r l n

/-- R340. Combines source elements into destination elements at their homes. -/
def execCopyr (s : BitVec 2) (b : BitVec 6) (g u x : BitVec 4) (c : BitVec 3) (n : BitVec 1) (st : State) : Res :=
  engineOp st s [g.toNat, u.toNat, x.toNat] fun gr => ordered st gr (.copyr c.toNat) b g u x 0 0 n

/-! ### A chunk's start -/

/-- The value of an element's source, and whether the ECC cannot correct it; zero for padding (R258). -/
def State.moveValue (s : State) (g : Group) (e : Engine) (m : Move) : Nat × Bool :=
  match m.src with
  | none => (0, false)
  | some j =>
    let (a, n, b) := e.s.bytesOf j
    let (bytes, bad) := s.sideBytes g e.sScr a n
    (leNat bytes / 2 ^ b % 2 ^ e.s.bits, bad)

/-- The destination bytes of a move, one piece for each; for a reduction one piece for the element. -/
def State.movePieces (s : State) (g : Group) (e : Engine) (m : Move) : List Piece × Bool :=
  let (x, bad) := s.moveValue g e m
  let (a, n, b) := e.d.bytesOf m.dst
  let mask := leBytes n ((2 ^ e.d.bits - 1) * 2 ^ b)
  let val := leBytes n (x * 2 ^ b)
  match e.op with
  | .copyr _ => match s.sideKey g e.dScr a true with
    | none => ([], bad)
    | some key => ([{ key := key, mask := mask, bytes := val }], bad)
  | _ => ((List.range n).filterMap fun (i : Nat) => (s.sideKey g e.dScr (a + (i : Int)) true).map fun key =>
      ({ key := key, mask := [mask.getD i 0], bytes := [val.getD i 0] } : Piece), bad)

/-- The block that an element is written with: that of its first byte (R209). -/
def unitBlock (u : List Piece × Bool) : Nat := ((u.1.map fun p => p.key / 32).head?).getD 0

/-- Elements put together by their 32-byte blocks, in the order of their first bytes (R163): the sectors with good source data, and how
many have bad. An element that reaches into the next block is written with the block of its first byte, in one step (R209). -/
def sectorsOf (l : List (List Piece × Bool)) : List Sector × Nat :=
  let blocks := (l.flatMap fun u => u.1.map fun p => p.key / 32).eraseDups
  let meets := fun (b : Nat) (u : List Piece × Bool) => u.1.any fun p => p.key / 32 == b
  let bad := blocks.filter fun b => l.any fun u => u.2 && meets b u
  ((blocks.filter fun b => !bad.contains b).map fun b =>
    { block := b, pieces := (l.filter fun u => !u.2 && unitBlock u == b).flatMap (·.1)
      joined := l.any fun u => !u.2 && meets b u && unitBlock u != b }, bad.length)

/-- The label and scale writes of a chunk, byte by byte, and whether a source byte of theirs is bad. -/
def State.planePieces (s : State) (g : Group) (e : Engine) (k : Nat) : List (Piece × Bool) :=
  (e.linesIn k).flatMap fun m => (e.planeMoves m).flatMap fun (a, f, n, pad) =>
    let (bytes, bad) := match f with
      | none => (List.replicate n pad, false)
      | some a => s.sideBytes g e.sScr (a : Int) n
    (List.range n).filterMap fun i => (s.sideKey g e.dScr ((a + i : Nat) : Int) true).map fun key =>
      ({ key := key, mask := [255#8], bytes := [bytes.getD i 0] }, bad)

/-- The parts of a chunk as their translations stand: memory key, space, leaf and written or not; none when one does not translate. -/
def State.parts (s : State) (g : Group) : List (Bool × Int × Bool) → Option (List (Nat × Space × Option Nat × Bool))
  | [] => some []
  | (scr, a, write) :: rest => match s.sideAt g scr a write, s.parts g rest with
    | .ok space key _ leaf, some l => some ((key, space, leaf, write) :: l)
    | _, _ => none

/-- The copy-on-write leaves that a chunk meets as a writer, resolved before its parts are translated again (R189, R190); none while a
resolution of one is pending, which the chunk waits for. -/
def State.clearCows (s : State) (g : Group) : List (Bool × Int × Bool) → Option State
  | [] => some s
  | (scr, a, write) :: rest => match s.sideAt g scr a write with
    | .cow leaf frame => if s.cows.any fun (_, c) => c.leaf == leaf then none else (s.resolveNow g.ctx leaf frame).1.clearCows g rest
    | _ => s.clearCows g rest

/-- The sectors of a chunk as events, for a chunk that never writes. -/
def Engine.sectorCount (e : Engine) (k : Nat) : Nat :=
  (((e.movesIn k).flatMap fun m =>
    let (a, n, _) := e.d.bytesOf m.dst
    [a / 32, (a + (n : Int) - 1) / 32]).eraseDups).length

/-- `n` Failure or Sector events of a command on its barrier, unless its group has ended (R151, R163). -/
def State.sectorEvents (s : State) (e : Engine) (err : Bool) : Nat → State
  | 0 => s
  | n + 1 =>
    let s := match e.bar, lookup s.groups e.gid with
      | some b, some g => if g.dead then s else s.sectorAt e.gid b err
      | _, _ => s
    s.sectorEvents e err n

/-- An UNMAP that waited for the frames it unmapped is done when nothing holds one of them (R191). -/
def State.unmapsDone (s : State) : State :=
  s.rings.foldl (fun s r => r.2.cmds.foldl (fun s c =>
    if c.2.st = .started ∧ !c.2.frames.isEmpty ∧ s.spansIdle c.2.frames then s.finishCmd r.1 c.1 0 0 else s) s) s

/-- A chunk's holds released. -/
def State.dropHolds (s : State) (c : Chunk) : State := (c.frames.foldl State.dropUser s).unmapsDone

/-- One more chunk of a command has ended. -/
def State.chunkEnds (s : State) (cmd horizon : Nat) : State :=
  match lookup s.engines cmd with
  | none => s
  | some e => { s with engines := putAt s.engines cmd { e with ended := e.ended + 1, horizon := max e.horizon horizon } }

/-- The times of a chunk's arrived writes that are not counted yet. -/
def Chunk.lastOwed (c : Chunk) : Nat := c.owed.foldl (fun n x => max n x.1) c.horizon

/-- A chunk ends in error (R201): Failure events for the sectors not yet counted, its holds released, its map bit left clear; counted
at a port when it crosses one. Of its writes only those on their way to a peer stay, until the abort reaches it. -/
def State.failChunk (s : State) (k : Nat) (c : Chunk) (port : Option Nat) : State :=
  match lookup s.engines c.cmd with
  | none => s
  | some e =>
    let s := match c.peer with
      | none => s
      | some _ => s.countTimeout port
    let s := ((s.sectorEvents e true c.left).dropHolds c).chunkEnds c.cmd c.lastOwed
    { s with chunks := putAt s.chunks k { c with
        failed := true, left := 0, owed := [], frames := [], wframes := [], resum := false, horizon := c.lastOwed
        todo := c.todo.filter fun x => keySpace (x.block * 32) == .peer, extra := c.extra.filter fun p => keySpace p.key == .peer } }

/-- The lines of memory that a chunk reads, each with its address: counted in their windows (R218), with a lease at their homes (R221). -/
def State.countRequest (s : State) (g : Group) (seen : List Nat) : List (Bool × Int × Bool) → State
  | [] => s
  | (scr, a, write) :: rest =>
    if scr || write then s.countRequest g seen rest
    else match s.sideAt g false a false with
      | .ok space key cls leaf =>
        if seen.contains (lineOf key) then s.countRequest g seen rest
        else (s.lineRead g (BitVec.ofInt 64 a) space key cls leaf).countRequest g (lineOf key :: seen) rest
      | _ => s.countRequest g seen rest

/-- The runs of source bytes of a chunk: its elements' and its planes'. -/
def Engine.sources (e : Engine) (k : Nat) : List (Int × Nat) :=
  (e.movesIn k).filterMap (fun m => m.src.map fun j =>
    let (a, n, _) := e.s.bytesOf j
    (a, n))
  ++ (e.linesIn k).flatMap fun m => (e.planeMoves m).filterMap fun (_, f, n, _) => f.map fun a => ((a : Int), n)

/-- The first source byte of a chunk that its peer's home finds beyond correction and answers with an error (R204). -/
def State.peerBad (s : State) (g : Group) (e : Engine) (k : Nat) : Option Nat :=
  ((e.sources k).flatMap fun (a, n) => (List.range n).filterMap fun (i : Nat) => s.sideKey g e.sScr (a + (i : Int)) false).find? fun q =>
    keySpace q == .peer && (s.copyAt g.core (lineOf q)).isNone && s.badIn q 1

/-- A chunk that never writes: counted at a port when it failed there, Failure events for its sectors, and its end (R201). -/
def State.chunkFails (s : State) (cmd : Nat) (e : Engine) (k : Nat) : State := (s.sectorEvents e true (e.sectorCount k)).chunkEnds cmd s.now

/-- A chunk that has nothing to touch fails, or a chunk that starts: its holds, its reads and its writes to come (R190, R201). One that a
peer answers with an error ends in error too (R204). -/
def State.startChunk (s : State) (cmd : Nat) (g : Group) (e : Engine) : State :=
  let k := e.started
  let s := { s with engines := putAt s.engines cmd { e with started := k + 1 } }
  let touches := e.touches k
  let base : Chunk := { cmd := cmd, idx := k, since := s.now, frames := [], wframes := [], mapKey := none, mapped := false, peer := none,
                        ports := [], todo := [], extra := [], resum := false, owed := [], left := e.sectorCount k, horizon := s.now,
                        bad := false, failed := false, detached := false }
  match s.parts g touches with
  | none => (s.partsSeen g touches).chunkFails cmd e k
  | some parts =>
    let s := parts.foldl (fun s p => s.touch p.2.2.1 p.2.2.2) s
    let peers := (parts.filter fun p => p.2.1 == .peer).map (·.1)
    let base := { base with peer := peers.head? }
    match peers.find? (fun p => (s.routeOf p).isNone), s.peerBad g e k with
    | some p, _ => (s.countTimeout (s.portToward p)).chunkFails cmd e k
    | none, some q => ((s.countRequest g [] touches).countTimeout (s.routeOf q)).chunkFails cmd e k
    | none, none =>
      let frames := ((parts.filter fun p => p.2.1 == .hbm).map fun p => p.1 / 2 ^ 16).eraseDups
      let wframes := ((parts.filter fun p => p.2.1 == .hbm && p.2.2.2).map fun p => p.1 / 2 ^ 16).eraseDups
      let s := (frames.foldl State.addUser s).countRequest g [] touches
      let (sectors, bad) := sectorsOf ((e.movesIn k).map (s.movePieces g e))
      let planes := s.planePieces g e k
      let c := { base with
        frames := frames, wframes := wframes, ports := (peers.filterMap s.routeOf).eraseDups, todo := sectors
        mapKey := e.map.bind fun a => s.sideKey g false ((a.toNat + k / 64 * 8 : Nat) : Int) true
        extra := planes.map (·.1), resum := e.sums, owed := List.replicate bad (s.now, true), left := sectors.length + bad
        bad := bad != 0 || planes.any (·.2) }
      { s.countBad c.bad with chunks := putAt s.chunks s.stamp c, stamp := s.stamp + 1 }

/-- A frame that a chunk may not hold yet: its USERS are full, or it migrates or waits to (R190, R192). -/
def State.frameBusy (s : State) (key : Nat) : Bool :=
  decide (16383 ≤ (s.frame (key / 2 ^ 16)).users) || s.migratingAt key || s.mod.migrate.contains (key / 2 ^ 16)

/-- R190. The next chunk of an engine command starts, unless its group halts, a frame of it is not to be held yet, or its reads at a peer have
to wait for what crosses their port before them (R194). -/
def execChunkStart (cmd : Nat) (st : State) : Res :=
  match lookup st.engines cmd with
  | none => .next st
  | some e => match lookup st.groups e.gid with
    | none => .next st
    | some g =>
      if e.chunks ≤ e.started ∨ g.st = .halting ∨ g.st = .saved then .next st
      else match st.clearCows g (e.touches e.started) with
        | none => .next st
        | some s =>
          let busy : Bool := match s.parts g (e.touches e.started) with
            | none => false
            | some l => l.any fun p => (p.2.1 == .hbm && s.frameBusy p.1) || (!p.2.2.2 && !s.portClear s.stamp (s.portFor p.2.1 p.1))
          if busy then .next s else .next (s.startChunk cmd g e)

/-! ### A chunk's writes -/

/-- A reduction of R200 on patterns. -/
def reduce (red old x : Nat) : Nat :=
  let fadd := fun (f : Fmt) => finPattern f (finVal (Val.add (fmtVal f old) (fmtVal f x)).1 f .rne 0 1).1
  let pick := fun (least : Bool) => (chooseOf least true (Carrier.ofWord (BitVec.ofNat 32 old)) (Carrier.ofWord (BitVec.ofNat 32 x))).w.toNat
  match red with
  | 0 => (old + x) % 2 ^ 32
  | 1 => fadd fmtF32
  | 2 => fadd fmtBF16
  | 3 => pick false
  | _ => pick true

/-- The completion time of a write as the requester takes it: 64 ns later from a peer (R197). -/
def doneAt (key twc : Nat) : Nat := if keySpace key = .peer then twc + 64 else twc

/-- A write of the engine at a home with a completion time that the home allows (R208, R213, R221). -/
def State.engineArrive (s : State) (gid key : Nat) (bytes : List Byte) (twc : Nat) : State :=
  (s.passWrite (s.coreOf gid) (lineOf key)).arriveWith key bytes gid [] twc

/-- A write of the engine at a home, and its completion time. -/
def State.engineWrite (s : State) (gid key : Nat) (bytes : List Byte) (ext : Nat) : State × Nat :=
  (s.engineArrive gid key bytes (s.twcOf key bytes.length ext), doneAt key (s.twcOf key bytes.length ext))

/-- Bytes with the masked bits of a piece laid over them, from a first key. -/
def overlayPiece (lo : Nat) (l : List Byte) (p : Piece) : List Byte :=
  (l.zip (List.range l.length)).map fun (b, i) =>
    if p.key ≤ lo + i ∧ lo + i < p.key + p.bytes.length then
      let m := p.mask.getD (lo + i - p.key) 0
      (b &&& ~~~m) ||| (p.bytes.getD (lo + i - p.key) 0 &&& m)
    else b

/-- The ranges of pieces by their 32-byte blocks: first key, length and the bytes that are written, what lies between keeping its value. -/
def State.pieceRuns (s : State) (l : List Piece) : List (Nat × List Byte) :=
  (l.map fun p => p.key / 32).eraseDups.filterMap fun b =>
    match l.filter fun p => p.key / 32 == b with
    | [] => none
    | p :: rest =>
      let lo := rest.foldl (fun m q => min m q.key) p.key
      let hi := rest.foldl (fun m q => max m (q.key + q.bytes.length)) (p.key + p.bytes.length)
      some (lo, (p :: rest).foldl (overlayPiece lo) (s.latestBytes lo (hi - lo)))

/-- Pieces written in one step: every range takes the one completion time that all their homes allow (R209, R221). -/
def State.writePieces (s : State) (gid : Nat) (l : List Piece) (ext : Nat) : State × Nat :=
  let runs := s.pieceRuns l
  let twc := runs.foldl (fun t r => max t (s.twcOf r.1 r.2.length ext)) s.now
  (runs.foldl (fun s r => s.engineArrive gid r.1 r.2 twc) s, runs.foldl (fun t r => max t (doneAt r.1 twc)) twc)

/-- Elements combined at their home, one at a time (R200), and the latest completion time. -/
def State.reducePieces (s : State) (gid red : Nat) (ext : Nat) : List Piece → State × Nat
  | [] => (s, s.now)
  | p :: rest =>
    let n := p.bytes.length
    let (s, t) := s.engineWrite gid p.key (leBytes n (reduce red (leNat (s.latestBytes p.key n)) (leNat p.bytes))) ext
    let (s, u) := s.reducePieces gid red ext rest
    (s, max t u)

/-- The uncounted writes of a chunk (R341): labels and scales one by one, then the summary. -/
def State.writePlanes (s : State) (g : Group) (e : Engine) (c : Chunk) (ext : Nat) : State × Nat :=
  let (s, t) := c.extra.foldl (fun (x : State × Nat) p =>
    let (s, u) := x.1.writePieces e.gid [p] ext
    (s, max x.2 u)) (s, s.now)
  match s.teamOf g with
  | none => (s, t)
  | some team => (if c.resum then s.resumTile team e.d.base e.d.labOff else s, t)

/-- A chunk's next write at its home: its planes first, then sector by sector (R163, R200, R341). -/
def State.chunkWrite (s : State) (k : Nat) (c : Chunk) (ext : Nat) : State :=
  match lookup s.engines c.cmd with
  | none => s
  | some e => match lookup s.groups e.gid with
    | none => s
    | some g =>
      if !c.extra.isEmpty || c.resum then
        let (s, t) := s.writePlanes g e c ext
        { s with chunks := putAt s.chunks k { c with extra := [], resum := false, horizon := max c.horizon t } }
      else match c.todo with
        | [] => s
        | x :: rest =>
          let (s, t) := match e.op with
            | .copyr red => s.reducePieces e.gid red ext x.pieces
            | _ => s.writePieces e.gid x.pieces ext
          let t := max t (if x.joined then c.lastOwed else c.horizon)
          { s with chunks := putAt s.chunks k (if c.failed then { c with todo := rest, horizon := max c.horizon t }
              else { c with todo := rest, owed := c.owed ++ [(t, false)] }) }

/-- The context of a chunk's group. -/
def State.chunkCtx (s : State) (c : Chunk) : Nat := match lookup s.engines c.cmd with
  | none => 0
  | some e => match lookup s.groups e.gid with
    | none => 0
    | some g => g.ctx

/-- A port of the chunk has left Up. -/
def State.lostPort (s : State) (c : Chunk) : Option Nat := c.ports.find? fun p => match lookup s.ports p with
  | none => true
  | some x => !x.up s.now

/-- A chunk that crosses a port is to end in error: LEASE.LINKTO has passed since its start, or a port of it has left Up (R201). -/
def State.chunkLate (s : State) (c : Chunk) : Bool :=
  c.peer.isSome && !c.mapped && ((s.lostPort c).isSome || decide (c.since + (s.ctx (s.chunkCtx c)).linkto * 1000 ≤ s.now))

/-- The places of a chunk's next write. -/
def Chunk.nextKeys (c : Chunk) : List Nat :=
  if !c.extra.isEmpty then c.extra.map (·.key) else (c.todo.headD ⟨0, [], false⟩).pieces.map (·.key)

/-- No access that was made before the chunk started waits at a port that its writes to these places cross (R194). -/
def State.chunkClear (s : State) (k : Nat) (keys : List Nat) : Bool := keys.all fun q => s.portClear k (s.portFor (keySpace q) q)

/-- R221, R222, R209. A store, an atomic or an engine's write arrives at its home; at a peer's, behind what crosses the port before it (R194). -/
def execHomeWrite (k ext : Nat) (st : State) : Res :=
  match lookup st.accesses k with
  | some a => if a.act == .read || !st.mayPerform k a then .next st else .next (st.performWrite k a ext)
  | none => match lookup st.chunks k with
    | none => .next st
    | some c => if (st.chunkLate c && !c.failed) || !st.chunkClear k c.nextKeys then .next st else .next (st.chunkWrite k c ext)

/-- R163. A sector whose completion time has come is counted on the command's barrier, once the chunk's planes are written (R341). -/
def execSectorEvent (chunk : Nat) (st : State) : Res :=
  match lookup st.chunks chunk with
  | none => .next st
  | some c => match lookup st.engines c.cmd, c.owed.find? fun (t, _) => decide (t ≤ st.now) with
    | some e, some (t, err) =>
      if !c.extra.isEmpty || c.resum || c.failed || st.chunkLate c then .next st
      else .next ({ st with chunks := putAt st.chunks chunk { c with
        owed := c.owed.erase (t, err), left := c.left - 1, horizon := max c.horizon t } }.sectorEvents e err 1)
    | _, _ => .next st

/-- The bit of a chunk set in the chunk map by an atomic OR at the word's home, as it was pinned (R190, R199); the completion time of that
write. -/
def State.setMapBit (s : State) (gid key idx : Nat) : State × Nat :=
  s.engineWrite gid key (leBytes 8 (s.latest8 key ||| (1#64 <<< (idx % 64 : Nat))).toNat) 0

/-- R199, R190. A chunk whose writes have completed without error sets its map bit; once its last write has its completion time, it
releases its frames. -/
def execChunkComplete (chunk : Nat) (st : State) : Res :=
  match lookup st.chunks chunk with
  | none => .next st
  | some c => match lookup st.engines c.cmd with
    | none => .next st
    | some e =>
      if c.failed || !c.todo.isEmpty || !c.extra.isEmpty || c.resum || !c.owed.isEmpty || decide (st.now < c.horizon) || st.chunkLate c then
        .next st
      else match if c.bad || c.mapped then none else c.mapKey with
        | some key =>
          if !st.chunkClear chunk [key] then .next st else
          let (s, t) := st.setMapBit e.gid key c.idx
          .next { s with chunks := putAt s.chunks chunk { c with mapped := true, horizon := max c.horizon t } }
        | none => .next (({ st with chunks := drop st.chunks chunk }.dropHolds c).chunkEnds c.cmd c.horizon)

/-- R201. A chunk that crosses a port ends in error when LEASE.LINKTO has passed since its start or a port of it has left Up; counted at
the lost port, else at its first. -/
def execChunkTimeout (chunk : Nat) (st : State) : Res :=
  match lookup st.chunks chunk with
  | none => .next st
  | some c => if st.chunkLate c ∧ !c.failed then .next (st.failChunk chunk c (st.lostPort c <|> c.ports.head?)) else .next st

/-- R201. The abort reaches the peer, whose home discards the chunk's writes that arrive after it; the times of those that came before it
count for the command's retirement (R173, R231). -/
def execChunkAbort (chunk : Nat) (st : State) : Res :=
  match lookup st.chunks chunk with
  | none => .next st
  | some c =>
    if !c.failed then .next st
    else match lookup st.engines c.cmd with
      | none => .next { st with chunks := drop st.chunks chunk }
      | some e => .next { st with chunks := drop st.chunks chunk, engines := putAt st.engines c.cmd { e with horizon := max e.horizon c.horizon } }

/-- The end of the copy component of a halt, from its beginning (R15). -/
def copyComponent : Nat := 7500

/-- R157. A peer chunk not done when the copy component of a halt ends is detached, and the halt completes without it. -/
def execChunkDetach (chunk : Nat) (st : State) : Res :=
  match lookup st.chunks chunk with
  | none => .next st
  | some c => match lookup st.engines c.cmd with
    | none => .next st
    | some e => match lookup st.groups e.gid with
      | none => .next st
      | some g => match (st.ctx g.ctx).halt with
        | none => .next st
        | some h =>
          if c.peer.isSome ∧ !c.failed ∧ g.st = .halting ∧ h.since + copyComponent ≤ st.now then
            .next { st with chunks := putAt st.chunks chunk { c with detached := true } }
          else .next st

/-- R173. The oldest command of a class retires once every chunk of it has ended, no write of a failed one is on its way to a peer, and its
last write has reached its completion time. -/
def execEngineCommandRetire (gid cls : Nat) (st : State) : Res :=
  match st.engines.find? fun (_, e) => e.gid == gid && e.cls == cls with
  | none => .next st
  | some (k, e) =>
    if e.started < e.chunks ∨ e.ended < e.chunks ∨ st.now < e.horizon ∨ st.chunks.any (fun (_, c) => c.cmd == k) then .next st
    else .next ({ st with engines := drop st.engines k }.onGroup gid fun g => g.setCounter cls (g.counter cls - 1))

/-- A chunk without the write that a peer refuses: its next one there. -/
def Chunk.refused (c : Chunk) : Chunk :=
  if c.extra.any fun p => keySpace p.key == .peer then { c with extra := [] }
  else { c with todo := (c.todo.filter fun x => keySpace (x.block * 32) == .peer).drop 1 }

/-- R204. A peer answers a request with an error within the 4 µs of R203: a thread's access fails at the word that waits for it, a chunk ends
in error, and the request, of a chunk its next write, has no effect. `kind` is 0 for an access and 1 for a chunk; `ecc` says that the
peer's home met an uncorrectable error. -/
def execPeerErrorAnswer (kind k : Nat) (ecc : Bool) (st : State) : Res :=
  if kind = 0 then
    match lookup st.accesses k with
    | none => .next st
    | some a => if a.space = .peer ∧ !st.expired a.port a.since then .next (st.failAccess k a (if ecc then 0x14 else 0x0F)) else .next st
  else
    match lookup st.chunks k with
    | none => .next st
    | some c => if c.peer.isSome ∧ !c.failed ∧ !c.mapped ∧ !st.chunkLate c then .next (st.failChunk k c.refused c.ports.head?) else .next st

end Sys2Proof.Machine
end

