-- ==== Sys2Proof/Machine/Tasks.lean ====
section
/-! DEFINITION. Admission of teams, task records, gather buffers, range groups and steals (07_kernel R118 to R131; 06_queue R108;
14_isa_control R272 to R275). -/

namespace Sys2Proof.Machine

/-! ### Room and new groups -/

/-- The context starts groups: it is Active and does not halt (R90). -/
def State.starts (s : State) (c : Nat) : Bool := (s.ctx c).st == 2 && (s.ctx c).halt.isNone

/-- What a group holds of its core (R118, R122): threads, register slots, tiles and barriers. An ended group keeps the barriers on which
records are parked. -/
def State.load (s : State) (g : Group) : Nat × Nat × Nat × Nat :=
  if g.st = .ended then (0, 0, 0, g.bars.countP fun (_, b) => !b.chain.isEmpty)
  else match s.kernel g.ctx g.slot g.kern with
    | none => (g.nthr, 0, 0, g.nbars)
    | some k => (g.nthr, g.nthr * k.regs, k.acc, k.barriers)

/-- The core has room for a group of a kernel with so many threads (R118). -/
def State.fits (s : State) (core : Nat) (k : Kernel) (nthr : Nat) : Bool :=
  let mine := s.groups.filter fun (_, g) => g.core == core
  let loads := mine.map fun (_, g) => s.load g
  decide ((mine.countP fun (_, g) => g.st != .ended) < 4) && decide ((loads.map (·.1)).sum + nthr ≤ 2048)
    && decide ((loads.map (·.2.1)).sum + nthr * k.regs ≤ 131072) && decide ((loads.map (·.2.2.1)).sum + k.acc ≤ 16)
    && decide ((loads.map (·.2.2.2)).sum + k.barriers ≤ 64)

/-- The smallest number that a list does not hold. -/
def leastFree (l : List Nat) : Nat := ((List.range (l.length + 1)).find? fun n => !l.contains n).getD 0

/-- A GRPID that no other group of the context holds (R121): a free value, unless it is in use. -/
def State.newGrpid (s : State) (c : Nat) : Nat :=
  let used := (s.groups.filter fun (_, g) => g.ctx == c && g.st != .ended).map fun (_, g) => g.grpid
  let f := Config.free s.fresh % 2 ^ 32
  if used.contains f then leastFree used else f

/-- A thread of a new group (R121, R39): in a bin, or retired. -/
def newThread (grpid tid : Nat) (entry : Option Nat) (v : List Word) (p95 : Bool) : Thread :=
  { Thread.blank with
    v := (v.zip (List.range v.length)).foldl (fun t x => writeAt Carrier.zero t x.2 (Carrier.ofWord x.1)) []
    p := writeAt false [] 95 p95
    dith := dithStart grpid tid
    place := match entry with
      | none => .retired
      | some b => .bin false b 0 }

/-- A new group's own data: what differs among launched, range and gathered groups. -/
structure Birth where
  team : Nat
  core : Nat
  slot : Nat
  kern : Nat
  gint : Nat
  g : List Quad
  threads : Nat → Table Thread
  nthr : Nat
  entry : Nat
  range : Option (Quad × Quad × Nat × List Word)

/-- A group begins (R121, R126, R127). -/
def State.bear (s : State) (t : Team) (k : Kernel) (prio : Nat) (b : Birth) : State :=
  let grpid := s.newGrpid t.ctx
  let g : Group := {
    ctx := t.ctx, team := b.team, core := b.core, grpid := grpid, gint := b.gint % 2 ^ 32, slot := b.slot, kern := b.kern, nthr := b.nthr,
    prio := prio, st := .running, before := .running, threads := b.threads grpid,
    g := (b.g.zip (List.range b.g.length)).foldl (fun l x => writeAt 0#64 l x.2 x.1) [], dueG := [], schk := k.schk,
    fan := { idle := 0, seen := [], sweep := none }, gbar := { count := none, arrived := 0 }, bars := [], nbars := k.barriers,
    isRange := b.range.isSome, lo := (b.range.map (·.1)).getD 0, hi := (b.range.map (·.2.1)).getD 0, gran := (b.range.map (·.2.2.1)).getD 0,
    rwords := (b.range.map (·.2.2.2)).getD [], entry := b.entry, count := [], grant := false, rels := [], passes := [], stepBin := none,
    stepOne := false, stepAll := false, stepNew := false, dead := false }
  { s with groups := putAt s.groups s.stamp g, stamp := s.stamp + 1, fresh := s.fresh + 1 }

/-- Every thread of a group in one bin. -/
def allThreads (n entry : Nat) (p95 : Bool) (grpid : Nat) : Table Thread :=
  (List.range n).map fun tid => (tid, newThread grpid tid (some entry) [] p95)

/-- g0 to g4 of R121. -/
def launchRegs (t : Team) (l : Option Launch) (gint : Nat) : List Quad :=
  match l with
  | none => []
  | some l => [l.args, l.data, BitVec.ofNat 64 t.index, BitVec.ofNat 64 l.teams, BitVec.ofNat 64 (gint % 2 ^ 32)]

/-! ### Admission -/

/-- The bytes of scratchpad that a team of a kernel needs (R119). -/
def scratchNeed (k : Kernel) : Nat := (k.scratch + 65535) / 65536 * 65536

/-- The cluster's banks whose space an admission may take: in scratchpad mode, and not about to leave it (R119, R211). -/
def Cluster.scratchBanks (c : Cluster) : List Nat := (List.range 64).filter fun b =>
  c.mode b == 1 && !c.changes.any fun (_, _, b', m) => b' == b && m != 1

/-- A team of a kernel can be admitted to a cluster (R119). -/
def State.qualifies (s : State) (k : Kernel) (c : Nat) : Bool :=
  (s.cluster c).team.isNone && decide (scratchNeed k ≤ (s.cluster c).scratchBanks.length * 2 ^ 19)

/-- A launch with a team that can be admitted now, in some of the 192 clusters (R8, R108). -/
def State.canAdmit (s : State) (l : Launch) : Bool :=
  decide (l.next < l.teams) && s.starts l.ctx && (match s.kernel l.ctx l.slot l.kern with
    | none => false
    | some k => (List.range 192).any (s.qualifies k))

/-- A ring's place in the order of turns: before 1 it has had none (R108). -/
def State.turnOf (s : State) (ring : Nat) : Nat := if s.turns.contains ring then s.turns.idxOf ring + 1 else 0

/-- The launch that takes the next turn (R108): of the highest priority, of the ring whose last turn is longest ago, the earliest. -/
def State.nextLaunch (s : State) : Option (Nat × Launch) :=
  let ready := s.launches.filter fun (_, l) => s.canAdmit l
  let top := ready.foldl (fun n x => max n x.2.prio) 0
  let ready := ready.filter fun (_, l) => l.prio == top
  ready.foldl (fun (b : Option (Nat × Launch)) x => match b with
    | none => some x
    | some y =>
      let a := (s.turnOf x.2.ring, x.2.ring)
      let c := (s.turnOf y.2.ring, y.2.ring)
      if a.1 < c.1 ∨ (a.1 = c.1 ∧ a.2 < c.2) then some x else b) none

/-- The groups of an admitted team, from group index `i` on (R121). -/
def State.bearTeam (s : State) (tid : Nat) (t : Team) (k : Kernel) (l : Launch) : Nat → List Nat → State
  | _, [] => s
  | i, _ :: rest =>
    let b : Birth := {
      team := tid, core := t.cluster * 8 + i % 8, slot := l.slot, kern := l.kern, gint := i, g := launchRegs t (some l) i,
      threads := allThreads k.threads k.entry false, nthr := k.threads, entry := k.entry, range := none }
    (s.bear t k l.prio b).bearTeam tid t k l (i + 1) rest

/-- A team admitted to a cluster with all its groups (R119 to R121, R171). -/
def State.admitTeam (s : State) (lid : Nat) (l : Launch) (k : Kernel) (c : Nat) : State :=
  let tid := s.stamp
  let cl := s.cluster c
  let t : Team := { ctx := l.ctx, launch := lid, cluster := c, index := l.next, groups := k.team, started := 0, scratch := scratchNeed k,
                    banks := cl.scratchBanks, deques := [], recs := [], bufs := [], home := [], copies := [], moving := [], queue := [] }
  let s := { s with
    stamp := s.stamp + 1
    clusters := putAt s.clusters c { cl with team := some tid }
    teams := putAt s.teams tid t
    launches := putAt s.launches lid { l with next := l.next + 1, live := l.live + 1 }
    turns := s.turns.filter (· != l.ring) ++ [l.ring]
    full := s.full.filter fun (key, _) => !(decide (scratchKey c 0 0 ≤ key) && decide (key < scratchKey (c + 1) 0 0)) }
  s.bearTeam tid t k l 0 (List.range k.team)

/-- R108, R120. A turn admits the next team of the chosen launch to the cluster. -/
def execTeamAdmission (cluster : Nat) (st : State) : Res :=
  match st.nextLaunch with
  | none => .next st
  | some (lid, l) => match st.kernel l.ctx l.slot l.kern with
    | none => .next st
    | some k => if cluster < 192 ∧ st.qualifies k cluster then .next (st.admitTeam lid l k cluster) else .next st

/-! ### Records -/

/-- The fields of R123. -/
def recEntry (w : List Word) : Nat := (w.getD 0 0).toNat % 2 ^ 12
def recKind (w : List Word) : Nat := (w.getD 0 0).toNat / 2 ^ 12 % 16
def recKern (w : List Word) : Nat := (w.getD 0 0).toNat / 2 ^ 16
def recBar (w : List Word) : Option Nat := if (w.getD 1 0).getLsbD 6 then some ((w.getD 1 0).toNat % 64) else none
def recGran (w : List Word) : Nat := (w.getD 1 0).toNat / 2 ^ 8 % 32
def recLo (w : List Word) : Quad := w.getD 3 0 ++ w.getD 2 0
def recHi (w : List Word) : Quad := w.getD 5 0 ++ w.getD 4 0

/-- The reserved fields of a record (R123). -/
def recReserved (w : List Word) : Bool :=
  (w.getD 1 0).getLsbD 7 || (w.getD 1 0).toNat / 2 ^ 13 != 0 || (recKind w == 0 && recGran w != 0)

/-- The checks of R124 on a record that the group emits: kind, kernel, entry, barrier, room on an empty core, and its interval. -/
def State.recordOk (s : State) (g : Group) (kind : Nat) (w : List Word) : Bool :=
  recKind w == kind && !recReserved w && (match s.kernel g.ctx g.slot (recKern w) with
    | none => false
    | some k => !k.handler && (k.block (recEntry w)).isSome && (match recBar w with
        | none => true
        | some b => decide (b < g.nbars) && (g.bar b).expect != 0)
      && decide (k.threads ≤ 2048) && decide (k.threads * k.regs ≤ 131072) && decide (k.acc ≤ 16) && decide (k.barriers ≤ 64))
    && (kind == 0 || decide ((recLo w).toNat ≤ (recHi w).toNat))

/-- A core's deque of record ids, head first. -/
def Team.deque (t : Team) (c : Nat) : List Nat := readAt [] t.deques c

/-- The deque that takes a record: from a core on, the first that is not full (R125). -/
def Team.openDeque (t : Team) (first : Nat) : Option Nat :=
  ((List.range 8).map fun i => (first + i) % 8).find? fun d => decide ((t.deque d).length < 512)

/-- A record enters the pool (R125, R128); none when every deque is full. -/
def State.emit (s : State) (team gid core tid first : Nat) (g : Group) (w : List Word) : Option State :=
  match lookup s.teams team with
  | none => none
  | some t => match t.openDeque first with
    | none => none
    | some d =>
      let id := s.stamp
      let r : Record := { words := w, ctx := g.ctx, slot := g.slot, core := core, tid := tid, arrived := 0, parked := (recBar w).map fun b => (gid, b),
                          err := false, prio := g.prio }
      let t := { t with recs := putAt t.recs id r, deques := putAt t.deques d (t.deque d ++ [id]) }
      let s := { s with teams := putAt s.teams team t, stamp := s.stamp + 1 }
      some (match recBar w with
        | none => s
        | some b => s.onGroup gid fun g => g.putBar b { g.bar b with chain := (g.bar b).chain ++ [id] })

/-- The record of a TSPAWN: 16 registers. -/
def View.record (v : View) (d : BitVec 6) : List Word := (List.range 16).map fun i => (v.v (d.toNat + i)).w

/-- The emissions of the threads of one TSPAWN, in ascending TID: faults for bad records, and threads that park at a full pool. -/
def State.spawnAll (s : State) (first : View → Nat) (d : BitVec 6) : List View → State × List Flt
  | [] => (s, [])
  | v :: rest =>
    match lookup s.groups s.cur.gid with
    | none => (s, [])
    | some g =>
      if !s.recordOk g 0 (v.record d) then
        let (s, l) := s.spawnAll first d rest
        (s, { tid := v.tid, code := 0x09, detail := 0, addr := 0 } :: l)
      else match s.emit g.team s.cur.gid g.core v.tid (first v) g (v.record d) with
        | some s => (s.loudPass s.cur.gid s.cur.pid).spawnAll first d rest
        | none => (s.blockAll .pool [v.tid]).spawnAll first d rest

/-- R272. Each passing thread emits a continuation record of 16 of its registers. -/
def execTspawn (s : BitVec 2) (d : BitVec 6) (g : BitVec 4) (st : State) : Res :=
  opening st .lane { rv := [(d.toNat, 16)], rg := [g.toNat] } fun gr _ vs =>
    let l := participants vs st.cur.guard
    let word := fun (v : View) => v.g g.toNat
    let s1 := st.passBy .lane s.toNat false
    if l.any fun v => fld (word v) 63 4 != 0 then .next (s1.takeFaults st.cur.gid st.cur.pid st.cur.at_
      (l.map fun v => { tid := v.tid, code := 0x09, detail := 0, addr := 0 }))
    else
      let first := fun (v : View) => if (word v).getLsbD 3 then fld (word v) 2 0 else gr.core % 8
      let (s2, faults) := s1.spawnAll first d l
      .next (s2.takeFaults st.cur.gid st.cur.pid st.cur.at_ faults)

/-- The record of a TRANGE (R273). -/
def rangeRecord (s : State) (g : Group) (d a b : BitVec 6) : List Word :=
  let lo32 := fun (x : Quad) => x.setWidth 32
  let hi32 := fun (x : Quad) => (x >>> 32).setWidth 32
  let w := s.gNow g d.toNat
  let lo := s.gNow g a.toNat
  let hi := s.gNow g b.toNat
  [lo32 w, hi32 w, lo32 lo, hi32 lo, lo32 hi, hi32 hi] ++ (List.range 10).map fun i => lo32 (s.gNow g i)

/-- R273. Emits one range record. -/
def execTrange (s : BitVec 2) (d a b : BitVec 6) (st : State) : Res :=
  opening st .pass { rg := [d.toNat, a.toNat, b.toNat] ++ List.range 10 } fun g p vs =>
    let w := rangeRecord st g d a b
    if (participants vs st.cur.guard).isEmpty then .next (st.passBy .pass s.toNat false)
    else if !st.recordOk g 1 w then .next (st.faultAll p 0x09 0 0)
    else if recLo w = recHi w then .next (st.passBy .pass s.toNat false)
    else match (st.passBy .pass s.toNat true).emit g.team st.cur.gid g.core 0 (g.core % 8) g w with
      | some s1 => .next s1
      | none => .next ((st.passBy .pass s.toNat true).blockAll .pool p.cohort)

/-- What a TCLAIM takes: whole granules, at most what is left (R274). -/
def claimOf (n lo hi : Quad) (gran : Nat) : Nat :=
  let g := 2 ^ gran
  min ((n.toNat + g - 1) / g * g) (hi.toNat - lo.toNat)

/-- R274. Claims iterations of the group's range; the pass waits for its results. -/
def execTclaim (s : BitVec 2) (d a : BitVec 6) (st : State) : Res :=
  opening st .pass { rg := [a.toNat], wv := [(d.toNat, 3)] } fun g p vs =>
    if (participants vs st.cur.guard).isEmpty then .next (st.passBy .pass s.toNat false)
    else
      let k := claimOf (st.gNow g a.toNat) g.lo g.hi g.gran
      let word := fun (n : Nat) => Carrier.ofWord (BitVec.ofNat 32 n)
      let r : Result := { gid := st.cur.gid, pid := st.cur.pid, tids := p.cohort, helper := false, tok := 4, addr := 0, fill := .ready d.toNat,
                          bytes := [], vals := [word g.lo.toNat, word (g.lo.toNat / 2 ^ 32), word k], fail := 0 }
      let s1 := ((st.passBy .pass s.toNat false).onGroup st.cur.gid fun g => { g with lo := g.lo + BitVec.ofNat 64 k }).send r
      .next (if p.helpers.isEmpty then s1 else s1.send { r with tids := p.helpers.map (·.1), helper := true })

/-! ### Taking records -/

/-- Threads that parked at a full pool of the team wake (R125). -/
def State.wakePool (s : State) (team : Nat) : State :=
  { s with groups := s.groups.map fun (k, g) => (k, if g.team = team then g.wakeAll .pool else g) }

/-- A record leaves the pool. -/
def State.leavePool (s : State) (team id : Nat) : State :=
  match lookup s.teams team with
  | none => s
  | some t => { s with teams := putAt s.teams team { t with
      recs := drop t.recs id, deques := t.deques.map fun (x : Nat × List Nat) => (x.1, x.2.filter (· != id)) } }.wakePool team

/-- The GINT of the team's next pool group (R126). -/
def Team.nextGint (t : Team) : Nat := t.groups + t.started

/-- The team has started one more pool group. -/
def State.countPool (s : State) (team : Nat) : State :=
  match lookup s.teams team with
  | none => s
  | some t => { s with teams := putAt s.teams team { t with started := t.started + 1 } }

/-- A range group begins on a core (R126). -/
def State.startRange (s : State) (team : Nat) (t : Team) (k : Kernel) (core slot kern entry : Nat) (lo hi : Quad) (gran : Nat) (words : List Word)
    (err : Bool) (prio : Nat) : State :=
  let b : Birth := {
    team := team, core := core, slot := slot, kern := kern, gint := t.nextGint, g := words.map fun w => w.setWidth 64,
    threads := allThreads k.threads entry err, nthr := k.threads, entry := entry, range := some (lo, hi, gran, words) }
  (s.bear t k prio b).countPool team

/-- The threads of a gathered group (R127): thread j takes record j; the rest are created retired. -/
def gathered (recs : List Record) (nthr entry grpid : Nat) : Table Thread :=
  (List.range nthr).map fun j => (j, match recs[j]? with
    | none => newThread grpid j none [] false
    | some r => newThread grpid j (some entry) (r.words.drop 2) r.err)

/-- The first core of a cluster with room for a group (R118, R127). -/
def State.coreWithRoom (s : State) (cluster : Nat) (k : Kernel) (nthr : Nat) : Option Nat :=
  ((List.range 8).map fun i => cluster * 8 + i).find? fun c => s.fits c k nthr

/-- A closed buffer's group begins, when a core has room for it (R127). Its g0 to g4 are those of its team's launch, whichever kernel it
runs (DEDUCED, log 77). -/
def State.startBuffer (s : State) (team id : Nat) : State :=
  match lookup s.teams team with
  | none => s
  | some t => match lookup t.bufs id with
    | none => s
    | some b => match s.kernel t.ctx b.slot b.kern with
      | none => s
      | some k =>
        let nthr := (b.recs.length + 3) / 4 * 4
        match s.coreWithRoom t.cluster k nthr with
        | none => s
        | some core =>
          let launch := lookup s.launches t.launch
          let prio := match launch with
            | none => 0
            | some l => l.prio
          let born : Birth := {
            team := team, core := core, slot := b.slot, kern := b.kern, gint := t.nextGint, g := launchRegs t launch t.nextGint,
            threads := gathered b.recs nthr b.entry, nthr := nthr, entry := b.entry, range := none }
          let s1 := s.bear t k prio born
          { s1 with teams := putAt s1.teams team { t with bufs := drop t.bufs id, started := t.started + 1 } }

/-- A buffer closes (R127). -/
def State.closeBuffer (s : State) (team id : Nat) : State :=
  match lookup s.teams team with
  | none => s
  | some t => match lookup t.bufs id with
    | none => s
    | some b => { s with teams := putAt s.teams team { t with bufs := putAt t.bufs id { b with closed := true } } }.startBuffer team id

/-- The order of records in a buffer: by arrival, and in one cycle by emitting core and thread (R127). -/
def Record.before (a b : Record) : Bool :=
  decide (a.arrived < b.arrived) || (a.arrived == b.arrived && (decide (a.core < b.core) || (a.core == b.core && decide (a.tid < b.tid))))

/-- A record placed in the order of arrival, after those that do not come behind it (R127). -/
def insertRecord (r : Record) : List Record → List Record
  | [] => [r]
  | x :: rest => if r.before x then r :: x :: rest else x :: insertRecord r rest

/-- A record joins the open buffer of its key, or a new one while fewer than eight stand (R127). -/
def State.intoBuffer (s : State) (team : Nat) (t : Team) (rec_ : Record) : Option State :=
  let r := { rec_ with arrived := s.cycle }
  match t.bufs.find? fun (_, b) => !b.closed && b.slot == r.slot && b.kern == recKern r.words && b.entry == recEntry r.words with
  | some (id, b) =>
    let b := { b with recs := insertRecord r b.recs }
    let s := { s with teams := putAt s.teams team { t with bufs := putAt t.bufs id b } }
    some (if b.recs.length = 512 then s.closeBuffer team id else s)
  | none =>
    if 8 ≤ t.bufs.length then none
    else
      let b : Buffer := { slot := r.slot, kern := recKern r.words, entry := recEntry r.words, recs := [r], timer := s.now + 4000,
                          stoppedAt := none, closed := false }
      some { s with teams := putAt s.teams team { t with bufs := putAt t.bufs s.stamp b }, stamp := s.stamp + 1 }

/-- A continuation record that a core takes (R127): a ninth key first closes the open buffer whose first record is oldest. -/
def State.gather (s : State) (team : Nat) (r : Record) : Option State :=
  match lookup s.teams team with
  | none => none
  | some t => match s.intoBuffer team t r with
    | some s => some s
    | none => match t.bufs.find? fun (_, b) => !b.closed with
      | none => none
      | some (id, _) =>
        let s := s.closeBuffer team id
        match lookup s.teams team with
        | none => none
        | some t => s.intoBuffer team t r

/-- The record that a core would take from the deque `i` places after its own: its own tail, another's head (R126). -/
def Team.offer (t : Team) (own i : Nat) : Option Nat :=
  let l := (t.deque ((own + i) % 8)).filter fun id => match lookup t.recs id with
    | none => false
    | some r => r.parked.isNone
  if i = 0 then l.getLast? else l.head?

/-- A record taken by a core, when its kernel fits (R126). -/
def State.takeRecord (s : State) (team core id : Nat) (t : Team) : Option State :=
  match lookup t.recs id with
  | none => none
  | some r => match s.kernel r.ctx r.slot (recKern r.words) with
    | none => none
    | some k =>
      if !s.fits core k k.threads then none
      else
        let s := s.leavePool team id
        if recKind r.words = 0 then s.gather team r
        else match lookup s.teams team with
          | none => none
          | some t => some (s.startRange team t k core r.slot (recKern r.words) (recEntry r.words) (recLo r.words) (recHi r.words)
              (recGran r.words) (r.words.drop 6) r.err r.prio)

/-- What a core with room takes from the deques, its own first, and then the others in order: a record that fits it (R126). -/
def State.takeAny (s : State) (team core : Nat) (t : Team) : Option State :=
  (List.range 8).findSome? fun i => match t.offer (core % 8) i with
    | none => none
    | some id => s.takeRecord team core id t

/-- R126. A core with room takes a record: of its own deque, else of the other deques in order. -/
def execTaskTake (core : Nat) (st : State) : Res :=
  match (st.cluster (clusterOfCore core)).team with
  | none => .next st
  | some team => match lookup st.teams team with
    | none => .next st
    | some t =>
      if !st.starts t.ctx then .next st
      else .next ((st.takeAny team core t).getD st)

/-- R127. A buffer closes 4 µs after its first record; a closed one starts once a core has room. -/
def execGatherTimeout (team buf : Nat) (st : State) : Res :=
  match lookup st.teams team with
  | none => .next st
  | some t => match lookup t.bufs buf with
    | none => .next st
    | some b =>
      if !st.starts t.ctx ∨ b.stoppedAt.isSome ∨ (!b.closed ∧ st.now < b.timer) then .next st
      else .next (st.closeBuffer team buf)

/-- A TFLUSH closes a buffer; records that reached it in the same cycle join a new one (R275). -/
def State.flushBuffer (s : State) (team id : Nat) : State :=
  match lookup s.teams team with
  | none => s
  | some t => match lookup t.bufs id with
    | none => s
    | some b =>
      let old := b.recs.filter fun r => r.arrived != s.cycle
      let new := b.recs.filter fun r => r.arrived == s.cycle
      if b.closed ∨ new.isEmpty then s.closeBuffer team id
      else if old.isEmpty then s
      else
        let fresh : Buffer := { b with recs := new, timer := s.now + 4000 }
        { s with teams := putAt s.teams team { t with bufs := putAt (putAt t.bufs id { b with recs := old }) s.stamp fresh }
                 stamp := s.stamp + 1 }.closeBuffer team id

/-- R275. Every non-empty gather buffer of the team closes. -/
def execTflush (s : BitVec 2) (st : State) : Res :=
  opening st .pass {} fun g _ vs =>
    let s1 := st.passBy .pass s.toNat false
    if (participants vs st.cur.guard).isEmpty then .next s1
    else match lookup s1.teams g.team with
      | none => .next s1
      | some t => .next ((t.bufs.map (·.1)).foldl (fun s id => s.flushBuffer g.team id) s1)

/-! ### Steals -/

/-- The better victim of two: the larger interval, then the lower GRPID (R130). -/
def betterVictimGroup (a b : Nat × Group) : Nat × Group :=
  let x := a.2.hi.toNat - a.2.lo.toNat
  let y := b.2.hi.toNat - b.2.lo.toNat
  if y < x then a else if x < y then b else if a.2.grpid ≤ b.2.grpid then a else b

/-- The victim of a steal in a team: a running range group with a thread that has not retired (R130, R131). -/
def State.victim (s : State) (team : Nat) : Option (Nat × Group) :=
  (s.groups.filter fun (_, g) => g.team == team && g.isRange && g.st == .running && decide (0 < g.live)).foldl
    (fun b x => match b with
      | none => some x
      | some y => some (betterVictimGroup y x)) none

/-- The iterations a steal takes: half of what is left, in whole granules (R130). -/
def stealOf (lo hi : Quad) (gran : Nat) : Nat := (hi.toNat - lo.toNat) / (2 * 2 ^ gran) * 2 ^ gran

/-- R130. A core that no deque offers a record that fits it (R126) takes the upper part of the largest running range group's interval as a new range group. -/
def execTaskSteal (core : Nat) (st : State) : Res :=
  match (st.cluster (clusterOfCore core)).team with
  | none => .next st
  | some team => match lookup st.teams team, st.victim team with
    | some t, some (vid, v) => match st.kernel v.ctx v.slot v.kern with
      | none => .next st
      | some k =>
        let n := stealOf v.lo v.hi v.gran
        if !st.starts t.ctx ∨ (st.takeAny team core t).isSome ∨ n = 0 ∨ !st.fits core k k.threads then .next st
        else
          let cut := v.hi - BitVec.ofNat 64 n
          let s := st.putGroup vid { v with hi := cut }
          .next (s.startRange team t k core v.slot v.kern v.entry cut v.hi v.gran v.rwords false v.prio)
    | _, _ => .next st

end Sys2Proof.Machine
end

