-- ==== Sys2Proof/Machine/Rings.lean ====
section
/-! DEFINITION. Rings, doorbells, device registers, the fetch of commands and their completion records, and the commands on queues,
mappings and pools (05_context R92, R95; 06_queue R100 to R107; 10_page R184, R382). -/

namespace Sys2Proof.Machine

/-! ### Register windows -/

/-- A system ring: numbers 1024 to 1027; a queue of context c has number 16c + i (R100, R109). -/
def isSys (r : Nat) : Bool := decide (1024 ≤ r) && decide (r < 1028)

/-- A physical address of a system ring or command (R100, R179): HBM, or with bit 63 host memory. -/
def physKey (a : Nat) : Option Nat :=
  if 2 ^ 63 ≤ a then some (hostKey (a - 2 ^ 63)) else if a < hbmEnd then some a else none

/-- A ring in Draining all of whose commands are reported is Destroyed (R102). -/
def Ring.drained (x : Ring) : Ring := if x.st = 5 ∧ x.done = x.head then { x with st := 6 } else x

/-- R101. A write of TAIL: ignored with TERR out of its bounds or in Draining or Destroyed; the first accepted one makes a queue Active. -/
def execTailWrite (ring val : Nat) (st : State) : Res :=
  let x := st.ring ring
  let v := val % 2 ^ 64
  if 1028 ≤ ring ∨ (isSys ring ∧ !st.mod.ready) ∨ x.st = 0 then .next st
  else if v < x.tail ∨ x.done + 2 ^ x.log2n < v ∨ x.st = 5 ∨ x.st = 6 then .next (st.putRing ring { x with terr := true })
  else .next (st.putRing ring { x with tail := v, st := if x.st = 1 && !isSys ring then 2 else x.st })

/-- R100. A write of a system ring's RBASE, CBASE or LOG2N. -/
def execRingRegisterWrite (ring off val : Nat) (st : State) : Res :=
  let x := st.ring ring
  let v := val % 2 ^ 64
  if !isSys ring then .next st
  else
    let ok := decide (x.tail = x.done)
    let bad := .next (st.putRing ring { x with terr := true })
    if off = 0x20 then (if ok && v % 64 == 0 && (physKey v).isSome then .next (st.putRing ring { x with rbase := BitVec.ofNat 64 v }) else bad)
    else if off = 0x28 then
      (if ok && v % 16 == 0 && (physKey v).isSome then .next (st.putRing ring { x with cbase := BitVec.ofNat 64 v }) else bad)
    else if off = 0x30 then
      (if ok && decide (4 ≤ v % 32) && decide (v % 32 ≤ 16) then .next (st.putRing ring { x with log2n := v % 32 }) else bad)
    else .next st

/-- The nearest value within bounds (R92). -/
def clamp (lo hi x : Nat) : Nat := max lo (min hi x)

/-- R92. A write of a context's register block stores each field, clamped to its range; ignored in Free and Destroying. -/
def execContextRegisterWrite (ctx off : Nat) (val : Quad) (st : State) : Res :=
  let x := st.ctx ctx
  if 64 ≤ ctx ∨ x.st = 0 ∨ x.st = 5 then .next st
  else
    let y := match off with
      | 0x08 => { x with ptroot := BitVec.ofNat 64 (fld val 51 12 * 2 ^ 12) }
      | 0x10 => { x with leaseHbm := clamp 64 64000 (fld val 15 0), linkto := clamp 16 65535 (fld val 31 16) }
      | 0x18 => { x with ways := clamp 0 16 (fld val 4 0) }
      | 0x20 => { x with poolId := fld val 15 0 }
      | 0x28 => { x with handlerKern := fld val 15 0, handlerV := val.getLsbD 16 }
      | 0x30 => { x with faultBase := BitVec.ofNat 64 (fld val 51 10 * 2 ^ 10) }
      | _ => x
    .next (st.putCtx ctx y)

/-- A peer port's registers (Table 11-1). -/
def State.port (s : State) (p : Nat) : Port := readAt Port.zero s.ports p

def State.putPort (s : State) (p : Nat) (x : Port) : State := { s with ports := writeAt Port.zero s.ports p x }

/-- R4. A write of a device register without a row of its own: TERR of a ring, ACCEPT of a port, MODID; every other field is read-only
or reserved. -/
def execRegisterWrite (bar off : Nat) (val : Quad) (st : State) : Res :=
  let clearTerr := fun (ring : Nat) => if val.getLsbD 3 && (st.ring ring).st != 0 then st.putRing ring { st.ring ring with terr := false } else st
  if bar = 2 then (if off % 0x1000 = 0x18 ∧ off / 0x1000 < 1024 then .next (clearTerr (off / 0x1000)) else .next st)
  else if bar ≠ 0 then .next st
  else if off < 0x4000 then (if off % 0x1000 = 0x18 then .next (clearTerr (1024 + off / 0x1000)) else .next st)
  else if 0x20000 ≤ off ∧ off < 0x20240 ∧ off % 0x20 = 0 then
    let p := (off - 0x20000) / 0x20
    .next (st.putPort p { st.port p with accept := val.getLsbD 4 })
  else if off = 0x20400 then .next { st with mod := { st.mod with modid := fld val 11 0 } }
  else .next st

/-! ### Fetching -/

/-- The codes of R106. -/
def commandCodes : List Nat :=
  [0x01, 0x02, 0x03, 0x04, 0x05, 0x06, 0x07, 0x08, 0x09, 0x0A, 0x10, 0x11, 0x12, 0x13, 0x14, 0x20, 0x21, 0x22, 0x23, 0x30, 0x31, 0x32, 0x33, 0x34, 0x3F]

/-- A ring fetches: it is Active, its context is neither Halted nor Faulted, no trip is in force and bring-up is done (R102, R90,
R376, R378). -/
def State.fetches (s : State) (ring : Nat) : Bool :=
  let x := s.ring ring
  s.mod.ready && !s.mod.tripped && decide (x.head < x.tail)
    && (isSys ring || (x.st == 2 && ((s.ctx (ring / 16)).st == 1 || (s.ctx (ring / 16)).st == 2)))

/-- The state after the next entry is read, and its 64 bytes; none when it does not translate (R100, R101), or when a system ring's entry lies
behind the end of HBM, which is taken the same way (DESIGN CHOICE, log 73). -/
def State.readEntry (s : State) (ring : Nat) : State × Option (List Byte) :=
  let x := s.ring ring
  let a := x.rbase.toNat + x.head % 2 ^ x.log2n * 64
  if isSys ring then (s, (physKey a).map fun k => s.bytes k 64) else s.deviceRead (ring / 16) (BitVec.ofNat 64 a) 64

/-- Eight 64-bit words of a record. -/
def quadsOf (bytes : List Byte) : List Quad := (List.range 8).map fun i => BitVec.ofNat 64 (leNat ((bytes.drop (8 * i)).take 8))

/-- R101. The next command is read; an entry that does not translate is done with status 8, a code that is none of R106 with 3. -/
def execCommandFetch (ring : Nat) (st : State) : Res :=
  if 1028 ≤ ring ∨ !st.fetches ring then .next st
  else
    let x := st.ring ring
    let cmd : Cmd := { words := none, st := .done, status := 8, result := 0, horizon := 0, gids := [], frames := [], replay := none }
    match st.readEntry ring with
    | (s, none) => .next (s.putRing ring { s.ring ring with head := x.head + 1, cmds := putAt x.cmds x.head cmd })
    | (s, some bytes) =>
      let w := quadsOf bytes
      let cmd := { cmd with words := some w }
      let cmd := if commandCodes.contains (fld (w.getD 0 0) 7 0) then { cmd with st := .fetched, status := 0 } else { cmd with status := 3 }
      .next (s.putRing ring { s.ring ring with head := x.head + 1, cmds := putAt x.cmds x.head cmd })

/-! ### Starting a command -/

/-- A command that starts: its ring, sequence number, context and words. -/
structure Order where
  ring : Nat
  seq : Nat
  ctx : Nat
  words : List Quad
  deriving DecidableEq, Repr

/-- OPk. -/
def Order.op (o : Order) (k : Nat) : Quad := o.words.getD k 0

/-- The priority of a queue's launches (R108). -/
def State.ringPrio (s : State) (ring : Nat) : Nat := if isSys ring then 7 else (s.ring ring).prio

/-- What R105 checks of a kind of command before its own rule. -/
structure Spec where
  opc : Nat
  /-- the row's own commands among those of the code -/
  pick : List Quad → Bool := fun _ => true
  /-- the bits that each operand slot may hold -/
  masks : List Nat
  sys : Bool := false
  /-- it names no context (R107) -/
  noCtx : Bool := false
  range : List Quad → Bool := fun _ => true
  /-- the context states that accept it (R90) -/
  states : Nat → Bool := fun _ => true
  /-- its SUBST slot may hold entries -/
  subst : Bool := false

def allBits : Nat := 2 ^ 64 - 1

/-- A SUBST entry: reserved bits zero, and a slot of 1 to 6 when it is valid (R112). -/
def substOk (e : Nat) : Bool :=
  bitsOf e 11 4 == 0 && bitsOf e 6 2 == 0 && (bitsOf e 15 1 == 0 || (decide (1 ≤ bitsOf e 8 3) && decide (bitsOf e 8 3 ≤ 6)))

/-- Step 3 of R105 but for the operands' ranges: reserved fields are zero (R103, R107). -/
def Spec.fieldsOk (c : Spec) (sys recorded : Bool) (w : List Quad) : Bool :=
  let w0 := w.getD 0 0
  fld w0 31 10 == 0 && fld w0 63 38 == 0 && ((sys && !c.noCtx) || fld w0 37 32 == 0)
    && (List.range 6).all (fun i => (w.getD (i + 1) 0).toNat &&& (c.masks.getD i 0) == (w.getD (i + 1) 0).toNat)
    && (if c.subst && recorded then (List.range 4).all fun i => substOk (bitsOf (w.getD 7 0).toNat (16 * i) 16) else w.getD 7 0 == 0)

/-- A command without CONC (R104); one that was not read is none. -/
def Cmd.alone (c : Cmd) : Bool := c.words.any fun w => !(w.getD 0 0).getLsbD 8

/-- The ring's next command to start (R104): the first that has not started; without CONC once all before it are reported, with CONC once the
one before it has started. One without CONC that was refused as it was fetched starts when all before it are reported, as any other. -/
def State.nextCmd (s : State) (ring : Nat) : Option (Nat × List Quad) :=
  let x := s.ring ring
  match x.cmds.find? fun (_, c) => c.st == .fetched with
  | some (seq, c) => match c.words with
    | some w =>
      let waits := x.cmds.any fun (k, d) => decide (x.done < k) && decide (k ≤ seq) && d.alone
      if !waits || seq == x.done then some (seq, w) else none
    | none => none
  | none => none

/-- A command is started. -/
def State.startCommand (s : State) (ring seq : Nat) : State :=
  let x := s.ring ring
  match lookup x.cmds seq with
  | none => s
  | some c => s.putRing ring { x with cmds := putAt x.cmds seq { c with st := .started } }

/-- The end of a command with a status and a result. -/
def State.done (s : State) (o : Order) (status result : Nat) : State := s.finishCmd o.ring o.seq status result

/-- The system-scope horizon of what the device has stored so far (R104, R197, R227). -/
def State.storeHorizon (s : State) : Nat :=
  s.pend.foldl (fun n w => if w.gid = 0 ∧ w.tids.isEmpty then max n (w.twc + if keySpace w.key = .peer then 68 else 4) else n) 0

/-- The end of a command that has stored: its record waits for its stores' horizon (R104). -/
def State.doneStored (s : State) (o : Order) (status result : Nat) : State :=
  (s.cmdHorizon o.ring o.seq s.storeHorizon).done o status result

/-- The common shape of a command (R104, R105): when it is the ring's next to start, its checks in order, then `own`, or `rec` on a queue
that is recording (R111). `own` answers none while the command waits to take effect. -/
def command (st : State) (ring : Nat) (c : Spec) (own : State → Order → Option State) (rec_ : Option (State → Order → State) := none) : Res :=
  match st.nextCmd ring with
  | none => .next st
  | some (seq, w) =>
    let sys := isSys ring
    let o : Order := { ring := ring, seq := seq, ctx := if sys then fld (w.getD 0 0) 37 32 else ring / 16, words := w }
    let recording := (st.ring ring).recording.isSome
    if fld (w.getD 0 0) 7 0 ≠ c.opc ∨ !c.pick w then .next st
    else
      let s := st.startCommand ring seq
      if c.sys && !sys then .next (s.done o 2 0)
      else if !c.fieldsOk sys recording w || !c.range w then .next (s.done o 3 0)
      else if recording then (match rec_ with
        | none => .next (s.done o 6 0)
        | some f => .next (f s o))
      else if !c.noCtx && !c.states (s.ctx o.ctx).st then .next (s.done o 1 0)
      else .next ((own s o).getD st)

/-- The states in which most system commands are accepted: Created, Active, Halted, Faulted (R90). -/
def living (n : Nat) : Bool := n == 1 || n == 2 || n == 3 || n == 4

/-- The states in which launches, graphs and kernel loads are accepted (R90). -/
def open_ (n : Nat) : Bool := n == 1 || n == 2

/-! ### Reporting -/

/-- A debug command whose step has run (R159). -/
def State.stepOver (s : State) (ctx grpid : Nat) : Bool :=
  !(s.groups.any fun (_, g) => g.ctx == ctx && g.grpid == grpid && g.st != .ended && (g.stepOne || g.stepAll || g.stepNew))

/-- Every store of a group has been made and answered (R104): the group has ended, and none of its stores is on its way. -/
def State.storesDone (s : State) (gid : Nat) : Bool :=
  (match lookup s.groups gid with
    | none => true
    | some g => g.st == .ended)
    && !(s.accesses.any fun (_, a) => a.gid == gid && a.act != .read) && !s.replies.any fun (_, r) => r.gid == gid

/-- The command of a ring's next completion record, with its status and result, once it is done. -/
def State.reportable (s : State) (ring : Nat) : Option Cmd :=
  match lookup (s.ring ring).cmds (s.ring ring).done with
  | none => none
  | some c =>
    if c.st = .done then (if s.now < c.horizon ∨ !c.gids.all s.storesDone then none else some c)
    else match c.words with
      | none => none
      | some w =>
        let opc := fld (w.getD 0 0) 7 0
        if c.st = .started ∧ (opc = 0x31 ∨ opc = 0x32) ∧ s.stepOver (fld (w.getD 0 0) 37 32) (fld (w.getD 1 0) 31 0) then some c else none

/-- The 16 bytes of a completion record (R103). -/
def completionRecord (seq : Nat) (c : Cmd) : List Byte := leBytes 8 seq ++ leBytes 2 c.status ++ leBytes 2 0 ++ leBytes 4 c.result

/-- The completion record written at its entry; whether the entry was writable (R100, R101). A system ring's record whose entry lies behind the
end of HBM is dropped, and DONE still advances (DESIGN CHOICE, log 73). -/
def State.writeRecord (s : State) (ring : Nat) (rec_ : List Byte) : State × Bool :=
  let x := s.ring ring
  let a := x.cbase.toNat + x.done % 2 ^ x.log2n * 16
  if isSys ring then (match physKey a with
    | none => (s, true)
    | some k => (s.arrive k rec_ 0 [] 0, true))
  else s.deviceWrite (ring / 16) (BitVec.ofNat 64 a) rec_

/-- The MSI-X vector of a ring is its number (R109): 16c + i, or 1024 + n. -/
def State.signal (s : State) (v : Nat) : State := { s with mod := { s.mod with msix := s.mod.msix ++ [v] } }

/-- R104. The completion record of the ring's oldest command is written and DONE advances. A queue whose record cannot be written is Faulted
until a Q.CTL resume (R101), one that drains too unless that record was its last (DEDUCED, log 74). INT signals its vector also when the record is
dropped (DESIGN CHOICE, log 75). -/
def execCompletionRecordWrite (ring : Nat) (st : State) : Res :=
  match st.reportable ring with
  | none => .next st
  | some c =>
    let x := st.ring ring
    let (s, ok) := st.writeRecord ring (completionRecord x.done c)
    let y : Ring := { s.ring ring with done := x.done + 1, cmds := drop x.cmds x.done }
    let y : Ring := if ok ∨ y.st = 0 ∨ y.st = 6 ∨ (y.st = 5 ∧ y.done = y.head) then y else { y with st := 4, byHalt := false }
    let s := { (s.putRing ring y.drained) with mod := { s.mod with cmdsDone := s.mod.cmdsDone + 1 } }
    .next (match c.words with
      | some w => if (w.getD 0 0).getLsbD 9 then s.signal ring else s
      | none => s)

/-! ### Queues -/

/-- R106. Creates a queue of the context. -/
def execQCreate (ring : Nat) (st : State) : Res :=
  command st ring { opc := 0x03, masks := [allBits, 0x1F070F, allBits], sys := true, states := living,
                    range := fun w => (w.getD 1 0).toNat % 64 == 0 && (w.getD 3 0).toNat % 16 == 0 && decide (4 ≤ fld (w.getD 2 0) 20 16)
                      && decide (fld (w.getD 2 0) 20 16 ≤ 16) }
    fun s o =>
      let q := o.ctx * 16 + fld (o.op 2) 3 0
      let x := s.ring q
      some (if x.st ≠ 0 ∧ x.st ≠ 6 then s.done o 1 0
        else (s.putRing q { Ring.zero with st := 1, rbase := o.op 1, cbase := o.op 3, log2n := fld (o.op 2) 20 16, prio := fld (o.op 2) 10 8 }).done o 0 0)

/-- Q.CTL with an action (R102). -/
def queueControl (st : State) (ring : Nat) (actions : List Nat) (f : State → Nat → Ring → Option Ring) : Res :=
  command st ring { opc := 0x04, pick := fun w => actions.contains (fld (w.getD 1 0) 9 8), masks := [0x30F], sys := true, states := living,
                    range := fun w => fld (w.getD 1 0) 9 8 != 3 }
    fun s o =>
      let q := o.ctx * 16 + fld (o.op 1) 3 0
      some (match f s o.ctx (s.ring q) with
        | none => s.done o 1 0
        | some x => (s.putRing q x.drained).done o 0 0)

/-- R102. A Created or Active queue becomes Paused. The reserved action ends here too, with status 3. -/
def execQCtlPause (ring : Nat) (st : State) : Res :=
  queueControl st ring [0, 3] fun _ _ x => if x.st = 1 ∨ x.st = 2 then some { x with st := 3, byHalt := false } else none

/-- R102. A Paused or Faulted queue of a Created or Active context becomes Active. -/
def execQCtlResume (ring : Nat) (st : State) : Res :=
  queueControl st ring [1] fun s c x => if (x.st = 3 ∨ x.st = 4) ∧ open_ (s.ctx c).st then some { x with st := 2, byHalt := false } else none

/-- R102. A Created, Active, Paused or Faulted queue becomes Draining. A graph that it records stays open (DESIGN CHOICE, log 76). -/
def execQCtlDestroy (ring : Nat) (st : State) : Res :=
  queueControl st ring [2] fun _ _ x => if 1 ≤ x.st ∧ x.st ≤ 4 then some { x with st := 5 } else none

/-! ### Mappings and pools -/

/-- R382. Writes a run of consecutive uncounted leaves. -/
def execMap (ring : Nat) (st : State) : Res :=
  command st ring { opc := 0x05, masks := [allBits, allBits, allBits], sys := true, states := living,
                    range := fun w => decide (1 ≤ (w.getD 3 0).toNat) && decide ((w.getD 3 0).toNat ≤ 65536) } fun s o =>
    let (status, keys, shift) := s.mapStatus o.ctx (o.op 1) (o.op 2) (o.op 3).toNat
    if s.leafHeld keys then none
    else if status ≠ 0 then some (s.done o status 0)
    else
      let s := s.mapWrite (o.op 2) shift 0 keys
      some ((s.cmdHorizon o.ring o.seq (s.entriesTwc keys)).done o 0 0)

/-- A command waits for the holders of runs of frames (R191). -/
def State.waitFrames (s : State) (o : Order) (l : List Span) : State :=
  let x := s.ring o.ring
  match lookup x.cmds o.seq with
  | none => s
  | some c => s.putRing o.ring { x with cmds := putAt x.cmds o.seq { c with frames := l } }

/-- R382, R191. Invalidates a run of leaves; completes once nothing uses the frames it unmapped. -/
def execUnmap (ring : Nat) (st : State) : Res :=
  command st ring { opc := 0x06, masks := [allBits, allBits], sys := true, states := living,
                    range := fun w => decide (1 ≤ (w.getD 2 0).toNat) && decide ((w.getD 2 0).toNat ≤ 65536)
                      && (w.getD 1 0).toNat % 2 ^ 16 == 0 } fun s o =>
    match s.unmapStatus o.ctx (o.op 1) (o.op 2).toNat with
    | .inl status => some (s.done o status 0)
    | .inr leaves =>
      if s.leafHeld (leaves.map (·.1)) then none
      else
        let s := s.unmapWrite leaves
        let s := s.cmdHorizon o.ring o.seq (s.entriesTwc (leaves.map (·.1)))
        some (if s.spansIdle (leafSpans leaves) then s.done o 0 0 else s.waitFrames o (leafSpans leaves))

/-- The first frame of a die's free list, and the list after it. -/
def takeSpan : List Span → Option (Nat × List Span)
  | [] => none
  | (f, n) :: rest => if n = 0 then takeSpan rest else some (f, if n = 1 then rest else (f + 1, n - 1) :: rest)

/-- The first die from one on, in turn, whose list is not empty. -/
def nextDie (t : Table (List Span)) (from_ : Nat) : Option Nat :=
  ((List.range 24).map fun i => (from_ + i) % 24).find? fun d => (takeSpan (readAt [] t d)).isSome

/-- Frames taken one from each die in turn (R184). -/
def takeFrames : Nat → Nat → Table (List Span) → List Nat × Table (List Span)
  | 0, _, t => ([], t)
  | n + 1, d, t => match nextDie t d with
    | none => ([], t)
    | some e => match takeSpan (readAt [] t e) with
      | none => ([], t)
      | some (f, rest) =>
        let (l, u) := takeFrames n (e + 1) (writeAt [] t e rest)
        (f :: l, u)

/-- R184. Creates a page pool from the device free lists. -/
def execPoolCreate (ring : Nat) (st : State) : Res :=
  command st ring { opc := 0x07, masks := [allBits, allBits, allBits], sys := true, states := living,
                    range := fun w => decide ((w.getD 1 0).toNat ≤ 65534) } fun s o =>
    let id := (o.op 1).toNat
    let n := (o.op 2).toNat
    let free := (s.dieFree.map fun (_, l) => (l.map (·.2)).sum).sum
    some (if (lookup s.pools id).isSome then s.done o 1 0
      else if free < n then s.done o 4 0
      else
        let (l, t) := takeFrames n 0 s.dieFree
        let s := l.foldl (fun s f => s.putFrame f { s.frame f with pool := some id }) s
        ({ s with dieFree := t, pools := putAt s.pools id { free := l, total := n, reserve := (o.op 3).toNat } }).done o 0 0)

end Sys2Proof.Machine
end

