-- ==== Sys2Proof/Machine/Contexts.lean ====
section
/-! DEFINITION. Commands on contexts: creation, destruction, pre-emption, resumption and debugging, and the events that end a halt and
release a destroyed context (05_context R89 to R93; 08_group R155 to R159; 10_page R383; 18_isa_matrix R361). -/

namespace Sys2Proof.Machine

/-! ### Creation -/

/-- R90. A Free id becomes Created with the registers of Table 5-1. -/
def execCtxCreate (ring : Nat) (st : State) : Res :=
  command st ring { opc := 0x01, masks := [1], sys := true, states := fun n => n == 0 } fun s o =>
    some ((s.putCtx o.ctx { Context.free with st := 1, sys := (o.op 1).getLsbD 0 }).done o 0 0)

/-! ### Destruction -/

/-- The context that a command belongs to: a queue's own, or the one a system ring's command names (R102, R107). -/
def belongs (c ring : Nat) (w : List Quad) : Bool :=
  if isSys ring then fld (w.getD 0 0) 37 32 == c && !([0x08, 0x22, 0x3F].contains (fld (w.getD 0 0) 7 0)) else ring / 16 == c

/-- A fetched command that a CTX.DESTROY aborts with status 7 (R102), also another CTX.DESTROY that has not started; what destroys the context
stays. -/
def Cmd.abort (c ring : Nat) (x : Cmd) : Cmd :=
  match x.words with
  | none => x
  | some w => if x.st ≠ .done ∧ belongs c ring w ∧ !(fld (w.getD 0 0) 7 0 = 0x02 ∧ x.st = .started) then { x with st := .done, status := 7, result := 0 } else x

/-- A ring when a context becomes Destroying: commands aborted, queues of the context Draining (R102). A system ring that records a graph of
the context stays in recording, and the graph is gone (DESIGN CHOICE, log 76). -/
def Ring.destroy (c r : Nat) (x : Ring) : Ring :=
  let x := { x with cmds := x.cmds.map fun (k, m) => (k, m.abort c r) }
  if isQueueOf c r ∧ 1 ≤ x.st ∧ x.st ≤ 4 then { x with st := 5, recording := none }.drained else x

/-- The windows of a context released on every die (R219). -/
def State.releaseWindows (s : State) (c : Nat) : State :=
  (s.windows.filter fun (_, w) => w.pinned && w.ctx == c).foldl (fun s x => s.release (x.1 / 8) (x.1 % 8)) s

/-- A context becomes Destroying (R90, R102, R219). The records of its aborted LAUNCHes wait for the stores of their groups (R104). -/
def State.enterDestroying (s : State) (c : Nat) : State :=
  let s := (s.groups.filter fun (_, g) => g.ctx == c).foldl (fun s x => s.noteStores x.1 x.2) s
  let s := s.putCtx c { s.ctx c with st := 5 }
  ({ s with
    rings := s.rings.map fun (r, x) => (r, Ring.destroy c r x)
    launches := s.launches.filter fun (_, l) => l.ctx != c }).releaseWindows c

/-- A discarded group: ended, with no thread and no pass (R90, R133). -/
def Group.discarded (g : Group) : Group :=
  { g with st := .ended, dead := true, threads := [], passes := [], bars := [], grant := false, stepOne := false, stepAll := false,
           stepNew := false }

/-- The sets of extended registers that a context's groups in a cluster hold, those of saved groups apart, which are back in the pool
(R149). -/
def State.heldSets (s : State) (c cl : Nat) : Nat :=
  ((s.groups.filter fun (_, g) => g.ctx == c && g.st != .saved && g.grant && clusterOfCore g.core == cl).map fun (_, g) => g.nthr).sum

/-- The groups of a Destroying context discarded, with what they have not begun: matrix commands, chunks, resolutions (R90). Their extended
registers return (R149), and their horizons are noted for the records of their LAUNCHes (R104). -/
def State.discardGroups (s : State) (c : Nat) : State :=
  let mine := fun (gid : Nat) => match lookup s.groups gid with
    | none => false
    | some g => g.ctx == c
  let s := (s.groups.filter fun (_, g) => g.ctx == c).foldl (fun s x => s.noteStores x.1 x.2) s
  { s with
    clusters := s.clusters.map fun (cl, x) => (cl, { x with
      xfree := x.xfree + s.heldSets c cl
      xqueue := x.xqueue.filter fun (i, _) => !mine i
      changes := x.changes.filter fun (i, _, _, _) => !mine i })
    groups := s.groups.map fun (k, g) => (k, if g.ctx = c then g.discarded else g)
    cores := s.cores.map fun (k, x) => (k, { x with race := x.race.filter fun (_, m) => !mine m.gid })
    engines := s.engines.map fun (k, e) => (k, if mine e.gid then { e with chunks := e.started } else e)
    cows := s.cows.filter fun (_, x) => !(x.ctx == c && x.st == .waiting) }

/-- R90, R91. A context becomes Destroying at once, or when a PREEMPT's halt in progress completes; the groups of an Active one halt first. A
Faulted context is Destroying at once also while its groups still halt. -/
def execCtxDestroy (ring : Nat) (st : State) : Res :=
  command st ring { opc := 0x02, masks := [], sys := true, states := living } fun s o =>
    let x := s.ctx o.ctx
    some (match x.halt with
      | some h =>
        let s := s.putCtx o.ctx { x with halt := some { h with destroy := true } }
        if x.st = 4 then s.enterDestroying o.ctx else s
      | none =>
        if x.st = 2 then (s.beginHalt o.ctx fun h => { h with destroy := true }).enterDestroying o.ctx
        else (s.enterDestroying o.ctx).discardGroups o.ctx)

/-- The started commands of a code that name a context reach their end with status 0, their records no earlier than a horizon (R104). -/
def State.finishNaming (s : State) (c opc : Nat) (h : Nat := 0) : State :=
  { s with rings := s.rings.map fun (r, x) => (r, if isSys r then { x with cmds := x.cmds.map fun (k, m) => (k, match m.words with
      | none => m
      | some w => if m.st = .started ∧ fld (w.getD 0 0) 37 32 = c ∧ fld (w.getD 0 0) 7 0 = opc then { m with st := .done, status := 0, horizon := max m.horizon h } else m) }
    else x) }

/-- What is left of a released context goes: its teams, groups, tiles and engine commands; the id is Free (R90). -/
def State.clearContext (s : State) (c : Nat) : State :=
  let mine := fun (gid : Nat) => match lookup s.groups gid with
    | none => false
    | some g => g.ctx == c
  let team := fun (t : Nat) => match lookup s.teams t with
    | none => false
    | some x => x.ctx == c
  { s with
    tiles := s.tiles.filter fun (k, _) => !mine (k / 16)
    engines := s.engines.filter fun (_, e) => !mine e.gid
    clusters := s.clusters.map fun (k, x) => (k, match x.team with
      | none => x
      | some t => if team t then { x with team := none } else x)
    teams := s.teams.filter fun (_, t) => t.ctx != c
    groups := s.groups.filter fun (_, g) => g.ctx != c
    ctxs := putAt s.ctxs c Context.free }

/-- Nothing of a destroyed context is on its way: its groups are discarded, its chunks have ended, no resolution of it stands (R90). -/
def State.releasable (s : State) (c : Nat) : Bool :=
  (s.ctx c).st == 5 && (s.ctx c).halt.isNone
    && s.groups.all (fun (_, g) => g.ctx != c || g.st == .ended)
    && s.chunks.all (fun (_, k) => match lookup s.engines k.cmd with
      | none => true
      | some e => match lookup s.groups e.gid with
        | none => true
        | some g => g.ctx != c)
    && s.cows.all fun (_, x) => x.ctx != c

/-- R383, R90. The counted mappings of a destroyed context are released; it becomes Free and its CTX.DESTROY completes, its record behind the
entries that the release wrote (R104). -/
def execPageTableRelease (ctx : Nat) (st : State) : Res :=
  if st.releasable ctx then
    let s := st.releaseTable ctx
    .next ((s.clearContext ctx).finishNaming ctx 0x02 s.storeHorizon)
  else .next st

/-! ### Pre-emption -/

/-- R90. The groups of an Active context begin to halt; the command completes with the halt. -/
def execPreempt (ring : Nat) (st : State) : Res :=
  command st ring { opc := 0x20, masks := [], sys := true, states := fun n => n == 2 } fun s o => some (s.beginHalt o.ctx id)

/-- A millrace command that a halt does not wait for: one that has not started, or an MMAS or MMAX whose one rounding is still to come
(R250, R361). -/
def MCmd.haltsNow (m : MCmd) : Bool :=
  !m.started || (decide (m.step < 8) && (match m.op with
    | .mmas _ => true
    | .mmax _ => true
    | _ => false))

/-- A pass at which a halt may end (R155, R156): its results are written, it waits in no word that it can finish, and the next word is one
that a block can hold (R264). -/
def State.passHalted (s : State) (gid pid : Nat) (p : Pass) : Bool :=
  !p.ended && !p.cohort.isEmpty && s.settled gid pid p && !p.hold.finishes && !(p.run == .running && decide (4096 ≤ p.off))

/-- A halting group has halted: its passes, its results, its matrix commands, its chunks (R155, R157). -/
def State.groupHalted (s : State) (gid : Nat) (g : Group) : Bool :=
  g.passes.all (fun (pid, p) => s.passHalted gid pid p)
    && g.dueG.all (fun d => decide (d.cyc ≤ s.cycle))
    && (s.coreSt g.core).race.all (fun (_, m) => m.gid != gid || m.haltsNow)
    && s.chunks.all fun (_, c) => c.detached || c.failed || (match lookup s.engines c.cmd with
      | none => true
      | some e => e.gid != gid)

/-- The groups of a context that are halting. -/
def State.haltingOf (s : State) (c : Nat) : List (Nat × Group) := s.groups.filter fun (_, g) => g.ctx == c && g.st == .halting

/-- The MSTAT of a pass that has not reached the head of the millrace is withdrawn: the pass stands at its word (R156). -/
def Group.withdraw (g : Group) (m : MCmd) : Group :=
  let g := g.setCounter 1 (g.counter 1 - 1)
  match lookup g.passes m.pid with
  | none => g
  | some p => { g with passes := putAt g.passes m.pid { p with off := m.at_, hold := .none } }

/-- A queued MSTAT. -/
def MCmd.isStat (m : MCmd) : Bool := match m.op with
  | .mstat _ _ => true
  | .mprog _ => true
  | _ => false

/-- One millrace command of a group at the end of its halt: an MSTAT withdrawn, an MMAS or MMAX set back whole (R156, R250). -/
def State.haltCmd (s : State) (core gid : Nat) (k : Nat) (m : MCmd) : State :=
  let c := s.coreSt core
  if m.gid ≠ gid then s
  else if m.isStat then (s.putCore core { c with race := drop c.race k }).onGroup gid fun g => g.withdraw m
  else if m.started then
    let o := s.tile gid m.tile
    (s.putTile gid m.tile { o with step := 0, gens := m.gens }).putCore core
      { c with race := putAt c.race k { m with started := false, verdict := none, step := 0 } }
  else s

/-- What stays of a pass's wait when it is pre-empted: that of a sharded draw, whose winner still reaches its threads, as a pending-draw mark
keeps one for its participants (R157, R205; DEDUCED, log 17). Any other word just executes again. -/
def Hold.kept : Hold → Hold
  | .draw slot index d tids next stall => .draw slot index d tids next stall
  | _ => .none

/-- A pass of a saved group: its cohort is pre-empted at the pass's offset, with cause 4 (R155), and at most the largest that a record holds
(R264). Passes that the debugger holds stay so. -/
def Group.preemptPass (g : Group) (pid : Nat) (p : Pass) : Group :=
  let g := { g with passes := putAt g.passes pid { p with hold := p.hold.kept, run := if p.run = .running then .preempted else p.run } }
  p.cohort.foldl (fun g t =>
    let x := g.thread t
    if x.res.cause = 5 then g else g.putThread t { x with res := { blk := p.blk, off := min p.off 0xFFF, cause := 4 } }) g

/-- A group is saved (R133, R149, R155): its passes pre-empted, its request for extended registers withdrawn, its sets returned. -/
def State.saveGroup (s : State) (gid : Nat) : State :=
  match lookup s.groups gid with
  | none => s
  | some g =>
    let s := (s.coreSt g.core).race.foldl (fun s x => s.haltCmd g.core gid x.1 x.2) s
    let s := s.onGroup gid fun g => { g.passes.foldl (fun g x => g.preemptPass x.1 x.2) g with st := .saved }
    let cl := clusterOfCore g.core
    let c := s.cluster cl
    { s with clusters := putAt s.clusters cl { c with
        xqueue := c.xqueue.filter fun (i, _) => i != gid
        xfree := c.xfree + if g.grant then g.nthr else 0 } }

/-- R155, R90, R91. Every group of a halt has halted and is saved: the context is Halted, Faulted or Destroying, and its PREEMPTs complete. The
queues of one that is Faulted already became so with it. -/
def execHaltComplete (ctx : Nat) (st : State) : Res :=
  match (st.ctx ctx).halt with
  | none => .next st
  | some h =>
    if !((st.haltingOf ctx).all fun (gid, g) => st.groupHalted gid g) then .next st
    else
      let s := (st.haltingOf ctx).foldl (fun s x => s.saveGroup x.1) st
      let s := s.putCtx ctx { s.ctx ctx with halt := none }
      .next (if (s.ctx ctx).st = 5 then s.discardGroups ctx
        else if h.destroy then (s.enterDestroying ctx).discardGroups ctx
        else if h.faulted then
          (if (s.ctx ctx).st = 4 then s else (s.putCtx ctx { s.ctx ctx with st := 4 }).faultQueues ctx).finishNaming ctx 0x20
        else
          let s := (s.putCtx ctx { s.ctx ctx with st := 3 }).finishNaming ctx 0x20
          if h.byHalt then s.signal 1024 else s)

/-! ### Resumption -/

/-- A saved group continues (R133, R155): the state before its halt, its pre-empted passes, its threads that waited for extended registers. -/
def Group.resumed (g : Group) : Group :=
  if g.st ≠ .saved then g
  else { g with
    st := g.before
    passes := g.passes.map fun (k, p) => (k, if p.run = .preempted then { p with run := .running } else p)
    threads := g.threads.map fun (k, t) => (k, if t.wait = .acqx then { t.wake with woken := false } else t) }

/-- The sets that a cluster's saved groups of a context take again (R149). -/
def State.setsOf (s : State) (c cl : Nat) : Nat :=
  ((s.groups.filter fun (_, g) => g.ctx == c && g.st == .saved && g.grant && clusterOfCore g.core == cl).map fun (_, g) => g.nthr).sum

/-- RESUME may take effect: every detached chunk of the context has ended and the sets are there (R149, R157). -/
def State.mayResume (s : State) (c : Nat) : Bool :=
  s.chunks.all (fun (_, k) => !k.detached || (match lookup s.engines k.cmd with
    | none => true
    | some e => match lookup s.groups e.gid with
      | none => true
      | some g => g.ctx != c))
    && s.clusters.all fun (cl, x) => decide (s.setsOf c cl ≤ x.xfree)

/-- A context's groups, timers and queues run again (R90, R102, R127, R361). -/
def State.resumeContext (s : State) (c : Nat) : State :=
  let mine := fun (gid : Nat) => match lookup s.groups gid with
    | none => false
    | some g => g.ctx == c
  { s.putCtx c { s.ctx c with st := 2 } with
    groups := s.groups.map fun (k, g) => (k, if g.ctx = c then g.resumed else g)
    clusters := s.clusters.map fun (cl, x) => (cl, { x with xfree := x.xfree - s.setsOf c cl })
    teams := s.teams.map fun (k, t) => (k, if t.ctx = c then { t with bufs := t.bufs.map fun (i, b) => (i, b.restart s.now) } else t)
    cores := s.cores.map fun (k, x) => (k, { x with race := x.race.map fun (i, m) => (i, if mine m.gid then { m with issued := s.cycle } else m) })
    rings := s.rings.map fun (r, x) =>
      (r, if isQueueOf c r && x.byHalt && (x.st == 3 || x.st == 4) then { x with st := 2, byHalt := false } else x) }

/-- R90. A Halted or Faulted context is Active again; refused while its halt is in progress (R91). -/
def execResume (ring : Nat) (st : State) : Res :=
  command st ring { opc := 0x21, masks := [], sys := true, states := fun n => n == 3 || n == 4 } fun s o =>
    if (s.ctx o.ctx).halt.isSome then some (s.done o 1 0)
    else if !s.mayResume o.ctx then none
    else some ((s.resumeContext o.ctx).done o 0 0)

/-! ### Debugging -/

/-- The GRPID that names every group (R106). -/
def everyGroup : Nat := 0xFFFFFFFF

/-- The groups of a context that a debug command names, the ended ones apart. -/
def State.named (s : State) (o : Order) : List (Nat × Group) :=
  let n := fld (o.op 1) 31 0
  s.groups.filter fun (_, g) => g.ctx == o.ctx && g.st != .ended && (n == everyGroup || g.grpid == n)

/-- The oldest pass in progress of a kind that has not run its terminator and still has threads. -/
def Group.oldest (g : Group) (f : PassRun → Bool) : Option Nat :=
  (g.passes.find? fun (_, p) => !p.ended && !p.cohort.isEmpty && f p.run).map (·.1)

/-- R158. A group stops: the oldest of its passes becomes the stopped pass. -/
def Group.stopOldest (g : Group) : Group :=
  match g.oldest fun _ => true with
  | some pid => g.stopAt pid
  | none => { g with st := .stopped }

/-- R158. The context enters debug mode and its running named groups stop. -/
def execDbgStop (ring : Nat) (st : State) : Res :=
  command st ring { opc := 0x30, masks := [0xFFFFFFFF], sys := true, states := living } fun s o =>
    let l := s.named o
    some (if l.isEmpty ∧ fld (o.op 1) 31 0 ≠ everyGroup then s.done o 1 0
      else
        let s := s.putCtx o.ctx { s.ctx o.ctx with debug := true }
        (l.foldl (fun s x => if x.2.st = .running then s.putGroup x.1 x.2.stopOldest else s) s).done o 0 0)

/-- A command on the one stopped group that it names (R159): status 1 for a group in any other state. -/
def debugOne (st : State) (ring : Nat) (c : Spec) (f : State → Order → Nat → Group → Option State) : Res :=
  command st ring c fun s o =>
    match (s.named o).find? fun (_, g) => g.grpid == fld (o.op 1) 31 0 with
    | none => some (s.done o 1 0)
    | some (gid, g) => if g.st ≠ .stopped then some (s.done o 1 0) else f s o gid g

/-- The stopped pass is still at what it did before: in the instruction it began (R155), or on its way out of its pass (R137). -/
def Group.settling (g : Group) : Bool :=
  g.passes.any fun (_, p) => p.run == .stopped && (p.hold.finishes || p.ended || p.cohort.isEmpty)

/-- R159. One instruction of the stopped pass; else of the oldest held pass; else of a pass that the weir starts. -/
def execDbgStep (ring : Nat) (st : State) : Res :=
  debugOne st ring { opc := 0x31, masks := [0xFFFFFFFF], sys := true, states := living } fun s o gid g =>
    if g.settling then none else match g.oldest fun r => r == .stopped with
    | some _ => some (s.putGroup gid { g with stepOne := true })
    | none => match g.oldest fun r => r == .held with
      | some pid => some (s.putGroup gid { g.stopAt pid with stepOne := true })
      | none =>
        if !g.passes.isEmpty then none
        else if g.stepBin.isNone ∧ (s.select g).isNone then some (s.done o 0 0)
        else some (s.putGroup gid { g with stepNew := true })

/-- R159. Runs the stopped pass until it ends. -/
def execDbgSteppass (ring : Nat) (st : State) : Res :=
  debugOne st ring { opc := 0x32, masks := [0xFFFFFFFF], sys := true, states := living } fun s o gid g =>
    some (if g.passes.any fun (_, p) => p.run == .stopped then s.putGroup gid { g with stepAll := true } else s.done o 1 0)

/-- R159. Names the bin that the next started pass runs, one of the kernel's own (DESIGN CHOICE, log 86); status 3 when it has no ready thread or
a pass is stopped or held. -/
def execDbgStepbin (ring : Nat) (st : State) : Res :=
  debugOne st ring { opc := 0x33, masks := [0xFFFFFFFF, 0xFFFFFF], sys := true, states := living } fun s o gid g =>
    let k := (fld (o.op 2) 11 0, fld (o.op 2) 23 12)
    some (if !g.passes.isEmpty ∨ (g.readyThreads false k).isEmpty then s.done o 3 0
      else (s.putGroup gid { g with stepBin := some k }).done o 0 0)

/-- A stopped group is Running: its held and stopped passes continue (R159). -/
def Group.released (g : Group) : Group :=
  { g with st := .running, stepBin := none, stepOne := false, stepAll := false, stepNew := false
           passes := g.passes.map fun (k, p) => (k, if p.run = .stopped ∨ p.run = .held then { p with run := .running } else p) }

/-- R159, R158. Stopped groups continue; naming all of them ends debug mode. -/
def execDbgCont (ring : Nat) (st : State) : Res :=
  command st ring { opc := 0x34, masks := [0xFFFFFFFF], sys := true, states := living } fun s o =>
    let all := fld (o.op 1) 31 0 == everyGroup
    let l := (s.named o).filter fun (_, g) => g.st == .stopped
    some (if l.isEmpty ∧ !all then s.done o 1 0
      else
        let s := if all then s.putCtx o.ctx { s.ctx o.ctx with debug := false } else s
        (l.foldl (fun s x => s.putGroup x.1 x.2.released.drainIfDone) s).done o 0 0)

end Sys2Proof.Machine
end

