-- ==== Sys2Proof/Machine/Sha3.lean ====
section
/-! DEFINITION. SHA3-256, which the measurements of 05_context R97 and R98 name, and the SHAKE functions of the same standard. Their definition
is not in the spec: it is taken from FIPS 202 (PRESUMED, log 7). -/

namespace Sys2Proof.Machine

/-- The 25 lanes of a Keccak state, lane x + 5y at index x + 5y. -/
abbrev Lanes := List Quad

def lane (s : Lanes) (x y : Nat) : Quad := s.getD (x % 5 + 5 * (y % 5)) 0

/-- A new state, lane by lane. -/
def lanesOf (f : Nat → Nat → Quad) : Lanes := (List.range 25).map fun i => f (i % 5) (i / 5)

/-- The rotation offsets of ρ, for lane x + 5y. -/
def rhoOffsets : List Nat :=
  [0, 1, 62, 28, 27, 36, 44, 6, 55, 20, 3, 10, 43, 25, 39, 41, 45, 15, 21, 8, 18, 2, 61, 56, 14]

/-- The round constants of ι. -/
def roundConstants : List Quad :=
  [0x0000000000000001#64, 0x0000000000008082#64, 0x800000000000808A#64, 0x8000000080008000#64, 0x000000000000808B#64, 0x0000000080000001#64,
   0x8000000080008081#64, 0x8000000000008009#64, 0x000000000000008A#64, 0x0000000000000088#64, 0x0000000080008009#64, 0x000000008000000A#64]
  ++ [0x000000008000808B#64, 0x800000000000008B#64, 0x8000000000008089#64, 0x8000000000008003#64, 0x8000000000008002#64,
   0x8000000000000080#64, 0x000000000000800A#64, 0x800000008000000A#64, 0x8000000080008081#64, 0x8000000000008080#64, 0x0000000080000001#64,
   0x8000000080008008#64]

/-- One round: θ, ρ, π, χ, ι. -/
def keccakRound (s : Lanes) (rc : Quad) : Lanes :=
  let c := (List.range 5).map fun x => lane s x 0 ^^^ lane s x 1 ^^^ lane s x 2 ^^^ lane s x 3 ^^^ lane s x 4
  let d := fun (x : Nat) => c.getD ((x + 4) % 5) 0 ^^^ (c.getD ((x + 1) % 5) 0).rotateLeft 1
  let t := lanesOf fun x y => lane s x y ^^^ d x
  let r := lanesOf fun x y => (lane t x y).rotateLeft (rhoOffsets.getD (x + 5 * y) 0)
  let b := lanesOf fun x y => lane r (x + 3 * y) x
  let a := lanesOf fun x y => lane b x y ^^^ (~~~(lane b (x + 1) y) &&& lane b (x + 2) y)
  lanesOf fun x y => lane a x y ^^^ (if x = 0 ∧ y = 0 then rc else 0)

def keccak (s : Lanes) : Lanes := roundConstants.foldl keccakRound s

/-- Eight bytes as a lane, lowest first. -/
def laneOfBytes (l : List Byte) : Quad := l.foldr (fun b (x : Quad) => x <<< 8 ||| b.setWidth 64) 0

/-- A block of `rate` bytes absorbed. -/
def absorb (rate : Nat) (s : Lanes) (block : List Byte) : Lanes :=
  keccak (lanesOf fun x y => lane s x y ^^^ (if x + 5 * y < rate / 8 then laneOfBytes ((block.drop (8 * (x + 5 * y))).take 8) else 0))

/-- The message with the domain bits of `suffix` and the padding to whole blocks. -/
def keccakPad (rate : Nat) (suffix : Byte) (m : List Byte) : List Byte :=
  let z := rate - 1 - m.length % rate
  if z = 0 then m ++ [suffix ||| 0x80#8] else m ++ [suffix] ++ List.replicate (z - 1) 0 ++ [0x80#8]

def absorbAll (rate : Nat) : Nat → Lanes → List Byte → Lanes
  | 0, s, _ => s
  | n + 1, s, m => absorbAll rate n (absorb rate s (m.take rate)) (m.drop rate)

/-- `n` blocks of output. -/
def squeeze (rate : Nat) : Nat → Lanes → List Byte
  | 0, _ => []
  | n + 1, s => (List.range rate).map (fun i => (s.getD (i / 8) 0 >>> (8 * (i % 8) : Nat)).setWidth 8) ++ squeeze rate n (keccak s)

/-- The first `n` bytes of the sponge of a rate and a domain suffix over a message. -/
def sponge (rate : Nat) (suffix : Byte) (m : List Byte) (n : Nat) : List Byte :=
  let p := keccakPad rate suffix m
  (squeeze rate ((n + rate - 1) / rate) (absorbAll rate (p.length / rate) (List.replicate 25 0) p)).take n

/-- SHA3-256. -/
def sha3 (m : List Byte) : List Byte := sponge 136 0x06#8 m 32

/-- SHAKE128 and SHAKE256. -/
def shake128 (m : List Byte) (n : Nat) : List Byte := sponge 168 0x1F#8 m n
def shake256 (m : List Byte) (n : Nat) : List Byte := sponge 136 0x1F#8 m n

end Sys2Proof.Machine
end

