-- ==== Sys2Proof/Machine/Launches.lean ====
section
/-! DEFINITION. Kernel images, launches and graphs (07_kernel R115 to R121; 06_queue R106, R110 to R112; 05_context R98). -/

namespace Sys2Proof.Machine

/-! ### Ranges of a context's memory -/

/-- Bytes read from a context's memory, page by page, with the state after it; none when some page does not translate. -/
def State.readRange : Nat → State → Nat → Nat → Nat → State × Option (List Byte)
  | 0, s, _, _, _ => (s, some [])
  | fuel + 1, s, ctx, va, n =>
    if n = 0 then (s, some [])
    else
      let k := min n (65536 - va % 65536)
      match s.deviceRead ctx (BitVec.ofNat 64 va) k with
      | (s, none) => (s, none)
      | (s, some l) => match State.readRange fuel s ctx (va + k) (n - k) with
        | (s, none) => (s, none)
        | (s, some m) => (s, some (l ++ m))

/-- `n` bytes of a context from an address, with the state after they are read: A in their leaves (R181). -/
def State.readMany (s : State) (ctx va n : Nat) : State × Option (List Byte) := s.readRange (n / 65536 + 2) ctx va n

/-- Bytes written to a context's memory, line by line; none when some line is not writable. -/
def State.writeRange : Nat → State → Nat → Nat → List Byte → Option State
  | 0, s, _, _, _ => some s
  | fuel + 1, s, ctx, va, l =>
    if l.isEmpty then some s
    else
      let k := 128 - va % 128
      match s.deviceWrite ctx (BitVec.ofNat 64 va) (l.take k) with
      | (s, true) => State.writeRange fuel s ctx (va + k) (l.drop k)
      | (_, false) => none

def State.writeMany (s : State) (ctx va : Nat) (l : List Byte) : Option State := s.writeRange (l.length / 128 + 2) ctx va l

/-! ### Images -/

/-- Bytes of an image. -/
def slice (image : List Byte) (off n : Nat) : List Byte := (image.drop off).take n

/-- The header of an image is accepted for a length (Table 7-1, R117). An NKERN outside 1 to 256 is refused too (DEDUCED, log 95). -/
def headerGood (h : Nat) (len : Nat) : Bool :=
  bitsOf h 0 32 == 0x314B4847 && bitsOf h 32 32 == 1 && decide (1 ≤ bitsOf h 64 32) && decide (bitsOf h 64 32 ≤ 256)
    && bitsOf h 96 32 == len && h / 2 ^ 128 == 0

/-- A kernel of an image from its descriptor (Table 7-2, R116). -/
def parseKernel (image : List Byte) (d : Nat) : Kernel :=
  { text := slice image (bitsOf d 0 32) (bitsOf d 32 32)
    blocks := (List.range (bitsOf d 96 16)).map fun i =>
      let x := leNat (slice image (bitsOf d 64 32 + 4 * i) 4)
      if x = 0xFFFFFFFF then none else some x
    entry := bitsOf d 112 16, dataOff := bitsOf d 128 32, dataLen := bitsOf d 160 32, threads := bitsOf d 192 16, team := bitsOf d 208 8,
    regs := bitsOf d 216 8, xregs := bitsOf d 224 8, barriers := bitsOf d 232 8, scratch := bitsOf d 240 32, acc := bitsOf d 272 8,
    schk := bitsOf d 280 1 == 1, handler := bitsOf d 281 1 == 1 }

/-- The offsets, lengths and reserved bits of a descriptor (Table 7-2, R117). A TEXTLEN that is odd or below 8 and a BTCOUNT outside 1 to 4096
are refused too (DEDUCED, log 95). -/
def placesGood (d len : Nat) : Bool :=
  d / 2 ^ 282 == 0 && bitsOf d 0 32 % 4 == 0 && bitsOf d 32 32 % 2 == 0 && decide (8 ≤ bitsOf d 32 32) && bitsOf d 64 32 % 4 == 0
    && decide (1 ≤ bitsOf d 96 16) && decide (bitsOf d 96 16 ≤ 4096) && decide (bitsOf d 0 32 + bitsOf d 32 32 ≤ len)
    && decide (bitsOf d 64 32 + 4 * bitsOf d 96 16 ≤ len) && decide (bitsOf d 128 32 + bitsOf d 160 32 ≤ len)

/-- The resource fields lie in the ranges of R66 (R117). -/
def resourcesGood (k : Kernel) : Bool :=
  (if k.handler then k.threads == 0 else decide (4 ≤ k.threads) && decide (k.threads ≤ 512) && k.threads % 4 == 0)
    && decide (1 ≤ k.team) && decide (k.team ≤ 32) && k.regs % 2 == 0 && decide (2 ≤ k.regs) && decide (k.regs ≤ 64)
    && (k.xregs == 0 || k.xregs == 64) && decide (k.barriers ≤ 64) && decide (k.scratch ≤ 33554432) && k.scratch % 16 == 0
    && decide (k.acc ≤ 16)

/-- The offsets of a list rise. -/
def rising : List Nat → Bool
  | [] => true
  | a :: rest => (match rest with
    | [] => true
    | b :: _ => decide (a < b)) && rising rest

/-- The block table and the entry block (R117). -/
def blocksGood (k : Kernel) : Bool :=
  (k.block k.entry).isSome && rising (k.blocks.filterMap id)
    && (List.range k.blocks.length).all fun i => match k.block i with
      | none => true
      | some o => o % 4 == 0 && decide (o < k.text.length) && (match k.header i with
        | some (x :: _) => x == i
        | _ => false)

/-- The kernels of an image of that length, when R117 does not refuse it; its descriptors lie within LENGTH (DEDUCED, log 95). -/
def parseImage (image : List Byte) (len : Nat) : Option (List Kernel) :=
  let h := leNat (slice image 0 64)
  let n := bitsOf h 64 32
  if !headerGood h len || decide (len < 64 + 64 * n) then none
  else
    let ds := (List.range n).map fun i => leNat (slice image (64 + 64 * i) 64)
    let ks := ds.map (parseKernel image)
    if ds.all (fun d => placesGood d len) && ks.all (fun k => resourcesGood k && blocksGood k) then some ks else none

/-- R117, R98. Loads a kernel image into the first free slot and extends the kernel measurement. An OP2 below 64 is an operand out of its range,
step 3 of R105 (DEDUCED, log 96). -/
def execKernLoad (ring : Nat) (st : State) : Res :=
  command st ring { opc := 0x09, masks := [allBits, allBits], states := open_, range := fun w => decide (64 ≤ (w.getD 2 0).toNat) } fun s o =>
    let va := (o.op 1).toNat
    let len := (o.op 2).toNat
    some (match s.readMany o.ctx va 64 with
      | (s, none) => s.done o 8 0
      | (s, some h) =>
        if !headerGood (leNat h) len then s.done o 3 0
        else match s.readMany o.ctx va len with
          | (s, none) => s.done o 8 0
          | (s, some image) => match parseImage image len with
            | none => s.done o 3 0
            | some ks =>
              let x := s.ctx o.ctx
              match (List.range 256).find? fun i => (lookup x.images i).isNone with
              | none => s.done o 4 0
              | some slot => (s.putCtx o.ctx { x with
                  images := putAt x.images slot { base := o.op 1, kernels := ks }
                  kernM := sha3 (x.kernM ++ sha3 image), kcount := (x.kcount + 1) % 2 ^ 32 }).done o 0 slot)

/-- A command recorded in a graph's buffer (R110), with the state after it is read. -/
def State.recorded (s : State) (ctx : Nat) (g : Graph) (i : Nat) : State × Option (List Quad) :=
  let r := s.deviceRead ctx (BitVec.ofNat 64 (g.buf.toNat + 512 + 64 * i)) 64
  (r.1, r.2.map quadsOf)

/-- An image slot is in use (R117): by a group, a task record, or a LAUNCH of a recorded graph. -/
def State.slotUsed (s : State) (c slot : Nat) : Bool :=
  (s.groups.any fun (_, g) => g.ctx == c && g.slot == slot && g.st != .ended)
    || (s.teams.any fun (_, t) => t.ctx == c && ((t.recs.any fun (_, r) => r.slot == slot) || t.bufs.any fun (_, b) => b.slot == slot))
    || (s.ctx c).graphs.any fun (_, g) => (List.range g.count).any fun i => match (s.recorded c g i).2 with
      | none => false
      | some w => fld (w.getD 1 0) 7 0 == slot

/-- R117. Frees an image slot that nothing uses. -/
def execKernUnload (ring : Nat) (st : State) : Res :=
  command st ring { opc := 0x0A, masks := [0xFF], states := open_ } fun s o =>
    let slot := (o.op 1).toNat
    let x := s.ctx o.ctx
    some (if (lookup x.images slot).isNone then s.done o 3 0
      else if s.slotUsed o.ctx slot then s.done o 1 0
      else (s.putCtx o.ctx { x with images := drop x.images slot }).done o 0 0)

/-! ### Launches -/

/-- The operands that a LAUNCH may hold, and its team count (R106). -/
def launchMasks : List Nat := [0xFFFF00FF, allBits, allBits, allBits]

def teamsGood (w : List Quad) : Bool := decide (1 ≤ (w.getD 2 0).toNat) && decide ((w.getD 2 0).toNat ≤ 2 ^ 24)

/-- A kernel that R120 lets launch. -/
def launchable (k : Kernel) : Bool :=
  let c := (k.team + 7) / 8
  !k.handler && decide (k.scratch ≤ 33030144) && decide (c * k.threads ≤ 2048) && decide (c * k.threads * k.regs ≤ 131072)
    && decide (c * k.acc ≤ 16) && decide (c * k.barriers ≤ 64)

/-- The image and kernel that a LAUNCH starts; none where R117 or R120 gives status 3. -/
def State.launchKernel (s : State) (ctx : Nat) (w : List Quad) : Option (Image × Kernel) :=
  match lookup (s.ctx ctx).images (fld (w.getD 1 0) 7 0) with
  | none => none
  | some im => match im.kernels[fld (w.getD 1 0) 31 16]? with
    | none => none
    | some k => if launchable k then some (im, k) else none

/-- A launch waits for its teams' admission (R120); its context becomes Active (R90). -/
def State.beginLaunch (s : State) (o : Order) (w : List Quad) (im : Image) (k : Kernel) : State :=
  let x := s.ctx o.ctx
  let l : Launch := {
    ring := o.ring, seq := o.seq, ctx := o.ctx, prio := s.ringPrio o.ring, slot := fld (w.getD 1 0) 7 0, kern := fld (w.getD 1 0) 31 16,
    teams := (w.getD 2 0).toNat, next := 0, live := 0, args := w.getD 3 0,
    data := if w.getD 4 0 = 0 then im.base + BitVec.ofNat 64 k.dataOff else w.getD 4 0 }
  { (s.putCtx o.ctx { x with st := if x.st = 1 then 2 else x.st }) with launches := putAt s.launches s.stamp l, stamp := s.stamp + 1 }

/-- A graph of a context changed. -/
def State.putGraph (s : State) (c i : Nat) (g : Graph) : State :=
  s.putCtx c { s.ctx c with graphs := putAt (s.ctx c).graphs i g }

/-- The 64 bytes of a record. -/
def recordBytes (w : List Quad) : List Byte := (List.range 8).flatMap fun i => leBytes 8 (w.getD i 0).toNat

/-- A LAUNCH on a recording queue is copied into the graph's buffer (R111); where its entry there is not writable it is not recorded, with
status 8 (DESIGN CHOICE, log 91). -/
def recordLaunch (s : State) (o : Order) : State :=
  match (s.ring o.ring).recording with
  | none => s.done o 6 0
  | some r => match lookup (s.ctx (r / 64)).graphs (r % 64) with
    | none => s.done o 6 0
    | some g =>
      if 256 ≤ g.count then s.done o 6 0
      else match s.deviceWrite (r / 64) (BitVec.ofNat 64 (g.buf.toNat + 512 + 64 * g.count)) (recordBytes o.words) with
        | (_, false) => s.done o 8 0
        | (s, true) => (s.putGraph (r / 64) (r % 64) { g with count := g.count + 1 }).doneStored o 0 0

/-- R120. Checks the kernel and queues the launch's teams; on a recording queue it is recorded (R111). -/
def execLaunch (ring : Nat) (st : State) : Res :=
  command st ring { opc := 0x10, masks := launchMasks, states := open_, range := teamsGood, subst := true }
    (fun s o => some (match s.launchKernel o.ctx o.words with
      | none => s.done o 3 0
      | some (im, k) => s.beginLaunch o o.words im k))
    (some recordLaunch)

/-! ### Graphs -/

/-- R111. Turns recording on for the queue; a graph that is being recorded has status 1. -/
def execGraphRecord (ring : Nat) (st : State) : Res :=
  command st ring { opc := 0x11, masks := [0x3F, allBits], states := open_, range := fun w => (w.getD 2 0).toNat % 64 == 0 } fun s o =>
    let i := (o.op 1).toNat
    let busy : Bool := match lookup (s.ctx o.ctx).graphs i with
      | none => false
      | some g => g.recording
    some (if busy then s.done o 1 0
      else
        let s := s.putGraph o.ctx i { buf := o.op 2, count := 0, recording := true }
        (s.putRing o.ring { s.ring o.ring with recording := some (o.ctx * 64 + i) }).done o 0 0)

/-- The graph that the queue records is closed (R111). -/
def closeGraph (s : State) (o : Order) : State :=
  match (s.ring o.ring).recording with
  | none => s.done o 1 0
  | some r =>
    let s := s.putRing o.ring { s.ring o.ring with recording := none }
    match lookup (s.ctx (r / 64)).graphs (r % 64) with
    | none => s.done o 0 0
    | some g => (s.putGraph (r / 64) (r % 64) { g with recording := false }).done o 0 g.count

/-- R111. Closes the graph being recorded; its result is the number of commands. On a queue with no recording open, status 1. -/
def execGraphEnd (ring : Nat) (st : State) : Res :=
  command st ring { opc := 0x12, masks := [], states := open_ } (fun s o => some (s.done o 1 0)) (some closeGraph)

/-- A graph that is recorded and closed. -/
def State.closedGraph (s : State) (c i : Nat) : Option Graph :=
  match lookup (s.ctx c).graphs i with
  | none => none
  | some g => if g.recording then none else some g

/-- The replay data of a started command. -/
def State.setReplay (s : State) (ring seq result : Nat) (r : Nat × Nat × List Quad) : State :=
  let x := s.ring ring
  match lookup x.cmds seq with
  | none => s
  | some c => s.putRing ring { x with cmds := putAt x.cmds seq { c with replay := some r, result := result } }

/-- The start of a replay: its snapshot (R112); a parameter block that does not translate gives status 8 (DESIGN CHOICE, log 92). -/
def startReplay (s : State) (o : Order) : State :=
  match s.closedGraph o.ctx (o.op 1).toNat with
  | none => s.done o 1 0
  | some g => match s.readMany o.ctx g.buf.toNat 512 with
    | (s, none) => s.done o 8 0
    | (s, some l) =>
      let x := s.ctx o.ctx
      let s := s.putCtx o.ctx { x with st := if x.st = 1 then 2 else x.st }
      let params := (List.range 64).map fun i => BitVec.ofNat 64 (leNat (slice l (8 * i) 8))
      if g.count = 0 then s.done o 0 0 else s.setReplay o.ring o.seq 0 (0, g.count, params)

/-- The SUBST entries of a recorded LAUNCH applied (R112). -/
def substitute (params : List Quad) (w : List Quad) : List Quad :=
  (List.range 4).foldl (fun l i =>
    let e := bitsOf (w.getD 7 0).toNat (16 * i) 16
    if bitsOf e 15 1 = 1 then l.set (bitsOf e 8 3) (params.getD (bitsOf e 0 6) 0) else l) w

/-- The operands of a LAUNCH satisfy R106. -/
def operandsGood (w : List Quad) : Bool :=
  (List.range 6).all (fun i => (w.getD (i + 1) 0).toNat &&& (launchMasks.getD i 0) == (w.getD (i + 1) 0).toNat) && teamsGood w

/-- A replay ends at a failing command (R112): a context fault record, whose store its completion record waits for (R94, R104), the queue
Faulted whatever its state, the index as the result. KERN of the record is the LAUNCH's kernel index, substituted where it came to that, 0 when
it could not be read, and RESUME is 0 (DESIGN CHOICE, log 93). -/
def State.failReplay (s : State) (o : Order) (i kern : Nat) (params : List Quad) : State :=
  let s := s.putFaultRecord o.ctx (faultRecord 0x15 0 kern 0 0 0 s.now)
  let s := s.cmdHorizon o.ring o.seq s.storeHorizon
  let x := s.ring o.ring
  let s := if isSys o.ring then s else s.putRing o.ring { x with st := 4, byHalt := false }
  if s.launches.any fun (_, l) => l.ring == o.ring && l.seq == o.seq then s.setReplay o.ring o.seq i (i, i, params) else s.done o 0 i

/-- A record in a graph's buffer is a LAUNCH whose reserved fields are zero and whose SUBST entries are well formed (R5, R103, R112). -/
def recordGood (sys : Bool) (w : List Quad) : Bool :=
  let w0 := w.getD 0 0
  fld w0 7 0 == 0x10 && fld w0 31 10 == 0 && fld w0 63 38 == 0 && (sys || fld w0 37 32 == 0)
    && (List.range 4).all fun i => substOk (bitsOf (w.getD 7 0).toNat (16 * i) 16)

/-- The next LAUNCH of a replay issues (R104, R112): when its record has CONC, or every earlier command of the ring has completed and no
LAUNCH of the replay is under way. A graph that a GRAPH.RECORD has opened again fails it as a command that does not hold (DESIGN CHOICE,
log 94). -/
def State.issueReplay (s : State) (o : Order) (i n : Nat) (params : List Quad) : Option State :=
  match s.closedGraph o.ctx (o.op 1).toNat with
  | none => some (s.failReplay o i 0 params)
  | some g => match s.recorded o.ctx g i with
    | (s, none) => some (s.failReplay o i 0 params)
    | (s, some w) =>
      if !(w.getD 0 0).getLsbD 8 && ((s.ring o.ring).done != o.seq || s.launches.any fun (_, l) => l.ring == o.ring && l.seq == o.seq) then none
      else if !recordGood (isSys o.ring) w then some (s.failReplay o i (fld (w.getD 1 0) 31 16) params)
      else
        let w := substitute params w
        match s.launchKernel o.ctx w with
        | none => some (s.failReplay o i (fld (w.getD 1 0) 31 16) params)
        | some (im, k) =>
          some (if operandsGood w then (s.setReplay o.ring o.seq 0 (i + 1, n, params)).beginLaunch o w im k
            else s.failReplay o i (fld (w.getD 1 0) 31 16) params)

/-- The replays of a ring that have LAUNCHes to issue, oldest first. -/
def State.replays (s : State) (ring : Nat) : List (Order × Nat × Nat × List Quad) :=
  (s.ring ring).cmds.filterMap fun (seq, c) => match c.words, c.replay with
    | some w, some (i, n, params) =>
      if c.st = .started ∧ i < n then
        let o : Order := { ring := ring, seq := seq, ctx := if isSys ring then fld (w.getD 0 0) 37 32 else ring / 16, words := w }
        if open_ (s.ctx o.ctx).st then some (o, i, n, params) else none
      else none
    | _, _ => none

/-- R112. A replay starts with its snapshot, or issues its next LAUNCH. -/
def execGraphReplay (ring : Nat) (st : State) : Res :=
  match (st.replays ring).findSome? fun x => st.issueReplay x.1 x.2.1 x.2.2.1 x.2.2.2 with
  | some s => .next s
  | none => command st ring { opc := 0x13, masks := [0x3F], states := open_ } fun s o => some (startReplay s o)

/-- R106. Writes one parameter of a graph's parameter block. -/
def execGparamSet (ring : Nat) (st : State) : Res :=
  command st ring { opc := 0x14, masks := [0x3F3F, allBits], states := open_ } fun s o =>
    some (match s.closedGraph o.ctx (fld (o.op 1) 5 0) with
      | none => s.done o 1 0
      | some g => match s.deviceWrite o.ctx (BitVec.ofNat 64 (g.buf.toNat + 8 * fld (o.op 1) 13 8)) (leBytes 8 (o.op 2).toNat) with
        | (_, false) => s.done o 8 0
        | (s, true) => s.doneStored o 0 0)

end Sys2Proof.Machine
end

