-- ==== Sys2Proof/Machine/Mldsa.lean ====
section
/-! DEFINITION. ML-DSA-44, which 05_context R96, R97 and R99 name: key generation from a seed, the deterministic signature with an empty
context string, and verification. Its definition is not in the spec: it is taken from FIPS 204 (PRESUMED, log 5). Sampling that the
standard repeats without a bound reads a stream longer than any run needs. -/

namespace Sys2Proof.Machine

/-! ### Polynomials -/

/-- The 256 coefficients of a polynomial, or its values in the NTT domain, modulo q. -/
abbrev Poly := List Nat

def mlQ : Nat := 8380417

def polyAdd (a b : Poly) : Poly := List.zipWith (fun x y => (x + y) % mlQ) a b
def polySub (a b : Poly) : Poly := List.zipWith (fun x y => (x + mlQ - y) % mlQ) a b
def polyMul (a b : Poly) : Poly := List.zipWith (fun x y => x * y % mlQ) a b

/-- The exponent of the i-th root: 2 BitRev8(i) + 1. -/
def rootExp (i : Nat) : Nat := 2 * (List.range 8).foldl (fun n b => 2 * n + i / 2 ^ b % 2) 0 + 1

/-- The NTT: the values at the powers of 1753 that `rootExp` names. -/
def ntt (w : Poly) : Poly :=
  (List.range 256).map fun i =>
    let z := 1753 ^ rootExp i % mlQ
    w.foldr (fun a n => (a + z * n) % mlQ) 0

/-- The next `n` coefficients of 256⁻¹ times the sums of values that are multiplied by their points from one to the next. -/
def sumsFrom (pts : Poly) : Nat → Poly → Poly
  | 0, _ => []
  | n + 1, v => v.sum * 8347681 % mlQ :: sumsFrom pts n (polyMul v pts)

/-- The inverse of the NTT. -/
def nttBack (v : Poly) : Poly := sumsFrom ((List.range 256).map fun i => 1753 ^ (512 - rootExp i) % mlQ) 256 v

/-- A matrix of the NTT domain applied to a vector of it. -/
def matVec (a : List (List Poly)) (v : List Poly) : List Poly :=
  a.map fun row => (List.zipWith polyMul row v).foldl polyAdd (List.replicate 256 0)

/-- The product of a polynomial of the NTT domain with each of a vector. -/
def timesVec (c : Poly) (v : List Poly) : List Poly := v.map fun x => nttBack (polyMul c (ntt x))

/-- A coefficient between −q/2 and q/2, and the largest magnitude of a vector's. -/
def centred (x : Nat) : Int := if mlQ < 2 * x then (x : Int) - mlQ else x
def normOf (v : List Poly) : Nat := (v.flatMap id).foldl (fun n x => max n (centred x).natAbs) 0

/-- A small integer modulo q. -/
def modQ (x : Int) : Nat := (x % (mlQ : Int)).toNat

/-- r modulo a around 0. -/
def around (r a : Nat) : Int := if a < 2 * (r % a) then (r % a : Nat) - (a : Int) else (r % a : Nat)

/-- Power2Round with d = 13. -/
def power2Round (r : Nat) : Nat × Nat := ((((r : Int) - around r 8192) / 8192).toNat, modQ (around r 8192))

/-- Decompose with 2γ2 = 190464. -/
def decompose (r : Nat) : Nat × Int :=
  let r0 := around r 190464
  if (r : Int) - r0 = mlQ - 1 then (0, r0 - 1) else ((((r : Int) - r0) / 190464).toNat, r0)

/-- UseHint. -/
def useHint (h : Bool) (r : Nat) : Nat :=
  let (r1, r0) := decompose r
  if !h then r1 else if 0 < r0 then (r1 + 1) % 44 else (r1 + 43) % 44

/-! ### Bytes -/

/-- 256 numbers of `w` bits each as bytes, and back. -/
def packPoly (w : Nat) (p : Poly) : List Byte := leBytes (32 * w) (p.foldr (fun v n => v + 2 ^ w * n) 0)
def unpackPoly (w : Nat) (l : List Byte) : Poly := (List.range 256).map fun i => leNat l / 2 ^ (w * i) % 2 ^ w

/-- The four polynomials packed in a list of bytes. -/
def unpackVec (w : Nat) (l : List Byte) : List Poly := (List.range 4).map fun i => unpackPoly w ((l.drop (32 * w * i)).take (32 * w))

/-- Coefficients in (−γ1, γ1], γ1 = 2^17, as 18 bits and back. -/
def packMask (p : Poly) : List Byte := packPoly 18 (p.map fun x => ((2 ^ 17 : Int) - centred x).toNat)
def unpackMask (l : List Byte) : Poly := (unpackPoly 18 l).map fun (x : Nat) => modQ ((2 ^ 17 : Int) - (x : Int))

/-- The places of the ones of a hint, with the running counts in the last 4 of its 84 bytes. -/
def packHint (h : List (List Bool)) : List Byte :=
  let ones := h.map fun p => (List.range 256).filter fun j => p.getD j false
  ((ones.flatMap id).map (BitVec.ofNat 8) ++ List.replicate 80 0).take 80
    ++ (List.range 4).map fun i => BitVec.ofNat 8 ((ones.take (i + 1)).map List.length).sum

/-- Some numbers rise strictly. -/
def strictlyRising : List Nat → Bool
  | a :: b :: rest => decide (a < b) && strictlyRising (b :: rest)
  | _ => true

/-- A hint from its 84 bytes, when they are in the one form that packing gives. -/
def unpackHint (l : List Byte) : Option (List (List Bool)) :=
  let y := l.map BitVec.toNat
  let ends := 0 :: (y.drop 80)
  let part := fun (i : Nat) => (y.drop (ends.getD i 0)).take (ends.getD (i + 1) 0 - ends.getD i 0)
  if (List.range 4).all (fun i => decide (ends.getD i 0 ≤ ends.getD (i + 1) 0) && decide (ends.getD (i + 1) 0 ≤ 80) && strictlyRising (part i))
      && ((y.take 80).drop (ends.getD 4 0)).all (· == 0) then
    some ((List.range 4).map fun i => (List.range 256).map fun j => (part i).contains j)
  else none

/-! ### Sampling -/

/-- Groups of three bytes. -/
def threes : List Byte → List Nat
  | a :: b :: c :: rest => (c.toNat % 128 * 65536 + b.toNat * 256 + a.toNat) :: threes rest
  | _ => []

/-- ExpandA: the 4 × 4 matrix in the NTT domain. -/
def expandA (rho : List Byte) : List (List Poly) :=
  (List.range 4).map fun r => (List.range 4).map fun s =>
    ((threes (shake128 (rho ++ [BitVec.ofNat 8 s, BitVec.ofNat 8 r]) 1344)).filter (· < mlQ)).take 256

/-- RejBoundedPoly with η = 2. -/
def boundedPoly (seed : List Byte) : Poly :=
  ((((shake256 seed 1088).flatMap fun b => [b.toNat % 16, b.toNat / 16]).filter (· < 15)).take 256).map fun b => modQ (2 - (b % 5 : Nat))

/-- ExpandS, and ExpandMask: four polynomials from a seed and a counter. -/
def expandS (rho : List Byte) (n : Nat) : List Poly := (List.range 4).map fun r => boundedPoly (rho ++ leBytes 2 (n + r))
def expandMask (rho : List Byte) (n : Nat) : List Poly := (List.range 4).map fun r => unpackMask (shake256 (rho ++ leBytes 2 (n + r)) 576)

/-- The places from i on in turn: a coefficient moves from the next sampled place no higher, which takes ±1. -/
def ballFrom (signs : Nat) : Nat → Nat → List Byte → Poly → Poly
  | 0, _, _, c => c
  | n + 1, i, l, c => match l.dropWhile fun b => decide (i < b.toNat) with
    | [] => c
    | b :: rest => ballFrom signs n (i + 1) rest ((c.set i (c.getD b.toNat 0)).set b.toNat (if signs / 2 ^ (i - 217) % 2 = 1 then mlQ - 1 else 1))

/-- SampleInBall with τ = 39. -/
def sampleInBall (seed : List Byte) : Poly :=
  let l := shake256 seed 1088
  ballFrom (leNat (l.take 8)) 39 217 (l.drop 8) (List.replicate 256 0)

/-! ### Keys and signatures -/

/-- A key pair: the public key's bytes and the secret values. -/
structure DsaKey where
  pub : List Byte
  rho : List Byte
  k : List Byte
  s1 : List Poly
  s2 : List Poly
  t0 : List Poly
  deriving DecidableEq, Repr

/-- ML-DSA.KeyGen_internal. -/
def dsaKey (seed : List Byte) : DsaKey :=
  let x := shake256 (seed ++ [4, 4]) 128
  let rho := x.take 32
  let s1 := expandS ((x.drop 32).take 64) 0
  let s2 := expandS ((x.drop 32).take 64) 4
  let t := List.zipWith polyAdd ((matVec (expandA rho) (s1.map ntt)).map nttBack) s2
  { pub := rho ++ (t.flatMap fun p => packPoly 10 (p.map fun r => (power2Round r).1)), rho := rho, k := x.drop 96, s1 := s1, s2 := s2
    t0 := t.map fun p => p.map fun r => (power2Round r).2 }

/-- The message with the empty context string, and its representative. -/
def dsaMu (pub m : List Byte) : List Byte := shake256 (shake256 pub 64 ++ [0, 0] ++ m) 64

/-- The high parts of a vector as bytes. -/
def packHigh (w : List Poly) : List Byte := w.flatMap fun p => packPoly 6 (p.map fun r => (decompose r).1)

/-- One attempt at a signature with the mask of a counter. -/
def dsaTry (key : DsaKey) (a : List (List Poly)) (mu seed : List Byte) (n : Nat) : Option (List Byte) :=
  let y := expandMask seed n
  let w := (matVec a (y.map ntt)).map nttBack
  let ct := shake256 (mu ++ packHigh w) 32
  let c := ntt (sampleInBall ct)
  let z := List.zipWith polyAdd y (timesVec c key.s1)
  let r := List.zipWith polySub w (timesVec c key.s2)
  let ct0 := timesVec c key.t0
  let h := List.zipWith (fun p q => List.zipWith (fun x y => (decompose ((x + y) % mlQ)).1 != (decompose x).1) p q) r ct0
  let low := (r.flatMap id).foldl (fun n x => max n (decompose x).2.natAbs) 0
  if 2 ^ 17 - 78 ≤ normOf z ∨ 95232 - 78 ≤ low ∨ 95232 ≤ normOf ct0 ∨ 80 < ((h.flatMap id).filter id).length then none
  else some (ct ++ z.flatMap packMask ++ packHint h)

def dsaFrom (key : DsaKey) (a : List (List Poly)) (mu seed : List Byte) : Nat → Nat → Option (List Byte)
  | 0, _ => none
  | f + 1, n => match dsaTry key a mu seed n with
    | some s => some s
    | none => dsaFrom key a mu seed f (n + 4)

/-- The deterministic signature of a message: 2420 bytes. -/
def mldsaSign (key : DsaKey) (m : List Byte) : List Byte :=
  let mu := dsaMu key.pub m
  (dsaFrom key (expandA key.rho) mu (shake256 (key.k ++ List.replicate 32 0 ++ mu) 64) 4096 0).getD (List.replicate 2420 0)

/-- Verification of a signature of a message under a public key. -/
def mldsaVerify (pub m sig : List Byte) : Bool :=
  let ct := sig.take 32
  let z := (List.range 4).map fun i => unpackMask ((sig.drop (32 + 576 * i)).take 576)
  match unpackHint ((sig.drop 2336).take 84) with
  | none => false
  | some h =>
    let c := ntt (sampleInBall ct)
    let t1 := (unpackVec 10 (pub.drop 32)).map fun p => p.map fun x => x * 8192 % mlQ
    let w := (List.zipWith polySub (matVec (expandA (pub.take 32)) (z.map ntt)) (t1.map fun p => polyMul c (ntt p))).map nttBack
    let high := List.zipWith (fun p b => packPoly 6 (List.zipWith (fun r x => useHint x r) p b)) w h
    pub.length == 1312 && sig.length == 2420 && decide (normOf z < 2 ^ 17 - 78) && shake256 (dsaMu pub m ++ high.flatMap id) 32 == ct

end Sys2Proof.Machine
end

