-- ==== Sys2Proof/Machine/Device.lean ====
section
/-! DEFINITION. Commands on the module and events of its ports, its power and temperature, its memory and its bring-up
(05_context R96 to R99; 06_queue R113, R114; 11_link R193 to R195, R204; 12_memory R211; 24_module R374 to R380). -/

namespace Sys2Proof.Machine

/-! ### Physical ranges -/

/-- The memory key of a physical range (R100, R179), when all of it exists. -/
def physRange (a n : Nat) : Option Nat :=
  if 2 ^ 63 ≤ a then some (hostKey (a - 2 ^ 63)) else if a + n ≤ hbmEnd then some a else none

/-- Bytes stored by the device from a key on, one write for each line. -/
def State.arriveRange : Nat → State → Nat → List Byte → State
  | 0, s, _, _ => s
  | fuel + 1, s, key, l =>
    if l.isEmpty then s
    else
      let k := 128 - key % 128
      State.arriveRange fuel (s.arrive key (l.take k) 0 [] 0) (key + k) (l.drop k)

def State.storeAt (s : State) (key : Nat) (l : List Byte) : State := s.arriveRange (l.length / 128 + 2) key l

/-- Every context is in one of these states. -/
def State.allCtx (s : State) (f : Nat → Bool) : Bool := (List.range 64).all fun c => f (s.ctx c).st

/-! ### Configuration -/

/-- The payload words of an image (R97, R377). -/
def payloadWords (image : List Byte) : List Nat :=
  (List.range (leNat (slice image 1316 4) / 4)).map fun i => leNat (slice image (1320 + 4 * i) 4)

/-- The lengths of an image agree (R97). -/
def imageLengths (image : List Byte) : Bool :=
  let n := leNat (slice image 1316 4)
  n % 4 == 0 && decide (n ≤ 65536) && image.length == 1320 + n + 2420

/-- The number of the first failed check of R97; 0 when all three pass. -/
def imageCheck (image : List Byte) : Nat :=
  let n := leNat (slice image 1316 4)
  if sha3 (slice image 0 1312) ≠ Config.bytesOf Config.vendorKeyHash 32 then 1
  else if leNat (slice image 1312 4) < Config.minVersion then 2
  else if !mldsaVerify (slice image 0 1312) (slice image 0 (1320 + n)) (slice image (1320 + n) 2420) then 3
  else 0

/-- A payload word in its range, its default when absent (Table 24-2). -/
def payloadWord (l : List Nat) (i lo hi dflt : Nat) : Option Nat :=
  match l[i]? with
  | none => some dflt
  | some x => if lo ≤ x ∧ x ≤ hi then some x else none

/-- The module with an accepted payload; none for a word out of range (R377). -/
def Module.configure (m : Module) (l : List Nat) : Option Module :=
  match payloadWord l 0 4000 16000 16000, payloadWord l 1 80 105 100, payloadWord l 2 1 168 24 with
  | some p, some t, some h =>
    if (l.drop 3).all (· == 0) then some { m with plim := BitVec.ofNat 32 p, tthrot := BitVec.ofNat 32 t, scrub := BitVec.ofNat 32 h } else none
  | _, _, _ => none

/-- R97, R377. Checks a signed configuration image and applies its payload. -/
def execCfgLoad (ring : Nat) (st : State) : Res :=
  command st ring { opc := 0x08, masks := [allBits, allBits], sys := true, noCtx := true,
                    range := fun w => (physRange (w.getD 1 0).toNat (w.getD 2 0).toNat).isSome && decide ((w.getD 2 0).toNat ≤ 1320 + 65536 + 2420) }
    fun s o =>
      let key := (physRange (o.op 1).toNat (o.op 2).toNat).getD 0
      let image := s.bytes key (o.op 2).toNat
      some (if !s.allCtx (· == 0) then s.done o 1 0
        else if !imageLengths image then s.done o 3 0
        else if imageCheck image ≠ 0 then s.done o 5 (imageCheck image)
        else match s.mod.configure (payloadWords image) with
          | none => s.done o 3 0
          | some m => ({ s with mod := { m with cfgver := BitVec.ofNat 32 (leNat (slice image 1312 4)), cfgm := sha3 image } }).done o 0 0)

/-! ### Checkpoints -/

/-- Entries of a table of bytes moved from one range to another, in place of what the destination held. -/
def moveRange (m : Table Byte) (src dst n : Nat) : Table Byte :=
  (m.filter fun (k, _) => decide (src ≤ k) && decide (k < src + n)).foldl (fun t x => writeAt memDefault t (x.1 - src + dst) x.2)
    (m.filter fun (k, _) => !(decide (dst ≤ k) && decide (k < dst + n)))

/-- A range at which no write is pending and no lease or write completion time lies ahead (R221). -/
def State.rangeQuiet (s : State) (key n : Nat) : Bool :=
  s.pend.all (fun w => decide (w.key + w.bytes.length ≤ key) || decide (key + n ≤ w.key))
    && s.emax.all (fun (k, e) => decide (k + 128 ≤ key) || decide (key + n ≤ k) || decide (e + 4 ≤ s.now))
    && s.tlast.all fun (k, t) => decide (k + 128 ≤ key) || decide (key + n ≤ k) || decide (t + 1 ≤ s.now)

/-- The save area of a cluster (R378): 64 MiB behind the frame entries of its die. -/
def saveArea (cluster : Nat) : Nat := dieOfCluster cluster * 2 ^ 36 + 2 ^ 23 + cluster % 8 * 2 ^ 26

/-- The save area of a core's cluster. -/
def savePart (core : Nat) : Nat := saveArea (clusterOfCore core)

/-- The scratchpad offset of a memory key in a team's allocation. -/
def Team.offsetOf (t : Team) (k : Nat) : Option Nat :=
  (List.range t.banks.length).findSome? fun i =>
    let at_ := scratchKey t.cluster (t.banks.getD i 0) 0
    if at_ ≤ k ∧ k < at_ + 2 ^ 19 ∧ i * 2 ^ 19 + (k - at_) < t.scratch then some (i * 2 ^ 19 + (k - at_)) else none

/-- What a team's scratchpad holds of a table by memory key, by offset. -/
def Team.part (t : Team) (l : Table α) : Table α := l.filterMap fun (k, x) => (t.offsetOf k).map (·, x)

/-- A table by memory key without what a team's scratchpad holds. -/
def Team.others (t : Team) (l : Table α) : Table α := l.filter fun (k, _) => (t.offsetOf k).isNone

/-- A saved group as the save area holds it, with its tiles, its commands on the millrace and its commands in the sluice (R157). -/
def State.keptGroup (s : State) (gid : Nat) (g : Group) : Carried :=
  { host := 0, home := savePart g.core, len := 2 ^ 26
    what := .group gid g (s.tiles.filter fun (k, _) => k / 16 == gid) ((s.coreSt g.core).race.filter fun (_, m) => m.gid == gid)
      (s.engines.filter fun (_, e) => e.gid == gid) }

/-- A team as the save area holds it: its pennants and its task pool, its scratchpad with the full bits (R177). -/
def State.keptTeam (s : State) (tid : Nat) (t : Team) : Carried :=
  { host := 0, home := saveArea t.cluster, len := 2 ^ 26, what := .team tid t (t.part s.mem) (t.part s.full) }

/-- The pieces of the device-reserved region (R378): saved groups and their teams, the frame entries of each die, and the links of the free
lists, which lie among them. -/
def State.pieces (s : State) : List Carried :=
  ((s.groups.filter fun (_, g) => g.st == .saved).map fun (gid, g) => s.keptGroup gid g)
    ++ (s.teams.map fun (tid, t) => s.keptTeam tid t)
    ++ ((List.range 24).map fun d =>
      { host := 0, home := d * 2 ^ 36, len := 2 ^ 23, what := .entries d (s.frames.filter fun (f, _) => f / 2 ^ 20 == d) })
    ++ [{ host := 0, home := 0, len := 23 * 2 ^ 36 + 2 ^ 23, what := .lists s.dieFree s.pools }]

/-- What a save of `n` bytes of HBM carries to host memory, in place of what an earlier one left there. -/
def State.carry (s : State) (hbm host n : Nat) : State :=
  { s with carried := (s.carried.filter fun c => decide (c.host + c.len ≤ host) || decide (host + n ≤ c.host))
      ++ (s.pieces.filter fun c => decide (hbm ≤ c.home) && decide (c.home + c.len ≤ hbm + n)).map fun c => { c with host := host + (c.home - hbm) } }

/-- A table with the entries of a list put into it. -/
def putAllIn (t : Table α) (l : Table α) : Table α := l.foldl (fun t (x : Nat × α) => putAt t x.1 x.2) t

/-- A team is still there, of a Halted context: what a restore writes into its save area is what its context resumes with (R113, R177). -/
def State.heldTeam (s : State) (tid ctx : Nat) : Option Team :=
  (lookup s.teams tid).filter fun t => t.ctx == ctx && (s.ctx ctx).st == 3

/-- One piece back in its place. A group's takes the place of what that group saved later, a team's of what its team holds (log 47). -/
def State.putBack (s : State) (k : Kept) : State :=
  match k with
  | .group gid g tiles race engines =>
    if (s.heldTeam g.team g.ctx).isNone then s
    else
      let c := s.coreSt g.core
      let s := { s with tiles := putAllIn (s.tiles.filter fun (i, _) => i / 16 != gid) tiles
                        engines := putAllIn (s.engines.filter fun (_, e) => e.gid != gid) engines }
      (s.putGroup gid g).putCore g.core { c with race := putAllIn (c.race.filter fun (_, m) => m.gid != gid) race }
  | .team tid t bytes full => match s.heldTeam tid t.ctx with
    | none => s
    | some now =>
      { s with teams := putAt s.teams tid { t with cluster := now.cluster, banks := now.banks, scratch := now.scratch }
               mem := bytes.foldl (fun m x => writeAt memDefault m (now.scratchAt x.1) x.2) (now.others s.mem)
               full := full.foldl (fun m x => writeAt false m (now.scratchAt x.1) x.2) (now.others s.full) }
  | .entries die l => { s with frames := putAllIn (s.frames.filter fun (f, _) => f / 2 ^ 20 != die) l }
  | .lists dies pools => { s with dieFree := dies, pools := pools }

/-- A restore of `n` bytes puts back the pieces that it writes whole, at the place they came from. -/
def State.putBackAll (s : State) (host hbm n : Nat) : State :=
  (s.carried.filter fun c => decide (host ≤ c.host) && decide (c.host + c.len ≤ host + n) && c.home == hbm + (c.host - host)).foldl
    (fun s c => s.putBack c.what) s

/-- A byte of a frame's entry, which HBM holds from the start of its die's region (R182, R378). -/
def State.entryByte (s : State) (k : Nat) : Byte :=
  (leBytes 8 (s.frameImage (k / 2 ^ 36 * 2 ^ 20 + k % 2 ^ 36 / 8)).toNat).getD (k % 8) 0

/-- The bytes that the device-reserved region holds in a range of HBM, by key: the frame entries, and free values in the save area of a
cluster with a team, whose layout the spec does not give (R378; log 47). -/
def State.regionBytes (s : State) (hbm n : Nat) : List (Nat × Byte) :=
  ((List.range 24).flatMap fun d =>
    let lo := max hbm (d * 2 ^ 36)
    (List.range (min (hbm + n) (d * 2 ^ 36 + 2 ^ 23) - lo)).map fun i => (lo + i, s.entryByte (lo + i)))
  ++ s.teams.flatMap fun (_, t) =>
    let lo := max hbm (saveArea t.cluster)
    (List.range (min (hbm + n) (saveArea t.cluster + 2 ^ 26) - lo)).map fun i => (lo + i, BitVec.ofNat 8 (Config.free (s.fresh + (lo + i - hbm))))

/-- Host memory after a save (R113): the bytes of HBM, with what the device-reserved region holds. -/
def State.savedTo (s : State) (hbm host n : Nat) : State :=
  { s with mem := (s.regionBytes hbm n).foldl (fun m x => writeAt memDefault m (host + (x.1 - hbm)) x.2) (moveRange s.mem hbm host n)
           fresh := s.fresh + n }

/-- CKPT (R113): bytes copied between HBM and host memory while every context is Free, Created or Halted, and with them what the
device-reserved region holds (R157, R177, R182). It waits for chunks that a halt has detached (log 47). All 64 bits of OP1 are the host address
(DESIGN CHOICE, log 78). -/
def checkpoint (st : State) (ring : Nat) (restore : Bool) : Res :=
  command st ring { opc := 0x22, pick := fun w => (w.getD 4 0).getLsbD 0 == restore, masks := [allBits, allBits, allBits, 1], sys := true, noCtx := true,
                    range := fun w => [1, 2, 3].all (fun i => (w.getD i 0).toNat % 65536 == 0) && decide ((w.getD 2 0).toNat + (w.getD 3 0).toNat ≤ hbmEnd) }
    fun s o =>
      let n := (o.op 3).toNat
      let host := hostKey (o.op 1).toNat
      let hbm := (o.op 2).toNat
      if !s.allCtx fun c => c == 0 || c == 1 || c == 3 then some (s.done o 1 0)
      else if !s.rangeQuiet hbm n || !s.rangeQuiet host n || !s.chunks.isEmpty then none
      else if restore then some (({ s with mem := moveRange s.mem host hbm n
                                           bad := s.bad.filter fun (k, _) => !(decide (hbm ≤ k) && decide (k < hbm + n)) }.putBackAll host hbm n).done o 0 0)
      else some (((s.carry hbm host n).savedTo hbm host n).done o 0 0)

/-- R113. Copies an HBM range to host memory. -/
def execCkptSave (ring : Nat) (st : State) : Res := checkpoint st ring false

/-- R113. Copies a host memory range to HBM; no context changes state. -/
def execCkptRestore (ring : Nat) (st : State) : Res := checkpoint st ring true

/-! ### Attestation -/

/-- The report of Table 5-3. -/
def State.report (s : State) (ctx : Nat) (nonce : List Byte) : List Byte :=
  leBytes 4 1 ++ leBytes 4 ctx ++ leBytes 8 s.now ++ nonce ++ s.mod.romm ++ s.mod.cfgm ++ leBytes 4 s.mod.cfgver.toNat ++ (s.ctx ctx).kernM
    ++ leBytes 4 (s.ctx ctx).kcount ++ List.replicate 104 0

/-- The identity key, which bring-up derives from the fused seed (R96, R378). -/
def identity : DsaKey := dsaKey (Config.bytesOf Config.fusedSeed 32)

/-- R99, R106. Writes the report, its signature and the public key. -/
def execAttest (ring : Nat) (st : State) : Res :=
  command st ring { opc := 0x23, masks := [allBits, allBits], sys := true, states := living } fun s o =>
    some (match s.readMany o.ctx (o.op 1).toNat 32 with
      | (s, none) => s.done o 8 0
      | (s1, some nonce) =>
        let r := s1.report o.ctx nonce
        match s1.writeMany o.ctx (o.op 2).toNat (r ++ mldsaSign identity r ++ identity.pub) with
        | none => s1.done o 8 0
        | some s2 => s2.doneStored o 0 0)

/-! ### The summary -/

/-- The groups that the summary reports (R114, R132). -/
def State.reported (s : State) : List (Nat × Group) := s.groups.filter fun (_, g) => g.st != .ended

/-- Bytes of the whole summary (R114). -/
def State.summarySize (s : State) : Nat := 64 + 64 * 64 + 1028 * 32 + s.reported.length * 16 + 18 * 16 + 64

/-- The header region. -/
def State.summaryHeader (s : State) : List Byte :=
  leBytes 8 1 ++ leBytes 8 s.now ++ leBytes 8 s.summarySize ++ leBytes 8 s.reported.length ++ leBytes 8 s.mod.cfgver.toNat ++ List.replicate 24 0

/-- A context's entry. -/
def Context.entry (x : Context) : List Byte :=
  leBytes 1 x.st ++ leBytes 1 (if x.sys then 1 else 0) ++ leBytes 2 x.faultNext ++ leBytes 4 x.poolId ++ List.replicate 24 0
    ++ (x.lastFault ++ List.replicate 32 0).take 32

/-- A ring's entry. -/
def Ring.entry (x : Ring) : List Byte :=
  leBytes 1 x.st ++ leBytes 1 x.prio ++ List.replicate 6 0 ++ leBytes 8 x.head ++ leBytes 8 x.done ++ leBytes 8 x.tail

/-- A group's entry. -/
def Group.summary (g : Group) : List Byte :=
  leBytes 2 g.ctx ++ leBytes 2 g.kern ++ leBytes 4 g.grpid ++ leBytes 2 g.slot ++ leBytes 2 g.st.code ++ leBytes 4 g.core

/-- A port's entry. -/
def Port.entry (x : Port) : List Byte := leBytes 4 x.st ++ leBytes 4 x.peer ++ leBytes 8 x.timeouts

/-- The fewest spare row retirements left on any stack (R380). -/
def Module.sparesLeft (m : Module) : Nat := m.spares.foldl (fun n x => min n (1024 - x.2)) 1024

/-- The counters. -/
def Module.counters (m : Module) : List Byte :=
  leBytes 8 m.cmdsDone.toNat ++ leBytes 8 m.eccFixed.toNat ++ leBytes 8 m.eccBad.toNat ++ leBytes 8 m.linkTimeouts.toNat
    ++ leBytes 8 m.sparesLeft ++ List.replicate 24 0

/-- The regions of R114 in order. -/
def State.summary (s : State) : List Byte :=
  s.summaryHeader ++ ((List.range 64).flatMap fun c => (s.ctx c).entry) ++ ((List.range 1028).flatMap fun r => (s.ring r).entry)
    ++ (s.reported.flatMap fun (_, g) => g.summary) ++ ((List.range 18).flatMap fun p => (s.port p).entry) ++ s.mod.counters

/-- R114. Writes the summary; only its header, with status 4, when the capacity is too small. -/
def execSyncAll (ring : Nat) (st : State) : Res :=
  command st ring { opc := 0x3F, masks := [allBits, allBits], sys := true, noCtx := true,
                    range := fun w => (physRange (w.getD 1 0).toNat (w.getD 2 0).toNat).isSome } fun s o =>
    let key := (physRange (o.op 1).toNat (o.op 2).toNat).getD 0
    some (if (o.op 2).toNat < s.summarySize then (s.storeAt key s.summaryHeader).doneStored o 4 64
      else (s.storeAt key s.summary).doneStored o 0 s.summarySize)

/-! ### Ports -/

/-- What is in flight on a port ends at once (R195, R201, R203): its chunks, and the accesses and stores of threads. -/
def State.dropPort (s : State) (p : Nat) : State :=
  let s1 := (s.chunks.filter fun (_, c) => c.ports.contains p && !c.failed && !c.mapped).foldl (fun s x => s.failChunk x.1 x.2 (some p)) s
  let s2 := (s.accesses.filter fun (_, a) => a.port == some p).foldl (fun s x => s.failAccess x.1 x.2 0x0F) s1
  let s3 := (s.results.filter fun (_, r) => r.port == some p && r.fail == 0).foldl (fun s x => s.failAnswer x.1 x.2) s2
  (s.replies.filter fun (_, r) => r.port == some p && r.via.isNone).foldl (fun s x => s.failReply x.1 x.2) s3

/-- A port leaves Up for a state: what is in flight on it ends first, so that it is counted there. -/
def State.leaveUp (s : State) (p : Nat) (st : Nat) (on : Bool) : State :=
  let s := s.dropPort p
  s.putPort p { s.port p with st := st, enable := on, replays := 0, began := s.now }

/-- R195. ENABLE written. -/
def execPortEnableWrite (port : Nat) (on : Bool) (st : State) : Res :=
  let x := st.port port
  if 18 ≤ port then .next st
  else if on then
    (if x.st = 0 ∨ x.st = 4 then .next (st.putPort port { x with st := 1, enable := true, fails := 0, replays := 0, began := st.now }) else .next st)
  else if x.st = 2 then .next (st.leaveUp port 0 false)
  else .next (st.putPort port { x with st := 0, enable := false })

/-- R195. Training succeeds within 100 µs: the modules exchange their MODIDs, TOFF is measured and the port is Up. -/
def execPortTrainingSuccess (port peer : Nat) (toff : Quad) (st : State) : Res :=
  let x := st.port port
  if x.st ≠ 1 ∨ x.began + 100000 < st.now then .next st
  else .next (st.putPort port { x with st := 2, peer := peer % 4096, toff := toff, fails := 0, replays := 0, heard := st.now, seq := 0
                                       own := st.mod.modid })

/-- R195. Training fails: the third time in a row the port is Failed; otherwise it passes through Retraining and trains again. -/
def execPortTrainingFailure (port : Nat) (st : State) : Res :=
  let x := st.port port
  if x.st ≠ 1 then .next st else .next (st.putPort port { x with st := if x.fails + 1 < 3 then 1 else 4, fails := x.fails + 1, began := st.now })

/-- R195. No flit for 1 µs: the port leaves Up, passes through Retraining and trains again. -/
def execPortLinkLoss (port : Nat) (st : State) : Res :=
  let x := st.port port
  if x.st = 2 ∧ x.heard + 1000 ≤ st.now then .next (st.leaveUp port 1 true) else .next st

/-- R195. The eighth replay in a row of one flit: the port leaves Up, passes through Retraining and trains again. -/
def execPortReplayLimit (port : Nat) (st : State) : Res :=
  let x := st.port port
  if x.st = 2 ∧ 8 ≤ x.replays then .next (st.leaveUp port 1 true) else .next st

/-- R194. A flit arrives; one with a bad CRC is replayed from its sequence number, so that the port still waits for that number. A port that
has to leave Up does so, and takes no flit (R195). -/
def execFlitReceive (port : Nat) (good : Bool) (st : State) : Res :=
  let x := st.port port
  if x.st ≠ 2 then .next st
  else if x.silent st.now then .next (st.leaveUp port 1 true)
  else .next (st.putPort port { x with
    heard := st.now, seq := if good then x.seq + 1 else x.seq, replays := if good then 0 else x.replays + 1 })

/-- R194. The port sends an idle flit. -/
def execIdleFlit (port : Nat) (st : State) : Res :=
  if !(st.port port).up st.now then .next st
  else .next { st with mod := { st.mod with idles := writeAt 0 st.mod.idles port (readAt 0 st.mod.idles port + 1) } }

/-- An answer to a peer, with a module time in it where it has one (R197). -/
def State.answer (s : State) (port : Nat) (l : List Byte) (err : Bool) (time : Option Nat := none) : State :=
  { s with mod := { s.mod with answers := s.mod.answers ++ [{ port := port, bytes := l, err := err, time := time }] } }

/-- A write of a peer's agent at its home here, which its own reads see before its T_wc (R225); answered with that time (R221). -/
def State.peerWrite (s : State) (port who key : Nat) (bytes answer : List Byte) : State :=
  let t := s.arrive key bytes 0 [] 0
  { t with pend := t.pend.map fun w => if s.pend.contains w then w else { w with seen := [(port, who)] } }.answer port answer false
    (some (s.twcOf key bytes.length 0))

/-- A read of a peer's agent at its home here (R221): its own writes that are not yet visible, without a lease (R225), or what every agent sees,
with a lease of 16 µs where one is left and its expiry. -/
def State.peerRead (s : State) (port who key n : Nat) : State :=
  let own := fun (w : Pending) => w.seen.contains (port, who)
  if s.pend.any fun w => own w && overlaps w.key w.bytes.length key n then
    s.answer port ((List.range n).map fun i => overlay own (key + i) s.pend (s.byte (key + i))) false
  else match s.lease (lineOf key) 16000 with
    | none => s.answer port (s.bytes key n) false
    | some e => (s.grantLease (lineOf key) e).answer port (s.bytes key n) false (some e)

/-- The atomic operations of R331 by the kinds 2 to 13 of a peer's request. -/
def peerAtom : List AtomOp := [.add, .minI, .maxI, .minN, .maxN, .and, .or, .xor, .exch, .cas, .addW, .fadd]

/-- The size and the new value of an atomic request of a peer: `bytes` hold its operands x and y, 8 bytes each, or the element of a
COPYR (R200, R331). -/
def peerNew (kind : Nat) (bytes : List Byte) : Nat × (List Byte → List Byte) :=
  if kind < 14 then
    let op := peerAtom.getD (kind - 2) .add
    (op.bytes, fun old => leBytes op.bytes (atomNew op (BitVec.ofNat 64 (leNat old)) (BitVec.ofNat 64 (leNat (bytes.take 8)))
      (BitVec.ofNat 64 (leNat (bytes.drop 8)))).toNat)
  else
    let n := if kind = 16 then 2 else 4
    (n, fun old => leBytes n (reduce (kind - 14) (leNat old) (leNat (bytes.take n))))

/-- R201, R204, R221, R223, R225. A request from a peer is served at its home: a read (kind 0) of as many bytes as it brings, with a lease of
16 µs; a write (kind 1), answered with its T_wc; an atomic or a reduction (2 to 18), answered with the old value and its T_wc. It is answered
with an error, and has no effect, when ACCEPT is 0, where there is no memory, and for data beyond correction. `code` is the kind, plus 32
times who asks: twice the peer's number of its thread, or twice that of its chunk plus 1 (log 49). Kind 19 aborts a chunk: its later writes
are discarded. -/
def execPeerRequest (port addr code : Nat) (bytes : List Byte) (st : State) : Res :=
  let x := st.port port
  let kind := code % 32
  let who := code / 32
  let n := if kind < 2 then bytes.length else (peerNew kind bytes).1
  if !x.up st.now then .next st
  else if kind = 19 then .next { st with mod := { st.mod with aborted := st.mod.aborted ++ [(port, who)] } }
  else if kind ≠ 0 ∧ who % 2 = 1 ∧ st.mod.aborted.contains (port, who) then .next st
  else if st.migratingAt addr then .next st
  else if !x.accept ∨ hbmEnd < addr + n then .next (st.answer port [] true)
  else if kind ≠ 1 ∧ st.badIn addr n then .next ((st.countBad true).answer port [] true)
  else if kind = 0 then .next (st.peerRead port who addr n)
  else if kind = 1 then .next (st.peerWrite port who addr bytes [])
  else .next (st.peerWrite port who addr ((peerNew kind bytes).2 (st.latestBytes addr n)) (st.latestBytes addr n))

/-- R193. A boundary that delivers nothing is routed around, and counted. -/
def execD2dBoundaryTimeout (boundary : Nat) (st : State) : Res :=
  .next { st with mod := { st.mod with
    around := if st.mod.around.contains boundary then st.mod.around else st.mod.around ++ [boundary]
    linkTimeouts := st.mod.linkTimeouts + 1 } }

/-! ### Power and temperature -/

/-- R376. A junction at 115 °C trips the module: every Active context halts and fetching stops; a second trip during one changes nothing. -/
def State.trip (s : State) (temp : Nat) : State :=
  if s.mod.tripped ∨ temp < 115 then s
  else (List.range 64).foldl (fun s c => if (s.ctx c).st = 2 then s.beginHalt c id else s)
    { s with mod := { s.mod with tripped := true, trips := s.mod.trips + 1 } }

/-- The power of the module at another duty stays at or below PLIM: `matrix` is what its matrix engines take at full duty, and d of 64 of that at
duty d (R375; DEDUCED, log 49). Duties count as d − 1. -/
def dutyHolds (now matrix power plim d : Nat) : Bool := decide (64 * power + matrix * (d + 1) ≤ 64 * plim + matrix * (now + 1))

/-- The duty after a measurement (R375, R376), d − 1: the largest that keeps power at or below PLIM, 1 where none does; at or above TTHROT d falls
by 1 whatever PLIM allows. -/
def nextDuty (now matrix power plim : Nat) (hot : Bool) : Nat :=
  let d := ((List.range 64).filter (dutyHolds now matrix power plim)).foldl max 0
  if hot then min d (now - 1) else d

/-- R375, R376. The controller's measurement: power in W and the hottest junction, with what the matrix engines would take at full duty, in W. -/
def execPowerMeasurement (power temp matrix : Nat) (st : State) : Res :=
  let hot := decide (st.mod.tthrot.toNat ≤ temp)
  .next ({ st with mod := { st.mod with
    power := BitVec.ofNat 16 (power / 10), temp := BitVec.ofNat 8 temp, throt := hot
    duty := BitVec.ofNat 6 (nextDuty st.mod.duty.toNat matrix power st.mod.plim.toNat hot) } }.trip temp)

/-- R376. A junction reaches 115 °C. -/
def execThermalTrip (temp : Nat) (st : State) : Res :=
  if st.mod.tripped ∨ temp < 115 then .next st
  else .next ({ st with mod := { st.mod with temp := BitVec.ofNat 8 temp, throt := decide (st.mod.tthrot.toNat ≤ temp) } }.trip temp)

/-- R376. Every junction is below 95 °C: fetching resumes; contexts stay as they are. -/
def execThermalTripClear (st : State) : Res :=
  if st.mod.tripped ∧ st.mod.temp.toNat < 95 then .next { st with mod := { st.mod with tripped := false } } else .next st

/-- What lies outside the module: host and peer memory. -/
def State.outside (s : State) : Table Byte :=
  (s.pend.foldl (fun m w => writeBytes m w.key w.bytes) s.mem).filter fun (k, _) => decide (2 ^ 68 ≤ k)

/-- The supply lies in its range (R374). -/
def supplied (volts : Nat) : Bool := decide (48 ≤ volts) && decide (volts ≤ 58)

/-- R374. The supply changes. Out of 48 V to 58 V the module resets without saving state, and stays in reset until the supply is back. -/
def execSupplyOutOfRange (volts : Nat) (st : State) : Res :=
  if supplied volts then .next { st with mod := { st.mod with volts := volts } }
  else .next { State.reset with
    agenda := st.agenda, stamp := st.stamp, fresh := st.fresh, mem := st.outside, carried := st.carried
    mod := { Module.reset with volts := volts } }

/-- The frames of a die that bring-up places on its free list (R378). -/
def freeSpans : Table (List Span) :=
  (List.range 24).map fun d => (d, [(d * 2 ^ 20 + reservedFrames, 2 ^ 20 - reservedFrames)])

/-- R378. Bring-up: the ROM measurement, the frame entries and free lists, the modes and states of reset, module time 0 and READY. The
system rings keep what system software wrote to RBASE, CBASE and LOG2N. -/
def execBringUp (st : State) : Res :=
  if st.mod.ready ∨ !supplied st.mod.volts then .next st
  else .next { State.reset with
    agenda := st.agenda, stamp := st.stamp, fresh := st.fresh, rings := st.rings, carried := st.carried
    mem := st.pend.foldl (fun m w => writeBytes m w.key w.bytes) st.mem
    dieFree := freeSpans
    mod := { Module.reset with volts := st.mod.volts, romm := Config.bytesOf Config.romHash 32, ready := true } }

/-! ### Memory errors -/

/-- One row of a die at its fourth corrected error (R380): retired, its frames to migrate, when a spare is left. -/
def Module.retireRow (m : Module) (die row : Nat) : Module :=
  let k := die * 2 ^ 32 + row
  let used := readAt 0 m.spares die
  if readAt 0 m.rowErrs k < 4 ∨ m.retired.contains k then m
  else if 1024 ≤ used then { m with sparex := true }
  else { m with
    spares := writeAt 0 m.spares die (used + 1), retired := m.retired ++ [k], sparex := m.sparex || decide (1024 ≤ used + 1)
    migrate := m.migrate ++ (Config.rowFrames die row).filter fun f => !m.migrate.contains f }

/-- The corrected errors of one scrub period on a die: `rows` names the row of each (R380). -/
def Module.scrubbed (m : Module) (die : Nat) (sectors rows : List Nat) : Module :=
  let kept := m.rowErrs.filter fun (k, _) => k / 2 ^ 32 != die
  let errs := rows.foldl (fun t r => writeAt 0 t (die * 2 ^ 32 + r) (readAt 0 t (die * 2 ^ 32 + r) + 1)) kept
  let m := { m with rowErrs := errs, eccFixed := m.eccFixed + BitVec.ofNat 64 rows.length, eccBad := m.eccBad + BitVec.ofNat 64 sectors.length }
  rows.eraseDups.foldl (fun m r => m.retireRow die r) m

/-- A scrub of a die's stack is due: SCRUB hours have passed since its last, or since reset (R380). -/
def State.scrubDue (s : State) (die : Nat) : Bool := decide (readAt 0 s.mod.scrubAt die + s.mod.scrub.toNat * 3600000000000 ≤ s.now)

/-- R379, R380. A scrub of a die's stack, once every SCRUB hours: errors corrected on rows, and sectors found beyond correction. -/
def execHbmScrub (die : Nat) (sectors rows : List Nat) (st : State) : Res :=
  if !st.scrubDue die then .next st
  else .next { st with
    mod := { st.mod.scrubbed die sectors rows with scrubAt := writeAt 0 st.mod.scrubAt die st.now }
    bad := sectors.foldl (fun t k => writeAt false t (k / 32 * 32) true) st.bad }

/-- R379, R380. An error met and corrected: counted, on its row as well. -/
def State.corrected (s : State) (row : Option (Nat × Nat)) : State :=
  let m := { s.mod with eccFixed := s.mod.eccFixed + 1 }
  { s with mod := match row with
      | none => m
      | some (die, r) =>
        let k := die * 2 ^ 32 + r
        { m with rowErrs := writeAt 0 m.rowErrs k (readAt 0 m.rowErrs k + 1) }.retireRow die r }

/-- R379. What holds a byte of memory takes an error beyond correction: a word of the scratchpad, or a sector. -/
def State.flawed (s : State) (key : Nat) : State := { s with bad := writeAt false s.bad (key / eccUnit key * eccUnit key) true }

/-- R379. The word at an offset of a cached copy takes an error beyond correction. -/
def State.flawedCopy (s : State) (k off : Nat) : State := match lookup s.copies k with
  | none => s
  | some c => if 128 ≤ off ∨ c.flaws.contains (off / 8 * 8) then s
    else { s with copies := putAt s.copies k { c with flaws := c.flaws ++ [off / 8 * 8] } }

/-- R379, R151. An error beyond correction in a group's own state ends the group with a context fault record of code 0x14. -/
def State.damaged (s : State) (gid : Nat) : State :=
  match lookup s.groups gid with
  | none => s
  | some g => if g.st = .ended ∨ g.dead then s
    else (s.countBad true).endByFault gid ((g.threads.map Prod.fst).headD 0) 0x14 0

/-! ### Bank modes -/

/-- A bank entering scratchpad mode is cleared: its bytes are zero, its granules empty (R208). -/
def State.clearBank (s : State) (c b : Nat) : State :=
  let off := fun (k : Nat) => !(decide (scratchKey c b 0 ≤ k) && decide (k < scratchKey c b (2 ^ 19)))
  { s with mem := s.mem.filter fun (k, _) => off k, full := s.full.filter fun (k, _) => off k, bad := s.bad.filter fun (k, _) => off k }

/-- R211. The oldest request of a cluster takes its turn: it is refused, finds its mode in effect, or takes effect. -/
def execBankModeChange (cluster : Nat) (st : State) : Res :=
  let c := st.cluster cluster
  match c.changes with
  | [] => .next st
  | (gid, tid, b, m) :: rest =>
    let old := c.mode b
    if bankRefused st c b m then
      .next ({ st with clusters := putAt st.clusters cluster { c with changes := rest } }.onThread gid tid fun t => { t with bankRef := true })
    else if old = m then .next { st with clusters := putAt st.clusters cluster { c with changes := rest } } else
    let c := { c with changes := rest, modes := writeAt (bankReset b) c.modes b m }
    let s := { st with clusters := putAt st.clusters cluster c }
    let s := if old = 0 ∨ m = 0 then { s with copies := s.copies.filter fun (_, x) => decide (x.cache ≠ .cluster cluster) } else s
    .next (if m = 1 then s.clearBank cluster b else s)

end Sys2Proof.Machine
end

