-- ==== Sys2Proof/Machine/Dispatch.lean ====
section
/-! DEFINITION. What each step of the opcode table does: one arm per row, one direct call of its meaning. -/

namespace Sys2Proof.Machine

/-- The meaning of a row of the opcode table at a state. -/
def exec (i : Instr) (s : State) : Host.Outcome State Fault Refusal :=
  match i with
  | .tailWrite ring val => Sys2Proof.Machine.execTailWrite ring val s
  | .ringRegisterWrite ring off val => Sys2Proof.Machine.execRingRegisterWrite ring off val s
  | .contextRegisterWrite ctx off val => Sys2Proof.Machine.execContextRegisterWrite ctx off val s
  | .portEnableWrite port on => Sys2Proof.Machine.execPortEnableWrite port on s
  | .registerWrite bar off val => Sys2Proof.Machine.execRegisterWrite bar off val s
  | .commandFetch ring => Sys2Proof.Machine.execCommandFetch ring s
  | .completionRecordWrite ring => Sys2Proof.Machine.execCompletionRecordWrite ring s
  | .ctxCreate ring => Sys2Proof.Machine.execCtxCreate ring s
  | .ctxDestroy ring => Sys2Proof.Machine.execCtxDestroy ring s
  | .qCreate ring => Sys2Proof.Machine.execQCreate ring s
  | .qCtlPause ring => Sys2Proof.Machine.execQCtlPause ring s
  | .qCtlResume ring => Sys2Proof.Machine.execQCtlResume ring s
  | .qCtlDestroy ring => Sys2Proof.Machine.execQCtlDestroy ring s
  | .map ring => Sys2Proof.Machine.execMap ring s
  | .unmap ring => Sys2Proof.Machine.execUnmap ring s
  | .poolCreate ring => Sys2Proof.Machine.execPoolCreate ring s
  | .cfgLoad ring => Sys2Proof.Machine.execCfgLoad ring s
  | .kernLoad ring => Sys2Proof.Machine.execKernLoad ring s
  | .kernUnload ring => Sys2Proof.Machine.execKernUnload ring s
  | .launch ring => Sys2Proof.Machine.execLaunch ring s
  | .graphRecord ring => Sys2Proof.Machine.execGraphRecord ring s
  | .graphEnd ring => Sys2Proof.Machine.execGraphEnd ring s
  | .graphReplay ring => Sys2Proof.Machine.execGraphReplay ring s
  | .gparamSet ring => Sys2Proof.Machine.execGparamSet ring s
  | .preempt ring => Sys2Proof.Machine.execPreempt ring s
  | .resume ring => Sys2Proof.Machine.execResume ring s
  | .ckptSave ring => Sys2Proof.Machine.execCkptSave ring s
  | .ckptRestore ring => Sys2Proof.Machine.execCkptRestore ring s
  | .attest ring => Sys2Proof.Machine.execAttest ring s
  | .dbgStop ring => Sys2Proof.Machine.execDbgStop ring s
  | .dbgStep ring => Sys2Proof.Machine.execDbgStep ring s
  | .dbgSteppass ring => Sys2Proof.Machine.execDbgSteppass ring s
  | .dbgStepbin ring => Sys2Proof.Machine.execDbgStepbin ring s
  | .dbgCont ring => Sys2Proof.Machine.execDbgCont ring s
  | .syncAll ring => Sys2Proof.Machine.execSyncAll ring s
  | .teamAdmission cluster => Sys2Proof.Machine.execTeamAdmission cluster s
  | .passStart gid => Sys2Proof.Machine.execPassStart gid s
  | .passEnd gid pid => Sys2Proof.Machine.execPassEnd gid pid s
  | .tokenResultWrite k => Sys2Proof.Machine.execTokenResultWrite k s
  | .fantailSweep gid => Sys2Proof.Machine.execFantailSweep gid s
  | .barrierDeadlock gid => Sys2Proof.Machine.execBarrierDeadlock gid s
  | .groupEnd gid => Sys2Proof.Machine.execGroupEnd gid s
  | .taskTake core => Sys2Proof.Machine.execTaskTake core s
  | .gatherTimeout team buf => Sys2Proof.Machine.execGatherTimeout team buf s
  | .taskSteal core => Sys2Proof.Machine.execTaskSteal core s
  | .xregGrant cluster => Sys2Proof.Machine.execXregGrant cluster s
  | .engineCommandRetire gid cls => Sys2Proof.Machine.execEngineCommandRetire gid cls s
  | .chunkStart cmd => Sys2Proof.Machine.execChunkStart cmd s
  | .chunkComplete chunk => Sys2Proof.Machine.execChunkComplete chunk s
  | .chunkTimeout chunk => Sys2Proof.Machine.execChunkTimeout chunk s
  | .chunkAbort chunk => Sys2Proof.Machine.execChunkAbort chunk s
  | .chunkDetach chunk => Sys2Proof.Machine.execChunkDetach chunk s
  | .sectorEvent chunk => Sys2Proof.Machine.execSectorEvent chunk s
  | .millraceCommandStart core => Sys2Proof.Machine.execMillraceCommandStart core s
  | .kStep core => Sys2Proof.Machine.execKStep core s
  | .millraceCommandRetire core => Sys2Proof.Machine.execMillraceCommandRetire core s
  | .homeWrite k ext => Sys2Proof.Machine.execHomeWrite k ext s
  | .homeRead k early => Sys2Proof.Machine.execHomeRead k early s
  | .writeTimeReply k => Sys2Proof.Machine.execWriteTimeReply k s
  | .leaseExpiry k => Sys2Proof.Machine.execLeaseExpiry k s
  | .fenceComplete gid pid => Sys2Proof.Machine.execFenceComplete gid pid s
  | .pennantCopyUpdate team core => Sys2Proof.Machine.execPennantCopyUpdate team core s
  | .haltComplete ctx => Sys2Proof.Machine.execHaltComplete ctx s
  | .cowResolution k => Sys2Proof.Machine.execCowResolution k s
  | .cowThreadRelease k => Sys2Proof.Machine.execCowThreadRelease k s
  | .pageTableRelease ctx => Sys2Proof.Machine.execPageTableRelease ctx s
  | .hbmScrub die sectors rows => Sys2Proof.Machine.execHbmScrub die sectors rows s
  | .frameMigration frame => Sys2Proof.Machine.execFrameMigration frame s
  | .bankModeChange cluster => Sys2Proof.Machine.execBankModeChange cluster s
  | .portTrainingSuccess port peer toff => Sys2Proof.Machine.execPortTrainingSuccess port peer toff s
  | .portTrainingFailure port => Sys2Proof.Machine.execPortTrainingFailure port s
  | .portLinkLoss port => Sys2Proof.Machine.execPortLinkLoss port s
  | .portReplayLimit port => Sys2Proof.Machine.execPortReplayLimit port s
  | .flitReceive port good => Sys2Proof.Machine.execFlitReceive port good s
  | .idleFlit port => Sys2Proof.Machine.execIdleFlit port s
  | .peerRequest port addr kind bytes => Sys2Proof.Machine.execPeerRequest port addr kind bytes s
  | .peerAccessTimeout isWrite k => Sys2Proof.Machine.execPeerAccessTimeout isWrite k s
  | .d2dBoundaryTimeout boundary => Sys2Proof.Machine.execD2dBoundaryTimeout boundary s
  | .drawShardArrival k => Sys2Proof.Machine.execDrawShardArrival k s
  | .drawShardTimeout slot => Sys2Proof.Machine.execDrawShardTimeout slot s
  | .powerMeasurement power temp duty => Sys2Proof.Machine.execPowerMeasurement power temp duty s
  | .thermalTrip temp => Sys2Proof.Machine.execThermalTrip temp s
  | .thermalTripClear => Sys2Proof.Machine.execThermalTripClear s
  | .supplyOutOfRange volts => Sys2Proof.Machine.execSupplyOutOfRange volts s
  | .bringUp => Sys2Proof.Machine.execBringUp s
  | .mov16 d a => Sys2Proof.Machine.execMov16 d a s
  | .iadd16 d a => Sys2Proof.Machine.execIadd16 d a s
  | .isub16 d a => Sys2Proof.Machine.execIsub16 d a s
  | .imul16 d a => Sys2Proof.Machine.execImul16 d a s
  | .and16 d a => Sys2Proof.Machine.execAnd16 d a s
  | .or16 d a => Sys2Proof.Machine.execOr16 d a s
  | .xor16 d a => Sys2Proof.Machine.execXor16 d a s
  | .shl16 d a => Sys2Proof.Machine.execShl16 d a s
  | .shr16 d a => Sys2Proof.Machine.execShr16 d a s
  | .sra16 d a => Sys2Proof.Machine.execSra16 d a s
  | .imin16 d a => Sys2Proof.Machine.execImin16 d a s
  | .imax16 d a => Sys2Proof.Machine.execImax16 d a s
  | .fadd16 d a => Sys2Proof.Machine.execFadd16 d a s
  | .fsub16 d a => Sys2Proof.Machine.execFsub16 d a s
  | .fmul16 d a => Sys2Proof.Machine.execFmul16 d a s
  | .fmax16 d a => Sys2Proof.Machine.execFmax16 d a s
  | .nop => Sys2Proof.Machine.execNop s
  | .stall n => Sys2Proof.Machine.execStall n s
  | .wait m => Sys2Proof.Machine.execWait m s
  | .yield => Sys2Proof.Machine.execYield s
  | .brk c => Sys2Proof.Machine.execBrk c s
  | .iadd s_ d a b => Sys2Proof.Machine.execIadd s_ d a b s
  | .isub s_ d a b => Sys2Proof.Machine.execIsub s_ d a b s
  | .imin s_ d a b => Sys2Proof.Machine.execImin s_ d a b s
  | .imax s_ d a b => Sys2Proof.Machine.execImax s_ d a b s
  | .nmin s_ d a b => Sys2Proof.Machine.execNmin s_ d a b s
  | .nmax s_ d a b => Sys2Proof.Machine.execNmax s_ d a b s
  | .iabs s_ d a => Sys2Proof.Machine.execIabs s_ d a s
  | .ineg s_ d a => Sys2Proof.Machine.execIneg s_ d a s
  | .iaddW s_ d a b => Sys2Proof.Machine.execIaddW s_ d a b s
  | .isubW s_ d a b => Sys2Proof.Machine.execIsubW s_ d a b s
  | .iadds s_ d a b => Sys2Proof.Machine.execIadds s_ d a b s
  | .nadds s_ d a b => Sys2Proof.Machine.execNadds s_ d a b s
  | .imul s_ d a b => Sys2Proof.Machine.execImul s_ d a b s
  | .imulh s_ d a b => Sys2Proof.Machine.execImulh s_ d a b s
  | .nmulh s_ d a b => Sys2Proof.Machine.execNmulh s_ d a b s
  | .imad s_ d a b => Sys2Proof.Machine.execImad s_ d a b s
  | .imadW s_ d a b => Sys2Proof.Machine.execImadW s_ d a b s
  | .idot4 s_ d a b => Sys2Proof.Machine.execIdot4 s_ d a b s
  | .ndot4 s_ d a b => Sys2Proof.Machine.execNdot4 s_ d a b s
  | .and s_ d a b => Sys2Proof.Machine.execAnd s_ d a b s
  | .or s_ d a b => Sys2Proof.Machine.execOr s_ d a b s
  | .xor s_ d a b => Sys2Proof.Machine.execXor s_ d a b s
  | .andn s_ d a b => Sys2Proof.Machine.execAndn s_ d a b s
  | .orn s_ d a b => Sys2Proof.Machine.execOrn s_ d a b s
  | .not s_ d a => Sys2Proof.Machine.execNot s_ d a s
  | .shl s_ d a b => Sys2Proof.Machine.execShl s_ d a b s
  | .shr s_ d a b => Sys2Proof.Machine.execShr s_ d a b s
  | .sra s_ d a b => Sys2Proof.Machine.execSra s_ d a b s
  | .rotl s_ d a b => Sys2Proof.Machine.execRotl s_ d a b s
  | .shlW s_ d a b => Sys2Proof.Machine.execShlW s_ d a b s
  | .shrW s_ d a b => Sys2Proof.Machine.execShrW s_ d a b s
  | .sraW s_ d a b => Sys2Proof.Machine.execSraW s_ d a b s
  | .popc s_ d a => Sys2Proof.Machine.execPopc s_ d a s
  | .clz s_ d a => Sys2Proof.Machine.execClz s_ d a s
  | .ctz s_ d a => Sys2Proof.Machine.execCtz s_ d a s
  | .brev s_ d a => Sys2Proof.Machine.execBrev s_ d a s
  | .bfei s_ d a b => Sys2Proof.Machine.execBfei s_ d a b s
  | .bfen s_ d a b => Sys2Proof.Machine.execBfen s_ d a b s
  | .bfi s_ d a b => Sys2Proof.Machine.execBfi s_ d a b s
  | .bmsk s_ d b => Sys2Proof.Machine.execBmsk s_ d b s
  | .iaddi s_ d a i_ => Sys2Proof.Machine.execIaddi s_ d a i_ s
  | .andi s_ d a i_ => Sys2Proof.Machine.execAndi s_ d a i_ s
  | .shli s_ d a n => Sys2Proof.Machine.execShli s_ d a n s
  | .shri s_ d a n => Sys2Proof.Machine.execShri s_ d a n s
  | .srai s_ d a n => Sys2Proof.Machine.execSrai s_ d a n s
  | .ldi s_ d i_ => Sys2Proof.Machine.execLdi s_ d i_ s
  | .ldih s_ d i_ => Sys2Proof.Machine.execLdih s_ d i_ s
  | .mov s_ d a => Sys2Proof.Machine.execMov s_ d a s
  | .xmov s_ d a => Sys2Proof.Machine.execXmov s_ d a s
  | .xset s_ d a => Sys2Proof.Machine.execXset s_ d a s
  | .sel s_ p d a v => Sys2Proof.Machine.execSel s_ p d a v s
  | .icmp s_ c p a b => Sys2Proof.Machine.execIcmp s_ c p a b s
  | .ncmp s_ c p a b => Sys2Proof.Machine.execNcmp s_ c p a b s
  | .fcmp s_ c p a b => Sys2Proof.Machine.execFcmp s_ c p a b s
  | .pmov s_ d q n => Sys2Proof.Machine.execPmov s_ d q n s
  | .pand s_ d q n => Sys2Proof.Machine.execPand s_ d q n s
  | .por s_ d q n => Sys2Proof.Machine.execPor s_ d q n s
  | .pxor s_ d q n => Sys2Proof.Machine.execPxor s_ d q n s
  | .pset s_ d k => Sys2Proof.Machine.execPset s_ d k s
  | .ptov s_ p d => Sys2Proof.Machine.execPtov s_ p d s
  | .vtop s_ p a => Sys2Proof.Machine.execVtop s_ p a s
  | .gadd s_ d a b => Sys2Proof.Machine.execGadd s_ d a b s
  | .gsub s_ d a b => Sys2Proof.Machine.execGsub s_ d a b s
  | .gmul s_ d a b => Sys2Proof.Machine.execGmul s_ d a b s
  | .gshl s_ d a b => Sys2Proof.Machine.execGshl s_ d a b s
  | .gshr s_ d a b => Sys2Proof.Machine.execGshr s_ d a b s
  | .gand s_ d a b => Sys2Proof.Machine.execGand s_ d a b s
  | .gor s_ d a b => Sys2Proof.Machine.execGor s_ d a b s
  | .gmin s_ d a b => Sys2Proof.Machine.execGmin s_ d a b s
  | .gmax s_ d a b => Sys2Proof.Machine.execGmax s_ d a b s
  | .gmov s_ d a => Sys2Proof.Machine.execGmov s_ d a s
  | .gfrom s_ d b => Sys2Proof.Machine.execGfrom s_ d b s
  | .gfromw s_ d b => Sys2Proof.Machine.execGfromw s_ d b s
  | .gto s_ d a => Sys2Proof.Machine.execGto s_ d a s
  | .gtoh s_ d a => Sys2Proof.Machine.execGtoh s_ d a s
  | .gldi s_ d i_ => Sys2Proof.Machine.execGldi s_ d i_ s
  | .gaddi s_ d a i_ => Sys2Proof.Machine.execGaddi s_ d a i_ s
  | .gcmp s_ c p a b => Sys2Proof.Machine.execGcmp s_ c p a b s
  | .rshf s_ d a b => Sys2Proof.Machine.execRshf s_ d a b s
  | .rshfu s_ d a b => Sys2Proof.Machine.execRshfu s_ d a b s
  | .rshfd s_ d a b => Sys2Proof.Machine.execRshfd s_ d a b s
  | .rshfx s_ d a b => Sys2Proof.Machine.execRshfx s_ d a b s
  | .qswph s_ d a => Sys2Proof.Machine.execQswph s_ d a s
  | .qswpv s_ d a => Sys2Proof.Machine.execQswpv s_ d a s
  | .qswpd s_ d a => Sys2Proof.Machine.execQswpd s_ d a s
  | .qbcst s_ d a b => Sys2Proof.Machine.execQbcst s_ d a b s
  | .cradd s_ d a => Sys2Proof.Machine.execCradd s_ d a s
  | .crmin s_ d a => Sys2Proof.Machine.execCrmin s_ d a s
  | .crmax s_ d a => Sys2Proof.Machine.execCrmax s_ d a s
  | .crand s_ d a => Sys2Proof.Machine.execCrand s_ d a s
  | .cror s_ d a => Sys2Proof.Machine.execCror s_ d a s
  | .crxor s_ d a => Sys2Proof.Machine.execCrxor s_ d a s
  | .cscani s_ d a => Sys2Proof.Machine.execCscani s_ d a s
  | .cscane s_ d a => Sys2Proof.Machine.execCscane s_ d a s
  | .crfadd s_ d a => Sys2Proof.Machine.execCrfadd s_ d a s
  | .crfmin s_ d a => Sys2Proof.Machine.execCrfmin s_ d a s
  | .crfmax s_ d a => Sys2Proof.Machine.execCrfmax s_ d a s
  | .crank s_ d => Sys2Proof.Machine.execCrank s_ d s
  | .csize s_ d => Sys2Proof.Machine.execCsize s_ d s
  | .cmaxi s_ d a => Sys2Proof.Machine.execCmaxi s_ d a s
  | .vany s_ d q n => Sys2Proof.Machine.execVany s_ d q n s
  | .vall s_ d q n => Sys2Proof.Machine.execVall s_ d q n s
  | .vuni s_ d q n => Sys2Proof.Machine.execVuni s_ d q n s
  | .celect s_ d => Sys2Proof.Machine.execCelect s_ d s
  | .vbal s_ p d => Sys2Proof.Machine.execVbal s_ p d s
  | .vbalQuad s_ p d => Sys2Proof.Machine.execVbalQuad s_ p d s
  | .matchRank s_ d a => Sys2Proof.Machine.execMatchRank s_ d a s
  | .fadd s_ i_ o d a b => Sys2Proof.Machine.execFadd s_ i_ o d a b s
  | .fsub s_ i_ o d a b => Sys2Proof.Machine.execFsub s_ i_ o d a b s
  | .fabsd s_ i_ o d a b => Sys2Proof.Machine.execFabsd s_ i_ o d a b s
  | .fmul s_ i_ o d a b => Sys2Proof.Machine.execFmul s_ i_ o d a b s
  | .ffma s_ i_ o d a b => Sys2Proof.Machine.execFfma s_ i_ o d a b s
  | .ffms s_ i_ o d a b => Sys2Proof.Machine.execFfms s_ i_ o d a b s
  | .fnfma s_ i_ o d a b => Sys2Proof.Machine.execFnfma s_ i_ o d a b s
  | .fmin s_ i_ o d a b => Sys2Proof.Machine.execFmin s_ i_ o d a b s
  | .fmax s_ i_ o d a b => Sys2Proof.Machine.execFmax s_ i_ o d a b s
  | .fminn s_ i_ o d a b => Sys2Proof.Machine.execFminn s_ i_ o d a b s
  | .fmaxn s_ i_ o d a b => Sys2Proof.Machine.execFmaxn s_ i_ o d a b s
  | .fabs s_ i_ o d a => Sys2Proof.Machine.execFabs s_ i_ o d a s
  | .fneg s_ i_ o d a => Sys2Proof.Machine.execFneg s_ i_ o d a s
  | .frcp s_ i_ o d a => Sys2Proof.Machine.execFrcp s_ i_ o d a s
  | .frsq s_ i_ o d a => Sys2Proof.Machine.execFrsq s_ i_ o d a s
  | .fsqrt s_ i_ o d a => Sys2Proof.Machine.execFsqrt s_ i_ o d a s
  | .fexp2 s_ i_ o d a => Sys2Proof.Machine.execFexp2 s_ i_ o d a s
  | .flog2 s_ i_ o d a => Sys2Proof.Machine.execFlog2 s_ i_ o d a s
  | .fsin s_ i_ o d a => Sys2Proof.Machine.execFsin s_ i_ o d a s
  | .fcos s_ i_ o d a => Sys2Proof.Machine.execFcos s_ i_ o d a s
  | .ftanh s_ i_ o d a => Sys2Proof.Machine.execFtanh s_ i_ o d a s
  | .fsigm s_ i_ o d a => Sys2Proof.Machine.execFsigm s_ i_ o d a s
  | .fflr s_ i_ o d a => Sys2Proof.Machine.execFflr s_ i_ o d a s
  | .fceil s_ i_ o d a => Sys2Proof.Machine.execFceil s_ i_ o d a s
  | .ftrnc s_ i_ o d a => Sys2Proof.Machine.execFtrnc s_ i_ o d a s
  | .frndn s_ i_ o d a => Sys2Proof.Machine.execFrndn s_ i_ o d a s
  | .fclass s_ i_ o d a => Sys2Proof.Machine.execFclass s_ i_ o d a s
  | .fdiv s_ i_ o d a b => Sys2Proof.Machine.execFdiv s_ i_ o d a b s
  | .fscl s_ i_ o d a b => Sys2Proof.Machine.execFscl s_ i_ o d a b s
  | .fexpo s_ i_ o d a => Sys2Proof.Machine.execFexpo s_ i_ o d a s
  | .fmant s_ i_ o d a => Sys2Proof.Machine.execFmant s_ i_ o d a s
  | .fcvt s_ i_ o d a f => Sys2Proof.Machine.execFcvt s_ i_ o d a f s
  | .ffin s_ r d a f => Sys2Proof.Machine.execFfin s_ r d a f s
  | .fpack s_ r t d a b => Sys2Proof.Machine.execFpack s_ r t d a b s
  | .fpk8 s_ r d a l f => Sys2Proof.Machine.execFpk8 s_ r d a l f s
  | .funpk s_ d a l c => Sys2Proof.Machine.execFunpk s_ d a l c s
  | .ftoi s_ r d a f => Sys2Proof.Machine.execFtoi s_ r d a f s
  | .itof s_ d a f => Sys2Proof.Machine.execItof s_ d a f s
  | .stkget s_ p a => Sys2Proof.Machine.execStkget s_ p a s
  | .stkset s_ p d => Sys2Proof.Machine.execStkset s_ p d s
  | .rng32 s_ d a b => Sys2Proof.Machine.execRng32 s_ d a b s
  | .rngu s_ d a b => Sys2Proof.Machine.execRngu s_ d a b s
  | .rngg s_ d a b => Sys2Proof.Machine.execRngg s_ d a b s
  | .draw s_ d g a => Sys2Proof.Machine.execDraw s_ d g a s
  | .ld s_ z x q d g a t => Sys2Proof.Machine.execLd s_ z x q d g a t s
  | .ldq s_ q d g a t => Sys2Proof.Machine.execLdq s_ q d g a t s
  | .ldf s_ f d g a t => Sys2Proof.Machine.execLdf s_ f d g a t s
  | .st s_ z r d g a => Sys2Proof.Machine.execSt s_ z r d g a s
  | .stq s_ d g a => Sys2Proof.Machine.execStq s_ d g a s
  | .stfF32 s_ r d g a => Sys2Proof.Machine.execStfF32 s_ r d g a s
  | .stfBf16 s_ r d g a => Sys2Proof.Machine.execStfBf16 s_ r d g a s
  | .stfF16 s_ r d g a => Sys2Proof.Machine.execStfF16 s_ r d g a s
  | .stfE4m3 s_ r d g a => Sys2Proof.Machine.execStfE4m3 s_ r d g a s
  | .stfE5m2 s_ r d g a => Sys2Proof.Machine.execStfE5m2 s_ r d g a s
  | .stfE2m1 s_ r d g a => Sys2Proof.Machine.execStfE2m1 s_ r d g a s
  | .stimg s_ d g a => Sys2Proof.Machine.execStimg s_ d g a s
  | .ldimg s_ d g a t => Sys2Proof.Machine.execLdimg s_ d g a t s
  | .ldfe s_ c d g a t => Sys2Proof.Machine.execLdfe s_ c d g a t s
  | .stfe s_ w d g a => Sys2Proof.Machine.execStfe s_ w d g a s
  | .stcmp s_ d g a t => Sys2Proof.Machine.execStcmp s_ d g a t s
  | .atomAdd s_ d g a t => Sys2Proof.Machine.execAtomAdd s_ d g a t s
  | .atomMinI s_ d g a t => Sys2Proof.Machine.execAtomMinI s_ d g a t s
  | .atomMaxI s_ d g a t => Sys2Proof.Machine.execAtomMaxI s_ d g a t s
  | .atomMinN s_ d g a t => Sys2Proof.Machine.execAtomMinN s_ d g a t s
  | .atomMaxN s_ d g a t => Sys2Proof.Machine.execAtomMaxN s_ d g a t s
  | .atomAnd s_ d g a t => Sys2Proof.Machine.execAtomAnd s_ d g a t s
  | .atomOr s_ d g a t => Sys2Proof.Machine.execAtomOr s_ d g a t s
  | .atomXor s_ d g a t => Sys2Proof.Machine.execAtomXor s_ d g a t s
  | .atomExch s_ d g a t => Sys2Proof.Machine.execAtomExch s_ d g a t s
  | .atomCas s_ d g a t => Sys2Proof.Machine.execAtomCas s_ d g a t s
  | .atomAddW s_ d g a t => Sys2Proof.Machine.execAtomAddW s_ d g a t s
  | .atomFadd s_ d g a t => Sys2Proof.Machine.execAtomFadd s_ d g a t s
  | .redAdd s_ d g a => Sys2Proof.Machine.execRedAdd s_ d g a s
  | .redMinI s_ d g a => Sys2Proof.Machine.execRedMinI s_ d g a s
  | .redMaxI s_ d g a => Sys2Proof.Machine.execRedMaxI s_ d g a s
  | .redMinN s_ d g a => Sys2Proof.Machine.execRedMinN s_ d g a s
  | .redMaxN s_ d g a => Sys2Proof.Machine.execRedMaxN s_ d g a s
  | .redAnd s_ d g a => Sys2Proof.Machine.execRedAnd s_ d g a s
  | .redOr s_ d g a => Sys2Proof.Machine.execRedOr s_ d g a s
  | .redXor s_ d g a => Sys2Proof.Machine.execRedXor s_ d g a s
  | .redAddW s_ d g a => Sys2Proof.Machine.execRedAddW s_ d g a s
  | .redFadd s_ d g a => Sys2Proof.Machine.execRedFadd s_ d g a s
  | .fence s_ m h => Sys2Proof.Machine.execFence s_ m h s
  | .pftch s_ g a => Sys2Proof.Machine.execPftch s_ g a s
  | .cwb s_ g a => Sys2Proof.Machine.execCwb s_ g a s
  | .cinv s_ g a => Sys2Proof.Machine.execCinv s_ g a s
  | .cwbi s_ g a => Sys2Proof.Machine.execCwbi s_ g a s
  | .czero s_ g a => Sys2Proof.Machine.execCzero s_ g a s
  | .pin s_ w a b => Sys2Proof.Machine.execPin s_ w a b s
  | .unpin s_ w => Sys2Proof.Machine.execUnpin s_ w s
  | .ldg s_ d a i_ => Sys2Proof.Machine.execLdg s_ d a i_ s
  | .stg s_ d a i_ => Sys2Proof.Machine.execStg s_ d a i_ s
  | .pgalloc s_ d a b => Sys2Proof.Machine.execPgalloc s_ d a b s
  | .pgshare s_ d a b => Sys2Proof.Machine.execPgshare s_ d a b s
  | .pgfree s_ d a b => Sys2Proof.Machine.execPgfree s_ d a b s
  | .pginfo s_ d a => Sys2Proof.Machine.execPginfo s_ d a s
  | .pgrsv s_ d a => Sys2Proof.Machine.execPgrsv s_ d a s
  | .copy s_ b g u x r l n => Sys2Proof.Machine.execCopy s_ b g u x r l n s
  | .copyt s_ b g u r n => Sys2Proof.Machine.execCopyt s_ b g u r n s
  | .gath s_ b g u x r l n => Sys2Proof.Machine.execGath s_ b g u x r l n s
  | .scat s_ b g u x r l n => Sys2Proof.Machine.execScat s_ b g u x r l n s
  | .copyr s_ b g u x c n => Sys2Proof.Machine.execCopyr s_ b g u x c n s
  | .waite s_ c i_ => Sys2Proof.Machine.execWaite s_ c i_ s
  | .qpost s_ d g a t => Sys2Proof.Machine.execQpost s_ d g a t s
  | .binit s_ b u => Sys2Proof.Machine.execBinit s_ b u s
  | .barv s_ b => Sys2Proof.Machine.execBarv s_ b s
  | .barvPass s_ b => Sys2Proof.Machine.execBarvPass s_ b s
  | .barvExpect s_ b u => Sys2Proof.Machine.execBarvExpect s_ b u s
  | .bwait s_ d b => Sys2Proof.Machine.execBwait s_ d b s
  | .btest s_ p a b => Sys2Proof.Machine.execBtest s_ p a b s
  | .barg s_ => Sys2Proof.Machine.execBarg s_ s
  | .bargCount s_ d => Sys2Proof.Machine.execBargCount s_ d s
  | .pnset s_ a f => Sys2Proof.Machine.execPnset s_ a f s
  | .pnmin s_ a f => Sys2Proof.Machine.execPnmin s_ a f s
  | .pnmax s_ a f => Sys2Proof.Machine.execPnmax s_ a f s
  | .pnrd s_ d f => Sys2Proof.Machine.execPnrd s_ d f s
  | .tspawn s_ d g => Sys2Proof.Machine.execTspawn s_ d g s
  | .trange s_ d a b => Sys2Proof.Machine.execTrange s_ d a b s
  | .tclaim s_ d a => Sys2Proof.Machine.execTclaim s_ d a s
  | .tflush s_ => Sys2Proof.Machine.execTflush s_ s
  | .acqx s_ => Sys2Proof.Machine.execAcqx s_ s
  | .relx s_ => Sys2Proof.Machine.execRelx s_ s
  | .trap s_ c => Sys2Proof.Machine.execTrap s_ c s
  | .tretResume s_ => Sys2Proof.Machine.execTretResume s_ s
  | .tretSkip s_ => Sys2Proof.Machine.execTretSkip s_ s
  | .tretRetire s_ => Sys2Proof.Machine.execTretRetire s_ s
  | .smov s_ d n => Sys2Proof.Machine.execSmov s_ d n s
  | .sset s_ d n => Sys2Proof.Machine.execSset s_ d n s
  | .halt s_ => Sys2Proof.Machine.execHalt s_ s
  | .jmp s_ t => Sys2Proof.Machine.execJmp s_ t s
  | .brc s_ t p v => Sys2Proof.Machine.execBrc s_ t p v s
  | .brx s_ a => Sys2Proof.Machine.execBrx s_ a s
  | .call s_ t => Sys2Proof.Machine.execCall s_ t s
  | .exit s_ p v => Sys2Proof.Machine.execExit s_ p v s
  | .mma s_ m c a b k w => Sys2Proof.Machine.execMma s_ m c a b k w s
  | .mmas s_ m c a b k w => Sys2Proof.Machine.execMmas s_ m c a b k w s
  | .mmax s_ m c a b k w => Sys2Proof.Machine.execMmax s_ m c a b k w s
  | .mzero s_ c b w => Sys2Proof.Machine.execMzero s_ c b w s
  | .mldc s_ c a k w => Sys2Proof.Machine.execMldc s_ c a k w s
  | .mstc s_ c a r k w => Sys2Proof.Machine.execMstc s_ c a r k w s
  | .mcopy s_ c k w => Sys2Proof.Machine.execMcopy s_ c k w s
  | .mscale s_ c b w => Sys2Proof.Machine.execMscale s_ c b w s
  | .mdep s_ c a => Sys2Proof.Machine.execMdep s_ c a s
  | .mstat s_ a k => Sys2Proof.Machine.execMstat s_ a k s
  | .mstatProg s_ c a => Sys2Proof.Machine.execMstatProg s_ c a s
  | .mrel s_ a k => Sys2Proof.Machine.execMrel s_ a k s
  | .msmx s_ c k w => Sys2Proof.Machine.execMsmx s_ c k w s
  | .msmf s_ k w => Sys2Proof.Machine.execMsmf s_ k w s
  | .mrd s_ m d a => Sys2Proof.Machine.execMrd s_ m d a s
  | .mwr s_ m d a => Sys2Proof.Machine.execMwr s_ m d a s
  | .illegalInstruction => Sys2Proof.Machine.execIllegalInstruction s
  | .peerErrorAnswer kind k ecc => Sys2Proof.Machine.execPeerErrorAnswer kind k ecc s

end Sys2Proof.Machine
end

