-- ==== Sys2Proof/Machine/Policy.lean ====
section
/-! DEFINITION. What moves next when the agenda names nothing: a choice carried out, and the model's default order of the agents. The spec
fixes no such order; the agenda can name any other. -/

namespace Sys2Proof.Machine

/-- The pass may issue its next word, with its own numbers as those of the word (R79, R132). -/
def State.mayIssueOf (s : State) (x : (Nat × Group) × (Nat × Pass)) : Bool :=
  mayIssue { s with cur := { s.cur with gid := x.1.1, pid := x.2.1 } } x.1.2 x.2.2

/-- The order of issue arbitration (R139): the higher queue priority, then the pass that has been ready longer, counted in steps of 256
cycles, then the lower context id, then the lower GRPID; passes of one group in the order of their start. How long a pass has been ready
counts from the cycle that R79 gives, also of one that waited at its word (DESIGN CHOICE, log 87). -/
def issueKey (now : Nat) (x : (Nat × Group) × (Nat × Pass)) : List Nat :=
  [7 - x.1.2.prio, 2 ^ 64 - (now - x.2.2.next) / 256, x.1.2.ctx, x.1.2.grpid, x.2.1]

/-- The word that a pass stands at would act: issued now it changes the machine. -/
noncomputable def State.wordActs (s : State) (gid pid : Nat) (g : Group) (p : Pass) : Bool :=
  let (i, cur) := s.nextWord gid pid g p
  match exec i { s with cur := cur } with
  | .next t => decide ({ t with cur := s.cur } ≠ s)
  | _ => true

/-- The pass is ready to issue (R139): R79 allows its next beat, and a word that it waits at would act now (R82). -/
noncomputable def State.readyPass (s : State) (x : (Nat × Group) × (Nat × Pass)) : Bool :=
  s.mayIssueOf x && (x.2.2.hold == .none || s.wordActs x.1.1 x.2.1 x.1.2 x.2.2)

/-- The passes that are ready. -/
noncomputable def State.ready (s : State) : List ((Nat × Group) × (Nat × Pass)) :=
  s.groups.flatMap fun x => (x.2.passes.filter fun y => s.readyPass (x, y)).map fun y => (x, y)

/-- A ready pass of the core goes before this one (R139). -/
noncomputable def State.outranked (s : State) (x : (Nat × Group) × (Nat × Pass)) : Bool :=
  s.groups.any fun g => g.2.core == x.1.2.core
    && g.2.passes.any fun y => decide (issueKey s.cycle (g, y) < issueKey s.cycle x) && s.readyPass (g, y)

/-- A pass issues its next word when it is its turn (R139): the clock reaches the cycle R79 allows, the word is fetched and runs. -/
noncomputable def State.issueWord (s : State) (gid pid : Nat) : Res :=
  match lookup s.groups gid with
  | none => .next s
  | some g => match lookup g.passes pid with
    | none => .next s
    | some p =>
      let s := s.advanceTo p.next
      if s.outranked ((gid, g), (pid, p)) then .next s else
      let (i, cur) := s.nextWord gid pid g p
      match exec i { s with cur := cur } with
      | .next t => .next (t.afterStep gid pid p)
      | r => r

/-- A choice carried out. -/
noncomputable def runChoice (c : Choice) (s : State) : Res :=
  match c with
  | .issue gid pid => s.issueWord gid pid
  | .event i => if isEvent i then exec i s else .next s
  | .tick n => .next (s.advance n)
  | .host addr bytes => .next (s.arrive (hostKey addr) bytes 0 [] 0)
  | .corrected row => .next (s.corrected row)
  | .flaw key => .next (s.flawed key)
  | .flawCopy k off => .next (s.flawedCopy k off)
  | .damage gid => .next (s.damaged gid)

/-- The events of memory and the engines that could be due. -/
noncomputable def State.memoryMoves (s : State) : List Instr :=
  (s.accesses.flatMap fun (k, a) => if a.act = .read then [.homeRead k false] else [.homeWrite k 0])
    ++ (s.accesses.flatMap fun (k, a) => if a.space = .peer then [.peerAccessTimeout (a.act != .read) k] else [])
    ++ (s.replies.flatMap fun (k, r) => if r.space = .peer then [.peerAccessTimeout true k] else [])
    ++ (s.results.flatMap fun (k, r) => if r.port.isSome then [.peerAccessTimeout true k] else [])
    ++ (s.replies.map fun (k, _) => .writeTimeReply k)
    ++ (s.results.map fun (k, _) => .tokenResultWrite k)
    ++ (s.chunks.flatMap fun (k, _) => [.homeWrite k 0, .sectorEvent k, .chunkComplete k, .chunkTimeout k, .chunkAbort k, .chunkDetach k])
    ++ (s.engines.flatMap fun (k, e) => [.chunkStart k, .engineCommandRetire e.gid e.cls])
    ++ (s.cows.flatMap fun (k, _) => [.cowResolution k, .cowThreadRelease k])
    ++ (s.mod.migrate.map fun f => .frameMigration f)
    ++ (s.shards.map fun (k, _) => .drawShardArrival k)
    ++ s.draws.map fun (k, _) => .drawShardTimeout k

/-- The events of cores, clusters and teams that could be due. -/
noncomputable def State.coreMoves (s : State) : List Instr :=
  (s.cores.flatMap fun (c, _) => [.kStep c, .millraceCommandRetire c, .millraceCommandStart c])
    ++ (s.clusters.flatMap fun (c, _) => [.xregGrant c, .bankModeChange c])
    ++ s.teams.flatMap fun (t, x) => ((List.range 8).map fun c => .pennantCopyUpdate t (x.cluster * 8 + c))
      ++ x.bufs.map fun (b, _) => .gatherTimeout t b

/-- The events of the weir that could be due. -/
noncomputable def State.weirMoves (s : State) : List Instr :=
  s.groups.flatMap fun (gid, g) =>
    (g.passes.flatMap fun (pid, _) => [.passEnd gid pid, .fenceComplete gid pid])
      ++ [.groupEnd gid, .barrierDeadlock gid, .fantailSweep gid, .passStart gid]

/-- The events of the ports that could be due. -/
noncomputable def State.portMoves (s : State) : List Instr := s.ports.flatMap fun (p, _) => [.portLinkLoss p, .portReplayLimit p]

/-- The events of the command processor that could be due. -/
noncomputable def State.hostMoves (s : State) : List Instr :=
  (s.rings.flatMap fun (r, _) => [.completionRecordWrite r, .ctxCreate r, .ctxDestroy r, .qCreate r, .qCtlPause r, .qCtlResume r,
      .qCtlDestroy r, .map r, .unmap r, .poolCreate r, .cfgLoad r, .kernLoad r, .kernUnload r, .launch r, .graphRecord r, .graphEnd r,
      .graphReplay r, .gparamSet r, .preempt r, .resume r, .ckptSave r, .ckptRestore r, .attest r, .dbgStop r, .dbgStep r, .dbgSteppass r,
      .dbgStepbin r, .dbgCont r, .syncAll r, .commandFetch r])
    ++ (s.ctxs.flatMap fun (c, _) => [.haltComplete c, .pageTableRelease c])
    ++ (s.teams.flatMap fun (_, t) => (List.range 8).map fun c => .taskTake (t.cluster * 8 + c))
    ++ (s.teams.flatMap fun (_, t) => (List.range 8).map fun c => .taskSteal (t.cluster * 8 + c))
    ++ if s.launches.isEmpty then [] else (List.range 192).map fun c => .teamAdmission c

/-- The event changes the state. -/
noncomputable def State.moves (s : State) (i : Instr) : Bool :=
  match exec i s with
  | .next t => decide (t ≠ s)
  | _ => false

/-- The one of two passes that issues first (R139). -/
def firstToIssue (now : Nat) (a b : (Nat × Group) × (Nat × Pass)) : (Nat × Group) × (Nat × Pass) :=
  if issueKey now b < issueKey now a then b else a

/-- The default choice: bring-up first; then an event that is due; then a word; else the clock. -/
noncomputable def State.policy (s : State) : Choice :=
  if !s.mod.ready then (if supplied s.mod.volts then .event .bringUp else .tick 1)
  else match (s.portMoves ++ s.memoryMoves ++ s.coreMoves ++ s.weirMoves ++ s.hostMoves).find? s.moves with
    | some i => .event i
    | none => match s.ready with
      | a :: rest =>
        let x := rest.foldl (firstToIssue s.cycle) a
        .issue x.1.1 x.2.1
      | [] => .tick 1

end Sys2Proof.Machine
end

