-- ==== Sys2Proof/Machine/Step.lean ====
section
/-! DEFINITION. One step of the machine: the next choice of the agenda, or the default choice when it is empty. -/

namespace Sys2Proof.Machine

/-- One step. -/
noncomputable def step (s : State) : Host.Outcome State Fault Refusal :=
  match s.agenda with
  | [] => runChoice s.policy s
  | c :: rest => runChoice c { s with agenda := rest }

/-- The kernel that holds one word after the BLK of its only block, and an EXIT after it. -/
def oneWordKernel (nbits w : Nat) : Kernel :=
  { text := bytesOf 4 0x1FC00381 ++ bytesOf (nbits / 8) w ++ bytesOf 4 0x200003A9
    blocks := [some 0], entry := 0, dataOff := 0, dataLen := 0, threads := 4, team := 1, regs := 64, xregs := 64, barriers := 64,
    scratch := 65536, acc := 16, schk := false, handler := false }

/-- A thread of a new group, in the cohort of pass 0. -/
def oneWordThread (tid : Nat) : Nat × Thread := (tid, { Thread.blank with dith := dithStart 0 tid, place := .pass 0 })

/-- A pass of four threads that stands at the word after the BLK. -/
def oneWordPass : Pass :=
  { handler := false, blk := 0, start := 0, off := 2, staged := 62, quad := true, ext := true, noDemote := false, cohort := [0, 1, 2, 3],
    helpers := [], dueV := [], covered := [], dueX := [], dueP := [], next := 0, hold := .none, exits := [], ended := false, loud := false,
    run := .running }

/-- A running group of that pass. -/
def oneWordGroup : Group :=
  { ctx := 0, team := 0, core := 0, grpid := 0, gint := 0, slot := 0, kern := 0, nthr := 4, prio := 7, st := .running,
    before := .running, threads := (List.range 4).map oneWordThread, g := [], dueG := [], schk := false,
    fan := { idle := 0, seen := [], sweep := none }, gbar := { count := none, arrived := 0 }, bars := [], nbars := 64,
    isRange := false, lo := 0, hi := 0, gran := 0, rwords := [], entry := 0, count := [], grant := true, rels := [],
    passes := [(0, oneWordPass)], stepBin := none, stepOne := false, stepAll := false, stepNew := false, dead := false }

/-- The team of that group on cluster 0. -/
def oneWordTeam : Team :=
  { ctx := 0, launch := 0, cluster := 0, index := 0, groups := 1, started := 0, scratch := 65536, banks := [0], deques := [], recs := [],
    bufs := [], home := [], copies := [], moving := [], queue := [] }

/-- The state with an instruction placed where the next step fetches: a system context whose only kernel holds the word, a
running group with a pass at it, alone on its core, and the pass's issue as the next choice. This stands for KERN.LOAD, LAUNCH, the team's
admission and the pass's start. -/
def State.withFetchWord (s : State) (nbits w : Nat) : State :=
  { s with
    agenda := .issue 0 0 :: s.agenda
    ctxs := putAt s.ctxs 0 { Context.free with st := 2, sys := true, images := [(0, { base := 0, kernels := [oneWordKernel nbits w] })] }
    clusters := putAt s.clusters 0 { s.cluster 0 with team := some 0 }
    teams := putAt s.teams 0 oneWordTeam
    groups := putAt (s.groups.filter fun (_, g) => g.core != 0) 0 oneWordGroup }

end Sys2Proof.Machine
end

