-- ==== Sys2Proof/Safety.lean ====
section
/-! DEFINITION. What the statements mean by a run that goes well. -/

namespace Sys2Proof

/-- The step answers a next state. -/
def Goes (s : Machine.State) : Prop := ∃ t, Machine.step s = .next t

/-- The row, executed at the state, answers a next state. -/
def Completes (i : Instr) (s : Machine.State) : Prop := ∃ t, Machine.exec i s = .next t

end Sys2Proof
end

