-- ==== Sys2Proof/Safety/Words.lean ====
section
/-! DEFINITION. What the statements about instruction words mean by a word that runs, by what registers read, and by what a word leaves
unchanged (04_encoding R79 to R87; 08_group R140 to R144). -/

namespace Sys2Proof.Machine

/-! ### A word that runs -/

/-- A variable-latency result for v[i] of the view's thread, or of its helper's copy, is on its way to the pass (R82, R85), whether or not a
token covers it (DEDUCED, log 70). -/
def Outstanding (s : State) (a : View) (i : Nat) : Prop :=
  (∃ k x f, (k, x) ∈ s.accesses ∧ x.gid = s.cur.gid ∧ x.pid = s.cur.pid ∧ a.tid ∈ x.tids ∧ x.helper = a.helper ∧ x.fill = some f ∧ i ∈ f.regs)
  ∨ ∃ k r, (k, r) ∈ s.results ∧ r.gid = s.cur.gid ∧ r.pid = s.cur.pid ∧ a.tid ∈ r.tids ∧ r.helper = a.helper ∧ i ∈ r.fill.regs

/-- The condition of R85 at a view: a register that the word reads has a result on its way whose cycle has not come, an outstanding
variable-latency result, or a token named for it that is still pending; or a register that it writes has an outstanding one. Every position
counts, also a helper's and that of a thread that the guard suppresses (DEDUCED, log 69); a g result counts for its own pass (R293). -/
def TooEarly (s : State) (g : Group) (p : Pass) (n : Needs) (vs : List View) (a : View) : Prop :=
  (∃ i ∈ n.readIn vs s.cur.guard a, (∃ d ∈ p.dueV, d.tid = a.tid ∧ d.idx = i ∧ a.cyc < d.cyc) ∨ Outstanding s a i
    ∨ ∃ c ∈ p.covered, c.2.1 = a.tid ∧ c.2.2 = i ∧ s.tokenPending s.cur.gid c.1 = true)
  ∨ (∃ i ∈ rangeRegs n.wv, Outstanding s a i)
  ∨ (∃ i, (i ∈ n.rp ∨ ∃ v, s.cur.guard = some (i, v)) ∧ ∃ d ∈ p.dueP, d.tid = a.tid ∧ d.idx = i ∧ a.cyc < d.cyc)
  ∨ (∃ i ∈ n.rg, ∃ d ∈ g.dueG, d.tid = s.cur.pid ∧ d.idx = i ∧ a.cyc < d.cyc)
  ∨ ∃ i ∈ n.rx, ∃ d ∈ p.dueX, d.tid = a.tid ∧ d.idx = i ∧ a.cyc < d.cyc

/-- The word at `cur` of pass `p` of group `g` may issue, no late fault is waiting, and no check of R87 fails for what the word needs. -/
structure Issues (s : State) (k : Kind) (n : Needs) (g : Group) (p : Pass) : Prop where
  here : s.issuing = some (g, p)
  may : mayIssue s g p = true
  calm : lateOf [4] g p = []
  accepted : operandsOk p s.cur.guard n = true
  privileged : n.priv = true → (s.ctx g.ctx).sys = true
  early : g.schk = true → ∀ a ∈ k.views g p s.cycle, ¬ TooEarly s g p n (k.views g p s.cycle) a

/-- The threads and helpers that execute a per-thread word: the positions that pass the guard (R76, R141). -/
def passing (s : State) (g : Group) (p : Pass) : List View := (p.views g s.cycle).filter fun a => a.passes s.cur.guard

/-- The participants of a cohort word: the cohort threads that pass the guard (R299). -/
def taking (s : State) (k : Kind) (g : Group) (p : Pass) : List View := participants (k.views g p s.cycle) s.cur.guard

/-! ### Registers -/

/-- What v[i], x[i] and p[i] of a thread of a pass read as at a cycle (R80, R84), and g[i] of its group. -/
def regV (g : Group) (p : Pass) (tid i c : Nat) : Carrier := (viewAt g p 0 tid c).v i
def regX (g : Group) (p : Pass) (tid i c : Nat) : Carrier := (viewAt g p 0 tid c).x i
def regP (g : Group) (p : Pass) (tid i c : Nat) : Bool := (viewAt g p 0 tid c).p i
def regG (g : Group) (i c : Nat) : Quad := readDue 0 i c g.owedG 0 (readAt 0#64 g.g i)

/-- The last of a list of views that is of a thread: the only one where no thread has two positions. -/
def lastOf (tid : Nat) (l : List View) : Option View := (l.filter fun a => a.tid == tid).getLast?

/-! ### What a word leaves -/

/-- Nothing of the machine but one pass, its group's threads and its group's results on their way differs: every byte of memory and
every register of every other agent is as it was. -/
structure OnlyPass (s t : State) (g g' : Group) (p p' : Pass) : Prop where
  state : { t with groups := s.groups } = s
  memory : ∀ k, t.byte k = s.byte k ∧ t.latest k = s.latest k
  groups : ∀ k, k ≠ s.cur.gid → lookup t.groups k = lookup s.groups k
  group : lookup t.groups s.cur.gid = some g'
  passes : ∀ k, k ≠ s.cur.pid → lookup g'.passes k = lookup g.passes k
  pass : lookup g'.passes s.cur.pid = some p'
  ofGroup : { g' with passes := g.passes, threads := g.threads, dueG := g.dueG } = g
  ofPass : { p' with dueV := p.dueV, dueX := p.dueX, dueP := p.dueP, covered := p.covered, off := p.off, next := p.next, hold := p.hold } = p

/-- The pass stands after the word and may issue again from the cycle that R79 gives: c + n + max(0, 2s − (n − 1)) after a word of n
beats, c + n + 2s after a cohort word. -/
structure Past (s : State) (k : Kind) (stall : Nat) (p p' : Pass) : Prop where
  off : p'.off = s.cur.next
  hold : p'.hold = .none
  next : p'.next = (match k with
    | .pass => s.cycle + 1 + 2 * stall
    | .lane => s.cycle + p.beats + (2 * stall - (p.beats - 1))
    | .cohort => s.cycle + p.beats + 2 * stall)

/-- The cycle from which a result of a word is readable (R80): its latency after the thread's own beat, or after the word's last beat. -/
def readyAt (s : State) (k : Kind) (p : Pass) (lat : Nat) (a : View) : Nat := match k with
  | .cohort => s.cycle + p.beats - 1 + lat
  | _ => a.cyc + lat

/-- One kind of register after a word whose executing views `l` write what `out` lists. A written register reads the result from the
cycle it is due, unless an earlier word's result for it is due later; a register that the thread does not write reads as before at
every cycle; and before the first result is due every register reads as before. -/
structure Written {α : Type} (old new : Nat → Nat → Nat → α) (due : List (Due α)) (at_ : View → Nat) (first : Nat)
    (out : View → List (Nat × α)) (l : List View) : Prop where
  result : ∀ tid a, lastOf tid l = some a → ∀ i x, (i, x) ∈ out a → ∀ c, at_ a ≤ c →
    (∀ d ∈ due, d.tid = tid → d.idx = i → d.cyc ≤ at_ a) → new tid i c = x
  other : ∀ tid i, (∀ a ∈ l, a.tid = tid → ∀ x, (i, x) ∉ out a) → ∀ c, new tid i c = old tid i c
  before : ∀ c, c < first → ∀ tid i, new tid i c = old tid i c

/-- A thread after the status changes of its executing cohort views: flags stick, DITH takes what an SR rounding left (R38, R40). -/
def statusAfter (out : View → Put) (t : Thread) (l : List View) : Thread :=
  l.foldl (fun t a => { t with fstat := t.fstat ||| (out a).flags, dith := (out a).dith.getD t.dith }) t

/-- The word has run: the executing views `l` write `out`, the group's g registers take `outG`, and nothing else changes. -/
structure Ran (s t : State) (k : Kind) (stall lat : Nat) (g : Group) (p : Pass) (l : List View) (out : View → Put)
    (outG : List (Nat × Quad)) : Prop where
  done : ∃ g' p', OnlyPass s t g g' p p' ∧ Past s k stall p p'
    ∧ Written (regV g p) (regV g' p') p.dueV (readyAt s k p lat) (s.cycle + lat) (fun a => (out a).v) l
    ∧ Written (regX g p) (regX g' p') p.dueX (readyAt s k p lat) (s.cycle + lat) (fun a => (out a).x) l
    ∧ Written (regP g p) (regP g' p') p.dueP (readyAt s k p lat) (s.cycle + lat) (fun a => (out a).p.filter fun x => x.1 != 0) l
    ∧ p'.covered = p.covered.filter (fun x => !l.any fun a => (out a).v.any fun y => a.tid == x.2.1 && y.1 == x.2.2)
    ∧ (∀ tid, g'.thread tid = statusAfter out (g.thread tid) (l.filter fun a => a.tid == tid && !a.helper))
    ∧ (∀ i x, (i, x) ∈ outG → ∀ c, s.cycle + lat ≤ c → (∀ d ∈ g.dueG, d.idx = i → d.cyc ≤ s.cycle + lat) → regG g' i c = x)
    ∧ (∀ i, (∀ x, (i, x) ∉ outG) → ∀ c, regG g' i c = regG g i c)
    ∧ (∀ i c, c < s.cycle + lat → regG g' i c = regG g i c)

/-! ### States written out -/

/-- The pass after the word (R79), otherwise as it was. -/
def stepped (s : State) (k : Kind) (stall : Nat) (p : Pass) : Pass :=
  { p with
    off := s.cur.next
    hold := .none
    next := match k with
      | .pass => s.cycle + 1 + 2 * stall
      | .lane => s.cycle + p.beats + (2 * stall - (p.beats - 1))
      | .cohort => s.cycle + p.beats + 2 * stall }

/-- The state with the group of the word, or its pass, replaced and nothing else changed. -/
def State.withGroup (s : State) (g : Group) : State := { s with groups := putAt s.groups s.cur.gid g }
def State.withPass (s : State) (g : Group) (p : Pass) : State := s.withGroup { g with passes := putAt g.passes s.cur.pid p }

/-- Only the pass has moved past the word; a loud word leaves the pass not quiet (R145). -/
def State.movedOn (s : State) (g : Group) (p : Pass) (k : Kind) (stall : Nat) (loud : Bool) : State :=
  s.withPass g { stepped s k stall p with loud := p.loud || loud }

/-- The pass waits at the word, which issues again. -/
def State.waits (s : State) (g : Group) (p : Pass) (h : Hold) : State := s.withPass g { p with hold := h }

/-- The same fault in some threads of the word, in the order given, with the resume records at an offset. -/
def State.faultingAt (s : State) (off : Nat) (tids : List Nat) (code detail : Nat) : State :=
  s.takeFaults s.cur.gid s.cur.pid off (tids.map fun t => { tid := t, code := code, detail := detail, addr := 0 })

/-- The same, with the resume records at the word's first prefix. -/
def State.faulting (s : State) (tids : List Nat) (code detail : Nat) : State := s.faultingAt s.cur.at_ tids code detail

/-- The TIDs of the cohort threads that pass the guard, as a per-thread word and as a per-pass word reads them. -/
def takers (s : State) (k : Kind) (g : Group) (p : Pass) : List Nat := (taking s k g p).map (·.tid)

/-- The pass has come to the word and may issue it; the decoding checks are still to be met. -/
structure Reaches (s : State) (g : Group) (p : Pass) : Prop where
  here : s.issuing = some (g, p)
  may : mayIssue s g p = true
  calm : lateOf [4] g p = []

/-- A thread of a group that stands, blocked, at the word it did not complete (R134, R135). -/
def BlockedAt (s : State) (p : Pass) (w : Wait) (t : Thread) : Prop :=
  t.place = .bin p.handler p.blk s.cur.at_ ∧ t.wait = w ∧ (t.res.cause ≠ 5 → t.res = { blk := p.blk, off := s.cur.at_, cause := 2 })

end Sys2Proof.Machine
end

