-- ==== Sys2Proof/Safety/Tables.lean ====
section
/-! DEFINITION. What the spec's tables say the register words compute, written with integer arithmetic and wrapping at the end
(15_isa_integer R282 to R303; 16_isa_float R305 to R320; 04_encoding R74). -/

namespace Sys2Proof.Machine

/-- A register word by the spec: its kind, what it needs, its stall field and latency, and what each executing view writes, from the
views of all positions, the participants and its own view. -/
structure Does where
  kind : Kind
  needs : Needs
  stall : BitVec 2
  lat : Nat
  out : List View → List View → View → Put

/-- The views that execute a word of a kind. -/
def executing (s : State) (k : Kind) (g : Group) (p : Pass) : List View := match k with
  | .lane => passing s g p
  | _ => taking s k g p

/-- The instruction does what the entry says, in every state in which it issues. -/
def Performs (i : Instr) (e : Does) : Prop :=
  ∀ s g p, Issues s e.kind e.needs g p → ∃ t, exec i s = .next t
    ∧ Ran s t e.kind e.stall.toNat e.lat g p (executing s e.kind g p) (e.out (p.views g s.cycle) (taking s e.kind g p)) []

/-! ### Words as numbers -/

/-- The low 32 bits of a number, with S = 0. -/
def low (i : Int) : Carrier := { w := BitVec.ofInt 32 i, s := false }

/-- The register's W as n32 and as i32, and a pair as n64 and as i64 (R282). -/
def View.n (x : View) (i : BitVec 6) : Int := (x.v i.toNat).w.toNat
def View.i (x : View) (i : BitVec 6) : Int := (x.v i.toNat).w.toInt
def View.nn (x : View) (i : BitVec 6) : Int := (x.v i.toNat).w.toNat + 2 ^ 32 * (x.v (i.toNat + 1)).w.toNat
def View.ii (x : View) (i : BitVec 6) : Int := (x.nn i).bmod (2 ^ 64)

/-- One register, and a pair low word first, written with a number modulo 2^32 or 2^64. -/
def one (d : BitVec 6) (i : Int) : Put := { v := [(d.toNat, low i)] }
def two (d : BitVec 6) (i : Int) : Put := { v := [(d.toNat, low i), (d.toNat + 1, low (i / 2 ^ 32))] }

/-- A clamp of a number. -/
def clampTo (lo hi i : Int) : Int := max lo (min hi i)

/-- Byte k of a number, as n8 and as i8. -/
def byteOf (a : Int) (k : Nat) : Int := a / 2 ^ (8 * k) % 256
def sbyteOf (a : Int) (k : Nat) : Int := (byteOf a k).bmod 256

/-- pos and len of a field operand (R288). -/
def posOf (b : Int) : Nat := (b % 32).toNat
def lenOf (b : Int) : Nat := min (b / 256 % 64).toNat (32 - posOf b)

/-- The field a[pos+len−1:pos], and it sign-extended from its top bit. -/
def fieldOf (a b : Int) : Int := a / 2 ^ posOf b % 2 ^ lenOf b
def sfieldOf (a b : Int) : Int := if lenOf b = 0 then 0 else (fieldOf a b).bmod (2 ^ lenOf b)

/-- How many of the bits 0 to 31 of a number satisfy a test of their index and value. -/
def bitsWhere (a : Nat) (q : Nat → Bool → Bool) : Int := ((List.range 32).countP fun i => q i (a.testBit i) : Nat)

/-- A per-thread word that writes what its own view gives. -/
def own (s : BitVec 2) (lat : Nat) (n : Needs) (f : View → Put) : Option Does :=
  some { kind := .lane, needs := n, stall := s, lat := lat, out := fun _ _ x => f x }

/-- The same with L = 4 over v registers read and written. -/
def word3 (s : BitVec 2) (rv wv : List (Nat × Nat)) (f : View → Put) : Option Does := own s 4 { rv := rv, wv := wv } f

/-- v[D] := f, reading v[A] and v[B]; v[D] := f, reading v[A]. -/
def ab (s : BitVec 2) (d a b : BitVec 6) (f : View → Int) : Option Does :=
  word3 s [(a.toNat, 1), (b.toNat, 1)] [(d.toNat, 1)] fun x => one d (f x)
def a1 (s : BitVec 2) (d a : BitVec 6) (f : View → Int) : Option Does := word3 s [(a.toNat, 1)] [(d.toNat, 1)] fun x => one d (f x)

/-- v[D] := f, reading v[D] too. -/
def dab (s : BitVec 2) (d a b : BitVec 6) (f : View → Int) : Option Does :=
  word3 s [(d.toNat, 1), (a.toNat, 1), (b.toNat, 1)] [(d.toNat, 1)] fun x => one d (f x)

/-- pair D := f, reading pairs A and B; reading pair A and v[B]. -/
def abW (s : BitVec 2) (d a b : BitVec 6) (f : View → Int) : Option Does :=
  word3 s [(a.toNat, 2), (b.toNat, 2)] [(d.toNat, 2)] fun x => two d (f x)
def abS (s : BitVec 2) (d a b : BitVec 6) (f : View → Int) : Option Does :=
  word3 s [(a.toNat, 2), (b.toNat, 1)] [(d.toNat, 2)] fun x => two d (f x)

/-- Integer arithmetic: R283 and R284, with the 16-bit forms of R74. -/
def arithmetic : Instr → Option Does
  | .iadd s d a b => ab s d a b fun x => x.n a + x.n b
  | .iadd16 d a => ab 0 d d (a.setWidth 6) fun x => x.n d + x.n (a.setWidth 6)
  | .isub s d a b => ab s d a b fun x => x.n a - x.n b
  | .isub16 d a => ab 0 d d (a.setWidth 6) fun x => x.n d - x.n (a.setWidth 6)
  | .imin s d a b => ab s d a b fun x => min (x.i a) (x.i b)
  | .imin16 d a => ab 0 d d (a.setWidth 6) fun x => min (x.i d) (x.i (a.setWidth 6))
  | .imax s d a b => ab s d a b fun x => max (x.i a) (x.i b)
  | .imax16 d a => ab 0 d d (a.setWidth 6) fun x => max (x.i d) (x.i (a.setWidth 6))
  | .nmin s d a b => ab s d a b fun x => min (x.n a) (x.n b)
  | .nmax s d a b => ab s d a b fun x => max (x.n a) (x.n b)
  | .iabs s d a => a1 s d a fun x => (x.i a).natAbs
  | .ineg s d a => a1 s d a fun x => -x.n a
  | .iaddW s d a b => abW s d a b fun x => x.nn a + x.nn b
  | .isubW s d a b => abW s d a b fun x => x.nn a - x.nn b
  | .iadds s d a b => ab s d a b fun x => clampTo (-2 ^ 31) (2 ^ 31 - 1) (x.i a + x.i b)
  | .nadds s d a b => ab s d a b fun x => clampTo 0 (2 ^ 32 - 1) (x.n a + x.n b)
  | .imul s d a b => ab s d a b fun x => x.n a * x.n b
  | .imul16 d a => ab 0 d d (a.setWidth 6) fun x => x.n d * x.n (a.setWidth 6)
  | .imulh s d a b => ab s d a b fun x => x.i a * x.i b / 2 ^ 32
  | .nmulh s d a b => ab s d a b fun x => x.n a * x.n b / 2 ^ 32
  | .imad s d a b => dab s d a b fun x => x.n d + x.n a * x.n b
  | .imadW s d a b => word3 s [(d.toNat, 2), (a.toNat, 1), (b.toNat, 1)] [(d.toNat, 2)] fun x => two d (x.nn d + x.i a * x.i b)
  | .idot4 s d a b => dab s d a b fun x =>
      x.n d + sbyteOf (x.n a) 0 * sbyteOf (x.n b) 0 + sbyteOf (x.n a) 1 * sbyteOf (x.n b) 1 + sbyteOf (x.n a) 2 * sbyteOf (x.n b) 2
        + sbyteOf (x.n a) 3 * sbyteOf (x.n b) 3
  | .ndot4 s d a b => dab s d a b fun x =>
      x.n d + byteOf (x.n a) 0 * byteOf (x.n b) 0 + byteOf (x.n a) 1 * byteOf (x.n b) 1 + byteOf (x.n a) 2 * byteOf (x.n b) 2
        + byteOf (x.n a) 3 * byteOf (x.n b) 3
  | _ => none

/-- A bitwise word: bit k of the result from bit k of each operand. -/
def bitwise (s : BitVec 2) (d a b : BitVec 6) (f : Bool → Bool → Bool) : Option Does :=
  ab s d a b fun x => (Nat.bitwise f (x.v a.toNat).w.toNat (x.v b.toNat).w.toNat : Nat)

/-- Logic, shifts, bit counts and fields, and immediates: R285, R288, R289, with the 16-bit forms of R74. A quotient by a power of two
rounds toward minus infinity. -/
def bitwork : Instr → Option Does
  | .and s d a b => bitwise s d a b fun x y => x && y
  | .and16 d a => bitwise 0 d d (a.setWidth 6) fun x y => x && y
  | .or s d a b => bitwise s d a b fun x y => x || y
  | .or16 d a => bitwise 0 d d (a.setWidth 6) fun x y => x || y
  | .xor s d a b => bitwise s d a b fun x y => x ^^ y
  | .xor16 d a => bitwise 0 d d (a.setWidth 6) fun x y => x ^^ y
  | .andn s d a b => bitwise s d a b fun x y => x && !y
  | .orn s d a b => ab s d a b fun x => -1 - (Nat.bitwise (fun x y => !x && y) (x.v a.toNat).w.toNat (x.v b.toNat).w.toNat : Nat)
  | .not s d a => a1 s d a fun x => -1 - x.n a
  | .shl s d a b => ab s d a b fun x => x.n a * 2 ^ (x.n b).toNat
  | .shl16 d a => ab 0 d d (a.setWidth 6) fun x => x.n d * 2 ^ (x.n (a.setWidth 6)).toNat
  | .shr s d a b => ab s d a b fun x => x.n a / 2 ^ (x.n b).toNat
  | .shr16 d a => ab 0 d d (a.setWidth 6) fun x => x.n d / 2 ^ (x.n (a.setWidth 6)).toNat
  | .sra s d a b => ab s d a b fun x => x.i a / 2 ^ (x.n b).toNat
  | .sra16 d a => ab 0 d d (a.setWidth 6) fun x => x.i d / 2 ^ (x.n (a.setWidth 6)).toNat
  | .rotl s d a b => ab s d a b fun x => x.n a * 2 ^ (x.n b % 32).toNat + x.n a / 2 ^ (32 - x.n b % 32).toNat
  | .shlW s d a b => abS s d a b fun x => x.nn a * 2 ^ (x.n b).toNat
  | .shrW s d a b => abS s d a b fun x => x.nn a / 2 ^ (x.n b).toNat
  | .sraW s d a b => abS s d a b fun x => x.ii a / 2 ^ (x.n b).toNat
  | .popc s d a => a1 s d a fun x => bitsWhere (x.n a).toNat fun _ b => b
  | .clz s d a => a1 s d a fun x => if x.n a = 0 then 32 else 31 - (Nat.log2 (x.n a).toNat : Int)
  | .ctz s d a => a1 s d a fun x => ((List.range 33).countP fun k => decide (x.n a % 2 ^ k = 0) : Nat) - 1
  | .brev s d a => word3 s [(a.toNat, 1)] [(d.toNat, 1)] fun x => { v := [(d.toNat, { w := (x.v a.toNat).w.reverse, s := false })] }
  | .bfei s d a b => ab s d a b fun x => sfieldOf (x.n a) (x.n b)
  | .bfen s d a b => ab s d a b fun x => fieldOf (x.n a) (x.n b)
  | .bfi s d a b => dab s d a b fun x =>
      x.n d - fieldOf (x.n d) (x.n b) * 2 ^ posOf (x.n b) + x.n a % 2 ^ lenOf (x.n b) * 2 ^ posOf (x.n b)
  | .bmsk s d b => a1 s d b fun x => (2 ^ lenOf (x.n b) - 1) * 2 ^ posOf (x.n b)
  | .iaddi s d a i => a1 s d a fun x => x.n a + i.toInt
  | .andi s d a i => a1 s d a fun x => (Nat.bitwise (fun x y => x && y) (x.v a.toNat).w.toNat (i.toInt % 2 ^ 32).toNat : Nat)
  | .shli s d a n => a1 s d a fun x => x.n a * 2 ^ n.toNat
  | .shri s d a n => a1 s d a fun x => x.n a / 2 ^ n.toNat
  | .srai s d a n => a1 s d a fun x => x.i a / 2 ^ n.toNat
  | .ldi s d i => word3 s [] [(d.toNat, 1)] fun _ => one d i.toInt
  | .ldih s d i => a1 s d d fun x => i.toNat * 2 ^ 16 + x.n d % 2 ^ 16
  | _ => none

/-- A three-way condition code of R290 on a comparison of two numbers. -/
def holds (c : Nat) (a b : Int) : Bool :=
  match c with
  | 0 => decide (a = b)
  | 1 => decide (a ≠ b)
  | 2 => decide (a < b)
  | 3 => decide (a ≤ b)
  | 4 => decide (b < a)
  | _ => decide (b ≤ a)

/-- A float condition code of R290 on what two carriers denote. -/
def holdsF (c : Nat) (u v : Val) : Bool :=
  if u.isNan || v.isNan then c == 1 || c == 7
  else match c with
    | 6 => true
    | 7 => false
    | _ => holds c (Val.cmp u v) 0

/-- A per-thread word that writes a predicate. -/
def flag (s : BitVec 2) (lat : Nat) (n : Needs) (d : BitVec 7) (f : View → Bool) : Option Does :=
  own s lat n fun x => { p := [(d.toNat, f x)] }

/-- Moves, selection, compares and predicates: R286, R287, R290, R291, R292, R319. -/
def moves : Instr → Option Does
  | .mov s d a => word3 s [(a.toNat, 1)] [(d.toNat, 1)] fun x => { v := [(d.toNat, x.v a.toNat)] }
  | .mov16 d a => word3 0 [((a.setWidth 6).toNat, 1)] [(d.toNat, 1)] fun x => { v := [(d.toNat, x.v a.toNat)] }
  | .sel s p d a v => own s 4 { rv := [(a.toNat, 1), (d.toNat, 1)], wv := [(d.toNat, 1)], rp := [p.toNat] } fun x =>
      { v := [(d.toNat, if x.p p.toNat = decide (v = 1#1) then x.v a.toNat else x.v d.toNat)] }
  | .icmp s c p a b => flag s 4 { rv := [(a.toNat, 1), (b.toNat, 1)], wp := [p.toNat] } p fun x => holds c.toNat (x.i a) (x.i b)
  | .ncmp s c p a b => flag s 4 { rv := [(a.toNat, 1), (b.toNat, 1)], wp := [p.toNat] } p fun x => holds c.toNat (x.n a) (x.n b)
  | .fcmp s c p a b => flag s 6 { rv := [(a.toNat, 1), (b.toNat, 1)], wp := [p.toNat] } p fun x =>
      holdsF c.toNat (carrierVal (x.v a.toNat)) (carrierVal (x.v b.toNat))
  | .pmov s d q n => flag s 4 { rp := [q.toNat], wp := [d.toNat] } d fun x => x.p q.toNat != decide (n = 1#1)
  | .pand s d q n => flag s 4 { rp := [d.toNat, q.toNat], wp := [d.toNat] } d fun x => x.p d.toNat && (x.p q.toNat != decide (n = 1#1))
  | .por s d q n => flag s 4 { rp := [d.toNat, q.toNat], wp := [d.toNat] } d fun x => x.p d.toNat || (x.p q.toNat != decide (n = 1#1))
  | .pxor s d q n => flag s 4 { rp := [d.toNat, q.toNat], wp := [d.toNat] } d fun x => x.p d.toNat != (x.p q.toNat != decide (n = 1#1))
  | .pset s d k => flag s 4 { wp := [d.toNat] } d fun _ => decide (k = 1#1)
  | .ptov s p d => own s 4 { rp := [p.toNat], wv := [(d.toNat, 1)] } fun x => one d (if x.p p.toNat then 1 else 0)
  | .vtop s p a => flag s 4 { rv := [(a.toNat, 1)], wp := [p.toNat] } p fun x => decide (x.n a ≠ 0)
  | .stkget s p a => flag s 4 { rv := [(a.toNat, 1)], wp := [p.toNat] } p fun x => (x.v a.toNat).s
  | .stkset s p d => own s 4 { rv := [(d.toNat, 1)], rp := [p.toNat], wv := [(d.toNat, 1)] } fun x =>
      { v := [(d.toNat, { w := (x.v d.toNat).w, s := x.p p.toNat })] }
  | _ => none

/-! ### Positions and participants -/

/-- A per-thread word with L = 8 that reads other positions. -/
def among (s : BitVec 2) (n : Needs) (f : List View → View → Put) : Option Does :=
  some { kind := .lane, needs := n, stall := s, lat := 8, out := fun vs _ x => f vs x }

/-- A move along a rank: the reader at lane j takes v[A] of lane `src j c` of its rank, or its own (R297, R298). -/
def laneWord (s : BitVec 2) (d a b : BitVec 6) (quad : Bool) (src : Int → Int → Int) : Option Does :=
  among s { rv := [(a.toNat, 1), (b.toNat, 1)], wv := [(d.toNat, 1)], quad := quad } fun vs x =>
      let at_ := src (x.pos % 32 : Nat) (x.n b)
      { v := [(d.toNat, match vs.find? fun y => decide ((y.pos : Int) = x.pos / 32 * 32 + at_ ∧ 0 ≤ at_ ∧ at_ < 32) with
          | some y => y.v a.toNat
          | none => x.v a.toNat)] }

/-- Cross-lane moves and ballots: R298, R302. Lane numbers are xored as numbers of 32 bits. -/
def laneMoves : Instr → Option Does
  | .rshf s d a b => laneWord s d a b false fun _ c => c
  | .rshfu s d a b => laneWord s d a b false fun j c => j - c
  | .rshfd s d a b => laneWord s d a b false fun j c => j + c
  | .rshfx s d a b => laneWord s d a b false fun j c => (j.toNat ^^^ c.toNat : Nat)
  | .qswph s d a => laneWord s d a a true fun j _ => if j % 2 = 0 then j + 1 else j - 1
  | .qswpv s d a => laneWord s d a a true fun j _ => if j % 4 < 2 then j + 2 else j - 2
  | .qswpd s d a => laneWord s d a a true fun j _ => j / 4 * 4 + 3 - j % 4
  | .qbcst s d a b => laneWord s d a b true fun j c => j / 4 * 4 + c % 4
  | .vbal s p d => among s { rp := [p.toNat], wv := [(d.toNat, 1)] } fun vs x =>
      one d (((List.range 32).map fun i =>
        if vs.any fun y => decide (y.pos = x.pos / 32 * 32 + i) && y.p p.toNat then (2 : Int) ^ i else 0).sum)
  | .vbalQuad s p d => among s { rp := [p.toNat], wv := [(d.toNat, 1)], quad := true } fun vs x =>
      one d (((List.range 4).map fun i =>
        if vs.any fun y => decide (y.pos = x.pos / 4 * 4 + i) && y.p p.toNat then (2 : Int) ^ i else 0).sum)
  | _ => none

/-- A cohort word with L = 24 over the participants, in ascending TID (R299). -/
def coll (s : BitVec 2) (n : Needs) (f : List View → View → Put) : Option Does :=
  some { kind := .cohort, needs := n, stall := s, lat := 24, out := fun _ l x => f l x }

/-- A word for every participant from all of them. -/
def collect (s : BitVec 2) (d a : BitVec 6) (f : List View → View → Int) : Option Does :=
  coll s { rv := [(a.toNat, 1)], wv := [(d.toNat, 1)] } fun l x => one d (f l x)

/-- Every bit of the result from that bit of all operands: how many of them are set. -/
def perBit (a : BitVec 6) (l : List View) (q : Nat → Bool) : Int :=
  ((List.range 32).map fun i => if q (l.countP fun y => (x1 y).testBit i) then (2 : Int) ^ i else 0).sum
where
  /-- the operand -/
  x1 (y : View) : Nat := (y.v a.toNat).w.toNat

/-- The index of a participant: how many of them have a lower TID. -/
def indexOf (l : List View) (x : View) : Nat := l.countP fun y => decide (y.tid < x.tid)

/-- Collectives and votes: R300, R301, R303. The float forms CRFADD, CRFMIN and CRFMAX are in `collectFloat`. -/
def collectives : Instr → Option Does
  | .cradd s d a => collect s d a fun l _ => (l.map fun y => y.n a).sum
  | .crmin s d a => collect s d a fun l _ => (l.map fun y => y.i a).min?.getD 0
  | .crmax s d a => collect s d a fun l _ => (l.map fun y => y.i a).max?.getD 0
  | .crand s d a => collect s d a fun l _ => perBit a l fun k => decide (k = l.length)
  | .cror s d a => collect s d a fun l _ => perBit a l fun k => decide (k ≠ 0)
  | .crxor s d a => collect s d a fun l _ => perBit a l fun k => decide (k % 2 = 1)
  | .cscani s d a => collect s d a fun l x => ((l.filter fun y => decide (y.tid ≤ x.tid)).map fun y => y.n a).sum
  | .cscane s d a => collect s d a fun l x => ((l.filter fun y => decide (y.tid < x.tid)).map fun y => y.n a).sum
  | .crank s d => coll s { wv := [(d.toNat, 1)] } fun l x => one d (indexOf l x)
  | .csize s d => coll s { wv := [(d.toNat, 1)] } fun l _ => one d l.length
  | .cmaxi s d a => collect s d a fun l _ =>
      ((l.find? fun y => decide (∀ z ∈ l, z.i a ≤ y.i a)).map fun y => (y.tid : Int)).getD 0
  | .vany s d q n => coll s { rp := [q.toNat], wp := [d.toNat] } fun l _ =>
      { p := [(d.toNat, l.any fun y => y.p q.toNat != decide (n = 1#1))] }
  | .vall s d q n => coll s { rp := [q.toNat], wp := [d.toNat] } fun l _ =>
      { p := [(d.toNat, l.all fun y => y.p q.toNat != decide (n = 1#1))] }
  | .vuni s d q n => coll s { rp := [q.toNat], wp := [d.toNat] } fun l _ =>
      { p := [(d.toNat, l.all fun y => l.all fun z => (y.p q.toNat != decide (n = 1#1)) == (z.p q.toNat != decide (n = 1#1)))] }
  | .celect s d => coll s { wp := [d.toNat] } fun l x => { p := [(d.toNat, decide (indexOf l x = 0))] }
  | .matchRank s d a => collect s d a fun l x => ((List.range 32).map fun i =>
      if l.any fun y => decide (y.pos = x.pos / 32 * 32 + i ∧ y.v a.toNat = x.v a.toNat) then (2 : Int) ^ i else 0).sum
  | _ => none

/-! ### Uniform words -/

/-- A per-pass register word (R143, R293): g results from the lowest-TID participant's view, and v or p results that every cohort
thread and every helper's copy takes. -/
structure DoesPass where
  needs : Needs
  stall : BitVec 2
  outG : View → List (Nat × Quad)
  out : View → Put

/-- The per-pass word does what the entry says when some cohort thread passes the guard, and only passes by when none does. -/
def PerformsPass (i : Instr) (e : DoesPass) : Prop :=
  ∀ s g p, Issues s .pass e.needs g p → ∃ t, exec i s = .next t ∧ match taking s .pass g p with
    | [] => Ran s t .pass e.stall.toNat 4 g p [] (fun _ => {}) []
    | a :: _ => Ran s t .pass e.stall.toNat 4 g p (Kind.pass.views g p s.cycle) (fun _ => e.out a) (e.outG a)

/-- g[A] as n64 and as i64. -/
def View.gn (x : View) (i : BitVec 6) : Int := (x.g i.toNat).toNat
def View.gi (x : View) (i : BitVec 6) : Int := (x.g i.toNat).toInt

/-- g[D] := a number modulo 2^64, reading g registers. -/
def gset (s : BitVec 2) (d : BitVec 6) (n : Needs) (f : View → Int) : Option DoesPass :=
  some { needs := n, stall := s, outG := fun x => [(d.toNat, BitVec.ofInt 64 (f x))], out := fun _ => {} }

def gab (s : BitVec 2) (d a b : BitVec 6) (f : View → Int) : Option DoesPass := gset s d { rg := [a.toNat, b.toNat] } f

/-- The uniform instructions: R294, R295, R296. -/
def uniforms : Instr → Option DoesPass
  | .gadd s d a b => gab s d a b fun x => x.gn a + x.gn b
  | .gsub s d a b => gab s d a b fun x => x.gn a - x.gn b
  | .gmul s d a b => gab s d a b fun x => x.gn a * x.gn b
  | .gshl s d a b => gab s d a b fun x => x.gn a * 2 ^ (x.gn b).toNat
  | .gshr s d a b => gab s d a b fun x => x.gn a / 2 ^ (x.gn b).toNat
  | .gand s d a b => gab s d a b fun x => (Nat.bitwise (fun x y => x && y) (x.g a.toNat).toNat (x.g b.toNat).toNat : Nat)
  | .gor s d a b => gab s d a b fun x => (Nat.bitwise (fun x y => x || y) (x.g a.toNat).toNat (x.g b.toNat).toNat : Nat)
  | .gmin s d a b => gab s d a b fun x => min (x.gi a) (x.gi b)
  | .gmax s d a b => gab s d a b fun x => max (x.gi a) (x.gi b)
  | .gmov s d a => gset s d { rg := [a.toNat] } fun x => x.gn a
  | .gfrom s d b => gset s d { rv := [(b.toNat, 1)], source := true } fun x => x.n b
  | .gfromw s d b => gset s d { rv := [(b.toNat, 2)], source := true } fun x => x.nn b
  | .gldi s d i => gset s d {} fun _ => i.toInt
  | .gaddi s d a i => gset s d { rg := [a.toNat] } fun x => x.gn a + i.toInt
  | .gto s d a => some { needs := { rg := [a.toNat], wv := [(d.toNat, 1)] }, stall := s, outG := fun _ => [], out := fun x => one d (x.gn a) }
  | .gtoh s d a =>
      some { needs := { rg := [a.toNat], wv := [(d.toNat, 1)] }, stall := s, outG := fun _ => [], out := fun x => one d (x.gn a / 2 ^ 32) }
  | .gcmp s c p a b =>
      some { needs := { rg := [a.toNat, b.toNat], wp := [p.toNat] }, stall := s, outG := fun _ => [], out := fun x =>
        { p := [(p.toNat, match c.toNat with
          | 6 => decide (x.gn a < x.gn b)
          | 7 => decide (x.gn b ≤ x.gn a)
          | c => holds c (x.gi a) (x.gi b))] } }
  | _ => none

/-! ### Float words -/

/-- A carrier result with FO, and NV when the operation was invalid (R29 to R31, R40). -/
def floatResult (o : BitVec 1) (d : BitVec 6) (r : Val × Bool) : Put :=
  { v := [(d.toNat, flushOut (decide (o = 1#1)) (carryVal r.1))], flags := if r.2 then flagNV else 0#32 }

/-- What a carrier operand denotes, with FI (R31). -/
def View.f (x : View) (fi : BitVec 1) (i : BitVec 6) : Val := carrierVal (flushIn (decide (fi = 1#1)) (x.v i.toNat))

/-- v[D] := carry of a value computed from v[A] and v[B]. -/
def fab (s : BitVec 2) (i o : BitVec 1) (lat : Nat) (d a b : BitVec 6) (f : Val → Val → Val × Bool) : Option Does :=
  own s lat { rv := [(a.toNat, 1), (b.toNat, 1)], wv := [(d.toNat, 1)] } fun x => floatResult o d (f (x.f i a) (x.f i b))

/-- v[D] := carry of a value computed from v[D], v[A] and v[B]. -/
def fdab (s : BitVec 2) (i o : BitVec 1) (d a b : BitVec 6) (f : Val → Val → Val → Val × Bool) : Option Does :=
  own s 6 { rv := [(d.toNat, 1), (a.toNat, 1), (b.toNat, 1)], wv := [(d.toNat, 1)] } fun x =>
    floatResult o d (f (x.f i d) (x.f i a) (x.f i b))

/-- |r| of a result, zero as +0. -/
def magnitudeOf : Val × Bool → Val × Bool
  | (.num x, bad) => (.num { x with neg := false }, bad)
  | (.inf _, bad) => (.inf false, bad)
  | r => r

/-- Add, subtract, multiply, divide, reciprocal and tree sum: R306, R310, R309 (frcp), R300 (crfadd), with the 16-bit forms of R74. -/
def floatArithmetic : Instr → Option Does
  | .fadd s i o d a b => fab s i o 6 d a b Val.add
  | .fadd16 d a => fab 0 0 0 6 d d (a.setWidth 6) Val.add
  | .fsub s i o d a b => fab s i o 6 d a b fun x y => Val.add x y.negate
  | .fsub16 d a => fab 0 0 0 6 d d (a.setWidth 6) fun x y => Val.add x y.negate
  | .fabsd s i o d a b => fab s i o 6 d a b fun x y => magnitudeOf (Val.add x y.negate)
  | .fmul s i o d a b => fab s i o 6 d a b Val.mul
  | .fmul16 d a => fab 0 0 0 6 d d (a.setWidth 6) Val.mul
  | .ffma s i o d a b => fdab s i o d a b fun z x y => Val.fma x y z
  | .ffms s i o d a b => fdab s i o d a b fun z x y => Val.fma x y z.negate
  | .fnfma s i o d a b => fdab s i o d a b fun z x y => Val.fma x.negate y z
  | .fdiv s i o d a b => fab s i o 16 d a b Val.div
  | .frcp s i o d a => own s 16 { rv := [(a.toNat, 1)], wv := [(d.toNat, 1)] } fun x =>
      floatResult o d (Val.div (.num (Ex.ofNat 1)) (x.f i a))
  | .crfadd s d a => coll s { rv := [(a.toNat, 1)], wv := [(d.toNat, 1)] } fun l _ =>
      let r := treeSum (l.map fun y => y.v a.toNat)
      { v := [(d.toNat, r.1)], flags := if r.2 then flagNV else 0#32 }
  | _ => none

/-- v[D] := a carrier computed from the carrier in v[A], with FI and FO and no flag. -/
def fone (s : BitVec 2) (i o : BitVec 1) (d a : BitVec 6) (f : Carrier → Carrier) : Option Does :=
  own s 6 { rv := [(a.toNat, 1)], wv := [(d.toNat, 1)] } fun x =>
    { v := [(d.toNat, flushOut (decide (o = 1#1)) (f (flushIn (decide (i = 1#1)) (x.v a.toNat))))] }

/-- The chosen operand of a minimum or maximum (R307, R26): the one wanted; between zeros that denote the same number the minimum takes the
negative one; of two equal infinities, which the spec does not choose between, the one that `first` says. -/
def chosen (first least strict : Bool) (a b : Carrier) : Carrier :=
  match (carrierVal a).isNan, (carrierVal b).isNan with
  | true, true => Carrier.nan
  | true, false => if strict then Carrier.nan else b
  | false, true => if strict then Carrier.nan else a
  | false, false =>
    let c := Val.cmp (carrierVal a) (carrierVal b)
    if c = 0 then (match carrierVal a with
      | .inf _ => if first then a else b
      | _ => if a.w.getLsbD 31 = least then a else b)
    else if (decide (c < 0)) = least then a else b

/-- A minimum or maximum of two carriers by the spec: its stall field, FI and FO, its operands, and whether it is the minimum and takes NaN
on. -/
structure Choice2 where
  stall : BitVec 2
  fi : Bool
  fo : Bool
  d : BitVec 6
  a : BitVec 6
  b : BitVec 6
  least : Bool
  strict : Bool

/-- The minima and maxima of R307, with the 16-bit form of R74. -/
def choices : Instr → Option Choice2
  | .fmin s i o d a b => some { stall := s, fi := i = 1#1, fo := o = 1#1, d := d, a := a, b := b, least := true, strict := false }
  | .fmax s i o d a b => some { stall := s, fi := i = 1#1, fo := o = 1#1, d := d, a := a, b := b, least := false, strict := false }
  | .fmax16 d a => some { stall := 0, fi := false, fo := false, d := d, a := d, b := a.setWidth 6, least := false, strict := false }
  | .fminn s i o d a b => some { stall := s, fi := i = 1#1, fo := o = 1#1, d := d, a := a, b := b, least := true, strict := true }
  | .fmaxn s i o d a b => some { stall := s, fi := i = 1#1, fo := o = 1#1, d := d, a := a, b := b, least := false, strict := true }
  | _ => none

def Choice2.needs (e : Choice2) : Needs := { rv := [(e.a.toNat, 1), (e.b.toNat, 1)], wv := [(e.d.toNat, 1)] }

/-- The minimum or maximum is performed, some operand being taken between equal infinities that differ in S (log 65). -/
def Chooses (i : Instr) (e : Choice2) : Prop :=
  ∀ s g p, Issues s .lane e.needs g p → ∃ t, ∃ first : Carrier → Carrier → Bool, exec i s = .next t
    ∧ Ran s t .lane e.stall.toNat 6 g p (passing s g p) (fun x =>
        let a := flushIn e.fi (x.v e.a.toNat)
        let b := flushIn e.fi (x.v e.b.toNat)
        { v := [(e.d.toNat, flushOut e.fo (chosen (first a b) e.least e.strict a b))] }) []

/-- Signs, rounding to whole numbers, classes and scaling: R308, R311, R312; what the functions named here answer is stated apart. -/
def floatChoice : Instr → Option Does
  | .fabs s i o d a => fone s i o d a fun c => if (carrierVal c).isNan then Carrier.nan else { c with w := c.w &&& ~~~0x80000000#32 }
  | .fneg s i o d a => fone s i o d a fun c => if (carrierVal c).isNan then Carrier.nan else { c with w := c.w ^^^ 0x80000000#32 }
  | .fflr s i o d a => fone s i o d a (roundWhole .rd)
  | .fceil s i o d a => fone s i o d a (roundWhole .ru)
  | .ftrnc s i o d a => fone s i o d a (roundWhole .rz)
  | .frndn s i o d a => fone s i o d a (roundWhole .rne)
  | .fclass s i _ d a => own s 6 { rv := [(a.toNat, 1)], wv := [(d.toNat, 1)] } fun x =>
      { v := [(d.toNat, { w := classMask (flushIn (decide (i = 1#1)) (x.v a.toNat)), s := false })] }
  | .fscl s i o d a b => own s 6 { rv := [(a.toNat, 1), (b.toNat, 1)], wv := [(d.toNat, 1)] } fun x =>
      { v := [(d.toNat, flushOut (decide (o = 1#1)) (scaleCarrier (flushIn (decide (i = 1#1)) (x.v a.toNat)) (x.i b)))] }
  | .fexpo s i _ d a => own s 6 { rv := [(a.toNat, 1)], wv := [(d.toNat, 1)] } fun x =>
      one d (match x.f i a with
        | .num y => if y.isZero then -2 ^ 31 else y.log2
        | _ => 0x7FFFFFFF)
  | .fmant s i o d a => fone s i o d a mantissaOf
  | .fcvt s i o d a f => own s 6 { rv := [(a.toNat, 1)], wv := [(d.toNat, 1)], ok := decide (f.toNat < 8) } fun x =>
      { v := [(d.toNat, flushOut (decide (o = 1#1)) (cvtResult (flushIn (decide (i = 1#1)) (x.v a.toNat)) f.toNat))] }
  | _ => none

/-- v[D] := one function of the special class, with FI and FO, and NV when it is invalid (R309). -/
def fspecial (s : BitVec 2) (i o : BitVec 1) (d a : BitVec 6) (f : Carrier → Carrier × Bool) : Option Does :=
  own s 16 { rv := [(a.toNat, 1)], wv := [(d.toNat, 1)] } fun x =>
    let r := f (flushIn (decide (i = 1#1)) (x.v a.toNat))
    { v := [(d.toNat, flushOut (decide (o = 1#1)) r.1)], flags := if r.2 then flagNV else 0#32 }

/-- The special functions of R309 and the random numbers of R320, by functions whose properties are stated apart. -/
def floatSpecial : Instr → Option Does
  | .frsq s i o d a => fspecial s i o d a frsqOf
  | .fsqrt s i o d a => fspecial s i o d a fsqrtOf
  | .fexp2 s i o d a => fspecial s i o d a fexp2Of
  | .flog2 s i o d a => fspecial s i o d a flog2Of
  | .fsin s i o d a => fspecial s i o d a fsinOf
  | .fcos s i o d a => fspecial s i o d a fcosOf
  | .ftanh s i o d a => fspecial s i o d a ftanhOf
  | .fsigm s i o d a => fspecial s i o d a fsigmOf
  | .rng32 s d a b => own s 6 { rv := [(a.toNat, 1), (b.toNat, 1)], wv := [(d.toNat, 1)] } fun x =>
      { v := [(d.toNat, { w := rng32 (x.v a.toNat).w (x.v b.toNat).w, s := false })] }
  | .rngu s d a b => own s 6 { rv := [(a.toNat, 1), (b.toNat, 1)], wv := [(d.toNat, 1)] } fun x =>
      { v := [(d.toNat, rngu (x.v a.toNat).w (x.v b.toNat).w)] }
  | .rngg s d a b => own s 16 { rv := [(a.toNat, 1), (b.toNat, 1)], wv := [(d.toNat, 1)] } fun x =>
      { v := [(d.toNat, gumbel (x.v a.toNat).w (x.v b.toNat).w)] }
  | _ => none

/-- The kind and the operands of every word that computes registers from registers. -/
def registerWord (i : Instr) : Option (Kind × Needs) :=
  match arithmetic i <|> bitwork i <|> moves i <|> laneMoves i <|> collectives i <|> floatArithmetic i <|> floatChoice i <|> floatSpecial i with
  | some e => some (e.kind, e.needs)
  | none => match choices i, uniforms i, i with
    | some e, _, _ => some (.lane, e.needs)
    | _, some e, _ => some (.pass, e.needs)
    | _, _, .crfmin _ d a => some (.cohort, { rv := [(a.toNat, 1)], wv := [(d.toNat, 1)] })
    | _, _, .crfmax _ d a => some (.cohort, { rv := [(a.toNat, 1)], wv := [(d.toNat, 1)] })
    | _, _, _ => none

/-- An element finalised under a rounding mode: the value, the flags it sets, and DITH afterwards, which advances once under SR (R34, R38). -/
def finished (code r : Nat) (dith : Word) (c : Carrier) : Fin × Word × Word :=
  match floatFmt code, roundOf r with
  | some f, some m => ((finVal (carrierVal c) f m dith.toNat (2 ^ 32)).1, (finVal (carrierVal c) f m dith.toNat (2 ^ 32)).2,
      if r = 5 then dithNext dith else dith)
  | _, _ => (.num false 0 0, 0#32, dith)

/-- DITH is written only under SR. -/
def dithPut (r : Nat) (d : Word) : Option Word := if r = 5 then some d else none

/-- The integer of R36 in v[D], with its flags. -/
def finishedInt (d : BitVec 6) (code r : Nat) (dith : Word) (c : Carrier) : Put :=
  match intBounds code, roundOf r with
  | some (lo, hi), some m =>
    let x := finInt (carrierVal c) lo hi m dith.toNat (2 ^ 32)
    { v := [(d.toNat, low x.1)], flags := x.2, dith := dithPut r (dithNext dith) }
  | _, _ => {}

/-- Conversions and finalisation: R313 to R318, for the codes that a well-formed word has. -/
def conversions : Instr → Option Does
  | .ffin s r d a f => own s 6 { rv := [(a.toNat, 1)], wv := [(d.toNat, 1)], ok := decide (f.toNat ≠ 8 ∧ f.toNat < 14) } fun x =>
      if f.toNat < 8 then
        let y := finished f.toNat r.toNat x.th.dith (x.v a.toNat)
        { v := [(d.toNat, finCarrier y.1)], flags := y.2.1, dith := dithPut r.toNat y.2.2 }
      else finishedInt d f.toNat r.toNat x.th.dith (x.v a.toNat)
  | .fpack s r t d a b => own s 6 { rv := [(a.toNat, 1), (b.toNat, 1)], wv := [(d.toNat, 1)] } fun x =>
      let code := if t = 1#1 then 2 else 1
      let lo := finished code r.toNat x.th.dith (x.v a.toNat)
      let hi := finished code r.toNat lo.2.2 (x.v b.toNat)
      { v := [(d.toNat, low (elemPattern code lo.1 + 2 ^ 16 * elemPattern code hi.1))], flags := lo.2.1 ||| hi.2.1
        dith := dithPut r.toNat hi.2.2 }
  | .fpk8 s r d a l f => own s 6 { rv := [(d.toNat, 1), (a.toNat, 1)], wv := [(d.toNat, 1)], ok := decide (f = 3#4 ∨ f = 4#4) } fun x =>
      let y := finished f.toNat r.toNat x.th.dith (x.v a.toNat)
      { v := [(d.toNat, low (x.n d - byteOf (x.n d) l.toNat * 2 ^ (8 * l.toNat) + elemPattern f.toNat y.1 % 256 * 2 ^ (8 * l.toNat)))]
        flags := y.2.1, dith := dithPut r.toNat y.2.2 }
  | .funpk s d a l c => own s 6 { rv := [(a.toNat, 1)], wv := [(d.toNat, 1)], ok := decide (l.toNat * unpackBits c.toNat < 32) } fun x =>
      let bits := (x.n a / 2 ^ (l.toNat * unpackBits c.toNat) % 2 ^ unpackBits c.toNat).toNat
      { v := [(d.toNat, carryVal (match c.toNat with
        | 0 => fmtVal fmtBF16 bits
        | 1 => fmtVal fmtF16 bits
        | 2 => fmtVal fmtE4M3 bits
        | 3 => fmtVal fmtE5M2 bits
        | _ => fmtVal fmtE2M1 bits))] }
  | .ftoi s r d a f => own s 6 { rv := [(a.toNat, 1)], wv := [(d.toNat, 1)], ok := decide (9 ≤ f.toNat ∧ f.toNat < 14) } fun x =>
      finishedInt d f.toNat r.toNat x.th.dith (x.v a.toNat)
  | .itof s d a f => own s 6 { rv := [(a.toNat, 1)], wv := [(d.toNat, 1)], ok := decide (9 ≤ f.toNat ∧ f.toNat < 14) } fun x =>
      { v := [(d.toNat, carry (Ex.ofInt (match f.toNat with
        | 9 => (x.n a % 2 ^ 8).bmod (2 ^ 8)
        | 10 => x.n a % 2 ^ 8
        | 11 => (x.n a % 2 ^ 16).bmod (2 ^ 16)
        | 12 => x.i a
        | _ => x.n a)))] }
  | _ => none

end Sys2Proof.Machine
end

