-- ==== Sys2Proof/Safety/Access.lean ====
section
/-! DEFINITION. What the spec says each memory word asks of memory, and what its home makes of it (12_memory R207 to R231; 17_isa_memory
R324 to R335). -/

namespace Sys2Proof.Machine

/-- A memory word of one access for each executing thread, by the spec: its operands, its token (3 for none), whether it writes, its size,
which is also its alignment (R325), the address, what is done at the home and how the bytes come back. -/
structure Accesses where
  needs : Needs
  stall : BitVec 2
  tok : Nat
  writes : Bool
  size : Nat
  addr : View → Quad
  act : View → Act
  fill : View → Option Fill := fun _ => none
  acquire : Bool := false
  /-- it refuses host memory (R331) -/
  hostless : Bool := false
  /-- FSTAT and DITH of STF -/
  out : View → Put := fun _ => {}

/-- The address of R324: g[G] + W of v[A] × 2^k, modulo 2^64. -/
def ea (x : View) (g : BitVec 4) (a : BitVec 6) (k : Nat) : Quad := BitVec.ofNat 64 ((x.g g.toNat).toNat + (x.v a.toNat).w.toNat * 2 ^ k)

/-- The operands of format M: the base, the index, and the v registers read and written. -/
def atNeeds (g : BitVec 4) (a : BitVec 6) (rv wv : List (Nat × Nat)) (ok : Bool := true) : Needs :=
  { rv := (a.toNat, 1) :: rv, wv := wv, rg := [g.toNat], ok := ok }

/-- W of four registers as 16 bytes, lowest first. -/
def quadBytes (x : View) (d : Nat) : List Byte := (List.range 4).flatMap fun i => leBytes 4 (x.v (d + i)).w.toNat

/-- The register image of R326 in 8 bytes: W, then S in bit 32. -/
def imageOf (c : Carrier) : Nat := c.w.toNat + if c.s then 2 ^ 32 else 0

/-- A store of a float element (R327): codes 0 to 4 and 7; an E2M1 element is one nibble, even indexes in the low half. -/
def storesFloat (s : BitVec 2) (code : Nat) (r : BitVec 4) (d : BitVec 6) (g : BitVec 4) (a : BitVec 6) : Accesses :=
  let y := fun (x : View) => finished code r.toNat x.th.dith (x.v d.toNat)
  { needs := atNeeds g a [(d.toNat, 1)] [], stall := s, tok := 3, writes := true, size := (match code with | 0 => 4 | 1 => 2 | 2 => 2 | _ => 1)
    addr := fun x => match code with
      | 0 => ea x g a 2
      | 1 => ea x g a 1
      | 2 => ea x g a 1
      | 7 => BitVec.ofNat 64 ((x.g g.toNat).toNat + (x.v a.toNat).w.toNat / 2)
      | _ => ea x g a 0
    act := fun x => if code = 7 then .nibble (decide ((x.v a.toNat).w.toNat % 2 = 1)) (elemPattern 7 (y x).1 % 16)
      else .write (leBytes (match code with | 0 => 4 | 1 => 2 | 2 => 2 | _ => 1) (elemPattern code (y x).1))
    out := fun x => { flags := (y x).2.1, dith := dithPut r.toNat (y x).2.2 } }

/-- ATOM, which returns the old value under its token, and RED (R331, R332). -/
def atomic (s : BitVec 2) (op : AtomOp) (d : BitVec 6) (g : BitVec 4) (a : BitVec 6) (t : Option (BitVec 2)) : Accesses :=
  let wide := decide (op = .addW)
  let n := if wide then 2 else 1
  { needs := atNeeds g a [(d.toNat, if wide || decide (op = .cas) then 2 else 1)] (if t.isSome then [(d.toNat, n)] else []), stall := s
    tok := (match t with | none => 3 | some x => x.toNat), writes := true, size := 4 * n, hostless := true
    addr := fun x => ea x g a (n + 1)
    act := fun x => match op with
      | .addW => .atom .addW (BitVec.ofInt 64 (x.nn d)) 0
      | .fadd => .atom .fadd (BitVec.ofNat 64 (imageOf (x.v d.toNat))) 0
      | .cas => .atom .cas (BitVec.ofInt 64 (x.n d)) (BitVec.ofNat 64 (x.v (d.toNat + 1)).w.toNat)
      | op => .atom op (BitVec.ofInt 64 (x.n d)) 0
    fill := fun _ => if t.isSome then some (.words d.toNat n) else none }

/-- Every memory word of one access for each thread; a release store also waits first. -/
def memoryWord : Instr → Option Accesses
  | .ld s z x q d g a t => some
      { needs := atNeeds g a [] [(d.toNat, if z = 3#2 then 2 else 1)], stall := s, tok := t.toNat, writes := false, size := 2 ^ z.toNat
        addr := fun v => ea v g a z.toNat, act := fun _ => .read, acquire := decide (q = 1#1)
        fill := fun _ => some (match z.toNat with
          | 0 => .narrow d.toNat (decide (x = 1#1))
          | 1 => .narrow d.toNat (decide (x = 1#1))
          | 2 => .words d.toNat 1
          | _ => .words d.toNat 2) }
  | .ldq s q d g a t => some
      { needs := atNeeds g a [] [(d.toNat, 4)], stall := s, tok := t.toNat, writes := false, size := 16, addr := fun v => ea v g a 4
        act := fun _ => .read, acquire := decide (q = 1#1), fill := fun _ => some (.words d.toNat 4) }
  | .ldf s f d g a t => some
      { needs := atNeeds g a [] [(d.toNat, 1)] (decide (f.toNat ≤ 4 ∨ f = 7#4)), stall := s, tok := t.toNat, writes := false
        size := (match f.toNat with | 0 => 4 | 1 => 2 | 2 => 2 | _ => 1)
        addr := fun v => match f.toNat with
          | 0 => ea v g a 2
          | 1 => ea v g a 1
          | 2 => ea v g a 1
          | 7 => BitVec.ofNat 64 ((v.g g.toNat).toNat + (v.v a.toNat).w.toNat / 2)
          | _ => ea v g a 0
        act := fun _ => .read
        fill := fun v => some (.elem d.toNat f.toNat (decide (f = 7#4 ∧ (v.v a.toNat).w.toNat % 2 = 1))) }
  | .st s z r d g a => if r = 1#1 then none else some
      { needs := atNeeds g a [(d.toNat, if z = 3#2 then 2 else 1)] [], stall := s, tok := 3, writes := true, size := 2 ^ z.toNat
        addr := fun v => ea v g a z.toNat, act := fun v => .write (leBytes (2 ^ z.toNat) (v.nn d).toNat) }
  | .stq s d g a => some
      { needs := atNeeds g a [(d.toNat, 4)] [], stall := s, tok := 3, writes := true, size := 16, addr := fun v => ea v g a 4
        act := fun v => .write (quadBytes v d.toNat) }
  | .stfF32 s r d g a => some (storesFloat s 0 r d g a)
  | .stfBf16 s r d g a => some (storesFloat s 1 r d g a)
  | .stfF16 s r d g a => some (storesFloat s 2 r d g a)
  | .stfE4m3 s r d g a => some (storesFloat s 3 r d g a)
  | .stfE5m2 s r d g a => some (storesFloat s 4 r d g a)
  | .stfE2m1 s r d g a => some (storesFloat s 7 r d g a)
  | .stimg s d g a => some
      { needs := atNeeds g a [(d.toNat, 1)] [], stall := s, tok := 3, writes := true, size := 8, addr := fun v => ea v g a 3
        act := fun v => .write (leBytes 8 (imageOf (v.v d.toNat))) }
  | .ldimg s d g a t => some
      { needs := atNeeds g a [] [(d.toNat, 1)], stall := s, tok := t.toNat, writes := false, size := 8, addr := fun v => ea v g a 3
        act := fun _ => .read, fill := fun _ => some (.image d.toNat) }
  | .atomAdd s d g a t => some (atomic s .add d g a (some t))
  | .atomMinI s d g a t => some (atomic s .minI d g a (some t))
  | .atomMaxI s d g a t => some (atomic s .maxI d g a (some t))
  | .atomMinN s d g a t => some (atomic s .minN d g a (some t))
  | .atomMaxN s d g a t => some (atomic s .maxN d g a (some t))
  | .atomAnd s d g a t => some (atomic s .and d g a (some t))
  | .atomOr s d g a t => some (atomic s .or d g a (some t))
  | .atomXor s d g a t => some (atomic s .xor d g a (some t))
  | .atomExch s d g a t => some (atomic s .exch d g a (some t))
  | .atomCas s d g a t => some (atomic s .cas d g a (some t))
  | .atomAddW s d g a t => some (atomic s .addW d g a (some t))
  | .atomFadd s d g a t => some (atomic s .fadd d g a (some t))
  | .redAdd s d g a => some (atomic s .add d g a none)
  | .redMinI s d g a => some (atomic s .minI d g a none)
  | .redMaxI s d g a => some (atomic s .maxI d g a none)
  | .redMinN s d g a => some (atomic s .minN d g a none)
  | .redMaxN s d g a => some (atomic s .maxN d g a none)
  | .redAnd s d g a => some (atomic s .and d g a none)
  | .redOr s d g a => some (atomic s .or d g a none)
  | .redXor s d g a => some (atomic s .xor d g a none)
  | .redAddW s d g a => some (atomic s .addW d g a none)
  | .redFadd s d g a => some (atomic s .fadd d g a none)
  | .czero s g a => some
      { needs := atNeeds g a [] [], stall := s, tok := 3, writes := true, size := 128, addr := fun v => ea v g a 7
        act := fun _ => .write (List.replicate 128 0) }
  | _ => none

/-- The threads that a memory word makes an access for: those that pass the guard; helpers only load (R141). -/
def Accesses.askers (e : Accesses) (s : State) (g : Group) (p : Pass) : List View :=
  (passing s g p).filter fun x => !x.helper || !e.writes

/-- A word that keeps its pass from being quiet as it issues: a store, a reduction, or an atomic but for CAS, which does so when it succeeds
(R145). -/
def Accesses.loud (e : Accesses) (x : View) : Bool := e.writes && (match e.act x with
  | .atom .cas _ _ => false
  | _ => true)

/-- A pass, and all passes of the word's group, once a word has named a token: one that was clear covers nothing issued before (R82, R85). -/
def Pass.named (s : State) (tok : Nat) (p : Pass) : Pass :=
  if s.tokenPending s.cur.gid tok then p else { p with covered := p.covered.filter fun x => x.1 != tok }
def Group.named (s : State) (tok : Nat) (g : Group) : Group := { g with passes := g.passes.map fun (k, p) => (k, p.named s tok) }

/-- The leaf of an aligned address that translates has A, and D for a write, set already (R181). -/
def Accesses.Touched (e : Accesses) (s : State) (g : Group) (x : View) : Prop :=
  (e.addr x).toNat % e.size = 0 → ∀ space key cls k, s.locate g (e.addr x) e.writes = .ok space key cls (some k) →
    (s.latest8 k).getLsbD 4 = true ∧ (e.writes = true → (s.latest8 k).getLsbD 5 = true)

/-- The thread's address is aligned and leads to a place that the word accepts, whose leaf has A, and D for a write, set (R181, R325). -/
def Accesses.Leads (e : Accesses) (s : State) (g : Group) (x : View) (space : Space) (key cls : Nat) : Prop :=
  (e.addr x).toNat % e.size = 0 ∧ (e.hostless = true → space ≠ .host) ∧ ∃ leaf, s.locate g (e.addr x) e.writes = .ok space key cls leaf
    ∧ ∀ k, leaf = some k → (s.latest8 k).getLsbD 4 = true ∧ (e.writes = true → (s.latest8 k).getLsbD 5 = true)

/-- The access of one thread on its way: the class is that of its HINT or leaf, and a host line is kept only through a leaf of class 2. -/
def Accesses.access (e : Accesses) (s : State) (g : Group) (x : View) (space : Space) (key cls : Nat) : Access :=
  { gid := s.cur.gid, pid := s.cur.pid, tids := [x.tid], helper := x.helper, tok := e.tok, addr := e.addr x, space := space, key := key
    size := e.size, act := e.act x, fill := e.fill x, acquire := e.acquire
    cls := if space = .host ∧ cls ≠ 2 then 3 else s.cur.hint.getD cls
    since := s.cycle * 5 / 7, ctx := g.ctx, port := if space = .peer then s.routeOf key else none, beat := x.cyc }

/-- Why a thread's access faults at once, by the order of R325: alignment, then translation, then a space that the word refuses. -/
def Accesses.faults (e : Accesses) (s : State) (g : Group) (x : View) : Option Nat :=
  if (e.addr x).toNat % e.size ≠ 0 then some 4
  else match s.locate g (e.addr x) e.writes with
    | .fault c => some c
    | .ok .host _ _ _ => if e.hostless then some 9 else none
    | _ => none

/-! ### At the home -/

/-- The new value of an atomic operation, from its old value and operands as numbers (R331). -/
def atomResult (op : AtomOp) (o q y : Nat) : Int :=
  let x := if op = .addW then q else q % 2 ^ 32
  match op with
  | .add => o + x
  | .addW => o + x
  | .minI => min ((o : Int).bmod (2 ^ 32)) ((x : Int).bmod (2 ^ 32))
  | .maxI => max ((o : Int).bmod (2 ^ 32)) ((x : Int).bmod (2 ^ 32))
  | .minN => min o x
  | .maxN => max o x
  | .and => (o &&& x : Nat)
  | .or => (o ||| x : Nat)
  | .xor => (o ^^^ x : Nat)
  | .exch => x
  | .cas => if o = x then y else o
  | .fadd =>
    let sum := (Val.add (carrierVal { w := BitVec.ofNat 32 o, s := false })
      (carrierVal { w := BitVec.ofNat 32 x, s := decide (q / 2 ^ 32 % 2 = 1) })).1
    finPattern fmtF32 (finVal sum fmtF32 .rne 0 1).1

/-- The reductions of R200 on patterns: ADD.I32, ADD.F32, ADD.BF16, MAX.F32, MIN.F32. -/
def combined (red o x : Nat) : Nat :=
  let sum := fun (f : Fmt) => finPattern f (finVal (Val.add (fmtVal f o) (fmtVal f x)).1 f .rne 0 1).1
  let pick := fun (least : Bool) =>
    (chosen true least true { w := BitVec.ofNat 32 o, s := false } { w := BitVec.ofNat 32 x, s := false }).w.toNat
  match red with
  | 0 => (o + x) % 2 ^ 32
  | 1 => sum fmtF32
  | 2 => sum fmtBF16
  | 3 => pick false
  | _ => pick true

/-- The bytes that an access leaves at its home, from those it finds (R221, R327, R331). -/
def written (size : Nat) (act : Act) (old : List Byte) : List Byte :=
  match act with
  | .read => old
  | .write b => b
  | .nibble high val =>
    let b := leNat (old.take 1)
    [BitVec.ofNat 8 (if high then b % 16 + 16 * val else b / 16 * 16 + val)]
  | .atom op x y => leBytes size (atomResult op (leNat old) x.toNat y.toNat % 2 ^ (8 * size)).toNat

/-- An access of a width that its operation has. -/
def Access.shaped (a : Access) : Prop :=
  match a.act with
  | .read => True
  | .write b => b.length = a.size
  | .nibble _ _ => a.size = 1
  | .atom op _ _ => a.size = if op = .addW then 8 else 4

/-- The write completion time of a write of `n` bytes that arrives now (R208, R221, R222, R224); to host memory, after that of every
earlier write to the location; at a peer, no earlier than the time that the peer reports, `ext`, less the offset of the port (R197). A write over
two lines waits for both (R209). -/
def completionTime (s : State) (key n ext : Nat) : Nat :=
  match keySpace key with
  | .scratch => s.now
  | .host => s.pend.foldl (fun t w => if w.key < key + n ∧ key < w.key + w.bytes.length then max t (w.twc + 1) else t) (max s.now ext)
  | space => [key, key + (n - 1)].foldl (fun t k => max t (max (readAt 0 s.emax (k / 128 * 128) + 4) (readAt 0 s.tlast (k / 128 * 128) + 1)))
      (max s.now (match space, (s.routeOf key).bind fun q => lookup s.ports q with
        | .peer, some x => ((ext : Int) - x.toff.toInt).toNat
        | _, _ => 0))

/-- The registers that a read's bytes become (R24, R326, R327). -/
def filled (f : Fill) (bytes : List Byte) : List (Nat × Carrier) :=
  let x : Int := leNat bytes
  match f with
  | .words d n => (List.range n).map fun i => (d + i, low (x / 2 ^ (32 * i)))
  | .narrow d signed => [(d, low (if signed then x.bmod (2 ^ (8 * bytes.length)) else x))]
  | .image d => [(d, { w := BitVec.ofInt 32 x, s := decide (x / 2 ^ 32 % 2 = 1) })]
  | .elem d code high =>
    let n := x.toNat
    [(d, carryVal (match code with
      | 0 => fmtVal fmtF32 n
      | 1 => fmtVal fmtBF16 n
      | 2 => fmtVal fmtF16 n
      | 3 => fmtVal fmtE4M3 n
      | 4 => fmtVal fmtE5M2 n
      | _ => fmtVal fmtE2M1 (if high then n / 16 else n % 16)))]
  | _ => []

/-- The fills that memory words ask for, with bytes of their widths. -/
def Fill.fits (f : Fill) (n : Nat) : Prop :=
  match f with
  | .words _ k => n = 4 * k
  | .narrow _ _ => n = 1 ∨ n = 2
  | .image _ => n = 8
  | .elem _ c _ => c < 5 ∧ n = (match c with | 0 => 4 | 1 => 2 | 2 => 2 | _ => 1) ∨ c = 7 ∧ n = 1
  | .uniform _ => n = 8
  | .ready _ => False

/-- No pending write of memory is due, and a write to these bytes that arrives now comes after all pending ones (R221, R222). -/
structure InOrder (s : State) (key n ext : Nat) : Prop where
  waiting : ∀ w ∈ s.pend, s.now < w.twc
  rising : ∀ w ∈ s.pend, w.key < key + n → key < w.key + w.bytes.length → w.twc < completionTime s key n ext

/-- A byte is the lowest of a leaf that an address of a context translates through, for a read or a write: it holds A and D (R179, R180). -/
def LeafByte (s : State) (ctx : Nat) (write : Bool) (q : Nat) : Prop :=
  ∃ va space key cls, s.translate ctx va write = .ok space key cls (some q)

/-- What reads and translations under the addresses of a context may leave behind: A, and D for a write, in the leaves that they go through
(R181), and no other byte; leases (R221), windows (R218) and copies (R213). -/
structure Looked (s : State) (ctx : Nat) (t : State) : Prop where
  state : { t with mem := s.mem, pend := s.pend, tlast := s.tlast, emax := s.emax, windows := s.windows, copies := s.copies, stamp := s.stamp } = s
  stamp : s.stamp ≤ t.stamp
  others : (∀ w k, LeafByte s ctx w k → InOrder s k 8 0) → ∀ q, (∀ w, ¬ LeafByte s ctx w q) → t.latest q = s.latest q ∧ t.byte q = s.byte q
  leaves : (∀ w k, LeafByte s ctx w k → InOrder s k 8 0) → ∀ q,
    t.latest q = s.latest q ∨ t.latest q = s.latest q ||| 0x10#8 ∨ (LeafByte s ctx true q ∧ t.latest q = s.latest q ||| 0x30#8)

/-- The answer of an access on its way back: its registers take the bytes, through the port of its access (R82, R196). -/
def Access.answered (a : Access) (f : Fill) (bytes : List Byte) : Result :=
  { gid := a.gid, pid := a.pid, tids := a.tids, helper := a.helper, tok := a.tok, addr := a.addr, fill := f, bytes := bytes, vals := []
    fail := 0, port := a.port, since := a.since, wrote := decide (a.act ≠ .read) }

/-- A port in Up that nothing makes leave it: it has heard a flit in the last 1 µs and has sent none eight times in a row (R195). -/
def InUse (s : State) (q : Nat) (x : Port) : Prop := lookup s.ports q = some x ∧ x.st = 2 ∧ s.now < x.heard + 1000 ∧ x.replays < 8

/-- An access, answer or reply of a peer has had no response for 4 µs, or its port has left Up: only its failure is left (R195, R203). -/
def TooLate (s : State) (port : Option Nat) (since : Nat) : Prop :=
  ∃ q, port = some q ∧ (since + 4000 ≤ s.now ∨ ∀ x, ¬ InUse s q x)

/-- The range of a copy of a line is free of errors of the copy (R379). -/
def Copy.Sound (c : Copy) (off n : Nat) : Prop := ∀ f ∈ c.flaws, f + 8 ≤ off ∨ off + n ≤ f

/-- The completion records of ended groups' commands that wait for a time of a group's stores wait for this one too (R104). -/
def waitFor (gid h : Nat) (rings : Table Ring) : Table Ring :=
  rings.map fun (r, x) => (r, { x with cmds := x.cmds.map fun (q, c) => (q, if gid ∈ c.gids then { c with horizon := max c.horizon h } else c) })

/-! ### Fences -/

/-- Every earlier write of the thread that the scope covers has been answered and its horizons have passed (R227, R228): scope 0 is the
group's, 1 to 3 add the pennants, whose changes reach every copy in 40 cycles (R176), 4 is the system's and adds peers and host. -/
structure Fenced (s : State) (g : Group) (scope tid : Nat) : Prop where
  answered : (g.thread tid).hs = 0 ∧ (g.thread tid).hm ≤ s.now ∧ (4 ≤ scope → (g.thread tid).hx ≤ s.now)
  pennants : scope ≠ 0 → ∀ m, lookup s.teams g.team = some m → ∀ c ∈ m.moving, c.gid = s.cur.gid → c.tid = tid → c.at_ + 40 ≤ s.cycle
  sent : ∀ k a, (k, a) ∈ s.accesses → a.gid = s.cur.gid → tid ∈ a.tids → a.helper = false → a.act ≠ .read →
    scope ≠ 4 ∧ (a.space = .peer ∨ a.space = .host)
  timed : ∀ k r, (k, r) ∈ s.replies → r.gid = s.cur.gid → tid ∈ r.tids → scope ≠ 4 ∧ (r.space = .peer ∨ r.space = .host)

/-- The threads' earlier loads have bound their values (R228). -/
def Bound (s : State) (tids : List Nat) : Prop :=
  ∀ k a, (k, a) ∈ s.accesses → a.gid = s.cur.gid → a.act = .read → a.helper = false → ∀ t ∈ tids, t ∉ a.tids

/-- The address of a store leads to a peer or to host memory: its release waits for a fence of system scope (R230). -/
def GoesOut (s : State) (g : Group) (addr : Quad) (size : Nat) : Bool :=
  decide (addr.toNat % size = 0) && (match s.locate g addr true with
    | .ok space _ _ _ => decide (space = .peer ∨ space = .host)
    | _ => false)

/-- The faults of failed peer stores that a fence of system scope raises, in threads of the word, and the group without them (R203, R228). -/
def lateFaults (g : Group) (tids : List Nat) : List Flt :=
  tids.filterMap fun t => ((g.thread t).late.find? fun l => l.tok == 5).map fun l => { tid := t, code := l.code, detail := 0, addr := l.addr }
def Group.withoutLate (g : Group) (tids : List Nat) : Group :=
  { g with threads := g.threads.map fun (k, t) => (k, if k ∈ tids then { t with late := t.late.filter fun l => l.tok != 5 } else t) }

/-- Every earlier write of a thread to a line has reached its T_wc, or for scratchpad has been answered (R334). -/
structure LineDone (s : State) (tid line : Nat) : Prop where
  sent : ∀ k a, (k, a) ∈ s.accesses → a.gid = s.cur.gid → tid ∈ a.tids → a.act ≠ .read → a.key / 128 * 128 ≠ line
  visible : ∀ w ∈ s.pend, w.gid = s.cur.gid → tid ∈ w.tids → w.key / 128 * 128 ≠ line
  answered : ∀ k r, (k, r) ∈ s.replies → r.gid = s.cur.gid → tid ∈ r.tids → r.space = .scratch → r.key / 128 * 128 ≠ line

/-- The line that each passing thread of a CACHE word names, all of them aligned and placed, through leaves that have A set (R181). -/
def NamesLines (s : State) (g : Group) (p : Pass) (gr : BitVec 4) (a : BitVec 6) (key : View → Nat) : Prop :=
  ∀ x ∈ taking s .lane g p, (ea x gr a 7).toNat % 128 = 0 ∧ ∃ space cls leaf, s.locate g (ea x gr a 7) false = .ok space (key x) cls leaf
    ∧ ∀ k, leaf = some k → (s.latest8 k).getLsbD 4 = true

/-! ### Structures in memory -/

/-- An address that leads to a place of the device, aligned, whose leaf has A and D set. -/
def Home (s : State) (g : Group) (addr : Quad) (size : Nat) (space : Space) (key cls : Nat) : Prop :=
  addr.toNat % size = 0 ∧ ∃ leaf, s.locate g addr true = .ok space key cls leaf
    ∧ ∀ k, leaf = some k → (s.latest8 k).getLsbD 4 = true ∧ (s.latest8 k).getLsbD 5 = true

/-- The same, whatever a write of `n` bytes at `at_` leaves there. -/
def HomeBesides (s : State) (g : Group) (addr : Quad) (size at_ n : Nat) (space : Space) (key cls : Nat) : Prop :=
  ∀ u : State, u.ctxs = s.ctxs → u.teams = s.teams → (∀ q, q < at_ ∨ at_ + n ≤ q → u.latest q = s.latest q) → Home u g addr size space key cls

/-- The next bytes in coherence order: those of a range, and every other byte as before. -/
def NowReads (s t : State) (key : Nat) (bytes : List Byte) : Prop :=
  (∀ j b, bytes[j]? = some b → t.latest (key + j) = b) ∧ ∀ q, q < key ∨ key + bytes.length ≤ q → t.latest q = s.latest q

/-! ### Retention windows -/

/-- Operands of a PIN that R216 refuses: the base not a multiple of 64 KiB in the 52-bit space, LEN 0, WAYS above 16, WAYS without a slice,
reserved bits. -/
def badWindow (base info : Nat) : Bool :=
  decide (base % 2 ^ 16 ≠ 0) || decide (2 ^ 52 ≤ base) || decide (info % 2 ^ 20 = 0) || decide (16 < info / 2 ^ 20 % 2 ^ 5)
    || decide (info / 2 ^ 20 % 2 ^ 5 ≠ 0 ∧ info / 2 ^ 32 % 2 ^ 16 = 0) || decide (info / 2 ^ 25 % 2 ^ 7 ≠ 0) || decide (2 ^ 48 ≤ info)

/-- EWAYS of R217: no more than asked for, than the context's quota leaves, and than 12 less what other windows hold in a slice of MASK. -/
def effectiveWays (s : State) (die w ctx ways mask : Nat) : Nat :=
  let others := (((List.range 8).filter (· != w)).map (s.window die)).filter (·.pinned)
  let mine := ((others.filter fun x => x.ctx == ctx).map (·.eways)).sum
  let held := fun (slice : Nat) => ((others.filter fun x => x.mask.getLsbD slice).map (·.eways)).sum
  let most := (((List.range 16).filter fun i => Nat.testBit mask i).map held).foldl max 0
  min ways (min ((s.ctx ctx).ways - mine) (12 - most))

end Sys2Proof.Machine
end

