-- ==== Sys2Proof/Safety/Commands.lean ====
section
/-! DEFINITION. What the spec says of a command of a ring: its codes, fields and states, when it starts, and how it ends (05_context R90;
06_queue R101 to R107, R111). -/

namespace Sys2Proof.Machine

/-- A row of the command set (R106): the ring it stands on, its code, and what R105 checks of it before its own rule. -/
structure CommandRow where
  ring : Nat
  opc : Nat
  /-- which commands of the code the row is, where several rows share it -/
  part : List Quad → Prop := fun _ => True
  sys : Bool := false
  ctx : Bool := true
  /-- the bits that OP1, OP2 and so on may hold; a slot beyond the list is reserved -/
  slots : List Nat
  inRange : List Quad → Prop := fun _ => True
  states : List Nat
  /-- on a queue that records, it is not refused with status 6 -/
  recorded : Bool := false

/-- OPk of a command's words. -/
def opk (w : List Quad) (k : Nat) : Nat := (w.getD k 0).toNat

def anyBits : Nat := 2 ^ 64 - 1

/-- The command set of R106, with the states of R90 that accept each command. -/
def commandRow : Instr → Option CommandRow
  | .ctxCreate r => some { ring := r, opc := 0x01, sys := true, slots := [1], states := [0] }
  | .ctxDestroy r => some { ring := r, opc := 0x02, sys := true, slots := [], states := [1, 2, 3, 4] }
  | .qCreate r => some
      { ring := r, opc := 0x03, sys := true, slots := [anyBits, 0x1F070F, anyBits], states := [1, 2, 3, 4]
        inRange := fun w => opk w 1 % 64 = 0 ∧ opk w 3 % 16 = 0 ∧ 4 ≤ opk w 2 / 2 ^ 16 ∧ opk w 2 / 2 ^ 16 ≤ 16 }
  | .qCtlPause r => some
      { ring := r, opc := 0x04, sys := true, slots := [0x30F], states := [1, 2, 3, 4]
        part := fun w => opk w 1 / 2 ^ 8 % 4 = 0 ∨ opk w 1 / 2 ^ 8 % 4 = 3, inRange := fun w => opk w 1 / 2 ^ 8 % 4 ≠ 3 }
  | .qCtlResume r => some
      { ring := r, opc := 0x04, sys := true, slots := [0x30F], states := [1, 2, 3, 4], part := fun w => opk w 1 / 2 ^ 8 % 4 = 1 }
  | .qCtlDestroy r => some
      { ring := r, opc := 0x04, sys := true, slots := [0x30F], states := [1, 2, 3, 4], part := fun w => opk w 1 / 2 ^ 8 % 4 = 2 }
  | .map r => some
      { ring := r, opc := 0x05, sys := true, slots := [anyBits, anyBits, anyBits], states := [1, 2, 3, 4]
        inRange := fun w => 1 ≤ opk w 3 ∧ opk w 3 ≤ 65536 }
  | .unmap r => some
      { ring := r, opc := 0x06, sys := true, slots := [anyBits, anyBits], states := [1, 2, 3, 4]
        inRange := fun w => 1 ≤ opk w 2 ∧ opk w 2 ≤ 65536 ∧ opk w 1 % 65536 = 0 }
  | .poolCreate r => some
      { ring := r, opc := 0x07, sys := true, slots := [anyBits, anyBits, anyBits], states := [1, 2, 3, 4], inRange := fun w => opk w 1 ≤ 65534 }
  | .kernLoad r => some { ring := r, opc := 0x09, slots := [anyBits, anyBits], states := [1, 2], inRange := fun w => 64 ≤ opk w 2 }
  | .kernUnload r => some { ring := r, opc := 0x0A, slots := [0xFF], states := [1, 2] }
  | .launch r => some
      { ring := r, opc := 0x10, slots := [0xFFFF00FF, anyBits, anyBits, anyBits], states := [1, 2], recorded := true
        inRange := fun w => 1 ≤ opk w 2 ∧ opk w 2 ≤ 2 ^ 24 }
  | .graphRecord r => some { ring := r, opc := 0x11, slots := [0x3F, anyBits], states := [1, 2], inRange := fun w => opk w 2 % 64 = 0 }
  | .graphEnd r => some { ring := r, opc := 0x12, slots := [], states := [1, 2], recorded := true }
  | .graphReplay r => some { ring := r, opc := 0x13, slots := [0x3F], states := [1, 2] }
  | .gparamSet r => some { ring := r, opc := 0x14, slots := [0x3F3F, anyBits], states := [1, 2] }
  | .preempt r => some { ring := r, opc := 0x20, sys := true, slots := [], states := [2] }
  | .resume r => some { ring := r, opc := 0x21, sys := true, slots := [], states := [3, 4] }
  | .ckptSave r => some
      { ring := r, opc := 0x22, sys := true, ctx := false, slots := [anyBits, anyBits, anyBits, 1], states := [], part := fun w => opk w 4 % 2 = 0
        inRange := fun w => opk w 1 % 65536 = 0 ∧ opk w 2 % 65536 = 0 ∧ opk w 3 % 65536 = 0 ∧ opk w 2 + opk w 3 ≤ hbmEnd }
  | .ckptRestore r => some
      { ring := r, opc := 0x22, sys := true, ctx := false, slots := [anyBits, anyBits, anyBits, 1], states := [], part := fun w => opk w 4 % 2 = 1
        inRange := fun w => opk w 1 % 65536 = 0 ∧ opk w 2 % 65536 = 0 ∧ opk w 3 % 65536 = 0 ∧ opk w 2 + opk w 3 ≤ hbmEnd }
  | .attest r => some { ring := r, opc := 0x23, sys := true, slots := [anyBits, anyBits], states := [1, 2, 3, 4] }
  | .dbgStop r => some { ring := r, opc := 0x30, sys := true, slots := [0xFFFFFFFF], states := [1, 2, 3, 4] }
  | .dbgStep r => some { ring := r, opc := 0x31, sys := true, slots := [0xFFFFFFFF], states := [1, 2, 3, 4] }
  | .dbgSteppass r => some { ring := r, opc := 0x32, sys := true, slots := [0xFFFFFFFF], states := [1, 2, 3, 4] }
  | .dbgStepbin r => some { ring := r, opc := 0x33, sys := true, slots := [0xFFFFFFFF, 0xFFFFFF], states := [1, 2, 3, 4] }
  | .dbgCont r => some { ring := r, opc := 0x34, sys := true, slots := [0xFFFFFFFF], states := [1, 2, 3, 4] }
  | .cfgLoad r => some
      { ring := r, opc := 0x08, sys := true, ctx := false, slots := [anyBits, anyBits], states := []
        inRange := fun w => (2 ^ 63 ≤ opk w 1 ∨ opk w 1 + opk w 2 ≤ hbmEnd) ∧ opk w 2 ≤ 69276 }
  | .syncAll r => some
      { ring := r, opc := 0x3F, sys := true, ctx := false, slots := [anyBits, anyBits], states := []
        inRange := fun w => 2 ^ 63 ≤ opk w 1 ∨ opk w 1 + opk w 2 ≤ hbmEnd }
  | _ => none

/-- A system ring by its number. -/
def SysRing (r : Nat) : Prop := 1024 ≤ r ∧ r < 1028

/-- The context that a command belongs to: the one it names on a system ring, or the queue's own. -/
def CommandRow.target (row : CommandRow) (w : List Quad) : Nat :=
  if 1024 ≤ row.ring ∧ row.ring < 1028 then opk w 0 / 2 ^ 32 % 64 else row.ring / 16

/-- A ring's next command to start (R104): the oldest that has not started, with every command before it reported, or with CONC behind none
without CONC that is still to be reported. -/
structure NextCommand (s : State) (ring seq : Nat) (w : List Quad) (c : Cmd) : Prop where
  oldest : ∃ pre post, (s.ring ring).cmds = pre ++ (seq, c) :: post ∧ ∀ x ∈ pre, x.2.st ≠ .fetched
  entry : lookup (s.ring ring).cmds seq = some c
  fetched : c.st = .fetched
  words : c.words = some w
  order : seq = (s.ring ring).done ∨ ∀ k d v, (k, d) ∈ (s.ring ring).cmds → (s.ring ring).done < k → k ≤ seq → d.words = some v →
    opk v 0 / 2 ^ 8 % 2 = 1

/-- A SUBST entry of a LAUNCH to be recorded: its reserved bits zero, and a slot of 1 to 6 when it is valid (R112). -/
def SubstFits (e : Nat) : Prop :=
  e / 2 ^ 11 % 16 = 0 ∧ e / 2 ^ 6 % 4 = 0 ∧ (e / 2 ^ 15 % 2 = 1 → 1 ≤ e / 2 ^ 8 % 8 ∧ e / 2 ^ 8 % 8 ≤ 6)

/-- Every reserved field is zero and every operand in its range (step 3 of R105). -/
structure CommandRow.Fits (row : CommandRow) (s : State) (w : List Quad) : Prop where
  header : opk w 0 / 2 ^ 10 % 2 ^ 22 = 0 ∧ opk w 0 / 2 ^ 38 = 0
  target : ¬ (SysRing row.ring ∧ row.ctx = true) → opk w 0 / 2 ^ 32 % 64 = 0
  slots : ∀ i, i < 6 → opk w (i + 1) &&& row.slots.getD i 0 = opk w (i + 1)
  subst : if row.opc = 0x10 ∧ (s.ring row.ring).recording.isSome then ∀ i, i < 4 → SubstFits (opk w 7 / 2 ^ (16 * i) % 2 ^ 16) else opk w 7 = 0
  range : row.inRange w

/-- The command is the next of its ring and is this row's. -/
structure CommandRow.Here (row : CommandRow) (s : State) (seq : Nat) (w : List Quad) (c : Cmd) : Prop where
  next : NextCommand s row.ring seq w c
  code : opk w 0 % 2 ^ 8 = row.opc
  part : row.part w
  /-- no replay of the ring has a LAUNCH to issue first -/
  replays : row.opc = 0x13 → s.replays row.ring = []

/-- Every check of R105 before the command's own rule passes, on a ring that is not recording. -/
structure CommandRow.Accepted (row : CommandRow) (s : State) (seq : Nat) (w : List Quad) (c : Cmd) : Prop where
  here : row.Here s seq w c
  sys : row.sys = true → SysRing row.ring
  fits : row.Fits s w
  recording : (s.ring row.ring).recording = none
  state : row.ctx = true → (s.ctx (row.target w)).st ∈ row.states

/-- The command has its status and result and nothing else has changed. -/
def State.ends (s : State) (ring seq : Nat) (c : Cmd) (status result : Nat) : State :=
  s.putRing ring { s.ring ring with cmds := putAt (s.ring ring).cmds seq { c with st := .done, status := status, result := result } }

/-- The command has started and not ended, and nothing else has changed. -/
def State.starts_ (s : State) (ring seq : Nat) (c : Cmd) : State :=
  s.putRing ring { s.ring ring with cmds := putAt (s.ring ring).cmds seq { c with st := .started } }

/-- How a command stands on its ring, whatever else its effect changed: its state, status and result; the other commands are as before. -/
structure CommandEnds (s t : State) (ring seq : Nat) (c : Cmd) (st : CmdSt) (status result : Nat) : Prop where
  entry : ∃ h, c.horizon ≤ h ∧ lookup (t.ring ring).cmds seq = some { c with st := st, status := status, result := result, horizon := h }
  others : ∀ k, k ≠ seq → lookup (t.ring ring).cmds k = lookup (s.ring ring).cmds k
  same : { t.ring ring with cmds := (s.ring ring).cmds } = s.ring ring
  rings : ∀ r, r ≠ ring → t.ring r = s.ring r

/-- A group has ended, and every store of it has been made and answered (R104). -/
def StoresStand (s : State) (gid : Nat) : Prop :=
  (∀ g, lookup s.groups gid = some g → g.st = .ended) ∧ (∀ x ∈ s.accesses, x.2.gid = gid → x.2.act = .read) ∧ ∀ x ∈ s.replies, x.2.gid ≠ gid

/-- A DBG.STEP or DBG.STEPPASS whose step has been taken: no group that it names has a step to take (R159). -/
def StepTaken (s : State) (w : List Quad) : Prop :=
  (opk w 0 % 2 ^ 8 = 0x31 ∨ opk w 0 % 2 ^ 8 = 0x32) ∧ ∀ x ∈ s.groups, x.2.ctx = opk w 0 / 2 ^ 32 % 64 → x.2.grpid = opk w 1 % 2 ^ 32 → x.2.st ≠ .ended →
    x.2.stepOne = false ∧ x.2.stepAll = false ∧ x.2.stepNew = false

/-- A record of a graph's buffer is a LAUNCH whose reserved fields are zero and whose SUBST entries are well formed (R5, R103, R112). -/
structure RecordedFits (ring : Nat) (w : List Quad) : Prop where
  header : opk w 0 % 2 ^ 8 = 0x10 ∧ opk w 0 / 2 ^ 10 % 2 ^ 22 = 0 ∧ opk w 0 / 2 ^ 38 = 0
  target : ¬ SysRing ring → opk w 0 / 2 ^ 32 % 64 = 0
  subst : ∀ i, i < 4 → SubstFits (opk w 7 / 2 ^ (16 * i) % 2 ^ 16)

/-- A place that the device may write for a context: it translates for writing, a peer has a route, and A and D of its leaf are set. -/
def Writable (s : State) (ctx : Nat) (va : Quad) (key : Nat) : Prop :=
  ∃ space cls leaf, s.translate ctx va true = .ok space key cls (some leaf) ∧ s.reached space key = true
    ∧ (s.latest8 leaf).getLsbD 4 = true ∧ (s.latest8 leaf).getLsbD 5 = true

/-- A horizon by which the device's own stores that are still on their way are visible to all (R104, R227). -/
def Covers (h : Nat) (t : State) : Prop := ∀ y ∈ t.pend, y.gid = 0 → y.tids = [] → y.twc + 4 ≤ h

/-- A thermal trip (R376): every Active context begins to halt, memory stays, and no ring fetches. -/
structure Tripped (s t : State) : Prop where
  memory : t.mem = s.mem ∧ t.pend = s.pend
  contexts : ∀ c, c < 64 → (t.ctx c).st = (s.ctx c).st ∧ ((s.ctx c).st ≠ 2 → t.ctx c = s.ctx c) ∧ ((s.ctx c).st = 2 → (t.ctx c).halt =
    some ((s.ctx c).halt.getD { since := s.now, destroy := false, byHalt := false, faulted := false }))
  groups : ∀ k g, lookup s.groups k = some g → g.ctx < 64 →
    lookup t.groups k = some (if (s.ctx g.ctx).st = 2 ∧ (s.ctx g.ctx).halt = none then g.startHalt else g)
  fetching : ∀ r, exec (.commandFetch r) t = .next t

/-! ### Mappings -/

/-- An entry with `n` levels of entries below it is a counted leaf, or a table entry with a counted leaf below it (R382 step 4; log 66). -/
def HoldsCounted (s : State) : Nat → Nat → Prop
  | 0, k => countedEntry (s.latest8 k) = true
  | n + 1, k =>
    let e := s.latest8 k
    if e.getLsbD 0 = true ∧ fld e 7 6 = 0 ∧ tableShapeOk e = true then ∃ i, i < 512 ∧ HoldsCounted s n (fld e 51 12 * 2 ^ 12 + 8 * i)
    else countedEntry e = true

/-- A MAP that R382 accepts: the leaf size, and the entry of each leaf. -/
structure MapGood (s : State) (ctx : Nat) (va e n shift : Nat) (keys : List Nat) : Prop where
  size : (e / 2 ^ 6 % 4, shift) ∈ [(1, 16), (2, 25), (3, 34)]
  placed : va % 2 ^ shift = 0 ∧ va + n * 2 ^ shift ≤ 2 ^ 52
  leaf : e % 2 = 1 ∧ e / 4 % 2 = 0 ∧ leafShapeOk (BitVec.ofNat 64 e) shift = true
  frames : e / 2 ^ 16 % 2 ^ 36 * 2 ^ 16 + n * 2 ^ shift ≤ 2 ^ 52
  reserved : e / 2 ^ 8 % 4 = 0 → ∀ i, i < n → reservedFrames ≤ (e / 2 ^ 16 % 2 ^ 36 + i * 2 ^ (shift - 16)) % 2 ^ 20
  path : keys.length = n ∧ ∀ i k, keys[i]? = some k → ∃ above, leafLevel (e / 2 ^ 6 % 4) = some (shift, above)
    ∧ s.nodeEntry shift above (fld (s.ctx ctx).ptroot 51 12 * 2 ^ 12) (va + i * 2 ^ shift) = some k
  uncounted : ∀ k ∈ keys, ¬ HoldsCounted s ((shift - 16) / 9) k

/-- The leaves of an UNMAP that R382 accepts, from an address on: each begins where the one before it ends. -/
def UnmapRun (s : State) (ctx : Nat) : Nat → List (Nat × Quad × Nat) → Prop
  | _, [] => True
  | va, (k, e, shift) :: rest => va < 2 ^ 52 ∧ s.walk ctx (BitVec.ofNat 64 va) = .leaf k e shift ∧ va % 2 ^ shift = 0
    ∧ UnmapRun s ctx (va + 2 ^ shift) rest

/-- No resolution of copy-on-write that has been decided holds a leaf. -/
def LeafOpen (s : State) (key : Nat) : Prop := ∀ j c, (j, c) ∈ s.cows → c.leaf = key → c.st = .waiting

end Sys2Proof.Machine
end

