-- ==== Sys2Proof/Safety/Control.lean ====
section
/-! DEFINITION. What the spec says terminators and special registers do: R265, R266 and Table 14-2. -/

namespace Sys2Proof.Machine

/-- A terminator by the spec: what it needs, the block a thread goes to (none: it retires), and whether it writes v63. -/
structure Ends where
  needs : Needs
  go : Kernel → Pass → View → Option Nat
  link : Bool

/-- The terminators of R265. -/
def terminators (s : State) (g : Group) : Instr → Option Ends
  | .jmp _ t => some { needs := {}, go := fun _ _ _ => some t.toNat, link := false }
  | .brc _ t p v => some
      { needs := { rp := [p.toNat] }, link := false
        go := fun k q x => some (if x.p p.toNat = decide (v = 1#1) then t.toNat else k.fall q.blk) }
  | .brx _ a => some { needs := { rv := [(a.toNat, 1)] }, go := fun _ _ x => some (x.v a.toNat).w.toNat, link := false }
  | .call _ t => some { needs := { ok := decide (64 ≤ s.regs g) }, go := fun _ _ _ => some t.toNat, link := true }
  | .exit _ p v => some
      { needs := { rp := [p.toNat] }, link := false
        go := fun k q x => if x.p p.toNat = decide (v = 1#1) then none else some (k.fall q.blk) }
  | _ => none

/-- The pass ended by a terminator: where each cohort thread goes, and v63 written with the fall-through block by CALL. -/
def endedBy (s : State) (p : Pass) (k : Kernel) (e : Ends) (vs : List View) : Pass :=
  { stepped s .lane 0 p with
    ended := true
    exits := vs.map fun x => (x.tid, match e.go k p x with
      | some b => .bin p.handler b 0
      | none => .retire)
    loud := p.loud || vs.any fun x => (e.go k p x).isNone
    dueV := p.dueV ++ if e.link then vs.map fun x =>
      { cyc := x.cyc, tid := x.tid, idx := 63, val := { w := BitVec.ofNat 32 (k.fall p.blk), s := false } } else [] }

/-- The cohort threads' views of a pass at a word, whatever the guard. -/
def cohortViews (s : State) (g : Group) (p : Pass) : List View := (p.views g s.cycle).filter fun x => !x.helper

/-- W of the special registers of Table 14-2 as a thread reads them, LINK apart; module time is five sevenths of the cycle. -/
def specialWord (s : State) (g : Group) (p : Pass) (n : Nat) (x : View) : Nat :=
  let time := x.cyc * 5 / 7
  let horizon := max x.th.hm x.th.hx
  let latched := fun (v : Nat) => if x.th.res.cause = 5 then v else 0
  match n with
  | 0x000 => x.tid
  | 0x001 => x.tid / 4
  | 0x002 => x.tid % 4
  | 0x003 => g.grpid
  | 0x004 => g.nthr
  | 0x005 => ((s.teamOf g).map (·.index)).getD 0
  | 0x006 => g.gint
  | 0x007 => g.core / 64
  | 0x008 => g.core / 8 % 8
  | 0x009 => g.core % 8
  | 0x00A => p.positions.length
  | 0x00B => x.pos
  | 0x00C => p.blk
  | 0x00D => time
  | 0x00E => (x.th.mtime.map BitVec.toNat).getD (time / 2 ^ 32)
  | 0x00F => horizon
  | 0x010 => (x.th.horiz.map BitVec.toNat).getD (horizon / 2 ^ 32)
  | 0x011 => x.th.dith.toNat
  | 0x012 => x.th.fstat.toNat
  | 0x013 => g.ctx
  | 0x014 => g.kern
  | 0x015 => latched x.th.res.word.toNat
  | 0x016 => latched (x.th.fcode + 2 ^ 8 * x.th.fdetail)
  | 0x017 => latched x.th.fad.toNat
  | 0x018 => latched (x.th.fad.toNat / 2 ^ 32)
  | 0x800 => if x.th.gctl.getD g.schk then 1 else 0
  | _ => x.th.bank + 2 ^ 6 * (s.cluster (g.core / 8)).mode x.th.bank + if x.th.bankRef then 2 ^ 8 else 0

/-- What SMOV puts into v[D]: S = 0 but for LINK, which copies v63. -/
def specialRead (s : State) (g : Group) (p : Pass) (n : Nat) (x : View) : Carrier :=
  if n = 0x019 then x.v 63 else { w := BitVec.ofNat 32 (specialWord s g p n x), s := false }

/-- Every result of the pass has been written in a thread (R86, R278). -/
structure Arrived (s : State) (p : Pass) (tid : Nat) : Prop where
  accesses : ∀ j a, (j, a) ∈ s.accesses → a.gid = s.cur.gid → tid ∈ a.tids → a.helper = false → a.fill = none
  results : ∀ j r, (j, r) ∈ s.results → r.gid = s.cur.gid → tid ∈ r.tids → r.helper = true
  v : ∀ d ∈ p.dueV, d.tid = tid → d.cyc ≤ s.cycle
  x : ∀ d ∈ p.dueX, d.tid = tid → d.cyc ≤ s.cycle
  p : ∀ d ∈ p.dueP, d.tid = tid → d.cyc ≤ s.cycle

/-- A bank-mode request that R211 refuses: a mode or bank that cannot change, or a bank of the team's scratchpad allocation. -/
def RefusedMode (s : State) (cl : Cluster) (b m : Nat) : Prop :=
  m = 3 ∨ b = 63 ∨ m = 2 ∨ cl.mode b = 1 ∧ m ≠ 1 ∧ ∃ tid tm, cl.team = some tid ∧ lookup s.teams tid = some tm
    ∧ b ∈ tm.banks.take ((tm.scratch + 524287) / 524288)

/-- The special registers that exist (Table 14-2), and those that only a privileged group names. -/
def specialExists (n : Nat) : Prop := n ≤ 0x019 ∨ n = 0x800 ∨ n = 0x801

end Sys2Proof.Machine
end

