-- ==== Sys2Proof/Safety/Engine.lean ====
section
/-! DEFINITION. What the spec says each engine command orders (17_isa_memory R336 to R341). -/

namespace Sys2Proof.Machine

/-- An engine command by the spec: the g registers read, and what it orders. -/
structure EngineDoes where
  regs : List Nat
  stall : BitVec 2
  op : EOp
  /-- the directions: destination and source in scratchpad; COPYR takes them from the bases -/
  dst : Bool
  src : Bool
  lab : Bool
  bar : Option Nat
  gd : BitVec 4
  gs : BitVec 4
  gx : BitVec 4

/-- The five engine commands. Direction 0 is global to scratchpad, 1 the reverse, 2 global to global, 3 scratchpad to scratchpad. -/
def engineWord : Instr → Option EngineDoes
  | .copy s b g u x r l n => some
      { regs := [g.toNat, u.toNat], stall := s, op := .copy, dst := decide (r = 0#2 ∨ r = 3#2), src := decide (r = 1#2 ∨ r = 3#2)
        lab := decide (l = 1#1), bar := if n = 1#1 then none else some b.toNat, gd := g, gs := u, gx := x }
  | .copyt s b g u r n => some
      { regs := [g.toNat, u.toNat], stall := s, op := .copyt, dst := decide (r = 0#2 ∨ r = 3#2), src := decide (r = 1#2 ∨ r = 3#2), lab := false
        bar := if n = 1#1 then none else some b.toNat, gd := g, gs := u, gx := 0 }
  | .gath s b g u x r l n => some
      { regs := [g.toNat, u.toNat, x.toNat], stall := s, op := .gath, dst := decide (r = 0#2 ∨ r = 3#2), src := decide (r = 1#2 ∨ r = 3#2)
        lab := decide (l = 1#1), bar := if n = 1#1 then none else some b.toNat, gd := g, gs := u, gx := x }
  | .scat s b g u x r l n => some
      { regs := [g.toNat, u.toNat, x.toNat], stall := s, op := .scat, dst := decide (r = 0#2 ∨ r = 3#2), src := decide (r = 1#2 ∨ r = 3#2)
        lab := decide (l = 1#1), bar := if n = 1#1 then none else some b.toNat, gd := g, gs := u, gx := x }
  | .copyr s b g u x c n => some
      { regs := [g.toNat, u.toNat, x.toNat], stall := s, op := .copyr c.toNat, dst := false, src := false, lab := false
        bar := if n = 1#1 then none else some b.toNat, gd := g, gs := u, gx := x }
  | _ => none

/-- What the command orders in a state. -/
def EngineDoes.order (e : EngineDoes) (s : State) (g : Group) : Ordered :=
  { op := e.op, dDir := e.dst, sDir := e.src, lab := e.lab, bar := e.bar, gd := regG g e.gd.toNat s.cycle, gs := regG g e.gs.toNat s.cycle
    gx := regG g e.gx.toNat s.cycle }

/-- g[GX], which a COPY reads when its destination lies at a peer, and so is collective (R198, R336). -/
def EngineDoes.more (e : EngineDoes) (s : State) (g : Group) : List Nat :=
  match e.op, s.engineRead g (e.order s g).gd 64, s.engineRead g (e.order s g).gs 64 with
  | .copy, .inl d, .inl r => if s.destIn g ((e.order s g).engine s.cur.gid d r).chunked .peer then [e.gx.toNat] else []
  | _, _, _ => []

/-- Every part that a chunk touches translates now, to the places and leaves listed. -/
def Engine.Reaches (e : Engine) (s : State) (g : Group) (parts : List (Nat × Space × Option Nat × Bool)) : Prop :=
  s.parts g (e.touches e.started) = some parts

/-- No access with a number below `k` waits to cross the port to a place at a peer (R194). -/
def PortFree (s : State) (k key : Nat) : Prop :=
  keySpace key = .peer → ∀ q, s.routeOf key = some q → ∀ j b, (j, b) ∈ s.accesses → j < k → b.port ≠ some q

/-- A chunk that may go on (R201): it crosses no port, or its writes are complete, or all its ports are Up and LEASE.LINKTO has not passed. -/
def Chunk.OnTime (s : State) (c : Chunk) : Prop :=
  c.peer = none ∨ c.mapped = true ∨ ((∀ q ∈ c.ports, ∃ x, InUse s q x)
    ∧ ∃ e g, lookup s.engines c.cmd = some e ∧ lookup s.groups e.gid = some g ∧ s.now < c.since + (s.ctx g.ctx).linkto * 1000)

/-- A chunk in error (R201): nothing left to count and no frame held; what it still writes were writes of its own, on their way to a peer. -/
def Chunk.Ended (c d : Chunk) : Prop :=
  d.cmd = c.cmd ∧ d.failed = true ∧ d.left = 0 ∧ d.owed = [] ∧ d.frames = [] ∧ d.wframes = [] ∧ d.resum = false ∧ d.mapped = c.mapped
  ∧ (∀ x ∈ d.todo, x ∈ c.todo ∧ keySpace (x.block * 32) = .peer) ∧ ∀ x ∈ d.extra, x ∈ c.extra ∧ keySpace x.key = .peer

end Sys2Proof.Machine
end

