-- ==== Sys2Proof/Safety/Numbers.lean ====
section
/-! DEFINITION. What the spec says the numeric kernel computes, in rational numbers: carriers and formats as numbers, rounding to odd,
finalisation and the exact functions (02_numbers R18 to R38; 16_isa_float R308 to R312). -/

namespace Sys2Proof.Machine

/-! ### Numbers -/

/-- 2^k. -/
def two_ (k : Int) : Rat := (2 : Rat) ^ k

/-- The sign of a flag. -/
def signOf (neg : Bool) : Rat := if neg then -1 else 1

/-- |q|. -/
def sizeOf_ (q : Rat) : Rat := if q < 0 then -q else q

/-- The number that an exact form stands for. -/
def Ex.rat (x : Ex) : Rat := signOf x.neg * (x.n / x.d * two_ x.e)

/-- The magnitude of an F32 pattern without its sign, exponent field 255 read on as a number (R20). -/
def f32Mag (m : Nat) : Rat := if m < 2 ^ 23 then m * two_ (-149) else ((2 ^ 23 + m % 2 ^ 23 : Nat) : Rat) * two_ ((m / 2 ^ 23 : Nat) - 150)

/-- W of a carrier without its sign. -/
def magBits (c : Carrier) : Nat := c.w.toNat % 2 ^ 31

/-- The carrier's W is finite. -/
def isFinite (c : Carrier) : Prop := (magBits c) < 0x7F800000

/-- The number of a finite carrier: W, and half a unit in its last place if S is set (R24). -/
def numberOf (c : Carrier) : Rat :=
  signOf (c.w.getLsbD 31) * (f32Mag (magBits c) + if c.s then two_ ((max ((magBits c) / 2 ^ 23) 1 : Nat) - 151) else 0)

/-- `k` is the exponent of a number, and `t` the whole multiples of 2^u in its magnitude. -/
def OnGrid (x : Rat) (k u : Int) (t : Nat) : Prop :=
  two_ k ≤ sizeOf_ x ∧ sizeOf_ x < two_ (k + 1) ∧ t * two_ u ≤ sizeOf_ x ∧ sizeOf_ x < (t + 1) * two_ u

/-- R28: a magnitude of `t` steps and what is cut off, rounded to odd. -/
def oddSteps (exact : Bool) (t : Nat) : Nat := if exact then t else 2 * (t / 2) + 1

/-- R29: the carrier of a number that is not zero. -/
def IsCarry (neg : Bool) (x : Rat) (c : Carrier) : Prop :=
  (two_ 128 ≤ sizeOf_ x → c = { w := if neg then 0xFF7FFFFF#32 else 0x7F7FFFFF#32, s := true })
  ∧ (sizeOf_ x < two_ 128 → c.w.getLsbD 31 = neg ∧ f32Mag (magBits c) ≤ sizeOf_ x ∧ sizeOf_ x < f32Mag ((magBits c) + 1)
      ∧ (c.s = true ↔ f32Mag (magBits c) ≠ sizeOf_ x))

/-- A float format of R20: precision q, emin, largest finite value, whether it has infinities and NaN. -/
structure FloatFormat where
  q : Int
  emin : Int
  largest : Rat
  infinite : Bool
  nan : Bool

/-- The table of R20. -/
def floatFormat : Nat → Option FloatFormat
  | 0 => some ⟨24, -126, (2 - two_ (-23)) * two_ 127, true, true⟩
  | 1 => some ⟨8, -126, (2 - two_ (-7)) * two_ 127, true, true⟩
  | 2 => some ⟨11, -14, 65504, true, true⟩
  | 3 => some ⟨4, -6, 448, false, true⟩
  | 4 => some ⟨3, -14, 57344, true, true⟩
  | 5 => some ⟨3, -2, 28, false, false⟩
  | 6 => some ⟨4, 0, 15 / 2, false, false⟩
  | 7 => some ⟨2, 1 - 1, 6, false, false⟩
  | _ => none

/-- R33, R38: a magnitude `frac` of a step above `t` steps goes to the next one. -/
def Round.up (m : Round) (neg : Bool) (t : Nat) (frac : Rat) (dith : Nat) : Bool :=
  match m with
  | .rne => decide (1 / 2 < frac ∨ frac = 1 / 2 ∧ t % 2 = 1)
  | .rz => false
  | .ru => !neg
  | .rd => neg
  | .rna => decide (1 / 2 ≤ frac)
  | .sr => decide ((dith : Rat) < frac * 2 ^ 32)
  | .ro => decide (t % 2 = 0)

/-- The steps that a magnitude of `t` steps and `frac` of one rounds to. -/
def Round.steps (m : Round) (neg : Bool) (t : Nat) (frac : Rat) (dith : Nat) : Nat :=
  if frac = 0 then t else if m.up neg t frac dith then t + 1 else t

/-- R34: overflow gives an infinity where the format has one and the mode does not hold it back. -/
def Round.overflows (m : Round) (neg : Bool) : Bool :=
  decide (m = .rne ∨ m = .rna ∨ m = .sr ∨ m = .ru ∧ neg = false ∨ m = .rd ∧ neg = true)

/-- The magnitude of a finalised number. -/
def Fin.mag : Fin → Rat
  | .num _ q u => q * two_ u
  | _ => 0

/-- R34: what finalising a number that is not zero gives, and the flags it sets: `y` is the rounded magnitude. -/
def Finalised (f : FloatFormat) (m : Round) (neg : Bool) (x : Rat) (k : Int) (t dith : Nat) (r : Fin × Word) : Prop :=
  let u := max (k - f.q + 1) (f.emin - f.q + 1)
  let frac := sizeOf_ x / two_ u - t
  let y := m.steps neg t frac dith * two_ u
  if f.largest < y then
    r.2 = 0xA#32 ∧ (if f.infinite ∧ m.overflows neg then r.1 = .inf neg else (∃ q e, r.1 = .num neg q e) ∧ r.1.mag = f.largest)
  else (∃ q e, r.1 = .num neg q e) ∧ r.1.mag = y
    ∧ r.2 = if y = sizeOf_ x then 0#32 else if sizeOf_ x < two_ f.emin then 0xC#32 else 0x8#32

/-- An integer clamped, with OF and NX if it was out of range, and NX if it is not the number (R36). -/
def Saturated (lo hi i : Int) (exact : Bool) (r : Int × Word) : Prop :=
  if i < lo then r = (lo, 0xA#32) else if hi < i then r = (hi, 0xA#32) else r = (i, if exact then 0#32 else 0x8#32)

/-! ### Random numbers -/

/-- mix32 of R48 on numbers below 2^32. -/
def mixed (x : Nat) : Nat :=
  let a := (x ^^^ x / 2 ^ 16) * 0x85EBCA6B % 2 ^ 32
  let b := (a ^^^ a / 2 ^ 13) * 0xC2B2AE35 % 2 ^ 32
  b ^^^ b / 2 ^ 16

/-- xorshift32 of R39 on numbers below 2^32. -/
def shifted (d : Nat) : Nat :=
  let a := (d ^^^ d * 2 ^ 13) % 2 ^ 32
  let b := a ^^^ a / 2 ^ 17
  (b ^^^ b * 2 ^ 5) % 2 ^ 32

/-- The key of a draw from its seed and its index (R322). -/
def keyed (seed index : Nat) : Nat := mixed (seed % 2 ^ 32 ^^^ mixed ((seed / 2 ^ 32 + index) % 2 ^ 32))

/-- The winner of values with their candidate indices: a largest value in the order of R26, and of equal ones the smallest index (R322). -/
def Wins (l : List (Val × Nat)) (n : Nat) : Prop := ∃ x, (x, n) ∈ l ∧ ∀ y ∈ l, Val.cmp y.1 x < 0 ∨ (Val.cmp y.1 x = 0 ∧ n ≤ y.2)

/-- The generator of a column of a B16S tile (R47) on numbers below 2^16. -/
def tapped (g : Nat) : Nat := (2 * g) % 2 ^ 16 + (g / 2 ^ 15 + g / 2 ^ 13 + g / 2 ^ 12 + g / 2 ^ 10) % 2

/-! ### Functions of carriers -/

/-- What a function of R308 to R312 answers for a NaN and for an infinity that it passes on. -/
def PassesSpecials (f : Carrier → Carrier) : Prop :=
  ∀ c, (0x7F800000 < (magBits c) → f c = { w := 0x7FC00000#32, s := false })
    ∧ ((magBits c) = 0x7F800000 → f c = { w := c.w, s := false })

/-- R308: rounding to a whole number `z`, which `ok` accepts for the operand; a zero keeps the operand's sign. -/
def RoundsWhole (f : Carrier → Carrier) (ok : Rat → Int → Prop) : Prop :=
  PassesSpecials f ∧ ∀ c, isFinite c → isFinite (f c) ∧ (f c).w.getLsbD 31 = c.w.getLsbD 31 ∧ ∃ z : Int, numberOf (f c) = z ∧ ok (numberOf c) z

/-- The class mask of R308. -/
def ClassMask (c : Carrier) (m : Word) : Prop :=
  let neg := c.w.getLsbD 31
  let e := (magBits c) / 2 ^ 23
  (m.getLsbD 0 = decide ((magBits c) = 0x7F800000 ∧ neg = true)) ∧ (m.getLsbD 7 = decide ((magBits c) = 0x7F800000 ∧ neg = false))
  ∧ (m.getLsbD 1 = decide (1 ≤ e ∧ e ≤ 254 ∧ neg = true)) ∧ (m.getLsbD 6 = decide (1 ≤ e ∧ e ≤ 254 ∧ neg = false))
  ∧ (m.getLsbD 2 = decide (e = 0 ∧ ((magBits c) ≠ 0 ∨ c.s = true) ∧ neg = true)) ∧ (m.getLsbD 5 = decide (e = 0 ∧ ((magBits c) ≠ 0 ∨ c.s = true) ∧ neg = false))
  ∧ (m.getLsbD 3 = decide ((magBits c) = 0 ∧ c.s = false ∧ neg = true)) ∧ (m.getLsbD 4 = decide ((magBits c) = 0 ∧ c.s = false ∧ neg = false))
  ∧ (m.getLsbD 8 = decide (0x7F800000 < (magBits c))) ∧ (m.getLsbD 9 = c.s) ∧ ∀ i, 10 ≤ i → m.getLsbD i = false

/-- R26 on finite carriers and infinities: which of two carriers that are not NaN is smaller. -/
def isBelow (a b : Carrier) : Prop :=
  if (magBits a) = 0x7F800000 then a.w.getLsbD 31 = true ∧ b.w ≠ a.w
  else if (magBits b) = 0x7F800000 then b.w.getLsbD 31 = false
  else numberOf a < numberOf b

/-- R300: the smallest or largest of some carriers: one of them, NaN if any is, and of equal zeros the one of the wanted sign. -/
def Extreme (least : Bool) (l : List Carrier) (r : Carrier) : Prop :=
  ((∃ c ∈ l, 0x7F800000 < (magBits c)) → r = { w := 0x7FC00000#32, s := false })
  ∧ ((∀ c ∈ l, (magBits c) ≤ 0x7F800000) → r ∈ l ∧ (∀ c ∈ l, if least then ¬ isBelow c r else ¬ isBelow r c)
      ∧ ((magBits r) = 0 → r.s = false → ∀ c ∈ l, (magBits c) = 0 → c.s = false → r.w.getLsbD 31 = least ∨ c.w.getLsbD 31 ≠ least))

/-- The canonical NaN, the infinities and 1 as carriers (R24, R30). -/
def quietNaN : Carrier := { w := 0x7FC00000#32, s := false }
def infinity (neg : Bool) : Carrier := { w := if neg then 0xFF800000#32 else 0x7F800000#32, s := false }
def signedZero (neg : Bool) : Carrier := { w := if neg then 0x80000000#32 else 0#32, s := false }
def signedOne (neg : Bool) : Carrier := { w := if neg then 0xBF800000#32 else 0x3F800000#32, s := false }

/-- A carrier with its sign flipped. -/
def flipped (c : Carrier) : Carrier := { c with w := c.w ^^^ 0x80000000#32 }

/-- The special values of a function of R309: what it answers at zeros, if the rule says, and at the infinities, and that it is invalid below
zero, if it is; NaN gives the canonical NaN, and no other result sets a flag. -/
structure SpecialValues (f : Carrier → Carrier × Bool) (zero : Option (Bool → Carrier)) (pos neg : Carrier × Bool) (invalid : Bool) : Prop where
  nan : ∀ c, 0x7F800000 < magBits c → f c = (quietNaN, false)
  infinite : ∀ c, magBits c = 0x7F800000 → f c = if c.w.getLsbD 31 then neg else pos
  zeros : ∀ z, zero = some z → ∀ c, magBits c = 0 → c.s = false → f c = (z (c.w.getLsbD 31), false)
  negative : invalid = true → ∀ c, isFinite c → numberOf c < 0 → f c = (quietNaN, true)
  calm : ∀ c, isFinite c → invalid = false ∨ 0 ≤ numberOf c → (f c).2 = false

/-- R309: the square root of a positive number, correctly rounded to odd. -/
def IsRoot (a : Rat) (r : Carrier) : Prop :=
  r.w.getLsbD 31 = false ∧ f32Mag (magBits r) * f32Mag (magBits r) ≤ a ∧ a < f32Mag (magBits r + 1) * f32Mag (magBits r + 1)
    ∧ (r.s = true ↔ f32Mag (magBits r) * f32Mag (magBits r) ≠ a)

/-- R309: within one carrier step u of 1/√a, whose exponent is k, without naming the root: (r − u)² a ≤ 1 ≤ (r + u)² a. -/
def NearRsqrt (a : Rat) (k : Int) (r : Carrier) : Prop :=
  let u := two_ (max k (-126) - 24)
  u ≤ numberOf r ∧ (numberOf r - u) * (numberOf r - u) * a ≤ 1 ∧ 1 ≤ (numberOf r + u) * (numberOf r + u) * a

end Sys2Proof.Machine
end

