-- ==== Sys2Proof/Safety/Matrix.lean ====
section
/-! DEFINITION. What the spec says each millrace word checks and queues, and how long its command takes (18_isa_matrix R343 to R358). -/

namespace Sys2Proof.Machine

/-- Data bytes of a tile or image of 128 × 128 elements, by format code: F32, BF16, F16, E4M3, E5M2, E3M2, E2M3, E2M1, then I8 and I32. -/
def tileBytes : Nat → Nat
  | 0 => 65536
  | 1 => 32768
  | 2 => 32768
  | 3 => 16384
  | 4 => 16384
  | 5 => 12288
  | 6 => 12288
  | 7 => 8192
  | 9 => 16384
  | _ => 65536

/-- A range of the team scratchpad that a command may name: a base that is a multiple of 64, and all of it in the allocation. -/
def Fits (m : Team) (off n : Nat) : Prop := off % 64 = 0 ∧ off + n ≤ m.scratch

/-- A relation register that is loaded, or k0 (R240). -/
def Loaded (g : Group) (k : Nat) : Prop := k = 0 ∨ ∃ r, lookup g.rels k = some r

/-- The issued format of a tile of the group is B16S. -/
def B16S (s : State) (t : Nat) : Prop := (s.tile s.cur.gid t).issued = true

/-- A millrace word by the spec. -/
structure Mill where
  needs : Needs
  /-- further g registers that the word reads -/
  more : State → Group → List Nat := fun _ _ => []
  stall : BitVec 2
  legal : State → Group → Team → Prop
  op : State → Group → MOp
  tile : Nat
  final : Bool
  first : Bool := false
  lab : Bool := false
  a : State → Group → Nat := fun _ _ => 0
  b : State → Group → Nat := fun _ _ => 0
  rel : Nat := 0
  /-- the rows of the A tile in the segment of a grouped command (R351) -/
  seg : State → Group → Option (Nat × Nat) := fun _ _ => none
  /-- the tile whose issued format changes, and to what -/
  issues : State → Group → Option Bool := fun _ _ => none
  /-- ownbase of the commands issued later -/
  owns : State → Group → Option Nat := fun _ _ => none

/-- A g register as a per-pass word reads it. -/
def gOf (s : State) (g : Group) (i : BitVec 4) : Nat := (regG g i.toNat s.cycle).toNat

/-- A product command (R345, R346, R348, R349, R351): the operand words' offsets, with no reserved bit; of a grouped one the segment. -/
def product (s : BitVec 2) (op : MOp) (fa fb extraA extraB : Nat) (ok : Bool) (c a b k : BitVec 4) (w : BitVec 2) : Mill :=
  { needs := { rg := [a.toNat, b.toNat], ok := ok }, stall := s
    more := fun st g => if 2 ^ 63 ≤ gOf st g a ∧ a.toNat ≤ 14 then [a.toNat + 1] else []
    legal := fun st g m => c.toNat < st.acc g ∧ Loaded g k.toNat
      ∧ gOf st g a % 2 ^ 32 < 2 ^ 25 ∧ gOf st g a % 2 ^ 63 < 2 ^ 44 ∧ gOf st g b % 2 ^ 32 < 2 ^ 25 ∧ (gOf st g a < 2 ^ 63 → gOf st g b < 2 ^ 25)
      ∧ Fits m (gOf st g a % 2 ^ 25) (tileBytes fa + extraA) ∧ Fits m (gOf st g b % 2 ^ 25) (tileBytes fb + extraB)
      ∧ (op = .mma 4 → ¬ B16S st c.toNat)
      ∧ (2 ^ 63 ≤ gOf st g a → ∃ r, st.groupedRows g a.toNat (regG g a.toNat st.cycle) (regG g b.toNat st.cycle) = .inl r)
    op := fun _ _ => op, tile := c.toNat, final := w.getLsbD 0, first := w.getLsbD 1
    a := fun st g => gOf st g a % 2 ^ 25, b := fun st g => gOf st g b % 2 ^ 25, rel := k.toNat
    seg := fun st g => if gOf st g a < 2 ^ 63 then none
      else (st.groupedRows g a.toNat (regG g a.toNat st.cycle) (regG g b.toNat st.cycle)).getLeft? }

/-- The words that put a command into the millrace. -/
def millWord : Instr → Option Mill
  | .mma s m c a b k w =>
    let f := match m.toNat with | 0 => 1 | 1 => 2 | 2 => 3 | 3 => 4 | _ => 9
    some (product s (.mma m.toNat) f f (if k = 0#4 then 0 else 576) (if k = 0#4 then 0 else 576) true c a b k w)
  | .mmas s m c a b k w => some (product s (.mmas m.toNat) 3 3 1152 644 true c a b k w)
  | .mmax s m c a b k w => some (product s (.mmax m.toNat) m.toNat m.toNat 1152 1152 (decide (3 ≤ m.toNat ∧ m.toNat ≤ 7)) c a b k w)
  | .mzero s c b w => some
      { needs := { rg := [b.toNat] }, stall := s, tile := c.toNat, final := decide (w = 1#1)
        legal := fun st g _ => c.toNat < st.acc g ∧ gOf st g b < 2 ^ 32 ∧ gOf st g b % 2 ^ 16 < 2
        op := fun st g => .mzero (regG g b.toNat st.cycle), issues := fun st g => some (decide (gOf st g b % 2 = 1)) }
  | .mldc s c a k w => some
      { needs := { rg := [a.toNat], ok := decide (k.toNat ≤ 4 ∨ k = 12#4) }, stall := s, tile := c.toNat, final := w.getLsbD 0, lab := w.getLsbD 1
        legal := fun st g m => c.toNat < st.acc g ∧ gOf st g a < 2 ^ 25
          ∧ Fits m (gOf st g a) (tileBytes k.toNat + if w.getLsbD 1 then 640 else 0) ∧ (k ≠ 1#4 → ¬ B16S st c.toNat)
          ∧ (w.getLsbD 1 = true → ∀ i, 16 ≤ i → i < 64 → st.byte (m.scratchAt (gOf st g a + tileBytes k.toNat + 576 + i)) = 0)
        op := fun _ _ => .mldc k.toNat, a := fun st g => gOf st g a }
  | .mstc s c a r k w => some
      { needs := { rg := [a.toNat], ok := decide (k.toNat ≤ 4 ∨ k = 12#4) }, stall := s, tile := c.toNat
        final := w.getLsbD 0, lab := w.getLsbD 1
        legal := fun st g m => c.toNat < st.acc g ∧ r ≠ 5#4 ∧ (k = 12#4 → r = 0#4) ∧ gOf st g a < 2 ^ 25
          ∧ Fits m (gOf st g a) (tileBytes k.toNat + if k = 3#4 then 1152 else if w.getLsbD 1 then 640 else 0)
        op := fun _ _ => .mstc k.toNat r.toNat, a := fun st g => gOf st g a }
  | .mcopy s c k w => some
      { needs := {}, stall := s, tile := c.toNat, final := decide (w = 1#1)
        legal := fun st g _ => c.toNat < st.acc g ∧ k.toNat < st.acc g ∧ c ≠ k
        op := fun _ _ => .mcopy k.toNat, issues := fun st _ => some (st.tile st.cur.gid k.toNat).issued }
  | .mscale s c b w => some
      { needs := { rg := [b.toNat] }, stall := s, tile := c.toNat, final := decide (w = 1#1)
        legal := fun st g _ => c.toNat < st.acc g ∧ gOf st g b < 2 ^ 32 ∧ ¬ B16S st c.toNat
        op := fun st g => .mscale (BitVec.ofNat 32 (gOf st g b)) }
  | .mdep s c a => some
      { needs := { rg := [a.toNat] }, stall := s, tile := c.toNat, final := false
        legal := fun st g _ =>
          let x := gOf st g a
          c.toNat < st.acc g ∧ x < 2 ^ 25 ∧ x % 2 ^ 16 < 2 ^ 7
            ∧ (x / 64 % 2 = 1 → x % 64 < g.nbars ∧ (g.bar (x % 64)).expect ≠ 0) ∧ (x / 64 % 2 = 0 → x % 64 = 0)
        op := fun st g => .mdep (if gOf st g a / 64 % 2 = 1 then some (gOf st g a % 64) else none)
        owns := fun st g => some (gOf st g a / 2 ^ 16 % 2 ^ 9) }
  | .mstat s a k => some
      { needs := {}, stall := s, tile := 16, final := false, legal := fun _ _ _ => True, op := fun _ _ => .mstat a.toNat k.toNat }
  | .mstatProg s c a => some
      { needs := {}, stall := s, tile := c.toNat, final := false, legal := fun st g _ => c.toNat < st.acc g, op := fun _ _ => .mprog a.toNat }
  | .msmx s c k w => some
      { needs := {}, stall := s, tile := c.toNat, final := decide (w = 1#1)
        legal := fun st g _ => c.toNat < st.acc g ∧ k.toNat < st.acc g ∧ ¬ B16S st c.toNat ∧ ¬ B16S st k.toNat ∧ c ≠ k
          ∧ (st.tile st.cur.gid c.toNat).ownbase = (st.tile st.cur.gid k.toNat).ownbase
        op := fun _ _ => .msmx k.toNat }
  | .msmf s k w => some
      { needs := {}, stall := s, tile := k.toNat, final := decide (w = 1#1)
        legal := fun st g _ => k.toNat < st.acc g ∧ ¬ B16S st k.toNat, op := fun _ _ => .msmf }
  | _ => none

/-- The rows of a tile that the threads own: row i belongs to TID ownbase + i (R246). -/
def rowsOf (ownbase : Nat) (tids : List Nat) : List Nat := (List.range 128).filter fun i => decide (ownbase + i ∈ tids)

/-- The cycles of a command that is not masked or skipped (R347); a product's are those of its eight K-steps. -/
def commandCycles : MOp → Nat
  | .mma m => if m < 2 then 128 else 64
  | .mmas _ => 64
  | .mmax m => if m = 7 then 32 else 64
  | .mzero _ => 8
  | .mldc _ => 64
  | .mstc _ _ => 64
  | .mcopy _ => 32
  | .mscale _ => 32
  | .msmx _ => 64
  | .msmf => 32
  | _ => 1

/-- A command names a tile: the one it works on, or the other one of a copy or of a softmax step. -/
def Names (m : MCmd) (t : Nat) : Prop := m.tile = t ∨ m.op = .mcopy t ∨ m.op = .msmx t

/-- When an MRD or MWR that the pass has come to was issued: as it first waited, else now (R359). -/
def rowIssued (s : State) (p : Pass) : Nat := match p.hold with
  | .tile _ at_ => at_
  | _ => s.stamp

/-- Every command on a tile of the group that was queued before an MRD or MWR was issued has retired (R359). -/
def TileFree (s : State) (g : Group) (p : Pass) (t : Nat) : Prop :=
  ∀ k c, (k, c) ∈ (s.coreSt g.core).race → c.gid = s.cur.gid → Names c t → rowIssued s p ≤ k

/-- A relation admits a pair of a row label and a column label (R241): neither is null and every term is true. -/
def Admitted (x a b : Nat) : Prop :=
  a ≠ 0xFFFFFFFF ∧ b ≠ 0xFFFFFFFF ∧ ∀ i, i < 4 →
    let w := x / 2 ^ (128 + 32 * i) % 2 ^ 32
    let row := x / 2 ^ (16 * (w / 64 % 4)) % 2 ^ 16
    let col := x / 2 ^ (64 + 16 * (w / 256 % 4)) % 2 ^ 16
    let f : Nat := a / 2 ^ (row % 32) % 2 ^ (row / 256 % 64)
    let g : Int := (b / 2 ^ (col % 32) % 2 ^ (col / 256 % 64) : Nat) + ((w / 2 ^ 16 : Nat) : Int).bmod (2 ^ 16)
    match w % 8 with
    | 1 => (match w / 8 % 8 with
      | 0 => (f : Int) = g
      | 1 => (f : Int) ≠ g
      | 2 => (f : Int) < g
      | 3 => (f : Int) ≤ g
      | 4 => g < f
      | _ => g ≤ f)
    | 2 => 0 ≤ g ∧ g < (row / 256 % 64 : Nat) ∧ f.testBit g.toNat = true
    | 4 => False
    | _ => True

/-- A product command computes an element (R243, R247, R351): every one when it is unmasked; when it is masked, those of its segment's rows
whose labels its relation admits. -/
def Computes (s : State) (tm : Team) (m : MCmd) (i j : Nat) : Prop :=
  m.verdict = some .unmasked ∨ (m.verdict = some .masked ∧ (∀ lo hi, m.seg = some (lo, hi) → lo ≤ i ∧ i < hi)
    ∧ ∀ bytes, m.rel = some bytes → Admitted (leNat bytes) (s.tileLabel tm m.a (tileBytes m.op.formats.1) i)
        (s.tileLabel tm m.b (tileBytes m.op.formats.2) j))

/-- An E8M0 scale as a value (R21). -/
def scaleOf (n : Nat) : Val := if n = 255 then .nan else .num (Ex.pow2 ((n : Int) - 127))

/-- What MMAS adds to an element (R44): its whole sum times the F32 scales of the A line and of the B tile. -/
def scaledSum (s : State) (tm : Team) (m : MCmd) (i j : Nat) : Val :=
  let f32 := fun (at_ : Nat) => carrierVal (low (leNat (s.scratchBytes tm at_ 4)))
  (Val.mul (Val.mul (sumVals (s.products tm m i j (List.range 128))) (f32 (m.a + tileBytes m.op.formats.1 + 640 + 4 * i))).1
    (f32 (m.b + tileBytes m.op.formats.2 + 640))).1

/-- What MMAX adds to an element (R45): the sum of its four block sums, each times the two lines' scales of the block. -/
def blockSums (s : State) (tm : Team) (m : MCmd) (i j : Nat) : Val :=
  let scale := fun (base l b : Nat) => scaleOf (leNat (s.scratchBytes tm (base + 640 + 4 * l + b) 1))
  sumVals ((List.range 4).map fun b =>
    (Val.mul (Val.mul (sumVals (s.products tm m i j ((List.range 32).map (32 * b + ·)))) (scale (m.a + tileBytes m.op.formats.1) i b)).1
      (scale (m.b + tileBytes m.op.formats.2) j b)).1)

/-- The tile whose binding a final command arrives on (R349, R358). -/
def arrivesOn (m : MCmd) : Nat := match m.op with
  | .msmx out => out
  | _ => m.tile

/-- An element of a tile. -/
def elemOf (t : Tile) (i j : Nat) : Carrier := readAt Carrier.zero t.vals (i * 128 + j)

/-- A largest value of a list in the order of R26; NaN where one is NaN (R29). -/
def Largest (x : Val) (l : List Val) : Prop :=
  (Val.nan ∈ l → x = .nan) ∧ (Val.nan ∉ l → x ∈ l ∧ ∀ y ∈ l, Val.cmp y x ≤ 0)

/-- One exact product, with one rounding. -/
def productOf (a b : Carrier) : Carrier := carryVal (Val.mul (carrierVal a) (carrierVal b)).1

/-- add2 of R251 on a sum pair. -/
def addPair (p : Carrier × Carrier) (t : Carrier) : Carrier × Carrier :=
  let x := (Val.add (Val.add (carrierVal p.1) (carrierVal p.2)).1 (carrierVal t)).1
  (carryVal x, carryVal (Val.add x (carrierVal (carryVal x)).negate).1)

/-- MSMX on a row (R252): score tile `s` and output tile `o` become `s'` and `o'`. 2^(x − y) is a free value within its bound (log 8). -/
def SoftStep (s o s' o' : Tile) (i : Nat) : Prop :=
  let adm := (List.range 128).filter fun j => readAt false s.admitted (i * 128 + j)
  let M := readAt negInf o.softM i
  readAt 0#32 o'.labels i = readAt 0#32 s.labels i
  ∧ (adm = [] → (∀ j, j < 128 → elemOf s' i j = Carrier.zero ∧ elemOf o' i j = elemOf o i j) ∧ readAt negInf o'.softM i = M)
  ∧ (adm ≠ [] → ∃ x, Largest x (carrierVal M :: adm.map fun j => carrierVal (elemOf s i j)) ∧
      let mnew := carryVal x
      let f := if mnew = negInf then carryVal (.num (Ex.ofNat 1)) else softPower M mnew
      let e := fun j => if j ∈ adm ∧ mnew ≠ negInf then softPower (elemOf s i j) mnew else Carrier.zero
      let hi := productOf (readAt Carrier.zero o.softHi i) f
      let lo := if hi.w = 0#32 ∧ hi.s = false ∨ hi.w = 0x80000000#32 ∧ hi.s = false then Carrier.zero
        else productOf (readAt Carrier.zero o.softLo i) f
      (∀ j, j < 128 → elemOf s' i j = e j ∧ elemOf o' i j = productOf (elemOf o i j) f)
      ∧ (readAt Carrier.zero o'.softHi i, readAt Carrier.zero o'.softLo i) = (adm.map e).foldl addPair (hi, lo)
      ∧ readAt 0#32 o'.softCnt i = readAt 0#32 o.softCnt i + BitVec.ofNat 32 adm.length ∧ readAt negInf o'.softM i = mnew)

/-- MSMF on a row (R253). -/
def SoftEnd (o o' : Tile) (i : Nat) : Prop :=
  let sum := (Val.add (carrierVal (readAt Carrier.zero o.softHi i)) (carrierVal (readAt Carrier.zero o.softLo i))).1
  let none_ := readAt 0#32 o.softCnt i = 0#32 ∨ ∃ x, sum = .num x ∧ x.isZero = true
  (none_ → (∀ j, j < 128 → elemOf o' i j = Carrier.zero) ∧ readAt false o'.empty i = true)
  ∧ (¬ none_ → (∀ j, j < 128 → elemOf o' i j = carryVal (Val.div (carrierVal (elemOf o i j)) sum).1)
      ∧ readAt false o'.empty i = readAt false o.empty i)

/-- The exponent by which MSTC scales an E4M3 row (R254). -/
def RowScale (row : List Carrier) (e : Int) : Prop :=
  ((∀ c ∈ row, isFinite c → numberOf c = 0) → e = 0)
  ∧ ∀ c ∈ row, isFinite c → numberOf c ≠ 0 → (∀ d ∈ row, isFinite d → sizeOf_ (numberOf d) ≤ sizeOf_ (numberOf c)) →
      ∃ k : Int, two_ k ≤ sizeOf_ (numberOf c) ∧ sizeOf_ (numberOf c) < two_ (k + 1) ∧ e = min 127 (max (-127) (8 - k))

/-- Bytes of an image element. -/
def elemBytes (f : Nat) : Nat := tileBytes f / 16384

/-- The bytes of scratchpad of a team that differ by no alias. -/
def Unaliased (tm : Team) (n : Nat) : Prop := ∀ o o', o < n → o' < n → tm.scratchAt o = tm.scratchAt o' → o = o'

/-- MSTC of a row into an image at `base` (R353, R254, R255). -/
def StoredRow (t : State) (tm : Team) (o : Tile) (f r base i : Nat) (lab : Bool) : Prop :=
  let byte := fun (off : Nat) => t.byte (tm.scratchAt (base + off))
  let d := tileBytes f
  (∃ e, (if f = 3 then RowScale ((List.range 128).map fun j => elemOf o i j) e ∧ ∀ b, b < 4 → byte (d + 640 + 4 * i + b) = BitVec.ofInt 8 (127 - e)
      else e = 0)
    ∧ ∀ j n, j < 128 → (n = match floatFmt f, roundOf r with
        | some fm, some md => finPattern fm (finVal (match carrierVal (elemOf o i j) with
          | .num x => .num (x.scale e)
          | y => y) fm md 0 1).1
        | _, _ => (elemOf o i j).w.toNat) →
      ∀ b, b < elemBytes f → byte ((i * 128 + j) * elemBytes f + b) = BitVec.ofNat 8 (n / 256 ^ b))
  ∧ (lab = true → (∀ b, b < 4 → byte (d + 4 * i + b) = BitVec.ofNat 8 ((readAt 0#32 o.labels i).toNat / 256 ^ b))
    ∧ (byte (d + 576 + i / 8)).getLsbD (i % 8) = readAt false o.empty i)

/-- MLDC of a row from an image at `base` (R353, R255): the carriers that denote the image's elements; I32 as W. -/
def LoadedRow (s : State) (tm : Team) (o o' : Tile) (f base i : Nat) (lab : Bool) : Prop :=
  let d := tileBytes f
  let bits := fun (off n : Nat) => leNat (s.scratchBytes tm (base + off) n)
  (∀ j, j < 128 → elemOf o' i j = match floatFmt f with
    | some fm => carryVal (fmtVal fm (bits ((i * 128 + j) * elemBytes f) (elemBytes f)))
    | none => low (bits ((i * 128 + j) * 4) 4))
  ∧ readAt 0#32 o'.labels i = (if lab then BitVec.ofNat 32 (bits (d + 4 * i) 4) else readAt 0#32 o.labels i)
  ∧ readAt false o'.empty i = (if lab then (bits (d + 576 + i / 8) 1).testBit (i % 8) else readAt false o.empty i)
  ∧ (∀ j, j < 128 → readAt false o'.admitted (i * 128 + j) = readAt false o.admitted (i * 128 + j))
  ∧ readAt negInf o'.softM i = readAt negInf o.softM i ∧ readAt 0#32 o'.softCnt i = readAt 0#32 o.softCnt i

end Sys2Proof.Machine
end

