-- ==== Sys2Proof/Safety/Decoding.lean ====
section
/-! DEFINITION. The operands that the decoding checks of a word read, by the spec, for every word that has some (04_encoding R85, R87, R88). -/

namespace Sys2Proof.Machine

/-- The words on barriers, counters, pennants and task records, on slots and granules, on caches, windows and pages, and on tiles. -/
def structureWord : Instr → Option (Kind × Needs)
  | .st _ z r d g a => if r = 1#1 then some (.lane, atNeeds g a [(d.toNat, if z = 3#2 then 2 else 1)] []) else none
  | .ldfe _ _ d g a _ => some (.lane, atNeeds g a [] [(d.toNat, 4)])
  | .stfe _ _ d g a => some (.lane, atNeeds g a [(d.toNat, 4)] [])
  | .binit _ _ u => some (.pass, { rg := [u.toNat] })
  | .barvExpect _ _ u => some (.pass, { rg := [u.toNat] })
  | .bwait _ d _ => some (.lane, { rv := [(d.toNat, 1)], wv := [(d.toNat, 1)] })
  | .btest _ p a _ => some (.lane, { rv := [(a.toNat, 1)], wp := [p.toNat] })
  | .bargCount _ d => some (.lane, { rg := [d.toNat] })
  | .pnset _ a _ => some (.lane, { rv := [(a.toNat, 2)] })
  | .pnmin _ a _ => some (.lane, { rv := [(a.toNat, 2)] })
  | .pnmax _ a _ => some (.lane, { rv := [(a.toNat, 2)] })
  | .pnrd _ d _ => some (.lane, { wv := [(d.toNat, 2)] })
  | .acqx _ => some (.pass, { ext := true })
  | .tspawn _ d g => some (.lane, { rv := [(d.toNat, 16)], rg := [g.toNat] })
  | .trange _ d a b => some (.pass, { rg := [d.toNat, a.toNat, b.toNat] ++ List.range 10 })
  | .tclaim _ d a => some (.pass, { rg := [a.toNat], wv := [(d.toNat, 3)] })
  | .draw _ d g a => some (.cohort, { rv := [(a.toNat, 2)], wv := [(d.toNat, 1)], rg := [g.toNat] })
  | .stcmp _ d g a _ => some (.cohort, { rv := [(d.toNat, 1)], wv := [(a.toNat, 1)], rg := [g.toNat] })
  | .qpost _ d g a _ => some (.lane, { rv := [(d.toNat + 1, 15)], wv := [(a.toNat, 1)], rg := [g.toNat] })
  | .pftch _ g a => some (.lane, atNeeds g a [] [])
  | .cwb _ g a => some (.lane, atNeeds g a [] [])
  | .cinv _ g a => some (.lane, atNeeds g a [] [])
  | .cwbi _ g a => some (.lane, atNeeds g a [] [])
  | .pin _ _ a b => some (.pass, { rg := [a.toNat, b.toNat] })
  | .ldg _ _ a _ => some (.pass, { rg := [a.toNat] })
  | .stg _ d a _ => some (.pass, { rg := [a.toNat, d.toNat] })
  | .pgalloc _ _ a b => some (.pass, { rg := [a.toNat, b.toNat] })
  | .pgshare _ _ a b => some (.pass, { rg := [a.toNat, b.toNat] })
  | .pgfree _ _ a b => some (.pass, { rg := [a.toNat, b.toNat] })
  | .pginfo _ _ a => some (.pass, { rg := [a.toNat] })
  | .pgrsv _ _ a => some (.pass, { rg := [a.toNat] })
  | .mrel _ a _ => some (.pass, { rg := [a.toNat] })
  | .mrd _ _ d a => some (.lane, { rv := [(a.toNat, 1)], wv := [(d.toNat, 16)] })
  | .mwr _ _ d a => some (.lane, { rv := [(a.toNat, 1), (d.toNat, 16)] })
  | _ => none

/-- The kind and the operands of every word that has operands, in a group of a state: a grouped product and a COPY to a peer read one g register
more than their fields name. -/
def checkedWord (s : State) (g : Group) (i : Instr) : Option (Kind × Needs) :=
  registerWord i <|> ((conversions i).map fun e => (e.kind, e.needs)) <|> ((memoryWord i).map fun e => (Kind.lane, e.needs))
    <|> ((millWord i).map fun e => (Kind.pass, { e.needs with rg := e.needs.rg ++ e.more s g }))
    <|> ((engineWord i).map fun e => (Kind.pass, { rg := e.regs ++ e.more s g })) <|> structureWord i

end Sys2Proof.Machine
end

