-- ==== Sys2Proof/Safety/Passes.lean ====
section
/-! DEFINITION. What the spec says a bin that may start is, and where a pass's threads go (08_group R134 to R148). -/

namespace Sys2Proof.Machine

/-- A thread of the group that is ready in a bin: it stands there and waits for nothing (R134). -/
structure ReadyIn (h : Bool) (k : BinKey) (th : Thread) : Prop where
  place : th.place = .bin h k.1 k.2
  ready : th.wait = .ready

/-- No register result of the thread is outstanding (R86); a pass of its bin starts only then (DEDUCED, log 79). -/
structure NothingOwed (s : State) (gid tid : Nat) : Prop where
  noAccess : ∀ j a, (j, a) ∈ s.accesses → a.gid = gid → tid ∈ a.tids → a.helper = false → a.fill = none
  noResult : ∀ j r, (j, r) ∈ s.results → r.gid = gid → tid ∈ r.tids → r.helper = true
  written : ∀ g, lookup s.groups gid = some g → ∀ i c, (i, c) ∈ (g.thread tid).owed → c ≤ s.cycle

/-- Keys of bins in the order of R136: by block, then by offset. -/
def Below (a b : BinKey) : Prop := a.1 < b.1 ∨ (a.1 = b.1 ∧ a.2 < b.2)

/-- A bin that R136 lets start, a sweep apart: it has a ready thread; a bin of the kernel also needs every pass in progress of the kernel
below its block and no thread in the handler, not blocked there, that would come back below it; a handler bin needs no pass from it. -/
structure MayStart (g : Group) (h : Bool) (k : BinKey) : Prop where
  some_ : ∃ tid th, (tid, th) ∈ g.threads ∧ ReadyIn h k th
  passes : ∀ j p, (j, p) ∈ g.passes → p.handler = h → if h then p.blk ≠ k.1 ∨ p.start ≠ k.2 else k.1 < p.blk
  back : h = false → ∀ tid th, (tid, th) ∈ g.threads → th.res.cause = 5 → th.place ≠ .retired → th.wait = .ready →
    ¬ Below (th.res.blk, th.res.off) k

/-- The bin that R136 selects when no sweep is on: the least handler bin that may start, else the least of the kernel. -/
def Selected (g : Group) (h : Bool) (k : BinKey) : Prop :=
  MayStart g h k ∧ (∀ m, MayStart g h m → ¬ Below m k) ∧ (h = false → ∀ m, ¬ MayStart g true m)

/-- Nothing of the pass is still to be written, and no token of its group covers anything on its way (R82, R86). -/
structure AllWritten (s : State) (gid pid : Nat) (p : Pass) : Prop where
  accesses : ∀ j a, (j, a) ∈ s.accesses → a.gid = gid → (a.pid = pid → a.fill = none) ∧ 3 ≤ a.tok
  results : ∀ j r, (j, r) ∈ s.results → r.gid = gid → r.pid ≠ pid ∧ 3 ≤ r.tok
  v : ∀ d ∈ p.dueV, d.cyc ≤ s.cycle
  x : ∀ d ∈ p.dueX, d.cyc ≤ s.cycle
  p : ∀ d ∈ p.dueP, d.cyc ≤ s.cycle
  g : ∀ g, lookup s.groups gid = some g → ∀ d ∈ g.dueG, d.tid = pid → d.cyc ≤ s.cycle
  beats : ∀ g, lookup s.groups gid = some g → ∀ j q, (j, q) ∈ g.passes → ∀ tok at_ after left, q.hold = .beats tok at_ after left → 3 ≤ tok

/-- Every engine counter of the group is zero. -/
def CountersZero (g : Group) : Prop := ∀ c, c < 4 → readAt 0 g.count c = 0

end Sys2Proof.Machine
end

