-- ==== Sys2Proof/Safety/Reals.lean ====
section
/-! DEFINITION. The error bounds of R309 and R320, in real numbers. -/

namespace Sys2Proof.Machine

/-- u(y) of R309: the carrier step at y. -/
noncomputable def realStep (y : ℝ) : ℝ := if y = 0 then 2 ^ (-150 : ℤ) else 2 ^ (max (Int.log 2 |y|) (-126) - 24)

/-- A carrier is within `bound y` of a number y that is itself within 2^-30 of the function's value, of its size where it is below 1, the
bound taken 1/256 wider. The model holds a result within the bound of an enclosure of the function, which this margin takes in. -/
def Near (f : ℝ) (bound : ℝ → ℝ) (r : Carrier) : Prop :=
  isFinite r ∧ ∃ y : ℝ, |y - f| ≤ 2 ^ (-30 : ℤ) * min 1 |f| ∧ |(numberOf r : ℝ) - y| ≤ (1 + 2 ^ (-8 : ℤ)) * bound y

/-- The function does not fall as its operand rises, over the finite carriers that `dom` names. -/
def Rising (dom : Rat → Prop) (f : Carrier → Carrier × Bool) : Prop :=
  ∀ a b, isFinite a → isFinite b → dom (numberOf a) → dom (numberOf b) → numberOf a ≤ numberOf b → numberOf (f a).1 ≤ numberOf (f b).1

end Sys2Proof.Machine
end

