-- ==== Sys2Proof/Safety/Tasks.lean ====
section
/-! DEFINITION. What the spec says a new group holds, where a record enters the pool, and which record a core may take (07_kernel R121,
R125 to R128). -/

namespace Sys2Proof.Machine

/-- A group as R121 and R126 start one of a kernel, with the threads of a launched or range group or of a gathered one. -/
structure Begun (s : State) (g : Group) (k : Kernel) (ctx team core slot kern gint nthr : Nat) : Prop where
  place : g.ctx = ctx ∧ g.team = team ∧ g.core = core ∧ g.slot = slot ∧ g.kern = kern ∧ g.gint = gint % 2 ^ 32 ∧ g.nthr = nthr
  grpid : ∀ j h, lookup s.groups j = some h → h.ctx = ctx → h.st ≠ .ended → h.grpid ≠ g.grpid
  clear : g.st = .running ∧ g.passes = [] ∧ g.grant = false ∧ g.rels = [] ∧ g.count = [] ∧ g.schk = k.schk ∧ g.dead = false
  barriers : g.nbars = k.barriers ∧ g.bars = [] ∧ g.gbar = { count := none, arrived := 0 }
  thread : ∀ tid, tid < nthr → (g.thread tid).fstat = 0#32 ∧ (g.thread tid).dith = dithStart g.grpid tid ∧ (g.thread tid).wait = .ready
    ∧ (g.thread tid).x = [] ∧ (g.thread tid).late = [] ∧ (∀ i, i < 95 → readAt false (g.thread tid).p i = false)

/-- Every thread of the group stands in the bin of its entry block, with v registers of zero. -/
def AllAtEntry (g : Group) (entry : Nat) : Prop :=
  ∀ tid, tid < g.nthr → (g.thread tid).place = .bin false entry 0 ∧ ∀ i, readAt Carrier.zero (g.thread tid).v i = Carrier.zero

/-- g registers as a launch sets them (R121): g0 to g4, the rest zero. -/
def launchG (l : Launch) (index gint : Nat) (i : Nat) : Quad :=
  match i with
  | 0 => l.args
  | 1 => l.data
  | 2 => BitVec.ofNat 64 index
  | 3 => BitVec.ofNat 64 l.teams
  | 4 => BitVec.ofNat 64 (gint % 2 ^ 32)
  | _ => 0#64

/-- Where a record enters the pool (R125): the first deque from the first choice on, in ascending order modulo 8, that is not full. -/
def Enters (m : Team) (first d : Nat) : Prop :=
  ∃ i, i < 8 ∧ d = (first + i) % 8 ∧ (m.deque d).length < 512 ∧ ∀ j, j < i → 512 ≤ (m.deque ((first + j) % 8)).length

/-- A record in a deque is passed over: it is parked (R126). -/
def Parked (m : Team) (id : Nat) : Prop := ∀ r, lookup m.recs id = some r → r.parked.isSome

/-- The record that the deque `i` places after a core's own offers it (R126). -/
def Offers (m : Team) (own i id : Nat) (r : Record) : Prop :=
  lookup m.recs id = some r ∧ r.parked = none ∧ ∃ pre post, m.deque ((own + i) % 8) = pre ++ id :: post
    ∧ if i = 0 then ∀ x ∈ post, Parked m x else ∀ x ∈ pre, Parked m x

/-- A core takes this record: the first that a deque in the order of R126 offers and whose kernel fits the core. -/
def Takes (s : State) (m : Team) (core id : Nat) (r : Record) (k : Kernel) : Prop :=
  s.kernel r.ctx r.slot (recKern r.words) = some k ∧ s.fits core k k.threads = true ∧ ∃ i, i < 8 ∧ Offers m (core % 8) i id r
    ∧ ∀ j, j < i → ∀ id' r' k', Offers m (core % 8) j id' r' → s.kernel r'.ctx r'.slot (recKern r'.words) = some k' →
        s.fits core k' k'.threads = false

/-- No deque offers a core a record whose kernel fits it (R126). -/
def NoneToTake (s : State) (m : Team) (core : Nat) : Prop :=
  ∀ i, i < 8 → ∀ id r k, Offers m (core % 8) i id r → s.kernel r.ctx r.slot (recKern r.words) = some k → s.fits core k k.threads = false

/-- The order of records in a gather buffer: by arrival, and in one cycle by emitting core and then TID (R127). -/
def Record.Earlier (a b : Record) : Prop :=
  a.arrived < b.arrived ∨ (a.arrived = b.arrived ∧ (a.core < b.core ∨ (a.core = b.core ∧ a.tid < b.tid)))

/-- A record put into a buffer's list in that order. -/
def Joins (r : Record) (old new : List Record) : Prop :=
  ∃ pre post, old = pre ++ post ∧ new = pre ++ r :: post ∧ (∀ x ∈ pre, ¬ r.Earlier x) ∧ ∀ x, post.head? = some x → r.Earlier x

/-- The words of a TRANGE's record (R273). -/
def rangeWords (s : State) (g : Group) (d a b : Nat) : List Word :=
  let lo := fun (i : Nat) => (regG g i s.cycle).setWidth 32
  let hi := fun (i : Nat) => (regG g i s.cycle >>> 32).setWidth 32
  [lo d, hi d, lo a, hi a, lo b, hi b] ++ (List.range 10).map lo

/-- The record that a steal or a TRANGE may not emit as it stands, and what R124 asks of one. -/
structure RecordGood (s : State) (g : Group) (kind : Nat) (w : List Word) (k : Kernel) : Prop where
  same : recKind w = kind
  fields : (w.getD 1 0).getLsbD 7 = false ∧ (w.getD 1 0).toNat < 2 ^ 13 ∧ (kind = 0 → recGran w = 0)
  kernel : s.kernel g.ctx g.slot (recKern w) = some k ∧ k.handler = false
  entry : (k.block (recEntry w)).isSome
  barrier : ∀ b, recBar w = some b → b < g.nbars ∧ (g.bar b).expect ≠ 0
  room : k.threads ≤ 2048 ∧ k.threads * k.regs ≤ 131072 ∧ k.acc ≤ 16 ∧ k.barriers ≤ 64
  interval : kind = 1 → (recLo w).toNat ≤ (recHi w).toNat

end Sys2Proof.Machine
end

