-- ==== Sys2Proof/Safety/Translation.lean ====
section
/-! DEFINITION. What the spec says of a page table: its entries, the walk of an address and the route of a peer access (10_page R178 to R180;
11_link R196). -/

namespace Sys2Proof.Machine

/-- The bytes that a leaf of a level covers, as a power of two (R178): 64 KiB at level 4, 32 MiB at 3, 16 GiB at 2, 8 TiB at 1. -/
def leafShift (level : Nat) : Nat := 16 + 9 * (4 - level)

/-- Where the entry for an address stands in a node of a level (R178). -/
def entryKey (level node va : Nat) : Nat := node + 8 * (va / 2 ^ leafShift level % 512)

/-- A table entry: Valid, SIZE 0, and every bit but Valid and the next node's address zero (R179). -/
structure TableEntry (e : Quad) : Prop where
  valid : e.getLsbD 0 = true
  zero : ∀ i, (1 ≤ i ∧ i < 12) ∨ 52 ≤ i → e.getLsbD i = false

/-- A leaf that passes the checks of R180 at its level. -/
structure LeafEntry (e : Quad) (level : Nat) : Prop where
  valid : e.getLsbD 0 = true
  size : 2 ≤ level ∧ level ≤ 4 ∧ fld e 7 6 = 5 - level
  reserved : fld e 15 12 = 0
  kind : fld e 9 8 ≠ 3
  aligned : fld e 51 16 * 2 ^ 16 % 2 ^ leafShift level = 0
  peer : fld e 9 8 ≠ 1 → fld e 63 52 = 0
  counted : e.getLsbD 2 = true → level = 4 ∧ fld e 9 8 = 0
  die : fld e 9 8 = 0 → fld e 51 36 ≤ 23

/-- The walk of an address from a node of a level (R180): an entry that is not valid, a table entry that leads on, a leaf, or an entry that
is neither. -/
inductive Walks (s : State) (va : Nat) : Nat → Nat → Walk → Prop
  | absent {level node} : (s.latest8 (entryKey level node va)).getLsbD 0 = false → Walks s va level node (.bad 5)
  | down {level node w} : level < 4 → TableEntry (s.latest8 (entryKey level node va)) →
      Walks s va (level + 1) (fld (s.latest8 (entryKey level node va)) 51 12 * 2 ^ 12) w → Walks s va level node w
  | leaf {level node} : LeafEntry (s.latest8 (entryKey level node va)) level →
      Walks s va level node (.leaf (entryKey level node va) (s.latest8 (entryKey level node va)) (leafShift level))
  | wrong {level node} : (s.latest8 (entryKey level node va)).getLsbD 0 = true →
      ¬ (level < 4 ∧ TableEntry (s.latest8 (entryKey level node va))) → ¬ LeafEntry (s.latest8 (entryKey level node va)) level →
      Walks s va level node (.bad 9)

/-- What a leaf gives an access: its space and the place of the byte in it (R180, R196, R207). -/
def leafPlace (e : Quad) (shift va : Nat) : Space × Nat :=
  let pa := fld e 51 16 * 2 ^ 16 + va % 2 ^ shift
  match fld e 9 8 with
  | 0 => (.hbm, pa)
  | 1 => (.peer, peerKey (fld e 63 52) pa)
  | _ => (.host, hostKey pa)

/-- A leaf that is resolved under R188 on a write: a counted 64 KiB leaf of HBM. -/
def Resolvable (e : Quad) (shift : Nat) : Prop := shift = 16 ∧ fld e 9 8 = 0 ∧ e.getLsbD 2 = true

/-- The ports that lead to a module, in ascending order (R196). -/
structure Toward (s : State) (m : Nat) (l : List Nat) : Prop where
  members : ∀ q, q ∈ l ↔ q < 18 ∧ ∃ x, InUse s q x ∧ x.peer = m ∧ x.own ≠ m
  ascending : l.Pairwise (· < ·)

end Sys2Proof.Machine
end

