-- ==== Sys2Proof/Certificates/Slice0/Obligations.lean ====
section
/-! DEFINITION. The statements for the provers. What they mean by a word that runs, by registers and by what a word leaves unchanged is in
Sys2Proof/Safety/Words.lean; what the spec's tables say is in the other files of Sys2Proof/Safety. -/

open Sys2Proof Sys2Proof.Machine

/-! ### Decoding and stepping -/

/-- R71, R87 step 1: decoding the bytes of a well-formed instruction gives it back, with every operand, and its length. -/
def Obligations.DecodeEncode : Prop :=
  ∀ i rest, wellFormed i = true → (codeOf i).isSome → decode (encode i ++ rest) = (.instr i, (encode i).length)

/-- R88: a word that decodes to an instruction is that instruction's own word: no bit of it is ignored. -/
def Obligations.EncodeDecode : Prop := ∀ b i n, decode b = (.instr i, n) → encode i = b.take n ∧ wellFormed i = true

/-- Words written out from the encodings of the spec decode to the instructions they stand for (sanity). The word of MSTAT.PROG is the model's
own reading: its row and its format give these bits, where R360's text prints 0x00271FD9 (DEDUCED, log 55). -/
def Obligations.WordsDecode : Prop :=
  decodeTableWord 32 0x20612009 = some (.iaddW 0 4 6 8) ∧ decodeTableWord 32 0x0C210C11 = some (.imad 0 4 2 3)
  ∧ decodeTableWord 32 0x230A0871 = some (.sel 0 2 5 6 1) ∧ decodeTableWord 32 0x08113C89 = some (.fcmp 0 7 9 1 2)
  ∧ decodeTableWord 32 0x1440C0A1 = some (.gadd 0 3 4 5) ∧ decodeTableWord 32 0x0041A0D7 = some (.crfadd 3 6 4)
  ∧ decodeTableWord 32 0x08115109 = some (.ffma 0 0 0 5 1 2) ∧ decodeTableWord 32 0x04314139 = some (.ffin 0 0 5 3 1)
  ∧ decodeTableWord 32 0x0C251FD9 = some (.mstatProg 0 4 9) ∧ decodeTableWord 16 0x4040 = some (.mov16 1 4)

/-- A step whose next choice is a pass's issue fetches the word at the pass's place, moves the clock to the cycle the pass may issue at, and is
the meaning of the instruction its bytes decode to; a word behind an IF has that guard (R71, R73, R75, R76, R79). A step whose next choice
is an event is that event's meaning; a tick only moves the clock. An IF that names no predicate takes its own illegal-operand fault before the
word behind it is looked at (R75, R87). A ready pass that another ready pass of its core goes before does not issue yet (R139). (The order of
choices and the form of the agenda are the model's own: DESIGN CHOICE, log 2.) -/
def Obligations.StepRunsTheNextChoice : Prop :=
  (∀ (s : State) gid pid rest g p k i n, s.agenda = .issue gid pid :: rest → lookup s.groups gid = some g → lookup g.passes pid = some p →
    s.code g p.handler = some k → p.off < 4096 →
    let s₁ := { s with agenda := rest }.advanceTo p.next
    (s₁.outranked ((gid, g), (pid, p)) = true → step s = .next s₁)
    ∧ (s₁.outranked ((gid, g), (pid, p)) = false → (decode (k.bytesAt p.blk p.off) = (.instr i, n) →
      step s = match exec i { s₁ with cur := { gid := gid, pid := pid, at_ := p.off, next := p.off + n / 2, guard := none, hint := none } } with
        | .next t => .next (t.afterStep gid pid p)
        | r => r)
    ∧ (∀ q v m, decode (k.bytesAt p.blk p.off) = (.guard q v, m) → p.off + 1 < 4096 → isGuardable (k.bytesAt p.blk (p.off + 1)) = true →
      (96 ≤ q.toNat → step s = match exec .nop { s₁ with cur :=
          { gid := gid, pid := pid, at_ := p.off, next := p.off + 1, guard := some (q.toNat, v), hint := none } } with
        | .next t => .next (t.afterStep gid pid p)
        | r => r)
      ∧ (q.toNat < 96 → decode (k.bytesAt p.blk (p.off + 1)) = (.instr i, n) →
      step s = match exec i { s₁ with cur :=
          { gid := gid, pid := pid, at_ := p.off, next := p.off + 1 + n / 2, guard := some (q.toNat, v), hint := none } } with
        | .next t => .next (t.afterStep gid pid p)
        | r => r))
    ∧ (∀ why m, decode (k.bytesAt p.blk p.off) = (.reject why, m) →
      step s = match exec .illegalInstruction { s₁ with cur :=
          { gid := gid, pid := pid, at_ := p.off, next := p.off, guard := none, hint := none } } with
        | .next t => .next (t.afterStep gid pid p)
        | r => r)))
  ∧ (∀ (s : State) rest, (∀ i, s.agenda = .event i :: rest → isEvent i = true → step s = exec i { s with agenda := rest })
    ∧ (∀ n, s.agenda = .tick n :: rest → step s = .next ({ s with agenda := rest }.advance n)))

/-- Every step of the machine answers a next state: no fault and no refusal ends a run (R150: every exception the spec names is taken). -/
def Obligations.EveryStepGoes : Prop := ∀ s, Goes s

/-! ### Memory's form and reset -/

/-- Every step keeps memory in its canonical form. -/
def Obligations.StepKeepsMemoryForm : Prop := ∀ s t, Memory.wf s.mem = true → step s = .next t → Memory.wf t.mem = true

/-- After reset module time is 0, MSTAT.READY 0, every context Free, every port Disabled and accepting, every system ring empty, and the bank modes
and configuration are those of R210 and Table 24-2 (R12, R89, R100, R195, R378). Memory has the canonical form, and every byte of it reads as
the one default value, which is the model's choice. -/
def Obligations.ResetState : Prop :=
  Memory.wf State.reset.mem = true ∧ (∀ k, State.reset.byte k = memDefault) ∧ State.reset.now = 0 ∧ State.reset.mod.ready = false
  ∧ (∀ c, State.reset.ctx c = Context.free) ∧ (∀ p, (State.reset.port p).st = 0 ∧ (State.reset.port p).enable = false ∧ (State.reset.port p).accept = true)
  ∧ (∀ r, r < 1024 → (State.reset.ring r).st = 0) ∧ (∀ r, 1024 ≤ r → (State.reset.ring r).st = 1)
  ∧ (∀ r, (State.reset.ring r).tail = 0 ∧ (State.reset.ring r).head = 0 ∧ (State.reset.ring r).done = 0 ∧ (State.reset.ring r).log2n = 4)
  ∧ (∀ c b, (State.reset.cluster c).mode b = if b < 32 then 1 else if b < 63 then 0 else 2) ∧ State.reset.groups = [] ∧ State.reset.pools = []
  ∧ State.reset.mod.plim = 16000 ∧ State.reset.mod.tthrot = 100 ∧ State.reset.mod.scrub = 24 ∧ State.reset.mod.duty = 63

/-- No step changes the privilege of a context between its creation and its release (R93), and module time goes back only as the module is
reset: by a bring-up of a module that is not ready, or by a supply outside 48 V to 58 V (R12, R374, R378). -/
def Obligations.PrivilegeAndTimeStand : Prop :=
  ∀ s t, step s = .next t → (∀ c, (s.ctx c).st ≠ 0 → (t.ctx c).st ≠ 0 → (t.ctx c).sys = (s.ctx c).sys) 
    ∧ (s.cycle ≤ t.cycle ∨ t.cycle = 0 ∧
      (s.mod.ready = false ∧ 48 ≤ s.mod.volts ∧ s.mod.volts ≤ 58 ∧ (s.agenda = [] ∨ ∃ rest, s.agenda = .event .bringUp :: rest)
        ∨ ∃ v rest, s.agenda = .event (.supplyOutOfRange v) :: rest ∧ (v < 48 ∨ 58 < v)))

/-! ### Registers on their way -/

/-- A result of a word is readable from the cycle it is due and not before; of two results for one register the one due later stands, and
between results of one cycle the later word's (R80, R84). p0 reads as true (R290). (Which of two overlapping results stands is the model's
reading: DEDUCED, log 10.) -/
def Obligations.RegistersReadTheirLatestResult : Prop :=
  ∀ (g : Group) (p : Pass) (tid i c : Nat) (d : Due Carrier),
    let q := { p with dueV := p.dueV ++ [d] }
    (d.tid = tid → d.idx = i → d.cyc ≤ c → (∀ e ∈ p.dueV, e.tid = tid → e.idx = i → e.cyc ≤ d.cyc) → regV g q tid i c = d.val)
    ∧ ((d.tid ≠ tid ∨ d.idx ≠ i ∨ c < d.cyc) → regV g q tid i c = regV g p tid i c)
    ∧ (∀ e ∈ p.dueV, e.tid = tid → e.idx = i → e.cyc ≤ c → d.cyc < e.cyc → regV g q tid i c = regV g p tid i c)
    ∧ regP g p tid 0 c = true

/-! ### Integer words -/

/-- R283, R284, R285, R288, R289 and the 16-bit forms of R74: what each integer arithmetic word computes, from exact integers, and each logic word,
shift, bit count, field and immediate; and what they leave alone. Completes: iadd16, isub16, imul16, imin16, imax16, iadd, isub, imin, imax, nmin,
nmax, iabs, ineg, iaddW, isubW, iadds, nadds, imul, imulh, nmulh, imad, imadW, idot4, ndot4, and16, or16, xor16, shl16, shr16, sra16, and, or, xor,
andn, orn, not, shl, shr, sra, rotl, shlW, shrW, sraW, popc, clz, ctz, brev, bfei, bfen, bfi, bmsk, iaddi, andi, shli, shri, srai, ldi, ldih. -/
def Obligations.IntegerWords : Prop := ∀ i e, arithmetic i = some e ∨ bitwork i = some e → Performs i e

/-- R286, R287, R290 to R292, R319: moves with their sticky bit, selection, compares and predicates; a write of p0 is discarded. R297, R298, R302:
moves along a rank and ballots. R299 to R301, R303: what each collective, vote and match gives its participants, and that no other position is
written. R287: SEL's words decode to it, with bits 31:30 zero; it moves v[A] with its sticky bit where p[P] = V and keeps v[D] where not, four
cycles later, and a beat that reads v[A] or v[D] before a result for it is due reads the value before it (R84). (That SEL writes v[D] back where it
does not select is the model's reading: DEDUCED, log 28.) Completes: mov16, mov, sel, icmp, ncmp, fcmp, pmov, pand, por, pxor, pset, ptov, vtop,
stkget, stkset, rshf, rshfu, rshfd, rshfx, qswph, qswpv, qswpd, qbcst, vbal, vbalQuad, cradd, crmin, crmax, crand, cror, crxor, cscani, cscane,
crank, csize, cmaxi, vany, vall, vuni, celect, matchRank. -/
def Obligations.MovesComparesAndLanes : Prop :=
  (∀ i e, moves i = some e ∨ laneMoves i = some e ∨ collectives i = some e → Performs i e)
  ∧ (∀ (s : BitVec 2) (p : BitVec 7) (d a : BitVec 6) (v : BitVec 1) (top : BitVec 2) rest,
    let w := 0x00000071 + 2 * s.toNat + 2 ^ 10 * p.toNat + 2 ^ 17 * d.toNat + 2 ^ 23 * a.toNat + 2 ^ 29 * v.toNat + 2 ^ 30 * top.toNat
    (top = 0 → decode (leBytes 4 w ++ rest) = (.instr (.sel s p d a v), 4))
    ∧ (top ≠ 0 → ∃ why n, decode (leBytes 4 w ++ rest) = (.reject why, n)))
  ∧ decodeTableWord 32 0x230A0871 = some (.sel 0 2 5 6 1)
  ∧ ∀ s g p st q d a v,
      Issues s .lane { rv := [(BitVec.toNat a, 1), (BitVec.toNat d, 1)], wv := [(BitVec.toNat d, 1)], rp := [BitVec.toNat q] } g p →
      ∃ t, exec (.sel st q d a v) s = .next t ∧ Ran s t .lane st.toNat 4 g p (passing s g p)
        (fun x => { v := [(d.toNat, if x.p q.toNat = decide (v = 1#1) then x.v a.toNat else x.v d.toNat)] }) []
        ∧ ∀ x ∈ passing s g p, ∀ i e, (∀ y ∈ p.dueV, y.tid = x.tid → y.idx = i → x.cyc < y.cyc) → x.helper = false →
            (lookup g.threads x.tid) = some e → x.v i = readAt Carrier.zero e.v i

/-- R293 to R296: the uniform words. Completes: gadd, gsub, gmul, gshl, gshr, gand, gor, gmin, gmax, gmov, gfrom, gfromw, gto, gtoh, gldi, gaddi,
gcmp. -/
def Obligations.UniformWords : Prop := ∀ i e, uniforms i = some e → PerformsPass i e

/-! ### Float words -/

/-- R306, R309, R310, R300 and the 16-bit forms: carrier arithmetic with FI, FO and NV; R307, R300: the minimum or maximum of two carriers and of a
cohort's; R308, R311, R312: signs, rounding to whole numbers, classes, scaling and FCVT; R309, R320: the special functions and the random numbers
complete with one result each. What the functions named by those words answer: whole numbers on the side that the word says, the bits of the class
mask, exact scaling and mantissas, the grid of cvt; the square root correctly rounded to odd, 1/√a within one carrier step and not rising, the exact
values, the special values and the odd functions of R309; R48: the mixing of RNG32 and the number that RNGU denotes. (Which of two infinities that differ in S is taken is a free value: DESIGN CHOICE, log 65.
S = 0 beside FCVT's NaN is the model's reading: DEDUCED, log 53.) Completes: fadd16, fsub16, fmul16, crfadd, fadd, fsub, fabsd, fmul, ffma, ffms,
fnfma, frcp, fdiv, fmax16, fmin, fmax, fminn, fmaxn, fabs, fneg, fflr, fceil, ftrnc, frndn, fclass, fscl, fexpo, fmant, fcvt, frsq, fsqrt, fexp2,
flog2, fsin, fcos, ftanh, fsigm, rng32, rngu, rngg, crfmin, crfmax. -/
def Obligations.FloatWords : Prop :=
  (∀ i e, floatArithmetic i = some e ∨ floatChoice i = some e ∨ floatSpecial i = some e → Performs i e)
  ∧ (∀ i e, choices i = some e → Chooses i e)
  ∧ (∀ s g p st d a i least, (i, least) ∈ [(Instr.crfmin st d a, true), (.crfmax st d a, false)] →
      Issues s .cohort { rv := [(BitVec.toNat a, 1)], wv := [(BitVec.toNat d, 1)] } g p → ∃ t r, exec i s = .next t
        ∧ Ran s t .cohort (BitVec.toNat st) 24 g p (taking s .cohort g p) (fun _ => { v := [(d.toNat, r)] }) []
        ∧ (taking s .cohort g p ≠ [] → Extreme least ((taking s .cohort g p).map fun x => x.v a.toNat) r))
  ∧ (RoundsWhole (roundWhole .rd) (fun a z => (z : Rat) ≤ a ∧ a < z + 1)
    ∧ RoundsWhole (roundWhole .ru) (fun a z => (z : Rat) - 1 < a ∧ a ≤ z)
    ∧ RoundsWhole (roundWhole .rz) (fun a z => sizeOf_ z ≤ sizeOf_ a ∧ sizeOf_ a < sizeOf_ z + 1)
    ∧ RoundsWhole (roundWhole .rne) (fun a z => sizeOf_ (z - a) ≤ 1 / 2 ∧ (sizeOf_ (z - a) = 1 / 2 → z % 2 = 0))
    ∧ ∀ c, ClassMask c (classMask c))
  ∧ (PassesSpecials mantissaOf ∧ (∀ n, PassesSpecials fun c => scaleCarrier c n)
    ∧ ∀ c, isFinite c →
      (numberOf c = 0 → mantissaOf c = c ∧ ∀ n, scaleCarrier c n = c)
      ∧ (numberOf c ≠ 0 → isFinite (mantissaOf c) ∧ 1 ≤ sizeOf_ (numberOf (mantissaOf c)) ∧ sizeOf_ (numberOf (mantissaOf c)) < 2
        ∧ (∃ k, numberOf (mantissaOf c) * two_ k = numberOf c)
        ∧ ∀ n, IsCarry (c.w.getLsbD 31) (numberOf c * two_ n) (scaleCarrier c n)))
  ∧ (∀ c code f, floatFormat code = some f →
      (¬ isFinite c → cvtResult c code = { w := c.w, s := false })
      ∧ (isFinite c → code = 0 ∨ numberOf c = 0 → cvtResult c code = c)
      ∧ ∀ k t, isFinite c → code ≠ 0 → let u := max (k - (f.q + 2) + 1) (f.emin - f.q - 1)
        OnGrid (numberOf c) k u t → isFinite (cvtResult c code)
          ∧ numberOf (cvtResult c code) = signOf (c.w.getLsbD 31) * (oddSteps (decide (t * two_ u = sizeOf_ (numberOf c))) t * two_ u))
  ∧ (SpecialValues frsqOf (some infinity) (signedZero false, false) (quietNaN, true) true
    ∧ SpecialValues fsqrtOf (some signedZero) (infinity false, false) (quietNaN, true) true
    ∧ SpecialValues fexp2Of none (infinity false, false) (signedZero false, false) false
    ∧ SpecialValues flog2Of (some fun _ => infinity true) (infinity false, false) (quietNaN, true) true
    ∧ SpecialValues fsinOf (some signedZero) (quietNaN, true) (quietNaN, true) false
    ∧ SpecialValues fcosOf (some fun _ => signedOne false) (quietNaN, true) (quietNaN, true) false
    ∧ SpecialValues ftanhOf (some signedZero) (signedOne false, false) (signedOne true, false) false
    ∧ SpecialValues fsigmOf none (signedOne false, false) (signedZero false, false) false
    ∧ ∀ c, isFinite c → (fsinOf (flipped c)).1 = flipped (fsinOf c).1 ∧ (ftanhOf (flipped c)).1 = flipped (ftanhOf c).1)
  ∧ (∀ c, isFinite c → 0 < numberOf c →
    IsRoot (numberOf c) (fsqrtOf c).1
    ∧ (∀ k, two_ (2 * k) * numberOf c ≤ 1 → 1 < two_ (2 * (k + 1)) * numberOf c → NearRsqrt (numberOf c) k (frsqOf c).1)
    ∧ (∀ h, numberOf c = two_ (2 * h) → numberOf (frsqOf c).1 = two_ (-h))
    ∧ (∀ e, isFinite e → numberOf c ≤ numberOf e → numberOf (frsqOf e).1 ≤ numberOf (frsqOf c).1)
    ∧ ∀ h, numberOf c = two_ h → numberOf (flog2Of c).1 = h ∧ (h = 0 → (flog2Of c).1 = signedZero false))
  ∧ (∀ c, isFinite c → (∀ z : Int, numberOf c = z → -150 ≤ z → z < 128 → numberOf (fexp2Of c).1 = two_ z)
      ∧ (128 ≤ numberOf c → (fexp2Of c).1 = { w := 0x7F7FFFFF#32, s := true }))
  ∧ ∀ key counter : Word, let x := mixed ((key.toNat + counter.toNat * 0x9E3779B9) % 2 ^ 32)
      (rng32 key counter).toNat = x ∧ isFinite (rngu key counter) ∧ numberOf (rngu key counter) = ((x / 2 ^ 8 : Nat) + 1 / 2) * two_ (-24)

/-- The numeric kernel in rational numbers. R24: what a finite carrier denotes. R29, R30: sums, products and quotients are exact, a zero sum is −0
only of two zeros of that sign; carry(x) is x truncated toward zero to F32 with S set exactly when something was cut off, and the overflow
carrier from 2^128 on. R28: rounding to odd of any precision and quantum. R34, R33, R38: finalisation to each float format under each mode,
its flags, overflow, NaN and infinities, and that the pattern and the carrier of a finalised number denote it. R36: finalisation to an
integer rounds under the mode, saturates with OF and NX, gives 0 with NV for NaN and its bound with OF for an infinity. -/
def Obligations.NumericKernel : Prop :=
  (∀ c : Carrier, isFinite c → ∃ x, carrierVal c = .num x ∧ x.d ≠ 0 ∧ x.rat = numberOf c ∧ x.neg = c.w.getLsbD 31)
  ∧ (∀ x y : Ex, x.d ≠ 0 → y.d ≠ 0 →
      ((x.add y).d ≠ 0 ∧ (x.add y).rat = x.rat + y.rat
        ∧ (x.rat + y.rat = 0 → (x.add y).neg = decide (x.rat = 0 ∧ y.rat = 0 ∧ x.neg = true ∧ y.neg = true)))
      ∧ ((x.mul y).d ≠ 0 ∧ (x.mul y).rat = x.rat * y.rat ∧ (x.mul y).neg = (x.neg != y.neg))
      ∧ (y.rat ≠ 0 → (x.div y).d ≠ 0 ∧ (x.div y).rat = x.rat / y.rat ∧ (x.div y).neg = (x.neg != y.neg))
      ∧ (x.rat ≠ 0 → two_ x.log2 ≤ sizeOf_ x.rat ∧ sizeOf_ x.rat < two_ (x.log2 + 1)))
  ∧ (∀ (x : Ex) p m k t, x.d ≠ 0 → let u := max (k - p + 1) m
      OnGrid x.rat k u t → (ro x p m).rat = signOf x.neg * (oddSteps (decide (t * two_ u = sizeOf_ x.rat)) t * two_ u))
  ∧ (∀ x : Ex, x.d ≠ 0 → (x.rat = 0 → carry x = signedZero x.neg) ∧ (x.rat ≠ 0 → IsCarry x.neg x.rat (carry x)))
  ∧ (∀ code f F m D, floatFmt code = some f → floatFormat code = some F → D < 2 ^ 32 →
      (finVal .nan f m D (2 ^ 32) = if F.nan then (.nan, 0#32) else (.num false 0 0, 0x10#32))
      ∧ (∀ neg, let r := finVal (.inf neg) f m D (2 ^ 32)
        if F.infinite then r = (.inf neg, 0#32) else r.2 = 0xA#32 ∧ (∃ q u, r.1 = .num neg q u) ∧ r.1.mag = F.largest)
      ∧ ∀ x : Ex, x.d ≠ 0 → let r := finVal (.num x) f m D (2 ^ 32)
        (x.rat = 0 → r = (.num x.neg 0 0, 0#32))
        ∧ (∀ k t, OnGrid x.rat k (max (k - F.q + 1) (F.emin - F.q + 1)) t → Finalised F m x.neg x.rat k t D r)
        ∧ ∀ q u, r.1 = .num x.neg q u → numberOf (finCarrier r.1) = signOf x.neg * r.1.mag
          ∧ ∃ y, fmtVal f (finPattern f r.1) = .num y ∧ y.rat = signOf x.neg * r.1.mag ∧ y.neg = x.neg)
  ∧ ∀ code lo hi m D, intBounds code = some (lo, hi) → D < 2 ^ 32 →
      finInt .nan lo hi m D (2 ^ 32) = (0, 1#32) ∧ (∀ neg, finInt (.inf neg) lo hi m D (2 ^ 32) = (if neg then lo else hi, 2#32))
      ∧ ∀ (x : Ex) (t : Nat), x.d ≠ 0 → (t : Rat) ≤ sizeOf_ x.rat → sizeOf_ x.rat < t + 1 →
        let n : Int := m.steps x.neg t (sizeOf_ x.rat - t) D
        let i := if x.neg then -n else n
        Saturated lo hi i (decide ((i : Rat) = x.rat)) (finInt (.num x) lo hi m D (2 ^ 32))

/-- R309, R320: in real numbers, and with each bound widened by one part in 256 and by 2^-30 of the value, which `Near` adds because the proof
compares with enclosures: FEXP2, FTANH and FSIGM lie within 2 u of the function, FLOG2 within the larger of 2 u and 2^-24, FSIN and FCOS within 2^-22
of every finite operand, RNGG within the larger of 2 u and 2^-21 and in [−2.86, 17.33]; FEXP2, FLOG2, FTANH and FSIGM do not fall as the operand
rises, nor RNGG as RNGU does. -/
def Obligations.SpecialFunctionBounds : Prop :=
  (∀ c, isFinite c → let a : ℝ := numberOf c
    (numberOf c < 128 → Near ((2 : ℝ) ^ a) (fun y => 2 * realStep y) (fexp2Of c).1)
    ∧ (0 < numberOf c → Near (Real.logb 2 a) (fun y => max (2 * realStep y) (2 ^ (-24 : ℤ))) (flog2Of c).1)
    ∧ Near (Real.sin a) (fun _ => 2 ^ (-22 : ℤ)) (fsinOf c).1 ∧ Near (Real.cos a) (fun _ => 2 ^ (-22 : ℤ)) (fcosOf c).1
    ∧ Near (Real.tanh a) (fun y => 2 * realStep y) (ftanhOf c).1 ∧ Near (1 / (1 + Real.exp (-a))) (fun y => 2 * realStep y) (fsigmOf c).1)
  ∧ (∀ key counter, let u : ℝ := numberOf (rngu key counter)
    Near (-Real.log (-Real.log u)) (fun y => max (2 * realStep y) (2 ^ (-21 : ℤ))) (gumbel key counter)
    ∧ -286 / 100 ≤ numberOf (gumbel key counter) ∧ numberOf (gumbel key counter) ≤ 1733 / 100)
  ∧ Rising (fun _ => True) fexp2Of ∧ Rising (fun a => 0 < a) flog2Of ∧ Rising (fun _ => True) ftanhOf ∧ Rising (fun _ => True) fsigmOf
  ∧ ∀ k₁ c₁ k₂ c₂, numberOf (rngu k₁ c₁) ≤ numberOf (rngu k₂ c₂) → numberOf (gumbel k₁ c₁) ≤ numberOf (gumbel k₂ c₂)

/-- R313 to R318: finalisation, packing, unpacking and integer conversion, with FSTAT and one advance of DITH under SR; R39: DITH advances by
xorshift32 with shifts 13, 17 and 5. Completes: ffin, fpack, fpk8, funpk, ftoi, itof. -/
def Obligations.FloatConversions : Prop :=
  (∀ i e, wellFormed i = true → conversions i = some e → Performs i e) ∧ ∀ d : Word, (dithNext d).toNat = shifted d.toNat

/-! ### Extended registers -/

/-- R149, R286: XMOV and XSET move a carrier with its sticky bit when the group has its grant; without it each passing cohort thread takes the
misuse fault 0x0E. R149, R176: the first waiting request is granted whole when enough sets are free, its registers read zero and its threads go on;
a pennant's change reaches a core's copy in the order of the changes. R175, R271, R176: PNSET, PNMIN and PNMAX change a pennant at its home by each
passing thread's pair, in ascending TID, and send every change to the eight copies; PNRD reads the core's own copy, with every change that left 40
cycles ago or more. (That the copies are numbered by the core's index modulo 8 is the model's own: DESIGN CHOICE, log 54.) Completes: xregGrant,
pennantCopyUpdate, xmov, xset, pnset, pnmin, pnmax, pnrd. -/
def Obligations.ExtendedRegistersAndPennantCopies : Prop :=
  (∀ s g p st d a,
    (Issues s .lane { wv := [(BitVec.toNat d, 1)], rx := [BitVec.toNat a], ext := true } g p →
      (g.grant = true → ∃ t, exec (.xmov st d a) s = .next t
        ∧ Ran s t .lane st.toNat 4 g p (passing s g p) (fun x => { v := [(d.toNat, x.x a.toNat)] }) [])
      ∧ (g.grant = false → exec (.xmov st d a) s = .next ((s.movedOn g p .lane st.toNat false).faulting (takers s .lane g p) 0x0E 0)))
    ∧ (Issues s .lane { rv := [(BitVec.toNat a, 1)], ext := true } g p →
      (g.grant = true → ∃ t, exec (.xset st d a) s = .next t
        ∧ Ran s t .lane st.toNat 4 g p (passing s g p) (fun x => { x := [(d.toNat, x.v a.toNat)] }) [])
      ∧ (g.grant = false → exec (.xset st d a) s = .next ((s.movedOn g p .lane st.toNat false).faulting (takers s .lane g p) 0x0E 0))))
  ∧ (∀ s,
    (∀ cl gid n rest g, (s.cluster cl).xqueue = (gid, n) :: rest →
      (n ≤ (s.cluster cl).xfree → lookup s.groups gid = some g → ∃ t g', exec (.xregGrant cl) s = .next t
        ∧ { t with clusters := s.clusters, groups := s.groups } = s ∧ lookup t.groups gid = some g' ∧ g'.grant = true
        ∧ (t.cluster cl).xfree = (s.cluster cl).xfree - n ∧ (t.cluster cl).xqueue = rest
        ∧ ∀ tid th, lookup g.threads tid = some th → ∃ th', lookup g'.threads tid = some th' ∧ th'.x = []
          ∧ (th.wait = .acqx → th'.wait = .ready ∧ th'.woken = true) ∧ (th.wait ≠ .acqx → th'.wait = th.wait ∧ th'.woken = th.woken))
      ∧ ((s.cluster cl).xfree < n → exec (.xregGrant cl) s = .next s))
    ∧ ∀ team core m pre c post, lookup s.teams team = some m → m.moving = pre ++ c :: post → c.core = core % 8 → (∀ d ∈ pre, d.core ≠ core % 8) →
        exec (.pennantCopyUpdate team core) s = .next { s with teams := putAt s.teams team { m with
          copies := writeAt 0#64 m.copies (core % 8 * 16 + c.pen) c.val, moving := pre ++ post } })
  ∧ ∀ s g p st f,
    (∀ a m i op, Issues s .lane { rv := [(BitVec.toNat a, 2)] } g p → lookup s.teams g.team = some m →
      (i, op) ∈ [(Instr.pnset st a f, fun (_ x : Int) => x), (.pnmin st a f, fun o x => min o x), (.pnmax st a f, fun o x => max o x)] →
      ∃ t m', exec i s = .next t ∧ lookup t.teams g.team = some m'
        ∧ (readAt 0#64 m'.home (BitVec.toNat f)).toInt = ((taking s .lane g p).map fun x => x.ii a).foldl op (readAt 0#64 m.home f.toNat).toInt
        ∧ (∀ j, j ≠ f.toNat → readAt 0#64 m'.home j = readAt 0#64 m.home j) ∧ m'.copies = m.copies
        ∧ m.moving <+: m'.moving ∧ m'.moving.length = m.moving.length + 8 * (takers s .lane g p).length
        ∧ (∀ c ∈ m'.moving, c ∈ m.moving ∨ c.pen = f.toNat ∧ c.core < 8 ∧ c.gid = s.cur.gid ∧ s.cycle ≤ c.at_) ∧ t.mem = s.mem)
    ∧ (∀ d m, Issues s .lane { wv := [(BitVec.toNat d, 2)] } g p → lookup s.teams g.team = some m → ∃ t, exec (.pnrd st d f) s = .next t
      ∧ Ran s t .lane st.toNat 4 g p (passing s g p) (fun x => two d (((m.moving.filter fun c =>
            decide (c.core = g.core % 8 ∧ c.pen = BitVec.toNat f ∧ c.at_ + 40 ≤ x.cyc)).getLast?.map (·.val)).getD
          (readAt 0#64 m.copies (g.core % 8 * 16 + f.toNat))).toInt) [])

/-! ### Control -/

/-- R267, R82: NOP and STALL only take their beat; WAIT goes on when no token of its mask is pending and no late fault waits for one, and holds the
pass while one is pending, whichever pass named it (R17); YIELD ends the pass with its cohort at the next word, and where that would lie at offset
4096 takes its fault instead (R264). R277, R158, R87: TRAP raises the user-trap fault with its code in each passing thread, the resume record at the
TRAP itself, one word before the next; BRK outside debug mode the breakpoint fault in every cohort thread, and in debug mode it stops the group with
its pass at the next word; a word that is no instruction raises the illegal-instruction fault in every cohort thread. R281, R90: HALT begins the
halt of its group's context as of now and leaves the pass after the word; a halt in progress stays as it is. Completes: nop, stall, wait, yield,
brk, trap, halt, illegalInstruction. -/
def Obligations.EscapesTrapsAndHalt : Prop :=
  (∀ s g p, Issues s .pass {} g p →
    exec .nop s = .next (s.movedOn g p .pass 0 false)
    ∧ (∀ n, exec (.stall n) s = .next (s.movedOn g p .pass n.toNat false))
    ∧ (∀ m, (∀ i, m.getLsbD i = true → s.tokenPending s.cur.gid i = false) →
        (∀ tid ∈ p.cohort, ∀ l ∈ (g.thread tid).late, m.getLsbD l.tok = false) →
        ∃ t g' p', exec (.wait m) s = .next t ∧ OnlyPass s t g g' p p' ∧ Past s .pass 0 p p' ∧ ∀ tid, g'.thread tid = g.thread tid)
    ∧ (∀ m i, m.getLsbD i = true → s.tokenPending s.cur.gid i = true → exec (.wait m) s = .next (s.waits g p .wait))
    ∧ (s.cur.next < 4096 → exec .yield s = .next (s.withPass g { stepped s .pass 0 p with
        ended := true, exits := p.cohort.map fun t => (t, .bin p.handler p.blk s.cur.next) }))
    ∧ (4096 ≤ s.cur.next → exec .yield s = .next (s.faulting p.cohort 1 0)))
  ∧ (∀ s g p,
    (∀ st c, Issues s .lane {} g p →
      exec (.trap st c) s = .next ((s.movedOn g p .lane st.toNat true).faultingAt (s.cur.next - 2) (takers s .lane g p) 0x11 c.toNat))
    ∧ (∀ c, Issues s .pass {} g p →
      ((s.ctx g.ctx).debug = false → exec (.brk c) s = .next (s.faulting p.cohort 0x10 c.toNat))
      ∧ ((s.ctx g.ctx).debug = true → ∃ t g' p', exec (.brk c) s = .next t ∧ { t with groups := s.groups } = s
        ∧ lookup t.groups s.cur.gid = some g' ∧ lookup g'.passes s.cur.pid = some p' ∧ Past s .pass 0 p p' ∧ p'.run = .stopped
        ∧ (g.st = .running → g'.st = .stopped) ∧ g'.threads = g.threads
        ∧ ∀ q r, q ≠ s.cur.pid → lookup g.passes q = some r →
            lookup g'.passes q = some { r with run := if r.run = .running then .held else r.run }))
    ∧ (Reaches s g p → exec .illegalInstruction s = .next (s.faulting p.cohort 1 0)))
  ∧ (∀ s g p st, Issues s .pass { priv := true } g p → takers s .pass g p ≠ [] →
    ((s.ctx g.ctx).halt = none → ∃ t, exec (.halt st) s = .next t
      ∧ (t.ctx g.ctx).halt = some { since := s.now, destroy := false, byHalt := true, faulted := false }
      ∧ (∀ c, c ≠ g.ctx → t.ctx c = s.ctx c) ∧ t.mem = s.mem ∧ t.pend = s.pend
      ∧ (∀ k h, k ≠ s.cur.gid → lookup s.groups k = some h → lookup t.groups k = some (if h.ctx = g.ctx then h.startHalt else h))
      ∧ lookup t.groups s.cur.gid =
          some { g with passes := putAt g.passes s.cur.pid { stepped s .pass st.toNat p with loud := p.loud || false } }.startHalt)
    ∧ (∀ h, (s.ctx g.ctx).halt = some h → exec (.halt st) s = .next (s.movedOn g p .pass st.toNat false)))

/-- R137, R265, R266: a terminator ends its pass; every cohort thread goes to the entry bin of its block, or retires, and CALL writes v63. A thread
whose block id is not valid takes the illegal-operand fault and joins no bin (R116). Completes: jmp, brc, brx, call, exit. -/
def Obligations.Terminators : Prop :=
  ∀ s g p i e k, terminators s g i = some e → Issues s .lane e.needs g p → s.code g p.handler = some k →
    (e.link = true → (k.block (k.fall p.blk)).isSome) →
    ((∀ x ∈ cohortViews s g p, ∀ b, e.go k p x = some b → (k.block b).isSome) →
      exec i s = .next (s.withPass g (endedBy s p k e (cohortViews s g p))))
    ∧ ((∀ x ∈ cohortViews s g p, ∃ b, e.go k p x = some b ∧ k.block b = none) →
      exec i s = .next ((s.withPass g { stepped s .lane 0 p with ended := true, exits := [] }).faulting ((cohortViews s g p).map (·.tid)) 2 0))

/-- R279, R14, Table 14-2: SMOV writes the special register into v[D]; a read of MTIMELO or HORIZLO also captures the upper word in the thread, and
no other read changes a thread. R279, R280, R39, R40, R266: what SSET leaves of DITH, FSTAT, LINK and GCTL; a register marked RO raises the
privilege fault and changes nothing. R210, R211, R208: an SSET of BANKCTL requests a bank mode: refused with REF, or already so, it completes; else,
or behind an earlier request for its bank, it waits and holds its pass. A request takes its turn in arrival order: it is refused, finds its mode, or
takes effect: the bank has its mode, a bank that enters scratchpad mode reads as zero, and a change of the cache-way banks discards the cluster's
copies. (That a change discards every copy of the cluster is the model's reading: DEDUCED, log 52.) Completes: bankModeChange, smov, sset. -/
def Obligations.SpecialRegisters : Prop :=
  (∀ s g p st d n, specialExists (BitVec.toNat n) → (n.toNat = 0x019 → 64 ≤ s.regs g) →
    Issues s .lane { wv := [(BitVec.toNat d, 1)], priv := decide (0x800 ≤ n.toNat) } g p →
    ∃ t g' p', exec (.smov st d n) s = .next t ∧ { t with groups := s.groups } = s ∧ lookup t.groups s.cur.gid = some g'
      ∧ lookup g'.passes s.cur.pid = some p' ∧ Past s .lane st.toNat p p'
      ∧ Written (regV g p) (regV g' p') p.dueV (readyAt s .lane p 4) (s.cycle + 4)
          (fun x => [(d.toNat, specialRead s g p n.toNat x)]) (passing s g p)
      ∧ (n.toNat ≠ 0x00D → n.toNat ≠ 0x00F → ∀ tid, g'.thread tid = g.thread tid)
      ∧ (n.toNat = 0x00D → ∀ x ∈ passing s g p, x.helper = false → (∀ y ∈ passing s g p, y.tid = x.tid → y = x) →
          g'.thread x.tid = { g.thread x.tid with mtime := some (BitVec.ofNat 32 (x.cyc * 5 / 7 / 2 ^ 32)) })
      ∧ (n.toNat = 0x00F → ∀ x ∈ passing s g p, x.helper = false → (∀ y ∈ passing s g p, y.tid = x.tid → y = x) →
          g'.thread x.tid = { g.thread x.tid with horiz := some (BitVec.ofNat 32 (max x.th.hm x.th.hx / 2 ^ 32)) }))
  ∧ (∀ s g p st d n, specialExists (BitVec.toNat n) → n.toNat ≠ 0x801 → (n.toNat = 0x019 → 64 ≤ s.regs g) →
    Issues s .lane { rv := [(BitVec.toNat d, 1)], priv := decide (0x800 ≤ n.toNat) } g p →
    (n.toNat ∈ [0x011, 0x012, 0x019, 0x800] → ∃ t g' p', exec (.sset st d n) s = .next t ∧ { t with groups := s.groups } = s
      ∧ lookup t.groups s.cur.gid = some g' ∧ lookup g'.passes s.cur.pid = some p' ∧ Past s .lane st.toNat p p'
      ∧ (∀ x ∈ passing s g p, x.helper = false → (∀ y ∈ passing s g p, y.tid = x.tid → y = x) → g'.thread x.tid =
          if n.toNat = 0x011 then { g.thread x.tid with dith := if (x.v d.toNat).w = 0#32 then 1#32 else (x.v d.toNat).w }
          else if n.toNat = 0x012 then { g.thread x.tid with fstat := (x.v d.toNat).w &&& 0x1F#32 }
          else g.thread x.tid)
      ∧ (n.toNat = 0x019 → Written (regV g p) (regV g' p') p.dueV (·.cyc) s.cycle (fun x => [(63, x.v d.toNat)]) (passing s g p))
      ∧ (n.toNat ≠ 0x019 → ∀ tid i c, regV g' p' tid i c = regV g p tid i c)
      ∧ g'.schk = (match n.toNat, (taking s .lane g p).getLast? with
        | 0x800, some x => (x.v d.toNat).w.getLsbD 0
        | _, _ => g.schk))
    ∧ (n.toNat < 0x011 ∨ n.toNat = 0x013 ∨ n.toNat = 0x014 →
      exec (.sset st d n) s = .next ((s.movedOn g p .lane st.toNat false).faulting (takers s .lane g p) 0x13 0)))
  ∧ (∀ s g p st d x, Issues s .lane { rv := [(BitVec.toNat d, 1)], priv := true } g p → p.hold = .none →
    (p.views g s.cycle).filter (fun v => v.passes s.cur.guard) = [x] → x.helper = false → x.tid ∈ p.cohort →
    (∀ c ∈ (s.cluster (g.core / 8)).changes, c.1 ≠ s.cur.gid) →
    let cl := s.cluster (g.core / 8)
    let b := (x.v d.toNat).w.toNat % 64
    let m := (x.v d.toNat).w.toNat / 64 % 4
    let behind := ∃ c ∈ cl.changes, c.2.2.1 = b
    ∃ t g' p', exec (.sset st d 0x801#12) s = .next t ∧ lookup t.groups s.cur.gid = some g' ∧ lookup g'.passes s.cur.pid = some p'
      ∧ { t with groups := s.groups, clusters := s.clusters } = s ∧ (∀ tid, tid ≠ x.tid → g'.thread tid = g.thread tid)
      ∧ (¬ behind → RefusedMode s cl b m →
          g'.thread x.tid = { g.thread x.tid with bank := b, bankRef := true } ∧ t.clusters = s.clusters ∧ Past s .lane st.toNat p p')
      ∧ (behind ∨ ¬ RefusedMode s cl b m → g'.thread x.tid = { g.thread x.tid with bank := b, bankRef := false })
      ∧ (¬ behind → ¬ RefusedMode s cl b m → cl.mode b = m → t.clusters = s.clusters ∧ Past s .lane st.toNat p p')
      ∧ (behind ∨ ¬ RefusedMode s cl b m ∧ cl.mode b ≠ m →
        (t.cluster (g.core / 8)) = { cl with changes := cl.changes ++ [(s.cur.gid, x.tid, b, m)] } ∧ p' = { p with hold := .bank }))
  ∧ ∀ s k gid tid b m rest, (s.cluster k).changes = (gid, tid, b, m) :: rest → b < 64 → m < 4 →
      (RefusedMode s (s.cluster k) b m → ∃ t, exec (.bankModeChange k) s = .next t ∧ { t with clusters := s.clusters, groups := s.groups } = s
        ∧ t.cluster k = { s.cluster k with changes := rest } ∧ (∀ k', k' ≠ k → t.cluster k' = s.cluster k')
        ∧ ∀ g th, lookup s.groups gid = some g → lookup g.threads tid = some th →
            lookup t.groups gid = some (g.putThread tid { th with bankRef := true }))
      ∧ (¬ RefusedMode s (s.cluster k) b m → (s.cluster k).mode b = m →
        exec (.bankModeChange k) s = .next { s with clusters := putAt s.clusters k { s.cluster k with changes := rest } })
      ∧ (¬ RefusedMode s (s.cluster k) b m → (s.cluster k).mode b ≠ m → Memory.wf s.mem = true → ∃ t,
        exec (.bankModeChange k) s = .next t ∧ (t.cluster k).changes = rest ∧ (t.cluster k).mode b = m
        ∧ (∀ b', b' ≠ b → (t.cluster k).mode b' = (s.cluster k).mode b') ∧ (∀ k', k' ≠ k → t.cluster k' = s.cluster k') ∧ t.groups = s.groups
        ∧ (m = 1 → (∀ o, o < 2 ^ 19 → t.byte (scratchKey k b o) = 0#8))
        ∧ (∀ q, m ≠ 1 ∨ q < scratchKey k b 0 ∨ scratchKey k b 0 + 2 ^ 19 ≤ q → t.byte q = s.byte q)
        ∧ (m = 0 ∨ (s.cluster k).mode b = 0 → ∀ j c, (j, c) ∈ t.copies → c.cache ≠ .cluster k))

/-! ### Exceptions -/

/-- R9: DIEID, CLUSID and COREID read the die, the cluster within it and the core within that, and give the core's module-wide index. -/
def Obligations.CoresAreNumbered : Prop :=
  ∀ s g p st d, g.core < 1536 → Issues s .lane { wv := [(BitVec.toNat d, 1)] } g p →
    let reads := fun (n : BitVec 12) (x : Nat) => ∃ t g' p', exec (.smov st d n) s = .next t ∧ lookup t.groups s.cur.gid = some g'
      ∧ lookup g'.passes s.cur.pid = some p'
      ∧ Written (regV g p) (regV g' p') p.dueV (readyAt s .lane p 4) (s.cycle + 4) (fun _ => [(d.toNat, low x)]) (passing s g p)
    ∃ die clus core, die < 24 ∧ clus < 8 ∧ core < 8 ∧ g.core = die * 64 + clus * 8 + core
      ∧ reads 0x007#12 die ∧ reads 0x008#12 clus ∧ reads 0x009#12 core

/-- R150, R86: a faulting thread of a pass leaves it with every result of the pass written, records where it stood with cause 5 and the fault's
code, detail and address, and stands ready at the handler's entry; nothing else of the machine changes but its pass. R151, R94, Table 5-2: a
fault of a thread that no valid handler takes, and one of a thread in its handler (a double fault, whose record holds the first code and the
second), ends the group: its threads and passes are gone and the context fault record is the latest; once a group has been ended so, further
faults of its threads change nothing. -/
def Obligations.FaultsAreTaken : Prop :=
  (∀ (s : State) gid pid off (f : Flt) g p k, lookup s.groups gid = some g → lookup g.passes pid = some p → f.tid ∈ p.cohort →
    g.dead = false → (g.thread f.tid).res.cause ≠ 5 → s.handler g = some k →
    ∃ g' p', lookup (s.takeFault gid pid off f).groups gid = some g' ∧ { s.takeFault gid pid off f with groups := s.groups } = s
      ∧ (∀ j, j ≠ gid → lookup (s.takeFault gid pid off f).groups j = lookup s.groups j)
      ∧ (g'.thread f.tid).res = { blk := p.blk, off := off, cause := 5 } ∧ (g'.thread f.tid).fcode = f.code
      ∧ (g'.thread f.tid).fdetail = f.detail ∧ (g'.thread f.tid).fad = f.addr ∧ (g'.thread f.tid).place = .bin true k.entry 0
      ∧ (g'.thread f.tid).wait = .ready ∧ (g'.thread f.tid).fstat = (g.thread f.tid).fstat ∧ (g'.thread f.tid).dith = (g.thread f.tid).dith
      ∧ (∀ i c, (∀ d ∈ p.dueV, d.tid = f.tid → d.cyc ≤ c) → readAt Carrier.zero (g'.thread f.tid).v i = regV g p f.tid i c)
      ∧ (∀ tid, tid ≠ f.tid → g'.thread tid = g.thread tid)
      ∧ lookup g'.passes pid = some p' ∧ p'.cohort = p.cohort.filter (· != f.tid) ∧ p'.off = p.off
      ∧ ∀ q, q ≠ pid → lookup g'.passes q = lookup g.passes q)
  ∧ (∀ (s : State) gid blk off (f : Flt) g, lookup s.groups gid = some g →
    let t := s.faultThread gid blk off f
    (g.dead = true → t = s)
    ∧ (g.dead = false → (g.thread f.tid).res.cause ≠ 5 → s.handler g = none → ∃ g', lookup t.groups gid = some g' ∧ g'.threads = [] ∧ g'.passes = []
      ∧ g'.dead = true ∧ (t.ctx g.ctx).lastFault = faultRecord f.code 0 g.kern g.grpid
          ({ blk := blk, off := off, cause := 1 } : Resume).word f.tid s.now)
    ∧ (g.dead = false → (g.thread f.tid).res.cause = 5 → ∃ g', lookup t.groups gid = some g' ∧ g'.threads = [] ∧ g'.passes = [] ∧ g'.dead = true
      ∧ (t.ctx g.ctx).lastFault = faultRecord (g.thread f.tid).fcode f.code g.kern g.grpid (g.thread f.tid).res.word f.tid s.now))

/-- R87 steps 2 to 4, R88, R73: a word with operands, of any family, that its pass does not accept takes the illegal-operand fault in every cohort
thread; one that the stall check finds early takes the stall fault; HALT, and SMOV and SSET of a privileged register, take the privilege fault in an
unprivileged group. R79, R132, R83, R203: a word does not issue while its pass may not issue, and nothing changes; a failure that came back
for a per-pass load is raised, and cleared, before the next word acts. (What the stall check counts where R85 leaves room is said at `TooEarly`:
DEDUCED, logs 69 and 70; that a late failure is raised before the next word is the model's reading: DEDUCED, log 14.) -/
def Obligations.DecodingFaultsAndWaits : Prop :=
  (∀ s g p, Reaches s g p →
    (∀ i k n, registerWord i = some (k, n) ∨ (wellFormed i = true ∧ checkedWord s g i = some (k, n) ∧ ∀ w at_ after left, p.hold ≠ .beats w at_ after left) →
      (operandsOk p s.cur.guard n = false → exec i s = .next (s.faulting p.cohort 2 0))
      ∧ (operandsOk p s.cur.guard n = true → g.schk = true →
        (∃ a ∈ k.views g p s.cycle, TooEarly s g p n (k.views g p s.cycle) a) → exec i s = .next (s.faulting p.cohort 3 0)))
    ∧ ((s.ctx g.ctx).sys = false → operandsOk p s.cur.guard {} = true → ∀ st, exec (.halt st) s = .next (s.faulting p.cohort 0x13 0))
    ∧ (∀ st d n, (s.ctx g.ctx).sys = false → BitVec.toNat n = 0x800 ∨ n.toNat = 0x801 →
      (operandsOk p s.cur.guard { wv := [(BitVec.toNat d, 1)] } = true → exec (.smov st d n) s = .next (s.faulting p.cohort 0x13 0))
      ∧ (operandsOk p s.cur.guard { rv := [(BitVec.toNat d, 1)] } = true → exec (.sset st d n) s = .next (s.faulting p.cohort 0x13 0))))
  ∧ (∀ s g p i k n, registerWord i = some (k, n) ∨ (wellFormed i = true ∧ checkedWord s g i = some (k, n) ∧ ∀ w at_ after left, p.hold ≠ .beats w at_ after left) →
    s.issuing = some (g, p) →
    (mayIssue s g p = false → exec i s = .next s)
    ∧ (mayIssue s g p = true → lateOf [4] g p ≠ [] → exec i s = .next ((s.withGroup (g.dropLate [4] p)).takeFaults s.cur.gid s.cur.pid
        s.cur.at_ (lateOf [4] g p))))

/-- R152, R278: TRET takes each passing thread of a handler back to the bin of its resume record, or past the word there (an IF with its guarded
word), or retires it, once every result of the pass has been written in it, and holds the pass until then; outside a handler it is an illegal
instruction. R264: a skip past offset 4095 takes the illegal-instruction fault with OFFSET 0xFFF. Completes: tretResume, tretSkip, tretRetire. -/
def Obligations.ReturnsFromTheHandler : Prop :=
  ∀ s g p st k, Issues s .lane {} g p → s.kernel g.ctx g.slot g.kern = some k →
    let after := fun (x : View) => k.bodyAt x.th.res.blk x.th.res.off + k.lenAt x.th.res.blk (k.bodyAt x.th.res.blk x.th.res.off)
    ((∀ x ∈ taking s .lane g p, x.th.res.cause = 5 ∧ Arrived s p x.tid) →
      ((∀ x ∈ taking s .lane g p, (k.block x.th.res.blk).isSome ∧ x.th.res.off < 4096) →
        ∃ t g', exec (.tretResume st) s = .next t ∧ { t with groups := s.groups } = s ∧ lookup t.groups s.cur.gid = some g'
          ∧ (∀ x ∈ taking s .lane g p, (g'.thread x.tid).place = .bin false x.th.res.blk x.th.res.off
            ∧ (g'.thread x.tid).wait = .ready ∧ (g'.thread x.tid).res = { x.th.res with cause := 0 })
          ∧ ∀ tid, tid ∉ takers s .lane g p → g'.thread tid = g.thread tid)
      ∧ ((∀ x ∈ taking s .lane g p, (k.block x.th.res.blk).isSome ∧ k.terminatorAt x.th.res.blk x.th.res.off = false ∧ after x < 4096) →
        ∃ t g', exec (.tretSkip st) s = .next t ∧ { t with groups := s.groups } = s ∧ lookup t.groups s.cur.gid = some g'
          ∧ (∀ x ∈ taking s .lane g p, (g'.thread x.tid).wait = .ready ∧ (g'.thread x.tid).res.cause = 0
            ∧ (g'.thread x.tid).place = .bin false x.th.res.blk (after x))
          ∧ ∀ tid, tid ∉ takers s .lane g p → g'.thread tid = g.thread tid)
      ∧ (∀ x hk, taking s .lane g p = [x] → (k.block x.th.res.blk).isSome → k.terminatorAt x.th.res.blk x.th.res.off = false →
        4096 ≤ after x → s.handler g = some hk →
        ∃ t g', exec (.tretSkip st) s = .next t ∧ { t with groups := s.groups } = s ∧ lookup t.groups s.cur.gid = some g'
          ∧ (g'.thread x.tid).res = { blk := x.th.res.blk, off := 0xFFF, cause := 5 } ∧ (g'.thread x.tid).fcode = 1
          ∧ (g'.thread x.tid).place = .bin true hk.entry 0)
      ∧ ∃ t g', exec (.tretRetire st) s = .next t ∧ { t with groups := s.groups } = s ∧ lookup t.groups s.cur.gid = some g'
        ∧ (∀ x ∈ taking s .lane g p, (g'.thread x.tid).place = .retired) ∧ ∀ tid, tid ∉ takers s .lane g p → g'.thread tid = g.thread tid)
    ∧ ∀ i ∈ [Instr.tretResume st, .tretSkip st, .tretRetire st],
      ((∃ x ∈ taking s .lane g p, x.th.res.cause = 5 ∧ ¬ Arrived s p x.tid) → exec i s = .next (s.waits g p .results))
      ∧ ((∀ x ∈ taking s .lane g p, x.th.res.cause ≠ 5) →
        exec i s = .next ((s.movedOn g p .lane st.toNat false).faulting (takers s .lane g p) 1 0))

/-! ### Barriers -/

/-- R163, R165: n arrivals lower ARRIVE; at zero with no sector missing the phase completes: PHASE moves on, ARRIVE is EXPECT again and the
threads that wait on the barrier are ready. R148, R170: one arrival at the group barrier blocks its thread and counts; the arrival that
makes the count up lets every waiting thread go; a count that no thread could make up is the barrier-mismatch fault, and so is a later
arrival whose count is not the first one's. -/
def Obligations.PhasesComplete : Prop :=
  (∀ (s : State) gid b n g, lookup s.groups gid = some g → 0 < n → n ≤ (g.bar b).arrive.toNat → (g.bar b).expect ≠ 0 → (g.bar b).heldArr = 0 →
    ∃ g', lookup (s.arriveAt gid b n).groups gid = some g' ∧ (s.arriveAt gid b n).mem = s.mem
      ∧ (∀ c, c ≠ b → g'.bar c = g.bar c)
      ∧ (n < (g.bar b).arrive.toNat ∨ (g.bar b).sectors ≠ 0 →
          g'.bar b = { g.bar b with arrive := (g.bar b).arrive - BitVec.ofNat 16 n } ∧ ∀ tid, g'.thread tid = g.thread tid)
      ∧ (n = (g.bar b).arrive.toNat → (g.bar b).sectors = 0 →
          g'.bar b = { g.bar b with phase := (g.bar b).phase + 1, arrive := (g.bar b).expect, chain := [] }
          ∧ ∀ tid, (g.thread tid).wait = .barrier b ∨ (g.thread tid).wait = .arrival b → (g'.thread tid).wait = .ready))
  ∧ (∀ (g : Group) p pid tid off all own, lookup g.passes pid = some p → tid ∈ p.cohort →
    (all = false → own = 0 ∨ g.nthr < own → (g.bargArrive pid tid off all own).2 = some { tid := tid, code := 0x0D, detail := 0, addr := 0 })
    ∧ (∀ c f, g.gbar.count = some (c, f) → own ≠ c → all = false ∨ f = false → 0 < own → own ≤ g.nthr →
        g.bargArrive pid tid off all own = (g, some { tid := tid, code := 0x0D, detail := 0, addr := 0 }))
    ∧ (all = true ∨ (0 < own ∧ own ≤ g.nthr) → g.gbar.count = none → 1 < own → g.gbar.arrived = 0 →
        (g.bargArrive pid tid off all own).2 = none
        ∧ (g.bargArrive pid tid off all own).1.gbar = { count := some (own, all), arrived := 1 }
        ∧ ((g.bargArrive pid tid off all own).1.thread tid).wait = .groupBarrier)
    ∧ (∀ c f, g.gbar.count = some (c, f) → (all = true ∧ f = true) ∨ (all = false ∧ 0 < own ∧ own ≤ g.nthr ∧ own = c) → g.gbar.arrived + 1 = c →
        (g.bargArrive pid tid off all own).2 = none ∧ (g.bargArrive pid tid off all own).1.gbar = { count := none, arrived := 0 }
        ∧ ∀ j, ((g.bargArrive pid tid off all own).1.thread j).wait ≠ .groupBarrier))

/-- R162 to R167, R268, R269: BINIT sets up a barrier that is at rest; BARV, BARV.PASS and BARV.EXPECT arrive; BTEST compares the phase; BWAIT of a
phase that has moved on writes PHASE and ERR, readable at once, and of the current phase blocks. Arrivals that the phase has no place for block at
the word, and each of these words on a barrier that BINIT has not set up takes the descriptor fault, and on one that the group does not have the
illegal-operand fault, in its passing threads (R160). (A helper's BWAIT blocks nothing: DESIGN CHOICE, log 85.) Completes: binit, barv, barvPass, barvExpect,
bwait, btest. -/
def Obligations.BarrierWords : Prop :=
  ∀ s g p st b,
    (g.nbars ≤ BitVec.toNat b →
      (Issues s .lane {} g p → takers s .lane g p ≠ [] →
        exec (.barv st b) s = .next ((s.movedOn g p .lane st.toNat true).faulting (takers s .lane g p) 2 0))
      ∧ (Issues s .pass {} g p → takers s .pass g p ≠ [] → exec (.barvPass st b) s = .next (s.faulting p.cohort 2 0))
      ∧ (∀ u, ∀ i ∈ [Instr.binit st b u, .barvExpect st b u], Issues s .pass { rg := [BitVec.toNat u] } g p → takers s .pass g p ≠ [] →
        exec i s = .next (s.faulting p.cohort 2 0))
      ∧ (∀ q a, Issues s .lane { rv := [(BitVec.toNat a, 1)], wp := [BitVec.toNat q] } g p → takers s .lane g p ≠ [] →
        exec (.btest st q a b) s = .next ((s.movedOn g p .lane st.toNat true).faulting (takers s .lane g p) 2 0))
      ∧ ∀ d, Issues s .lane { rv := [(BitVec.toNat d, 1)], wv := [(BitVec.toNat d, 1)] } g p → takers s .lane g p ≠ [] →
        exec (.bwait st d b) s = .next ((s.movedOn g p .lane st.toNat true).faulting (takers s .lane g p) 2 0))
  ∧ (BitVec.toNat b < g.nbars →
    (∀ u, Issues s .pass { rg := [BitVec.toNat u] } g p → takers s .pass g p ≠ [] →
      (binitBad g b.toNat ((regG g u.toNat s.cycle).toNat % 2 ^ 16) = false →
        exec (.binit st b u) s = .next (s.withGroup { g with
          passes := putAt g.passes s.cur.pid { stepped s .pass st.toNat p with loud := p.loud || false }
          bars := writeAt Barrier.zero g.bars b.toNat { g.bar b.toNat with
            expect := (regG g u.toNat s.cycle).setWidth 16, arrive := (regG g u.toNat s.cycle).setWidth 16, sectors := 0, err := false } }))
      ∧ (binitBad g b.toNat ((regG g u.toNat s.cycle).toNat % 2 ^ 16) = true → exec (.binit st b u) s = .next (s.faulting p.cohort 9 0)))
    ∧ (Issues s .lane {} g p → takers s .lane g p ≠ [] → (g.bar b.toNat).expect ≠ 0 →
      (∀ t ∈ takers s .lane g p, s.fenceMet s.cur.gid t g 0 = true) → (takers s .lane g p).length ≤ (g.bar b.toNat).arrive.toNat →
      exec (.barv st b) s = .next ((s.movedOn g p .lane st.toNat true).arriveAt s.cur.gid b.toNat (takers s .lane g p).length))
    ∧ (Issues s .pass {} g p → takers s .pass g p ≠ [] → (g.bar b.toNat).expect ≠ 0 → (g.bar b.toNat).arrive ≠ 0 →
      ∃ t, exec (.barvPass st b) s = .next (t.arriveAt s.cur.gid b.toNat 1) ∧ ∃ g', t = s.withGroup g'
        ∧ (∀ c, g'.bar c = g.bar c) ∧ { g' with passes := g.passes, bars := g.bars } = g
        ∧ lookup g'.passes s.cur.pid = some { stepped s .pass st.toNat p with loud := true })
    ∧ (Issues s .lane {} g p → takers s .lane g p ≠ [] → (g.bar b.toNat).expect ≠ 0 →
      (∀ t ∈ takers s .lane g p, s.fenceMet s.cur.gid t g 0 = true) → (g.bar b.toNat).arrive.toNat < (takers s .lane g p).length →
      (g.bar b.toNat).sectors ≠ 0 ∨ (g.bar b.toNat).arrive = 0 →
      ∃ t g', exec (.barv st b) s = .next t ∧ { t with groups := s.groups } = s ∧ lookup t.groups s.cur.gid = some g'
        ∧ g'.bar b.toNat = { g.bar b.toNat with arrive := 0 }
        ∧ ∀ tid ∈ (takers s .lane g p).drop (g.bar b.toNat).arrive.toNat, BlockedAt s p (.arrival b.toNat) (g'.thread tid))
    ∧ (Issues s .pass {} g p → takers s .pass g p ≠ [] → (g.bar b.toNat).expect ≠ 0 → (g.bar b.toNat).arrive = 0 →
      ∃ t g', exec (.barvPass st b) s = .next t ∧ { t with groups := s.groups } = s ∧ lookup t.groups s.cur.gid = some g'
        ∧ ∀ tid ∈ p.cohort, BlockedAt s p (.arrival b.toNat) (g'.thread tid))
    ∧ ((g.bar b.toNat).expect = 0 →
      (Issues s .lane {} g p → takers s .lane g p ≠ [] →
        exec (.barv st b) s = .next ((s.movedOn g p .lane st.toNat true).faulting (takers s .lane g p) 9 0))
      ∧ (Issues s .pass {} g p → takers s .pass g p ≠ [] → exec (.barvPass st b) s = .next (s.faulting p.cohort 9 0))
      ∧ (∀ u, Issues s .pass { rg := [BitVec.toNat u] } g p → takers s .pass g p ≠ [] →
        exec (.barvExpect st b u) s = .next (s.faulting p.cohort 9 0))
      ∧ (∀ q a, Issues s .lane { rv := [(BitVec.toNat a, 1)], wp := [BitVec.toNat q] } g p → takers s .lane g p ≠ [] →
        exec (.btest st q a b) s = .next ((s.movedOn g p .lane st.toNat true).faulting (takers s .lane g p) 9 0))
      ∧ ∀ d, Issues s .lane { rv := [(BitVec.toNat d, 1)], wv := [(BitVec.toNat d, 1)] } g p → takers s .lane g p ≠ [] →
        exec (.bwait st d b) s = .next ((s.movedOn g p .lane st.toNat true).faulting (takers s .lane g p) 9 0))
    ∧ (∀ u, Issues s .pass { rg := [BitVec.toNat u] } g p → takers s .pass g p ≠ [] → (g.bar b.toNat).expect ≠ 0 → (g.bar b.toNat).arrive ≠ 0 →
      ∃ t, exec (.barvExpect st b u) s = .next (t.arriveAt s.cur.gid b.toNat 1) ∧ ∃ g', t = s.withGroup g'
        ∧ g'.bar b.toNat = { g.bar b.toNat with sectors := (g.bar b.toNat).sectors + (regG g u.toNat s.cycle).setWidth 32 }
        ∧ (∀ c, c ≠ b.toNat → g'.bar c = g.bar c)
        ∧ { g' with passes := g.passes, bars := g.bars } = g
        ∧ lookup g'.passes s.cur.pid = some { stepped s .pass st.toNat p with loud := true })
    ∧ (∀ q a, Issues s .lane { rv := [(BitVec.toNat a, 1)], wp := [BitVec.toNat q] } g p → (g.bar b.toNat).expect ≠ 0 →
      ∃ t, exec (.btest st q a b) s = .next t ∧ Ran s t .lane st.toNat 4 g p (passing s g p)
        (fun x => { p := [(q.toNat, decide (((g.bar b.toNat).phase.toNat : Int) ≠ x.n a % 16))] }) [])
    ∧ (∀ d, Issues s .lane { rv := [(BitVec.toNat d, 1)], wv := [(BitVec.toNat d, 1)] } g p → (g.bar b.toNat).expect ≠ 0 →
      ((∀ x ∈ passing s g p, ((g.bar b.toNat).phase.toNat : Int) ≠ x.n d % 16) → ∃ t g' p', exec (.bwait st d b) s = .next t
        ∧ lookup t.groups s.cur.gid = some g' ∧ lookup g'.passes s.cur.pid = some p' ∧ { t with groups := s.groups } = s
        ∧ Written (regV g p) (regV g' p') p.dueV (·.cyc) s.cycle
            (fun _ => [(d.toNat, low ((g.bar b.toNat).phase.toNat + if (g.bar b.toNat).err then 16 else 0))]) (passing s g p))
      ∧ ((∀ x ∈ passing s g p, ((g.bar b.toNat).phase.toNat : Int) = x.n d % 16 ∧ x.th.woken = false) → ∃ t g', exec (.bwait st d b) s = .next t
        ∧ lookup t.groups s.cur.gid = some g' ∧ { t with groups := s.groups } = s
        ∧ (∀ tid ∈ takers s .lane g p, BlockedAt s p (.barrier b.toNat) (g'.thread tid))
        ∧ ∀ tid, tid ∉ takers s .lane g p → g'.thread tid = g.thread tid)))

/-- R170, R276, R149, R174, R270: the words of the group barrier, the engine counters and the extended registers: an arrival, or a released thread
that goes on; a count met or waited for; a request granted, waiting or granted meanwhile; a grant returned; the misuse fault of a second request and
of a return without a grant. Completes: waite, barg, bargCount, acqx, relx. -/
def Obligations.GroupBarrierCountersAndGrants : Prop :=
  ∀ s g p st,
    (∀ i d, (i, d) ∈ (Instr.barg st, none) :: ((List.range 64).map fun d => (Instr.bargCount st (BitVec.ofNat 6 d), some d)) →
      Issues s .lane { rg := Option.toList d } g p →
      ((∀ x ∈ taking s .lane g p, x.th.woken = false ∧ s.fenceMet s.cur.gid x.tid g 0 = true) →
        ∃ t g', exec i s = .next (t.bargAll s.cur.gid s.cur.pid s.cur.at_ d.isNone ((taking s .lane g p).map fun x =>
            (x.tid, (d.map fun r => (regG g r x.cyc).toNat % 2 ^ 16).getD 0))) ∧ t = s.withGroup g'
          ∧ (∀ tid, g'.thread tid = g.thread tid ∨ tid ∈ takers s .lane g p) ∧ g'.gbar = g.gbar)
      ∧ ((∀ x ∈ taking s .lane g p, x.th.woken = true ∧ ∀ y ∈ taking s .lane g p, y.tid = x.tid → y = x) →
        ∃ t g' p', exec i s = .next t ∧ { t with groups := s.groups } = s ∧ lookup t.groups s.cur.gid = some g'
          ∧ lookup g'.passes s.cur.pid = some p' ∧ Past s .lane st.toNat p p' ∧ g'.gbar = g.gbar
          ∧ ∀ x ∈ taking s .lane g p, g'.thread x.tid = { g.thread x.tid with woken := false }))
    ∧ (Issues s .pass {} g p →
      (∀ c i, takers s .pass g p ≠ [] → (g.counter (BitVec.toNat c) ≤ BitVec.toNat i → exec (.waite st c i) s = .next (s.movedOn g p .pass st.toNat false))
        ∧ (i.toNat < g.counter c.toNat → exec (.waite st c i) s = .next (s.waits g p .waite)))
      ∧ (takers s .pass g p ≠ [] → g.grant = true → ∃ t g', exec (.relx st) s = .next t ∧ lookup t.groups s.cur.gid = some g'
        ∧ g'.grant = false ∧ (∀ tid, (g'.thread tid).x = []) ∧ (t.cluster (g.core / 8)).xfree = (s.cluster (g.core / 8)).xfree + g.nthr)
      ∧ (takers s .pass g p ≠ [] → g.grant = false → exec (.relx st) s = .next (s.faulting p.cohort 0x0E 0)))
    ∧ (Issues s .pass { ext := true } g p → takers s .pass g p ≠ [] → (∀ tid ∈ p.cohort, (g.thread tid).woken = false) →
      (g.grant = false → (s.cluster (g.core / 8)).xqueue = [] → g.nthr ≤ (s.cluster (g.core / 8)).xfree →
        ∃ t g', exec (.acqx st) s = .next t ∧ lookup t.groups s.cur.gid = some g' ∧ g'.grant = true
          ∧ (t.cluster (g.core / 8)).xfree = (s.cluster (g.core / 8)).xfree - g.nthr)
      ∧ (g.grant = false → (s.cluster (g.core / 8)).xqueue ≠ [] ∨ (s.cluster (g.core / 8)).xfree < g.nthr →
        ∃ t g', exec (.acqx st) s = .next t ∧ lookup t.groups s.cur.gid = some g' ∧ g'.grant = false
          ∧ (∀ tid ∈ p.cohort, BlockedAt s p .acqx (g'.thread tid)) ∧ (t.cluster (g.core / 8)).xfree = (s.cluster (g.core / 8)).xfree
          ∧ ((∀ x ∈ (s.cluster (g.core / 8)).xqueue, x.1 ≠ s.cur.gid) →
            (t.cluster (g.core / 8)).xqueue = (s.cluster (g.core / 8)).xqueue ++ [(s.cur.gid, g.nthr)]))
      ∧ (g.grant = true → exec (.acqx st) s = .next (s.faulting p.cohort 0x0E 0)))
    ∧ (Issues s .pass { ext := true } g p → takers s .pass g p ≠ [] → (∀ tid ∈ p.cohort, (g.thread tid).woken = true) →
      ∃ t g' p', exec (.acqx st) s = .next t ∧ { t with groups := s.groups } = s ∧ lookup t.groups s.cur.gid = some g'
        ∧ lookup g'.passes s.cur.pid = some p' ∧ Past s .pass st.toNat p p' ∧ g'.grant = g.grant
        ∧ ∀ tid ∈ p.cohort, g'.thread tid = { g.thread tid with woken := false })

/-! ### Memory -/

/-- R178 to R181, R196, R207: an address of a context is walked from the root in the order of R180's checks, and its walk has one end; an
entry that is not valid gives 0x05, one of no good shape 0x09; a leaf gives a read its byte's place, and a write too, unless W = 0 or a COW leaf
of another kind gives 0x06 or a counted one a resolution. An address with bits 63:52 is scratchpad or 0x05. A thread's access that translates
sets A, and D for a write, in its leaf and changes no other byte. A peer access takes its port by its physical address among those Up. (That a
translation uses an entry as memory holds it, also right after a store has changed it, is the model's choice: DESIGN CHOICE, log 24.) -/
def Obligations.AddressTranslation : Prop :=
  (∀ (s : State) ctx (va : Quad),
    (fld va 63 52 ≠ 0 → ∀ w, s.translate ctx va w = .fault 5)
    ∧ (fld va 63 52 = 0 →
      let root := fld (s.ctx ctx).ptroot 51 12 * 2 ^ 12
      (∃ r, Walks s va.toNat 1 root r)
      ∧ (∀ c, Walks s va.toNat 1 root (.bad c) → ∀ w, s.translate ctx va w = .fault c)
      ∧ ∀ k e shift, Walks s va.toNat 1 root (.leaf k e shift) →
        let found := Trans.ok (leafPlace e shift va.toNat).1 (leafPlace e shift va.toNat).2 (fld e 11 10) (some k)
        s.translate ctx va false = found
        ∧ (e.getLsbD 1 = false ∨ (e.getLsbD 3 = true ∧ ¬ Resolvable e shift) → s.translate ctx va true = .fault 6)
        ∧ (e.getLsbD 1 = true → e.getLsbD 3 = true → Resolvable e shift → s.translate ctx va true = .cow k (fld e 51 16))
        ∧ (e.getLsbD 1 = true → e.getLsbD 3 = false → s.translate ctx va true = found)))
  ∧ (∀ (s : State) g (va : Quad) w,
    (fld va 63 52 = 0 → s.locate g va w = s.translate g.ctx va w)
    ∧ (fld va 63 52 ≠ 0 → (∀ m, lookup s.teams g.team = some m →
        (0xFF00000000000000 ≤ va.toNat → va.toNat < 0xFF00000000000000 + m.scratch →
          let off := va.toNat - 0xFF00000000000000
          s.locate g va w = .ok .scratch (scratchKey m.cluster (m.banks.getD (off / 524288) 0) (off % 524288)) 0 none)
        ∧ (va.toNat < 0xFF00000000000000 ∨ 0xFF00000000000000 + m.scratch ≤ va.toNat → s.locate g va w = .fault 5))
      ∧ (lookup s.teams g.team = none → s.locate g va w = .fault 5)))
  ∧ (∀ i e, wellFormed i = true → memoryWord i = some e → ∀ s g p x space key cls k, Issues s .lane e.needs g p → e.askers s g p = [x] →
    (e.addr x).toNat % e.size = 0 → s.locate g (e.addr x) e.writes = .ok space key cls (some k) → (e.hostless = true → space ≠ .host) →
    InOrder s k 8 0 → ∃ t, exec i s = .next t ∧ t.latest8 k = s.latest8 k ||| (if e.writes then 0x30#64 else 0x10#64)
      ∧ ∀ q, q < k ∨ k + 8 ≤ q → t.latest q = s.latest q)
  ∧ ∀ (s : State) m pa l, m < 4096 → pa < 2 ^ 52 → Toward s m l → s.routeOf (peerKey m pa) = l[pa / 2 ^ 16 % l.length]?

/-- R324, R326, R327, R331, R332, R334: a memory word sends one access for each executing thread, in ascending TID, with the address, the width and
the data that the spec gives, moves past the word, and changes no register and no byte of memory. Windows' counts, copies' recency and the order
stamps apart, nothing else changes but the write count Hs of scratchpad writers and STF's flags. R325, R188: threads whose accesses are misaligned,
do not translate, or lead to a space the word refuses, take the fault with their address; a thread that writes a copy-on-write leaf begins its
resolution and blocks at the word. Completes: ld, ldq, ldf, st, stq, stfF32, stfBf16, stfF16, stfE4m3, stfE5m2, stfE2m1, stimg, ldimg, atomAdd,
atomMinI, atomMaxI, atomMinN, atomMaxN, atomAnd, atomOr, atomXor, atomExch, atomCas, atomAddW, atomFadd, redAdd, redMinI, redMaxI, redMinN, redMaxN,
redAnd, redOr, redXor, redAddW, redFadd, czero. -/
def Obligations.MemoryWords : Prop :=
  (∀ i e, wellFormed i = true → memoryWord i = some e → ∀ s g p (loc : View → Space × Nat × Nat), Issues s .lane e.needs g p →
    (∀ x ∈ e.askers s g p, e.Leads s g x (loc x).1 (loc x).2.1 (loc x).2.2) →
    ∃ t g', exec i s = .next t
      ∧ { t with groups := s.groups, accesses := s.accesses, windows := s.windows, copies := s.copies, stamp := s.stamp } = s
      ∧ (∀ k, k ≠ s.cur.gid → lookup t.groups k = lookup s.groups k) ∧ lookup t.groups s.cur.gid = some g'
      ∧ { g' with passes := g.passes, threads := g.threads } = g
      ∧ lookup g'.passes s.cur.pid = some { stepped s .lane e.stall.toNat (p.named s e.tok) with loud := p.loud || (e.askers s g p).any e.loud }
      ∧ (∀ k, k ≠ s.cur.pid → lookup g'.passes k = (lookup g.passes k).map (Pass.named s e.tok))
      ∧ (∀ tid th, lookup g.threads tid = some th → lookup g'.threads tid = some
          { statusAfter e.out th ((e.askers s g p).filter fun x => x.tid == tid && !x.helper) with
            hs := th.hs + (e.askers s g p).countP fun x => x.tid == tid && e.writes && decide ((loc x).1 = .scratch) })
      ∧ (∀ j x, (e.askers s g p)[j]? = some x →
          lookup t.accesses (s.stamp + j) = some (e.access s g x (loc x).1 (loc x).2.1 (loc x).2.2))
      ∧ ∀ k, k < s.stamp ∨ s.stamp + (e.askers s g p).length ≤ k → lookup t.accesses k = lookup s.accesses k)
  ∧ (∀ i e, wellFormed i = true → memoryWord i = some e → ∀ s g p, Issues s .lane e.needs g p → (∀ x ∈ e.askers s g p, x.helper = false) →
    ((∀ x ∈ e.askers s g p, (e.faults s g x).isSome ∧ e.Touched s g x) →
      exec i s = .next ((s.movedOn (g.named s e.tok) (p.named s e.tok) .lane e.stall.toNat ((e.askers s g p).any e.loud)).takeFaults s.cur.gid s.cur.pid s.cur.at_
        ((e.askers s g p).map fun x => { tid := x.tid, code := (e.faults s g x).getD 0, detail := 0, addr := e.addr x })))
    ∧ (∀ x leaf frame, e.askers s g p = [x] → (e.addr x).toNat % e.size = 0 → s.locate g (e.addr x) e.writes = .cow leaf frame →
        (∀ c ∈ s.cows, c.2.leaf ≠ leaf) → ∃ t g', exec i s = .next t
          ∧ { t with groups := s.groups, cows := s.cows, stamp := s.stamp } = s ∧ lookup t.groups s.cur.gid = some g'
          ∧ lookup t.cows s.stamp = some { ctx := g.ctx, leaf := leaf, frame := frame, st := .waiting }
          ∧ (∀ k, k ≠ s.stamp → lookup t.cows k = lookup s.cows k)
          ∧ BlockedAt s p (.cow s.stamp (e.addr x)) (g'.thread x.tid) ∧ ∀ tid, tid ≠ x.tid → g'.thread tid = g.thread tid))

/-- R208, R213, R221 to R223, R327, R331: a write that reaches its home takes its write completion time and its place in the coherence order: the
bytes it covers read as what it writes, at once for a reader of the order and from that time on for all, and no other byte changes; the time is sent
to its threads, an atomic's old value to its registers, and the copies of the line in its cluster and die go. R145: a compare and swap makes its
pass loud only where it succeeds. Completes: homeWrite. -/
def Obligations.WritesAtTheirHome : Prop :=
  ∀ s k ext a new, lookup s.accesses k = some a → s.mayPerform k a = true → a.act ≠ .read → a.shaped →
    (∀ op x y, a.act = .atom op x y → s.badIn a.key a.size = false) → InOrder s a.key a.size ext →
    new = written a.size a.act (s.latestBytes a.key a.size) →
    ∃ t, exec (.homeWrite k ext) s = .next t
      ∧ { t with mem := s.mem, pend := s.pend, tlast := s.tlast, accesses := s.accesses, replies := s.replies, results := s.results
                 copies := s.copies, stamp := s.stamp, groups := s.groups } = s
      ∧ (∀ j b, new[j]? = some b → t.latest (a.key + j) = b
          ∧ t.byte (a.key + j) = if completionTime s a.key a.size ext ≤ s.now then b else s.byte (a.key + j))
      ∧ (∀ q, q < a.key ∨ a.key + a.size ≤ q → t.latest q = s.latest q ∧ t.byte q = s.byte q)
      ∧ t.accesses = drop s.accesses k
      ∧ lookup t.replies s.stamp = some { gid := a.gid, tids := a.tids, space := keySpace a.key, key := a.key
                                          twc := completionTime s a.key a.size ext, since := a.since, addr := a.addr
                                          port := a.port, via := a.fill.map fun _ => s.stamp + 1 }
      ∧ (∀ q, q ≠ s.stamp → lookup t.replies q = lookup s.replies q)
      ∧ (match a.fill with
        | none => t.results = s.results
        | some f => t.results = putAt s.results (s.stamp + 1) (a.answered f (s.latestBytes a.key a.size)))
      ∧ (∀ q c, (q, c) ∈ t.copies → c.line = a.key / 128 * 128 → c.cache = .cluster (s.coreOf a.gid / 8) ∨ c.cache = .die (s.coreOf a.gid / 64) →
          c.stale = true)
      ∧ ((∀ x y, a.act = .atom .cas x y → leNat (s.latestBytes a.key a.size) ≠ x.toNat % 2 ^ 32) → t.groups = s.groups)
      ∧ ∀ x y, a.act = .atom .cas x y → leNat (s.latestBytes a.key a.size) = x.toNat % 2 ^ 32 → ∀ g p, lookup s.groups a.gid = some g →
          lookup g.passes a.pid = some p →
          t.groups = putAt s.groups a.gid { g with passes := putAt g.passes a.pid { p with loud := true } }

/-- R220, R221, R208: a read that no copy may serve reads the bytes every agent sees, and may take a lease; a copy whose lease runs serves its own
bytes, where neither it nor the home has an error beyond correction there (R379); a copy whose lease has ended serves no more. No read changes a byte of memory. Completes: homeRead, leaseExpiry. -/
def Obligations.ReadsAtTheirHome : Prop :=
  ∀ s,
    (∀ k early a f, lookup s.accesses k = some a → s.mayPerform k a = true → a.act = .read → a.fill = some f → s.badIn a.key a.size = false →
      (∀ q c, (q, c) ∈ s.copies → c.line = a.key / 128 * 128 → c.Sound (a.key % 128) a.size) → s.unseen k a = false → ∀ bytes,
      (a.space = .scratch → bytes = s.bytes a.key a.size) →
      (a.space = .hbm ∨ a.space = .peer →
        (s.serving (.cluster (s.coreOf a.gid / 8)) (a.key / 128 * 128) = none →
          s.serving (.die (s.coreOf a.gid / 64)) (a.key / 128 * 128) = none → bytes = s.bytes a.key a.size)
        ∧ (∀ q c, s.serving (.cluster (s.coreOf a.gid / 8)) (a.key / 128 * 128) = some (q, c) → bytes = (c.data.drop (a.key % 128)).take a.size)
        ∧ (∀ q c, s.serving (.cluster (s.coreOf a.gid / 8)) (a.key / 128 * 128) = none →
            s.serving (.die (s.coreOf a.gid / 64)) (a.key / 128 * 128) = some (q, c) → bytes = (c.data.drop (a.key % 128)).take a.size)) →
      a.space ≠ .host → ∃ t n, exec (.homeRead k early) s = .next t ∧ t.mem = s.mem ∧ t.pend = s.pend ∧ t.groups = s.groups
        ∧ t.accesses = drop s.accesses k ∧ t.results = putAt s.results n (a.answered f bytes)
        ∧ ∀ line, readAt 0 s.emax line ≤ readAt 0 t.emax line)
    ∧ (∀ cid line q c, s.serving cid line = some (q, c) → c.stale = false ∧ ∀ e, c.expiry = some e → s.now < e)
    ∧ ∀ k c e, lookup s.copies k = some c → c.expiry = some e → e ≤ s.now →
        exec (.leaseExpiry k) s = .next { s with copies := putAt s.copies k { c with stale := true } }

/-- R80, R82, R84, R85, R104, R203, R227, R326, R327, R335: a result that returns writes its registers from that cycle on, in the pass or in the
thread that has left it, there but for registers in which a fixed-latency result still completes later; one that failed leaves its fault with the
thread; a write completion time, which comes with its atomic's result where there is one, raises the thread's horizon. Completes: tokenResultWrite,
writeTimeReply. -/
def Obligations.ResultsAndTimesReturn : Prop :=
  ∀ s k,
    (∀ r g p, lookup s.results k = some r → r.fail = 0 → r.due ≤ s.now → lookup s.groups r.gid = some g → lookup g.passes r.pid = some p →
      ¬ TooLate s r.port r.since → r.fill.fits r.bytes.length →
      (∀ tid ∈ r.tids, if r.helper then (lookup p.helpers tid).isSome else tid ∈ p.cohort) →
      ∃ g' p', exec (.tokenResultWrite k) s = .next { s with results := drop s.results k, groups := putAt s.groups r.gid g' }
        ∧ { g' with passes := g.passes, dueG := g.dueG } = g ∧ (∀ q, q ≠ r.pid → lookup g'.passes q = lookup g.passes q)
        ∧ lookup g'.passes r.pid = some p' ∧ { p' with dueV := p.dueV, covered := p.covered } = p
        ∧ (∀ tid ∈ r.tids, ∀ i x, (i, x) ∈ filled r.fill r.bytes → ∀ k, (k, tid, i) ∈ p'.covered ↔ k = r.tok ∧ r.tok < 3)
        ∧ (∀ k tid i, (tid ∉ r.tids ∨ ∀ x, (i, x) ∉ filled r.fill r.bytes) → ((k, tid, i) ∈ p'.covered ↔ (k, tid, i) ∈ p.covered))
        ∧ (∀ tid ∈ r.tids, ∀ i x, (i, x) ∈ filled r.fill r.bytes → ∀ c, s.cycle ≤ c →
            (∀ d ∈ p.dueV, d.tid = tid → d.idx = i → d.cyc ≤ s.cycle) → regV g' p' tid i c = x)
        ∧ (∀ tid i c, (tid ∉ r.tids ∨ (∀ x, (i, x) ∉ filled r.fill r.bytes) ∨ c < s.cycle) → regV g' p' tid i c = regV g p tid i c)
        ∧ (∀ d, r.fill = .uniform d → ∀ c, s.cycle ≤ c → (∀ e ∈ g.dueG, e.idx = d → e.cyc ≤ s.cycle) →
            regG g' d c = BitVec.ofNat 64 (leNat r.bytes))
        ∧ ∀ i c, r.fill ≠ .uniform i ∨ c < s.cycle → regG g' i c = regG g i c)
    ∧ (∀ r g tid th, lookup s.results k = some r → r.fail = 0 → r.due ≤ s.now → lookup s.groups r.gid = some g → ¬ TooLate s r.port r.since →
      r.fill.fits r.bytes.length → (∀ d, r.fill ≠ .uniform d) → r.helper = false → r.tids = [tid] → lookup g.threads tid = some th →
      (∀ p, lookup g.passes r.pid = some p → tid ∉ p.cohort) →
      ∃ v, exec (.tokenResultWrite k) s = .next { s with
          results := drop s.results k
          groups := putAt s.groups r.gid (g.putThread tid { th with v := v }) }
        ∧ (∀ i x, (i, x) ∈ filled r.fill r.bytes →
            readAt Carrier.zero v i = if readAt 0 th.owed i ≤ s.cycle then x else readAt Carrier.zero th.v i)
        ∧ ∀ i, (∀ x, (i, x) ∉ filled r.fill r.bytes) → readAt Carrier.zero v i = readAt Carrier.zero th.v i)
    ∧ (∀ r g tid th, lookup s.results k = some r → r.fail ≠ 0 → r.due ≤ s.now → lookup s.groups r.gid = some g → r.helper = false →
      (∀ d, r.fill ≠ .uniform d) → r.tids = [tid] → lookup g.threads tid = some th →
      exec (.tokenResultWrite k) s = .next { s with
        results := drop s.results k
        groups := putAt s.groups r.gid (g.putThread tid { th with late := th.late ++ [{ tok := r.tok, code := r.fail, addr := r.addr }] }) })
    ∧ ∀ r g tid th, lookup s.replies k = some r → (r.via = none → ¬ TooLate s r.port r.since) → (∀ j, r.via = some j → lookup s.results j = none) →
      lookup s.groups r.gid = some g → r.tids = [tid] → lookup g.threads tid = some th →
      exec (.writeTimeReply k) s = .next { s with
        replies := drop s.replies k
        rings := waitFor r.gid (match r.space with
          | .scratch => 0
          | .peer => r.twc + 68
          | _ => r.twc + 4) s.rings
        groups := putAt s.groups r.gid (g.putThread tid (match r.space with
          | .scratch => { th with hs := th.hs - 1 }
          | .hbm => { th with hm := max th.hm (r.twc + 4) }
          | .peer => { th with hx := max th.hx (r.twc + 68) }
          | .host => { th with hx := max th.hx (r.twc + 4) })) }

/-- R79, R159, R203, R228, R230: a FENCE passes when its scope is met in every passing thread and holds the pass otherwise; one of system scope
raises the link-timeout faults of failed peer stores; one that waits passes on its own once it is met and its pass may issue, its beats and stall
field counting from there; a release store is the store once its fence, of system scope for peers and host, is met in every thread, and raises the
faults of such a fence instead. (That a fence waits for stores and replies that are still unanswered is the model's reading: DEDUCED, log 57.) Completes: fenceComplete, st, fence. -/
def Obligations.Fences : Prop :=
  ∀ s g p st,
    (∀ m h, Issues s .lane {} g p → m ≤ 4#4 →
      ((∀ tid ∈ takers s .lane g p, Fenced s g (BitVec.toNat m) tid) → (h = 0#1 → Bound s (takers s .lane g p)) →
        (∀ tid ∈ takers s .lane g p, ∀ l ∈ (g.thread tid).late, l.tok ≠ 5) →
        ∃ t g' p', exec (.fence st m h) s = .next t ∧ OnlyPass s t g g' p p' ∧ Past s .lane st.toNat p p'
          ∧ (∀ tid, g'.thread tid = g.thread tid) ∧ p'.dueV = p.dueV ∧ p'.dueX = p.dueX ∧ p'.dueP = p.dueP ∧ g'.dueG = g.dueG)
      ∧ ((∃ tid ∈ takers s .lane g p, ¬ Fenced s g m.toNat tid) ∨ (h = 0#1 ∧ ¬ Bound s (takers s .lane g p)) →
        exec (.fence st m h) s = .next (s.waits g p (.fence m.toNat (decide (h = 1#1)) (takers s .lane g p) s.cur.next st.toNat))))
    ∧ (∀ m h, Issues s .lane {} g p → (∀ tid ∈ takers s .lane g p, Fenced s g 4 tid) → (h = 0#1 → Bound s (takers s .lane g p)) → m = 4#4 →
      exec (.fence st m h) s = .next ((s.movedOn (g.withoutLate (takers s .lane g p)) p .lane st.toNat false).takeFaults s.cur.gid s.cur.pid s.cur.at_
        (lateFaults g (takers s .lane g p))))
    ∧ (∀ gid pid h q scope hz tids next stall, lookup s.groups gid = some h → lookup h.passes pid = some q → q.hold = .fence scope hz tids next stall →
      let u : State := { s with cur := { s.cur with gid := gid, pid := pid } }
      (mayIssue u h q = true → (∀ tid ∈ tids, Fenced u h scope tid) → (hz = false → Bound u tids) → (scope = 4 → lateFaults h tids = []) →
        let q' : Pass := { q with off := next, next := s.cycle + q.beats + (2 * stall - (q.beats - 1)), hold := .none }
        exec (.fenceComplete gid pid) s =
          .next (State.afterStep { s with groups := putAt s.groups gid { h with passes := putAt h.passes pid q' } } gid pid q))
      ∧ (mayIssue u h q = false ∨ (∃ tid ∈ tids, ¬ Fenced u h scope tid) ∨ (hz = false ∧ ¬ Bound u tids) →
        exec (.fenceComplete gid pid) s = .next s))
    ∧ ∀ z d gr a, Issues s .lane (atNeeds gr a [(BitVec.toNat d, if z = 3#2 then 2 else 1)] []) g p →
      let scope := fun (x : View) => if GoesOut s g (ea x gr a (BitVec.toNat z)) (2 ^ z.toNat) then 4 else 3
      ((∀ x ∈ taking s .lane g p, Fenced s g (scope x) x.tid) → Bound s (takers s .lane g p) →
        (∀ x ∈ taking s .lane g p, scope x = 4 → ∀ l ∈ (g.thread x.tid).late, l.tok ≠ 5) →
        exec (.st st z 1#1 d gr a) s = exec (.st st z 0#1 d gr a) s)
      ∧ ((∃ x ∈ taking s .lane g p, ¬ Fenced s g (scope x) x.tid) ∨ ¬ Bound s (takers s .lane g p) →
        exec (.st st z 1#1 d gr a) s = .next (s.waits g p .release))
      ∧ ((∀ x ∈ taking s .lane g p, Fenced s g (scope x) x.tid ∧ scope x = 4 ∧ ∃ l ∈ (g.thread x.tid).late, l.tok = 5) →
        Bound s (takers s .lane g p) →
        exec (.st st z 1#1 d gr a) s = .next (((s.movedOn ((g.withoutLate (takers s .lane g p)).named s 3) (p.named s 3) .lane st.toNat false)).takeFaults
          s.cur.gid s.cur.pid s.cur.at_ (lateFaults g (takers s .lane g p))))

/-- R333, R334: PFTCH moves on without a fault, its windows, copies and accessed bits apart, and the reads it sends return nothing; CWB waits for
its threads' own writes to their lines; CINV takes the lines' copies out of the cluster and the die, and no byte of memory changes. R216, R217,
R219: PIN sets a retention window up with its effective ways and its counters at zero, or is refused; UNPIN releases one and keeps its counters;
neither changes a byte of memory. (That a refused PIN has fault address 0 is the model's choice: DESIGN CHOICE, log 20; that PIN and UNPIN leave
their pass not quiet is its reading: DEDUCED, log 21.) Completes: pftch, cwb, cinv, cwbi, pin, unpin. -/
def Obligations.CacheWordsAndRetentionWindows : Prop :=
  (∀ s g p st gr a, Issues s .lane (atNeeds gr a [] []) g p →
    (∃ t, exec (.pftch st gr a) s = .next t
      ∧ { t with mem := s.mem, pend := s.pend, tlast := s.tlast, copies := s.copies, windows := s.windows, stamp := s.stamp, accesses := s.accesses }
        = s.movedOn g p .lane st.toNat false
      ∧ (∀ k b, (k, b) ∈ t.accesses → (k, b) ∈ s.accesses ∨ (b.act = .read ∧ b.fill = none ∧ b.size = 128 ∧ b.helper = true))
      ∧ ((∀ x ∈ taking s .lane g p, ∀ sp k c q, s.locate g (BitVec.ofNat 64 ((ea x gr a 7).toNat / 128 * 128)) false = .ok sp k c (some q) →
          (s.latest8 q).getLsbD 4 = true) → t.mem = s.mem ∧ t.pend = s.pend))
    ∧ ((∀ x ∈ taking s .lane g p, (ea x gr a 7).toNat % 128 ≠ 0) → ∀ i ∈ [Instr.cwb st gr a, .cinv st gr a, .cwbi st gr a], exec i s = .next ((s.movedOn g p .lane st.toNat false).takeFaults s.cur.gid
        s.cur.pid s.cur.at_ ((taking s .lane g p).map fun x => { tid := x.tid, code := 4, detail := 0, addr := ea x gr a 7 })))
    ∧ ∀ key, NamesLines s g p gr a key →
      ((∀ x ∈ taking s .lane g p, LineDone s x.tid (key x / 128 * 128)) →
        exec (.cwb st gr a) s = .next (s.movedOn g p .lane st.toNat false)
        ∧ exec (.cwbi st gr a) s = exec (.cinv st gr a) s)
      ∧ ((∃ x ∈ taking s .lane g p, ¬ LineDone s x.tid (key x / 128 * 128)) →
        exec (.cwb st gr a) s = .next (s.waits g p .cwb) ∧ exec (.cwbi st gr a) s = .next (s.waits g p .cwb))
      ∧ ∃ t, exec (.cinv st gr a) s = .next t ∧ { t with copies := s.copies } = s.movedOn g p .lane st.toNat false
        ∧ (∀ k c, (k, c) ∈ t.copies → (k, c) ∈ s.copies ∨ ∃ c', (k, c') ∈ s.copies ∧ c'.window ≠ none ∧ c = { c' with stale := true })
        ∧ ∀ x ∈ taking s .lane g p, ∀ k c, (k, c) ∈ t.copies → c.line = key x / 128 * 128 →
            c.cache = .cluster (g.core / 8) ∨ c.cache = .die (g.core / 64) → c.stale = true ∧ c.window ≠ none)
  ∧ (∀ s k early b, lookup s.accesses k = some b → b.act = .read → b.fill = none → s.mayPerform k b = true →
    ∃ t, exec (.homeRead k early) s = .next t ∧ t.mem = s.mem ∧ t.results = s.results ∧ t.groups = s.groups ∧ t.accesses = drop s.accesses k)
  ∧ (∀ s g p st w,
    (∀ a b, Issues s .pass { rg := [BitVec.toNat a, BitVec.toNat b] } g p → takers s .pass g p ≠ [] →
      let base := regG g (BitVec.toNat a) s.cycle
      let info := regG g (BitVec.toNat b) s.cycle
      (badWindow base.toNat info.toNat = true → exec (.pin st w a b) s = .next (s.faulting p.cohort 9 0))
      ∧ (badWindow base.toNat info.toNat = false → ∃ t, exec (.pin st w a b) s = .next t
        ∧ { t with windows := s.windows, copies := s.copies } = s.movedOn g p .pass st.toNat true
        ∧ (∀ d v, (d, v) ≠ (g.core / 64, BitVec.toNat w) → v < 8 → t.window d v = s.window d v)
        ∧ t.window (g.core / 64) w.toNat =
          { pinned := true, eways := effectiveWays s (g.core / 64) w.toNat g.ctx (info.toNat / 2 ^ 20 % 2 ^ 5) (info.toNat / 2 ^ 32 % 2 ^ 16)
            ways := info.toNat / 2 ^ 20 % 2 ^ 5, ctx := g.ctx, mask := BitVec.ofNat 16 (info.toNat / 2 ^ 32), base := base
            len := info.toNat % 2 ^ 20, hits := 0, fills := 0, ovf := 0 }))
    ∧ (Issues s .pass {} g p → takers s .pass g p ≠ [] → ∃ t, exec (.unpin st w) s = .next t
        ∧ { t with windows := s.windows, copies := s.copies } = s.movedOn g p .pass st.toNat true
        ∧ (∀ d v, (d, v) ≠ (g.core / 64, BitVec.toNat w) → v < 8 → t.window d v = s.window d v)
        ∧ t.window (g.core / 64) w.toNat = { s.window (g.core / 64) w.toNat with pinned := false }
        ∧ ((s.window (g.core / 64) w.toNat).pinned = true → ∀ k c, (k, c) ∈ t.copies → c.cache = .die (g.core / 64) →
            ∀ o, c.window ≠ some (w.toNat, o))))

/-- R335, R143, R203: LDG and STG make one access for the passing cohort threads, at g[A] + IMM10 × 8; a fault is every cohort thread's. A peer
access without an answer within 4 µs, or at once without a route (R196) or when its port leaves Up (R195), fails (by the port its access left on; an atomic whose answer is lost keeps
its write at the home: the model's reading, DEDUCED, log 68): its token, or the next FENCE of system scope, holds the link-timeout fault. Completes:
peerAccessTimeout, ldg, stg. -/
def Obligations.UniformAccess : Prop :=
  ∀ s g p st d a (i : BitVec 10),
    let addr := BitVec.ofInt 64 ((regG g (BitVec.toNat a) s.cycle).toNat + 8 * i.toInt)
    let store := Act.write (leBytes 8 (regG g (BitVec.toNat d) s.cycle).toNat)
    (∀ j n tok act fill, (j, n, tok, act, fill) ∈ [(Instr.ldg st d a i, [BitVec.toNat a], 4, Act.read, some (Fill.uniform (BitVec.toNat d))),
        (.stg st d a i, [a.toNat, BitVec.toNat d], 3, store, none)] → Issues s .pass { rg := n } g p → takers s .pass g p ≠ [] →
      (∀ space key cls leaf, addr.toNat % 8 = 0 → s.locate g addr (decide (act ≠ .read)) = .ok space key cls leaf →
        (∀ k, leaf = some k → (s.latest8 k).getLsbD 4 = true ∧ (act ≠ .read → (s.latest8 k).getLsbD 5 = true)) →
        ∃ t g', exec j s = .next t
          ∧ { t with groups := s.groups, accesses := s.accesses, windows := s.windows, copies := s.copies, stamp := s.stamp } = s
          ∧ lookup t.groups s.cur.gid = some g' ∧ { g' with passes := g.passes, threads := g.threads } = g
          ∧ lookup g'.passes s.cur.pid = some { stepped s .pass st.toNat p with loud := p.loud || decide (act ≠ .read) }
          ∧ (∀ tid th, lookup g.threads tid = some th → lookup g'.threads tid = some
              { th with hs := th.hs + (takers s .pass g p).countP fun x => x == tid && decide (act ≠ .read) && decide (space = .scratch) })
          ∧ lookup t.accesses s.stamp = some
              { gid := s.cur.gid, pid := s.cur.pid, tids := takers s .pass g p, helper := false, tok := tok, addr := addr, space := space
                key := key, size := 8, act := act, fill := fill, acquire := false
                cls := if space = .host ∧ cls ≠ 2 then 3 else s.cur.hint.getD cls
                since := s.cycle * 5 / 7, ctx := g.ctx, port := if space = .peer then s.routeOf key else none, beat := s.cycle }
          ∧ ∀ k, k ≠ s.stamp → lookup t.accesses k = lookup s.accesses k)
      ∧ (∀ c, (addr.toNat % 8 ≠ 0 ∧ c = 4) ∨ (addr.toNat % 8 = 0 ∧ s.locate g addr (decide (act ≠ .read)) = .fault c) →
        exec j s = .next (s.takeFaults s.cur.gid s.cur.pid s.cur.at_
          (p.cohort.map fun x => { tid := x, code := c, detail := 0, addr := addr }))))
    ∧ (∀ k b x, lookup s.accesses k = some x → x.space = .peer → b = decide (x.act ≠ .read) → (x.port = none ∨ TooLate s x.port x.since) →
        (x.act = .read → x.fill = none → exec (.peerAccessTimeout b k) s = .next { s with accesses := drop s.accesses k })
        ∧ ((x.act = .read → x.fill ≠ none) → ∃ t, exec (.peerAccessTimeout b k) s = .next t ∧ t.mem = s.mem ∧ t.pend = s.pend ∧ t.accesses = drop s.accesses k
          ∧ t.mod = { s.mod with linkTimeouts := s.mod.linkTimeouts + 1 }
          ∧ (∀ f, x.fill = some f → t.results = putAt s.results s.stamp (x.result f [] 0x0F) ∧ t.groups = s.groups)
          ∧ (∀ q h tid th, x.fill = none → x.gid = q → x.tids = [tid] → lookup s.groups q = some h → lookup h.threads tid = some th →
              t.groups = putAt s.groups q (h.putThread tid { th with late := th.late ++ [{ tok := 5, code := 0x0F, addr := x.addr }] }))))
    ∧ (∀ k r, lookup s.accesses k = none → lookup s.results k = some r → r.fail = 0 → TooLate s r.port r.since →
        ∃ t, exec (.peerAccessTimeout r.wrote k) s = .next t ∧ t.mem = s.mem ∧ t.pend = s.pend ∧ t.groups = s.groups
          ∧ t.results = putAt s.results k { r with bytes := [], fail := 0x0F, port := none }
          ∧ ∀ j x, (j, x) ∈ t.replies ↔ (j, x) ∈ s.replies ∧ x.via ≠ some k)
    ∧ ∀ k r h tid th, lookup s.accesses k = none → lookup s.results k = none → lookup s.replies k = some r → r.space = .peer → r.via = none →
        TooLate s r.port r.since → r.tids = [tid] →
        lookup s.groups r.gid = some h → lookup h.threads tid = some th →
        ∃ t, exec (.peerAccessTimeout true k) s = .next t ∧ t.mem = s.mem ∧ t.replies = drop s.replies k
          ∧ t.groups = putAt s.groups r.gid (h.putThread tid { th with late := th.late ++ [{ tok := 5, code := 0x0F, addr := r.addr }] })

/-! ### Passes, groups and grants -/

/-- R136, R72, R134, R142, R146: in a running group with fewer than four passes and no sweep due, the selected bin's ready threads leave it as the
cohort of a new pass that stands after the BLK word, or at the bin's offset, with twice LIVE staged registers; nothing else changes. At sixteen idle
passes the sweep begins instead. R137, R86, R145, R152: a pass that has run its terminator or YIELD, and whose results are all written, ends: each
thread stands in its target bin, ready, or is retired, with the registers the pass left; a pass that is not quiet resets the fantail, and when all
threads have retired the group drains, once resumed if it halts. R148, R122, R149, R133: a group that only it could let go on takes the
barrier-deadlock fault in every thread that is not retired, and a phase of its group barrier ends (R170); a drained group ends, returning its
extended registers, and with the last group of its team the team ends, and with the last team the LAUNCH completes with status 0, its record to wait
for the group's stores (R104). (That no pass starts while a result of its threads is outstanding is the model's reading of R86: DEDUCED, log 79;
that only a running group meets the deadlock, log 72.) Completes: passStart, passEnd, fantailSweep, barrierDeadlock, groupEnd. -/
def Obligations.PassesAndGroups : Prop :=
  (∀ s gid g, lookup s.groups gid = some g →
    (∀ h k c op live q x n, g.st = .running → g.passes.length < 4 → g.fan.sweep = none → g.fan.idle < 16 → g.stepBin = none →
      Selected g h k → (∀ tid th, (tid, th) ∈ g.threads → ReadyIn h k th → NothingOwed s gid tid) → s.code g h = some c → c.header k.1 = some [op, live, q, x, n] → 2 * live ≤ s.regs g →
      ∃ t g' p, exec (.passStart gid) s = .next t ∧ { t with groups := s.groups, stamp := s.stamp } = s ∧ t.stamp = s.stamp + 1
        ∧ (∀ j, j ≠ gid → lookup t.groups j = lookup s.groups j) ∧ lookup t.groups gid = some g'
        ∧ lookup g'.passes s.stamp = some p ∧ (∀ j, j ≠ s.stamp → lookup g'.passes j = lookup g.passes j)
        ∧ (∀ tid, tid ∈ p.cohort ↔ ∃ th, (tid, th) ∈ g.threads ∧ ReadyIn h k th)
        ∧ p.handler = h ∧ p.blk = k.1 ∧ p.start = k.2 ∧ p.off = (if k.2 = 0 then 2 else k.2) ∧ p.staged = 2 * live ∧ p.quad = (q == 1)
        ∧ p.ext = (x == 1) ∧ p.dueV = [] ∧ p.dueX = [] ∧ p.dueP = [] ∧ p.next = s.cycle ∧ p.hold = .none ∧ p.ended = false
        ∧ (∀ tid th, lookup g.threads tid = some th → lookup g'.threads tid =
            some (if tid ∈ p.cohort then { th with place := .pass s.stamp, owed := [] } else th))
        ∧ { g' with passes := g.passes, threads := g.threads, stepNew := g.stepNew, stepOne := g.stepOne } = g)
    ∧ (g.fan.sweep = none → 16 ≤ g.fan.idle →
        exec (.fantailSweep gid) s = .next { s with groups := putAt s.groups gid { g with fan := { g.fan with sweep := some g.fan.seen } } }
        ∧ exec (.passStart gid) s = .next s))
  ∧ (∀ s gid pid g p, lookup s.groups gid = some g → lookup g.passes pid = some p → p.ended = true → AllWritten s gid pid p →
    (p.exits.map (·.1)).Nodup →
    ∃ g', exec (.passEnd gid pid) s = .next { s with groups := putAt s.groups gid g' } ∧ lookup g'.passes pid = none
      ∧ (∀ j, j ≠ pid → lookup g'.passes j = lookup g.passes j)
      ∧ (∀ tid e, (tid, e) ∈ p.exits → tid ∈ p.cohort →
          (match e with
            | .retire => (g'.thread tid).place = .retired
            | .bin h b o => (g'.thread tid).place = .bin h b o ∧ (g'.thread tid).woken = false
              ∧ ((g.thread tid).res.cause ≠ 5 → (g'.thread tid).res = { blk := b, off := o, cause := 0 })
              ∧ ((g.thread tid).res.cause = 5 → (g'.thread tid).res = (g.thread tid).res))
          ∧ (g'.thread tid).wait = .ready ∧ (g'.thread tid).fstat = (g.thread tid).fstat ∧ (g'.thread tid).dith = (g.thread tid).dith
          ∧ ∀ i, readAt Carrier.zero (g'.thread tid).v i = regV g p tid i s.cycle
            ∧ readAt Carrier.zero (g'.thread tid).x i = regX g p tid i s.cycle ∧ (i ≠ 0 → readAt false (g'.thread tid).p i = regP g p tid i s.cycle))
      ∧ (∀ tid, (∀ e, (tid, e) ∈ p.exits → tid ∉ p.cohort) → g'.thread tid = g.thread tid)
      ∧ (p.loud = true → p.noDemote = false → p.handler = false → g'.fan = { idle := 0, seen := [], sweep := none })
      ∧ (p.noDemote = true ∨ p.handler = true → g'.fan = g.fan)
      ∧ { g' with passes := g.passes, threads := g.threads, fan := g.fan, st := g.st, before := g.before, stepOne := g.stepOne
                  stepAll := g.stepAll } = g
      ∧ ((∀ e ∈ g'.threads, e.2.place = .retired) → (g.st = .running → g'.st = .draining) ∧ (g.st = .halting → g.before = .running →
          g'.st = .halting ∧ g'.before = .draining)))
  ∧ (∀ s gid g, lookup s.groups gid = some g → CountersZero g → g.passes = [] →
    (g.st = .running → (∃ e ∈ g.threads, e.2.place ≠ .retired) →
      (∀ tid th, (tid, th) ∈ g.threads → th.place = .retired ∨ th.wait = .groupBarrier ∨ ∃ b, th.wait = .barrier b ∨ th.wait = .arrival b) →
      exec (.barrierDeadlock gid) s = .next ((g.threads.filter fun e => e.2.place != .retired).foldl (fun s e => match e.2.place with
        | .bin _ b o => s.faultThread gid b o { tid := e.1, code := 0x0C, detail := 0, addr := 0 }
        | _ => s) { s with groups := putAt s.groups gid { g with gbar := { count := none, arrived := 0 } } }))
    ∧ (g.st = .draining → ∃ t, exec (.groupEnd gid) s = .next t
      ∧ ((∃ j h, lookup s.groups j = some h ∧ j ≠ gid ∧ h.team = g.team ∧ h.st ≠ .ended) →
        lookup t.groups gid = some { g with st := .ended, grant := false, threads := [], passes := [] } ∧ t.teams = s.teams ∧ t.mem = s.mem
        ∧ (t.cluster (g.core / 8)).xfree = (s.cluster (g.core / 8)).xfree + if g.grant then g.nthr else 0)
      ∧ (∀ m, lookup s.teams g.team = some m → (∀ j h, (j, h) ∈ s.groups → j ≠ gid → h.team = g.team → h.st = .ended) →
        m.openRecs = [] → (∀ j b, (j, b) ∈ m.bufs → b.recs = []) →
        (∀ j h, (j, h) ∈ s.groups → h.team = g.team → ∀ b, b ∈ h.bars → b.2.chain = []) →
        lookup t.teams g.team = none ∧ t.mem = s.mem ∧ (t.cluster m.cluster).team = none ∧ (∀ j h, (j, h) ∈ t.groups → h.team ≠ g.team)
        ∧ ∀ l c, lookup s.launches m.launch = some l → l.next = l.teams → l.live = 1 → lookup (s.ring l.ring).cmds l.seq = some c →
            c.replay = none → lookup t.launches m.launch = none ∧ ∃ h gids, lookup (t.ring l.ring).cmds l.seq =
              some { c with st := .done, status := 0, result := 0, horizon := h, gids := gids } ∧ c.horizon ≤ h ∧ gid ∈ gids ∧ (∀ x ∈ c.gids, x ∈ gids)
              ∧ ∀ tid th, (tid, th) ∈ g.threads → th.hm ≤ h ∧ th.hx ≤ h)))

/-! ### Atomic steps on structures in memory -/

/-- R321 to R323: a DRAW writes the winner's index into v[D] of every cohort thread and advances the slot's INDEX with LAST in one step at the home;
a slot with an error, or a NaN, +∞ or all −∞ candidates, is the numeric fault in every cohort thread. R205, R206: at a slot of two shards or more
the participants block, marked with the draw, and their local winner goes out; a shard's winner that is not the last expected counts as an arrival;
the last decides the draw: the slot's INDEX and LAST advance and every blocked thread of the draw goes on with the winner; arrivals missing LINKTO
after the first leave status 4, and every blocked thread of the draw takes the numeric fault with detail 4. The winner is the index of a largest value
with its noise, the smallest of equal ones. (That the cohort's other threads wait in their pass, which then goes on with the winner in v[D], is the model's
reading of R322: DEDUCED, log 17.) Completes: drawShardArrival, drawShardTimeout, draw. -/
def Obligations.Draws : Prop :=
  (∀ s g p st d gr a space key cls, Issues s .cohort { rv := [(BitVec.toNat a, 2)], wv := [(BitVec.toNat d, 1)], rg := [BitVec.toNat gr] } g p →
    taking s .cohort g p ≠ [] → (∀ x ∈ cohortViews s g p, x.th.drawn = none) → waitsForDraw p = false →
    Home s g (regG g gr.toNat s.cycle) 32 space key cls → space = .hbm ∨ space = .scratch →
    s.mayActNow (takers s .cohort g p) key 32 = true → s.badIn key 32 = false →
    let slot := leNat (s.latestBytes key 32)
    let index := slot / 2 ^ 64 % 2 ^ 32
    let values := (taking s .cohort g p).map fun x => x.v a.toNat
    (slotOk slot = true → slot / 2 ^ 160 % 2 ^ 8 < 2 →
      (slot / 2 ^ 128 % 2 ^ 32 = 0 → drawStatus values = 0 → InOrder s (key + 8) 8 0 →
        ∀ b, bestCand (candidates (slot % 2 ^ 64) (BitVec.ofNat 32 index) a (taking s .cohort g p)) = some b →
        ∃ t g' p', exec (.draw st d gr a) s = .next t
          ∧ { t with groups := s.groups, mem := s.mem, pend := s.pend, tlast := s.tlast, replies := s.replies, copies := s.copies
                     windows := s.windows, stamp := s.stamp } = s
          ∧ NowReads s t (key + 8) (leBytes 4 ((index + 1) % 2 ^ 32) ++ leBytes 4 b.n.toNat)
          ∧ lookup t.groups s.cur.gid = some g' ∧ lookup g'.passes s.cur.pid = some p'
          ∧ p'.off = s.cur.next ∧ p'.loud = true ∧ s.cycle + p.beats + 23 ≤ p'.next
          ∧ Written (regV g p) (regV g' p') p.dueV (readyAt s .cohort p 24) (s.cycle + 24) (fun _ => [(d.toNat, low b.n.toNat)])
              (cohortViews s g p))
      ∧ (∀ status, status = slot / 2 ^ 128 % 2 ^ 32 → status ≠ 0 →
        ∃ u : State, { u with windows := s.windows, copies := s.copies, stamp := s.stamp } = s
          ∧ exec (.draw st d gr a) s = .next (u.faulting p.cohort 0x0B status))
      ∧ (∀ status, slot / 2 ^ 128 % 2 ^ 32 = 0 → status = drawStatus values → status ≠ 0 → InOrder s (key + 16) 4 0 → (s.handler g).isSome →
        (∀ tid ∈ p.cohort, (g.thread tid).res.cause ≠ 5) → ∃ t g', exec (.draw st d gr a) s = .next t
          ∧ NowReads s t (key + 16) (leBytes 4 status) ∧ lookup t.groups s.cur.gid = some g'
          ∧ ∀ tid ∈ p.cohort, (g'.thread tid).res.cause = 5 ∧ (g'.thread tid).fcode = 0x0B ∧ (g'.thread tid).fdetail = status))
    ∧ (slotOk slot = true → 2 ≤ slot / 2 ^ 160 % 2 ^ 8 → slot / 2 ^ 128 % 2 ^ 32 = 0 → (∀ x ∈ taking s .cohort g p, x.th.mark = none) →
      ∀ b, bestCand (candidates (slot % 2 ^ 64) (BitVec.ofNat 32 index) a (taking s .cohort g p)) = some b →
      ∃ t g', exec (.draw st d gr a) s = .next t ∧ t.mem = s.mem ∧ t.pend = s.pend ∧ lookup t.groups s.cur.gid = some g'
        ∧ (∀ x ∈ taking s .cohort g p, BlockedAt s p (.draw key) (g'.thread x.tid)
            ∧ (g'.thread x.tid).mark = some (regG g gr.toNat s.cycle, index))
        ∧ (∃ n, t.shards = putAt s.shards n { ctx := g.ctx, slot := key, addr := regG g gr.toNat s.cycle, val := b.z, idx := b.n.toNat
                                              status := drawStatus values % 3, draw := index })
        ∧ ∀ rest, rest = p.cohort.filter (fun t => t ∉ takers s .cohort g p) → rest ≠ [] → ∃ p', lookup g'.passes s.cur.pid = some p'
          ∧ p'.off = s.cur.at_ ∧ p'.hold = .draw key index d.toNat rest s.cur.next st.toNat)
    ∧ (slotOk slot = false → ∃ u : State, { u with windows := s.windows, copies := s.copies, stamp := s.stamp } = s
        ∧ exec (.draw st d gr a) s = .next (u.takeFaults s.cur.gid s.cur.pid s.cur.at_
          (p.cohort.map fun x => { tid := x, code := 9, detail := 0, addr := regG g gr.toNat s.cycle }))))
  ∧ (∀ s,
    (∀ k h d, lookup s.shards k = some h → lookup s.draws h.slot = some d → d.since + (s.ctx d.ctx).linkto * 1000 ≤ s.now →
      exec (.drawShardArrival k) s = .next s)
    ∧ (∀ k h, lookup s.shards k = some h → (∀ d, lookup s.draws h.slot = some d → s.now < d.since + (s.ctx d.ctx).linkto * 1000) →
      h.slot % 32 = 0 → InOrder s (h.slot + 8) 16 0 →
      let slot := leNat (s.latestBytes h.slot 32)
      let index := slot / 2 ^ 64 % 2 ^ 32
      let arrived := slot / 2 ^ 168 % 2 ^ 8 + 1
      let old := (lookup s.draws h.slot).getD { since := s.now, ctx := h.ctx, vals := [] }
      let now := { old with vals := old.vals ++ [(h.val, h.idx, h.status)] }
      slot / 2 ^ 128 % 2 ^ 32 = 0 →
      (arrived < slot / 2 ^ 160 % 2 ^ 8 → ∃ t, exec (.drawShardArrival k) s = .next t ∧ t.shards = drop s.shards k ∧ t.groups = s.groups
        ∧ t.draws = putAt s.draws h.slot now ∧ NowReads s t (h.slot + 21) [BitVec.ofNat 8 arrived])
      ∧ (slot / 2 ^ 160 % 2 ^ 8 ≤ arrived → now.status = 0 → ∀ b, bestCand now.cands = some b → ∃ t, exec (.drawShardArrival k) s = .next t
        ∧ t.shards = drop s.shards k ∧ t.draws = drop s.draws h.slot
        ∧ (∀ j x, (leBytes 4 ((index + 1) % 2 ^ 32) ++ leBytes 4 b.n.toNat)[j]? = some x → t.latest (h.slot + 8 + j) = x)
        ∧ t.latest (h.slot + 21) = 0 ∧ (∀ q, (q < h.slot + 8 ∨ h.slot + 16 ≤ q) → q ≠ h.slot + 21 → t.latest q = s.latest q)
        ∧ (∀ gid g tid th addr, lookup s.groups gid = some g → lookup g.threads tid = some th → th.wait = .draw h.slot →
            th.mark = some (addr, index) → ∃ g' th', lookup t.groups gid = some g' ∧ lookup g'.threads tid = some th'
              ∧ th'.wait = .ready ∧ th'.drawn = some b.n)
        ∧ ∀ gid g pid q d tids next stall, lookup s.groups gid = some g → (s.groups.map (·.1)).Nodup → (g.passes.map (·.1)).Nodup →
            lookup g.passes pid = some q → q.hold = .draw h.slot index d tids next stall → (∀ tid ∈ tids, tid ∈ q.cohort) →
            ∃ g' q', lookup t.groups gid = some g' ∧ lookup g'.passes pid = some q' ∧ q'.off = next ∧ q'.hold = .none
              ∧ ∀ tid ∈ tids, ∀ c, s.cycle ≤ c → (∀ e ∈ q.dueV, e.tid = tid → e.idx = d → e.cyc ≤ s.cycle) → regV g' q' tid d c = low b.n.toNat))
    ∧ ∀ slot d, lookup s.draws slot = some d → d.since + (s.ctx d.ctx).linkto * 1000 ≤ s.now → slot % 32 = 0 → InOrder s (slot + 16) 8 0 →
      (∀ gid g tid th, lookup s.groups gid = some g → (tid, th) ∈ g.threads → th.wait ≠ .draw slot) →
      (∀ gid g pid q, lookup s.groups gid = some g → (pid, q) ∈ g.passes → ∀ i d l n st, q.hold ≠ .draw slot i d l n st) →
      (s.groups.map (·.1)).Nodup → ∃ t, exec (.drawShardTimeout slot) s = .next t ∧ t.draws = drop s.draws slot ∧ t.groups = s.groups
        ∧ (∀ j x, (leBytes 4 4)[j]? = some x → t.latest (slot + 16 + j) = x) ∧ t.latest (slot + 21) = 0
        ∧ ∀ q, (q < slot + 16 ∨ slot + 20 ≤ q) → q ≠ slot + 21 → t.latest q = s.latest q)
  ∧ (∀ s slot d, lookup s.draws slot = some d → d.since + (s.ctx d.ctx).linkto * 1000 ≤ s.now →
    (∀ gid g pid q, lookup s.groups gid = some g → (pid, q) ∈ g.passes → ∀ i d l n st, q.hold ≠ .draw slot i d l n st) →
    (s.groups.map (·.1)).Nodup → (∀ gid g, lookup s.groups gid = some g → (g.threads.map (·.1)).Nodup) →
    (∀ gid g tid th, lookup s.groups gid = some g → (tid, th) ∈ g.threads → th.wait = .draw slot → th.res.cause ≠ 5 ∧ (s.handler g).isSome ∧ g.dead = false) →
    ∃ t, exec (.drawShardTimeout slot) s = .next t ∧ ∀ gid g tid th addr h b o, lookup s.groups gid = some g → lookup g.threads tid = some th →
      th.wait = .draw slot → th.mark = some (addr, leNat (s.latestBytes slot 32) / 2 ^ 64 % 2 ^ 32) → th.place = .bin h b o →
      ∃ g' th', lookup t.groups gid = some g' ∧ lookup g'.threads tid = some th' ∧ th'.fcode = 0x0B ∧ th'.fdetail = 4 ∧ th'.wait = .ready
        ∧ th'.mark = none ∧ th'.res = { blk := b, off := o, cause := 5 })
  ∧ (∀ seed (index : Word) a l b, seed < 2 ^ 64 → drawStatus (l.map fun x => x.v a.toNat) = 0 → bestCand (candidates seed index a l) = some b →
    Wins (l.map fun x =>
      let n := (x.v (a.toNat + 1)).w
      (carrierVal (carryVal (Val.add (carrierVal (x.v a.toNat)) (carrierVal (gumbel (BitVec.ofNat 32 (keyed seed index.toNat)) n))).1), n.toNat))
      b.n.toNat)
  ∧ ∀ (d : Draw) b, (∀ x ∈ d.vals, carrierVal x.1 ≠ .nan ∧ x.2.1 < 2 ^ 32) → bestCand d.cands = some b →
    Wins (d.vals.map fun x => (carrierVal x.1, x.2.1)) b.n.toNat

/-- R7, R329, R330, R342: STCMP claims elements at the queue's TAIL, as many as there are participants and room, and sends one store each; QPOST
claims the next slot of a ring that has room, sends its packet there and returns its index, and of a ring whose exact WIDX − RIDX is at least its
size −1. Completes: stcmp, qpost. -/
def Obligations.QueueClaims : Prop :=
  ∀ s g p st d gr a tok space key cls,
    (Issues s .cohort { rv := [(BitVec.toNat d, 1)], wv := [(BitVec.toNat a, 1)], rg := [BitVec.toNat gr] } g p → taking s .cohort g p ≠ [] →
      Home s g (regG g gr.toNat s.cycle) 32 space key cls → space = .hbm ∨ space = .scratch →
      s.mayActNow (takers s .cohort g p) key 32 = true → s.badIn key 32 = false → InOrder s (key + 12) 8 0 →
      let q := leNat (s.latestBytes key 32)
      let base := q % 2 ^ 64
      let tail := q / 2 ^ 96 % 2 ^ 32
      let n := (taking s .cohort g p).length
      let m := min n (q / 2 ^ 64 % 2 ^ 32 - tail)
      q / 2 ^ 160 = 0 → q / 2 ^ 128 % 2 ^ 32 ≤ 1 → base % 4 = 0 →
      ∀ (loc : Nat → Space × Nat × Nat), (∀ r, r < m → HomeBesides s g (BitVec.ofNat 64 (base + 4 * (tail + r))) 4 (key + 12) 8
          (loc r).1 (loc r).2.1 (loc r).2.2) → (∀ r, r < m → base + 4 * (tail + r) < 2 ^ 64) →
      ∃ t, exec (.stcmp st d gr a tok) s = .next t
        ∧ NowReads s t (key + 12) (leBytes 4 ((tail + m) % 2 ^ 32) ++ if m < n then leBytes 4 1 else [])
        ∧ (∀ r x, r < m → (taking s .cohort g p)[r]? = some x → ∃ k c, lookup t.accesses k = some c ∧ c.tids = [x.tid] ∧ c.gid = s.cur.gid
            ∧ c.addr = BitVec.ofNat 64 (base + 4 * (tail + r)) ∧ c.space = (loc r).1 ∧ c.key = (loc r).2.1 ∧ c.size = 4
            ∧ c.act = .write (leBytes 4 (x.v d.toNat).w.toNat))
        ∧ ∃ k c, lookup t.results k = some c ∧ c.tids = p.cohort ∧ c.gid = s.cur.gid ∧ c.pid = s.cur.pid ∧ c.tok = tok.toNat
            ∧ c.fill = .ready a.toNat ∧ c.vals = [low m] ∧ c.fail = 0)
    ∧ (∀ x, Issues s .lane { rv := [(BitVec.toNat d + 1, 15)], wv := [(BitVec.toNat a, 1)], rg := [BitVec.toNat gr] } g p →
      taking s .lane g p = [x] → Home s g (x.g gr.toNat) 64 space key cls → space = .hbm ∨ space = .scratch →
      s.mayActNow [x.tid] key 64 = true → s.badIn key 64 = false → InOrder s (key + 8) 8 0 →
      let q := leNat (s.latestBytes key 64)
      let w := q / 2 ^ 64 % 2 ^ 64
      let size := 2 ^ (q / 2 ^ 192 % 2 ^ 5)
      headerOk q = true →
      (w < q / 2 ^ 128 % 2 ^ 64 + size → q % 2 ^ 64 + 64 * (w % size) < 2 ^ 64 →
        ∀ sp k c, Home s g (BitVec.ofNat 64 (q % 2 ^ 64 + 64 * (w % size))) 64 sp k c → ∃ t, exec (.qpost st d gr a tok) s = .next t
          ∧ NowReads s t (key + 8) (leBytes 8 ((w + 1) % 2 ^ 64))
          ∧ (∃ j e, lookup t.accesses j = some e ∧ e.tids = [x.tid] ∧ e.gid = s.cur.gid ∧ e.space = sp ∧ e.key = k ∧ e.size = 64
              ∧ e.act = .write (leBytes 4 w ++ (List.range 15).flatMap fun i => leBytes 4 (x.v (d.toNat + 1 + i)).w.toNat))
          ∧ ∃ j e, lookup t.results j = some e ∧ e.tids = [x.tid] ∧ e.gid = s.cur.gid ∧ e.tok = tok.toNat ∧ e.fill = .ready a.toNat
              ∧ e.vals = [low w] ∧ e.fail = 0)
      ∧ (q / 2 ^ 128 % 2 ^ 64 + size ≤ w → ∃ t, exec (.qpost st d gr a tok) s = .next t ∧ t.mem = s.mem ∧ t.pend = s.pend
        ∧ t.accesses = s.accesses ∧ ∃ j e, lookup t.results j = some e ∧ e.tids = [x.tid] ∧ e.gid = s.cur.gid ∧ e.tok = tok.toNat
            ∧ e.fill = .ready a.toNat ∧ e.vals = [low (-1)] ∧ e.fail = 0))

/-- R171, R172, R328: with one thread passing and none waiting at its granule, LDFE of a full granule reads its 16 bytes and, with consume, leaves
it empty; STFE writes them and leaves it full; LDFE of an empty one, which keeps its token pending, and STFE wait-empty of a full one, block with
cause 3; the re-executed LDFE returns what its retry read, or the fault of data beyond correction that it met (R379). (That the home retries a
blocked access and keeps what it read for the re-executed LDFE is the model's choice: DESIGN CHOICE, log 16; that a retry tests the full bit before
the data: DESIGN CHOICE, log 83.) Completes: ldfe, stfe. -/
def Obligations.FullEmptyAccesses : Prop :=
  ∀ s g p st d gr a tok c x m n,
    let addr := ea x gr a 4
    let key := m.scratchAt (16 * n)
    passing s g p = [x] → x.helper = false → x.cyc = s.cycle → (∀ tok at_ after left, p.hold ≠ .beats tok at_ after left) → lookup s.teams g.team = some m →
    addr.toNat = 0xFF00000000000000 + 16 * n → 16 * n < m.scratch → (∀ w ∈ m.queue, w.gran ≠ n) → s.mayActNow [x.tid] key 16 = true →
    s.badIn key 16 = false →
    let resultOf := fun (bytes : List Byte) => ({ gid := s.cur.gid, pid := s.cur.pid, tids := [x.tid], helper := false, tok := tok.toNat, addr := addr
                                                  fill := .words d.toNat 4, bytes := bytes, vals := [], fail := 0 } : Result)
    (Issues s .lane (atNeeds gr a [] [(BitVec.toNat d, 4)]) g p → x.th.woken = true → ∃ t, exec (.ldfe st c d gr a tok) s = .next t
      ∧ t.mem = s.mem ∧ t.pend = s.pend ∧ t.full = s.full
      ∧ lookup t.results s.stamp = some (match x.th.got with
        | some bytes => resultOf bytes
        | none => { resultOf [] with fail := 0x14 }))
    ∧ (Issues s .lane (atNeeds gr a [] [(BitVec.toNat d, 4)]) g p → x.th.woken = false →
      (readAt false s.full key = true → ∃ t, exec (.ldfe st c d gr a tok) s = .next t ∧ t.mem = s.mem ∧ t.pend = s.pend
        ∧ readAt false t.full key = decide (c = 0#1) ∧ (∀ q, q ≠ key → readAt false t.full q = readAt false s.full q)
        ∧ lookup t.results s.stamp = some (resultOf (s.bytes key 16)))
      ∧ (readAt false s.full key = false → ∃ t g' m', exec (.ldfe st c d gr a tok) s = .next t ∧ t.mem = s.mem ∧ t.full = s.full
        ∧ lookup t.groups s.cur.gid = some g' ∧ (g'.thread x.tid).wait = .granule n ∧ (tok.toNat < 3 → (g'.thread x.tid).ltok = some tok.toNat)
        ∧ (g'.thread x.tid).place = .bin p.handler p.blk s.cur.at_ ∧ (x.th.res.cause ≠ 5 →
            (g'.thread x.tid).res = { blk := p.blk, off := s.cur.at_, cause := 3 })
        ∧ lookup t.teams g.team = some m' ∧ ∃ w, m'.queue = m.queue ++ [w] ∧ w.gran = n ∧ w.gid = s.cur.gid ∧ w.tid = x.tid))
    ∧ (Issues s .lane (atNeeds gr a [(BitVec.toNat d, 4)] []) g p → x.th.woken = false →
      (c = 0#1 ∨ readAt false s.full key = false → ∃ t, exec (.stfe st c d gr a) s = .next t
        ∧ readAt false t.full key = true ∧ (∀ q, q ≠ key → readAt false t.full q = readAt false s.full q) ∧ t.pend = s.pend
        ∧ (∀ j b, (quadBytes x d.toNat)[j]? = some b → t.byte (key + j) = b)
        ∧ ∀ q, q < key ∨ key + 16 ≤ q → t.byte q = s.byte q)
      ∧ (c = 1#1 → readAt false s.full key = true → ∃ t g', exec (.stfe st c d gr a) s = .next t ∧ t.mem = s.mem ∧ t.full = s.full
        ∧ lookup t.groups s.cur.gid = some g' ∧ (g'.thread x.tid).wait = .granule n
        ∧ (g'.thread x.tid).place = .bin p.handler p.blk s.cur.at_))

/-! ### Pages and frames -/

/-- R183, R185, R186: PGALLOC maps the pool's first free frame as a counted leaf; PGSHARE makes two copy-on-write leaves of one frame; PGFREE zeroes
a leaf and gives a frame that nothing maps or uses back to its pool; PGINFO returns a frame's entry, PGRSV the old reserve. The status reaches g[D]
once the leaves' writes are visible; a context without a pool gets status 2, or all ones, and nothing changes. (That a frame that becomes free goes
to the tail of its pool's list is the model's choice: DESIGN CHOICE, log 6. A mapping with a reserved bit set, on which the operation would act, is
the descriptor fault with its page as address, by R5: DEDUCED, log 89.) Completes: pgalloc, pgshare, pgfree, pginfo, pgrsv. -/
def Obligations.PageOperations : Prop :=
  ∀ s g p (st : BitVec 2) (d : BitVec 6), takers s .pass g p ≠ [] → (∀ c ∈ s.cows, c.2.st = .waiting) → (∀ w ∈ s.pend, s.now < w.twc) →
    let G := fun (r : BitVec 6) => regG g r.toNat s.cycle
    let ctx := s.ctx g.ctx
    let answers := fun (t : State) (x : Quad) => ∃ r, lookup t.results s.stamp = some r ∧ r.gid = s.cur.gid ∧ r.pid = s.cur.pid ∧ r.tok = 4
      ∧ r.fill = .uniform d.toNat ∧ r.bytes = leBytes 8 x.toNat ∧ r.fail = 0 ∧ r.tids = takers s .pass g p
    let only := fun (t : State) => { t with groups := s.groups, results := s.results, stamp := s.stamp, mem := s.mem, pend := s.pend
                                            tlast := s.tlast, frames := s.frames, pools := s.pools } = s
      ∧ t.groups = (s.movedOn g p .pass st.toNat true).groups
    let unclean := fun (i : Instr) (page : Quad) => exec i s = .next (s.takeFaults s.cur.gid s.cur.pid s.cur.at_
      (p.cohort.map fun tid => { tid := tid, code := 9, detail := 0, addr := page }))
    (∀ a b, Issues s .pass { rg := [BitVec.toNat a, BitVec.toNat b] } g p →
      (∀ k e q pl f rest, G b = 1 → s.entry g.ctx (G a).toNat = .at_ k e → e.getLsbD 0 = false → s.poolOf g.ctx = some (q, pl) →
        pl.free = f :: rest → pl.reserve < pl.free.length → InOrder s k 8 0 →
        ∃ t, exec (.pgalloc st d a b) s = .next t ∧ only t ∧ answers t 0
          ∧ NowReads s t k (leBytes 8 (BitVec.ofNat 64 (0x47 + f % 2 ^ 36 * 2 ^ 16)).toNat)
          ∧ lookup t.pools q = some { pl with free := rest } ∧ t.frame f = { s.frame f with st := .allocated, count := 1, pool := some q }
          ∧ ∀ j, j ≠ f → t.frame j = s.frame j)
      ∧ (∀ kd e ke x, s.entry g.ctx (G a).toNat = .at_ kd e → e.getLsbD 0 = false → s.entry g.ctx (G b).toNat = .at_ ke x →
        countedEntry x = true → (s.frame (frameOf x)).count ≠ 0 → (s.frame (frameOf x)).count ≠ 65535 → (s.poolOf g.ctx).isSome →
        (∀ c ∈ s.chunks, frameOf x ∉ c.2.wframes) → InOrder s kd 8 0 → InOrder s ke 8 0 →
        (fld x 15 12 ≠ 0 → unclean (.pgshare st d a b) (G b))
        ∧ (fld x 15 12 = 0 → ∃ t, exec (.pgshare st d a b) s = .next t ∧ only t ∧ answers t 0 ∧ t.latest8 ke = x ||| 8#64
          ∧ t.latest8 kd = (x ||| 8#64) &&& ~~~0x30#64 ∧ (∀ q, (q < ke ∨ ke + 8 ≤ q) → (q < kd ∨ kd + 8 ≤ q) → t.latest q = s.latest q)
          ∧ t.frame (frameOf x) = { s.frame (frameOf x) with count := (s.frame (frameOf x)).count + 1 } ∧ t.pools = s.pools))
      ∧ (∀ k x, G b = 1 → s.entry g.ctx (G a).toNat = .at_ k x → countedEntry x = true → (s.frame (frameOf x)).count ≠ 0 →
        (s.poolOf g.ctx).isSome → InOrder s k 8 0 → (fld x 15 12 ≠ 0 → unclean (.pgfree st d a b) (G a))
        ∧ (fld x 15 12 = 0 → ∃ t, exec (.pgfree st d a b) s = .next t ∧ only t ∧ answers t 0
          ∧ NowReads s t k (leBytes 8 0)
          ∧ ((s.frame (frameOf x)).count ≠ 1 → t.pools = s.pools
              ∧ t.frame (frameOf x) = { s.frame (frameOf x) with count := (s.frame (frameOf x)).count - 1 })
          ∧ (∀ q pl, (s.frame (frameOf x)) = { count := 1, st := .allocated, users := 0, pool := some q } → lookup s.pools q = some pl →
              lookup t.pools q = some { pl with free := pl.free ++ [frameOf x] }
              ∧ t.frame (frameOf x) = { count := 0, st := .free, users := 0, pool := some q })))
      ∧ (ctx.poolId = 0xFFFF → (∀ c ∈ s.chunks, c.2.wframes = []) → ∀ i ∈ [Instr.pgalloc st d a b, .pgshare st d a b, .pgfree st d a b],
        ∃ t, exec i s = .next t ∧ only t ∧ answers t 2 ∧ t.mem = s.mem ∧ t.pend = s.pend ∧ t.frames = s.frames ∧ t.pools = s.pools))
    ∧ (∀ a, Issues s .pass { rg := [BitVec.toNat a] } g p →
      (∀ k x, s.entry g.ctx ((G a).toNat / 2 ^ 16 * 2 ^ 16) = .at_ k x → countedEntry x = true → fld x 15 12 ≠ 0 →
        unclean (.pginfo st d a) (BitVec.ofNat 64 ((G a).toNat / 2 ^ 16 * 2 ^ 16)))
      ∧ (∀ k x, s.entry g.ctx ((G a).toNat / 2 ^ 16 * 2 ^ 16) = .at_ k x → (countedEntry x = true → fld x 15 12 = 0) → ∃ t, exec (.pginfo st d a) s = .next t ∧ only t
        ∧ t.mem = s.mem ∧ t.pend = s.pend ∧ t.frames = s.frames ∧ t.pools = s.pools
        ∧ answers t (if countedEntry x then
            let f := s.frame (frameOf x)
            BitVec.ofNat 64 (f.count % 2 ^ 16 + (match f.st with | .free => 0 | .allocated => 1 | .inFlight => 2 | .migrating => 3) * 2 ^ 16
              + f.users % 2 ^ 14 * 2 ^ 18 + if f.st = .free then s.nextFree (frameOf x) % 2 ^ 32 * 2 ^ 32 else 0)
          else 0xFFFFFFFFFFFFFFFF))
      ∧ (∀ q pl f n pre post, s.pools = [(q, pl)] → pl.free = pre ++ f :: post → f ∉ pre → n = post.headD 0xFFFFFFFF → s.nextFree f = n)
      ∧ (∀ q pl, s.poolOf g.ctx = some (q, pl) → ∃ t, exec (.pgrsv st d a) s = .next t ∧ only t ∧ answers t (BitVec.ofNat 64 pl.reserve)
        ∧ lookup t.pools q = some { pl with reserve := (G a).toNat % 2 ^ 32 } ∧ t.mem = s.mem ∧ t.frames = s.frames))

/-- R188, R381, R192: a resolution clears the leaf's COW bit when the frame has one mapping, and otherwise gives the writer a frame of the pool with
the old one's bytes; a leaf that has changed ends it without effect; a pool whose free count is at or below its reserve, or none, is the
pool-exhausted fault in its threads. Once decided and visible it lets its threads go on with cause 0, and its frame is free at once when nothing
maps or uses it any more (R183). A frame on a retired row migrates when nothing uses it, and one in flight stays to migrate (R380). (That a frame
freed then goes to the tail of its pool's list is the model's choice: DESIGN CHOICE, log 6; that a free frame migrates too, and is free again, its
reading: DEDUCED, log 90.) Completes:
cowResolution, cowThreadRelease, frameMigration. -/
def Obligations.CopyOnWriteAndMigration : Prop :=
  ∀ s k c, lookup s.cows k = some c →
    (c.st = .waiting → (∀ d ∈ s.cows, d.2.leaf = c.leaf → d.2.st = .waiting) → (∀ w ∈ s.pend, s.now < w.twc) →
      let e := s.latest8 c.leaf
      (cowLeafStands e c.frame = false → ∃ n, exec (.cowResolution k) s = .next { s with cows := putAt s.cows k { c with st := .decided n none } })
      ∧ (cowLeafStands e c.frame = true → (s.frame c.frame).count ≤ 1 → InOrder s c.leaf 8 0 → ∃ t n, exec (.cowResolution k) s = .next t
        ∧ NowReads s t c.leaf (leBytes 8 (e &&& ~~~8#64).toNat) ∧ t.cows = putAt s.cows k { c with st := .decided n none }
        ∧ t.frames = s.frames ∧ t.pools = s.pools ∧ t.groups = s.groups)
      ∧ (∀ q pl f rest, cowLeafStands e c.frame = true → 1 < (s.frame c.frame).count → s.poolOf c.ctx = some (q, pl) → pl.free = f :: rest →
        pl.reserve < pl.free.length → f ≠ c.frame → f < 2 ^ 36 → c.leaf + 8 ≤ f * 2 ^ 16 ∨ (f + 1) * 2 ^ 16 ≤ c.leaf → InOrder s c.leaf 8 0 →
        (∀ w ∈ s.pend, w.key + w.bytes.length ≤ f * 2 ^ 16 ∨ (f + 1) * 2 ^ 16 ≤ w.key) →
        ∃ t n, exec (.cowResolution k) s = .next t ∧ (∀ i, i < 2 ^ 16 → t.latest (f * 2 ^ 16 + i) = s.latest (c.frame * 2 ^ 16 + i))
          ∧ frameOf (t.latest8 c.leaf) = f ∧ (t.latest8 c.leaf).getLsbD 3 = false ∧ (t.latest8 c.leaf).getLsbD 4 = true
          ∧ (∀ i, i < 64 → i ≠ 3 → i ≠ 4 → i < 16 ∨ 52 ≤ i → (t.latest8 c.leaf).getLsbD i = (i < 16 && e.getLsbD i))
          ∧ (t.frame c.frame).count = (s.frame c.frame).count - 1
          ∧ (t.frame f).st = .inFlight ∧ (t.frame f).count = 1 ∧ lookup t.pools q = some { pl with free := rest }
          ∧ lookup t.cows k = some { c with st := .decided n (some f) })
      ∧ (∀ gid tid addr h g b o, cowLeafStands e c.frame = true → 1 < (s.frame c.frame).count →
        (s.poolOf c.ctx = none ∨ ∃ q pl, s.poolOf c.ctx = some (q, pl) ∧ pl.free.length ≤ pl.reserve) →
        s.cowWaiters k = [(gid, tid, addr)] → lookup s.groups gid = some g → (g.thread tid).place = .bin h b o →
        exec (.cowResolution k) s = .next ({ s with cows := drop s.cows k }.faultThread gid b o
          { tid := tid, code := 8, detail := 0, addr := addr })))
    ∧ (∀ until_ n, c.st = .decided until_ n → until_ ≤ s.now → ∃ t, exec (.cowThreadRelease k) s = .next t ∧ t.cows = drop s.cows k
      ∧ t.mem = s.mem ∧ (∀ f, n = some f → (s.frame f).count ≠ 0 → (t.frame f).st = .allocated)
      ∧ (∀ f q pl, n = some f → (s.frame f).count = 0 → (s.frame f).users = 0 → (s.frame f).pool = some q → lookup s.pools q = some pl →
          (t.frame f).st = .free ∧ lookup t.pools q = some { pl with free := pl.free ++ [f] })
      ∧ ∀ gid g tid th addr, lookup s.groups gid = some g → lookup g.threads tid = some th → th.wait = .cow k addr →
          ∃ g' th', lookup t.groups gid = some g' ∧ lookup g'.threads tid = some th' ∧ th'.wait = .ready
            ∧ (th.res.cause ≠ 5 → th'.res = { th.res with cause := 0 }))
    ∧ ∀ f, f ∈ s.mod.migrate →
      ((s.frame f).st = .allocated ∨ (s.frame f).st = .free → (s.frame f).users = 0 → ∃ t, exec (.frameMigration f) s = .next t
        ∧ { t with frames := s.frames } = s ∧ t.frame f = { s.frame f with st := .migrating } ∧ ∀ j, j ≠ f → t.frame j = s.frame j)
      ∧ ((s.frame f).st = .allocated → (s.frame f).users ≠ 0 → exec (.frameMigration f) s = .next s)
      ∧ ((s.frame f).st = .inFlight → exec (.frameMigration f) s = .next s)
      ∧ ((s.frame f).st = .migrating → (s.frame f).count ≠ 0 ∨ (s.frame f).users ≠ 0 → ∃ t, exec (.frameMigration f) s = .next t ∧ f ∉ t.mod.migrate
        ∧ t.frame f = { s.frame f with st := .allocated })
      ∧ (∀ q pl, (s.frame f).st = .migrating → (s.frame f).count = 0 → (s.frame f).users = 0 → (q, pl) ∈ s.pools → f ∈ pl.free →
        ∃ t, exec (.frameMigration f) s = .next t ∧ f ∉ t.mod.migrate ∧ t.frame f = { s.frame f with st := .free } ∧ t.pools = s.pools)

/-! ### The matrix engine -/

/-- R343, R345, R346, R348, R351 to R356, R358: a millrace word whose checks pass queues its command with what it captures (its threads, their rows,
its offsets, its relation and segment), adds 1 to the matrix counter, sets the issued format or the ownbase of later commands, and changes no
register and no byte of memory, but for A bits of the leaves through which a grouped product reads its segment (R351, R181); a tile not below ACC is
the illegal-operand fault; at 255 commands it waits. (That an operand's fault has fault
address 0 is the model's choice: DESIGN CHOICE, log 19; that MLDC reads the reserved bits of ROWSTATE as it issues is its reading: DEDUCED, log 81.)
Completes: mma, mmas, mmax, mzero, mldc, mstc, mcopy, mscale, mdep, mstat, mstatProg, msmx, msmf. -/
def Obligations.MatrixCommandsQueue : Prop :=
  ∀ i e, wellFormed i = true → millWord i = some e → ∀ s g p m,
    Issues s .pass { e.needs with rg := e.needs.rg ++ e.more s g } g p → takers s .pass g p ≠ [] → s.teamOf g = some m →
    (e.legal s g m → readAt 0 g.count 1 < 255 → ∃ t u g' c, exec i s = .next t ∧ Looked s g.ctx u ∧ (e.more s g = [] → u = s)
      ∧ { t with groups := s.groups, cores := s.cores, tiles := s.tiles, stamp := u.stamp } = u
      ∧ lookup t.groups s.cur.gid = some g' ∧ { g' with passes := g.passes, count := g.count } = g
      ∧ lookup g'.passes s.cur.pid = some { stepped s .pass e.stall.toNat p with loud := true }
      ∧ (∀ k, k ≠ s.cur.pid → lookup g'.passes k = lookup g.passes k)
      ∧ readAt 0 g'.count 1 = readAt 0 g.count 1 + 1 ∧ (∀ k, k ≠ 1 → readAt 0 g'.count k = readAt 0 g.count k)
      ∧ lookup (t.coreSt g.core).race u.stamp = some c ∧ (∀ k, k ≠ u.stamp → lookup (t.coreSt g.core).race k = lookup (s.coreSt g.core).race k)
      ∧ c.gid = s.cur.gid ∧ c.pid = s.cur.pid ∧ c.issued = s.cycle ∧ c.op = e.op s g ∧ c.tile = e.tile ∧ c.final = e.final ∧ c.first = e.first
      ∧ c.lab = e.lab ∧ c.a = e.a s g ∧ c.b = e.b s g ∧ c.rel = (if e.rel = 0 then none else lookup g.rels e.rel) ∧ c.seg = e.seg s g
      ∧ c.tids = takers s .pass g p ∧ c.rows = rowsOf (s.tile s.cur.gid e.tile).ownbase (takers s .pass g p)
      ∧ c.started = false ∧ c.verdict = none ∧ c.step = 0
      ∧ (∀ k n, n < 16 → (k, n) ≠ (s.cur.gid, e.tile) → t.tile k n = s.tile k n)
      ∧ (e.tile < 16 → t.tile s.cur.gid e.tile = { s.tile s.cur.gid e.tile with
          issued := (e.issues s g).getD (s.tile s.cur.gid e.tile).issued, ownbase := (e.owns s g).getD (s.tile s.cur.gid e.tile).ownbase }))
    ∧ (e.tile < 16 → s.acc g ≤ e.tile → exec i s = .next (s.faulting p.cohort 2 0))
    ∧ (e.legal s g m → readAt 0 g.count 1 = 255 → exec i s = .next (s.waits g p .counter))

/-- R357, R359: MREL loads the 64 bytes of a well-formed descriptor into k[K]; MRD gives each thread sixteen elements of the row it owns; MWR writes
them, as BF16 of their carriers in a B16S tile; both wait for the commands on the tile that were queued before them. (That a K of 0 has fault
address 0 is the model's choice: DESIGN CHOICE, log 19.) Completes: mrel, mrd, mwr. -/
def Obligations.MatrixRegisterWords : Prop :=
  ∀ s g p st,
    (∀ a, Issues s .pass { rg := [BitVec.toNat a] } g p → takers s .pass g p ≠ [] →
      exec (.mrel st a 0#4) s = .next (s.faulting p.cohort 2 0))
    ∧ (∀ a k x rest key cls bytes, Issues s .pass { rg := [BitVec.toNat a] } g p → taking s .pass g p = x :: rest → k ≠ 0#4 →
      (regG g a.toNat s.cycle).toNat % 64 = 0 → s.locate g (regG g a.toNat s.cycle) false = .ok .scratch key cls none →
      s.mayActNow [x.tid] key 64 = true → s.badIn key 64 = false → bytes = s.bytes key 64 →
      (relOk (leNat bytes) = true → ∃ g', exec (.mrel st a k) s = .next (s.withGroup g')
        ∧ g' = { g with passes := putAt g.passes s.cur.pid { stepped s .pass st.toNat p with loud := p.loud || false }
                        rels := putAt g.rels (BitVec.toNat k) bytes })
      ∧ (relOk (leNat bytes) = false → exec (.mrel st a k) s = .next (s.takeFaults s.cur.gid s.cur.pid s.cur.at_
          (p.cohort.map fun t => { tid := t, code := 9, detail := 0, addr := regG g a.toNat s.cycle }))))
    ∧ (∀ m d a, Issues s .lane { rv := [(BitVec.toNat a, 1)], wv := [(BitVec.toNat d, 16)] } g p →
      let tile := s.tile s.cur.gid (BitVec.toNat m)
      (m.toNat < s.acc g → TileFree s g p m.toNat → ∃ t, exec (.mrd st m d a) s = .next t
        ∧ Ran s t .lane st.toNat 0 g p (passing s g p) (fun x => if tile.ownbase ≤ x.tid ∧ x.tid < tile.ownbase + 128 then
            { v := (List.range 16).map fun j =>
                (d.toNat + j, readAt Carrier.zero tile.vals ((x.tid - tile.ownbase) * 128 + 16 * ((x.v a.toNat).w.toNat % 8) + j)) }
          else {}) [])
      ∧ (m.toNat < s.acc g → ¬ TileFree s g p m.toNat → exec (.mrd st m d a) s = .next (s.waits g p (.tile m.toNat (rowIssued s p))))
      ∧ (s.acc g ≤ m.toNat → takers s .lane g p ≠ [] → exec (.mrd st m d a) s = .next (s.faulting p.cohort 2 0)))
    ∧ ∀ m d a, Issues s .lane { rv := [(BitVec.toNat a, 1), (BitVec.toNat d, 16)] } g p →
      let tile := s.tile s.cur.gid (BitVec.toNat m)
      let at_ := fun (x : View) => (x.tid - tile.ownbase) * 128 + 16 * ((x.v a.toNat).w.toNat % 8)
      let acts := fun (x : View) => x ∈ taking s .lane g p ∧ tile.ownbase ≤ x.tid ∧ x.tid < tile.ownbase + 128
      (m.toNat < s.acc g → ¬ TileFree s g p m.toNat → exec (.mwr st m d a) s = .next (s.waits g p (.tile m.toNat (rowIssued s p))))
      ∧ (s.acc g ≤ m.toNat → takers s .lane g p ≠ [] → exec (.mwr st m d a) s = .next (s.faulting p.cohort 2 0))
      ∧ (m.toNat < s.acc g → TileFree s g p m.toNat → (takers s .lane g p).Nodup → ∃ t, exec (.mwr st m d a) s = .next t
        ∧ { t with tiles := s.tiles } = s.movedOn g p .lane st.toNat false
        ∧ (∀ x, acts x → ∀ j, j < 16 → readAt Carrier.zero (t.tile s.cur.gid m.toNat).vals (at_ x + j) =
            if tile.b16s then { w := (x.v (d.toNat + j)).w &&& 0xFFFF0000#32, s := false } else x.v (d.toNat + j))
        ∧ (∀ n, (∀ x, acts x → n < at_ x ∨ at_ x + 16 ≤ n) →
            readAt Carrier.zero (t.tile s.cur.gid m.toNat).vals n = readAt Carrier.zero tile.vals n)
        ∧ { t.tile s.cur.gid m.toNat with vals := tile.vals } = tile)

/-- R343, R347, R243, R349: the next command of a core starts at the later of the cycle after its issue and the end of the one before it, and behind
every MRD or MWR of its group that was issued before it (R359); its verdict is taken then, and its first rows are zeroed. R355: an MDEP binds as it
starts. R42 to R45, R241, R247, R349: a K-step of a product adds its exact sum, with one rounding, to each owned element of an F32C tile that the
command computes, under a mask those whose labels its relation admits: sixteen products for an MMA, and at the eighth K-step the whole for I8, the
scaled whole for MMAS and the scaled block sums for MMAX; no other element changes. R46, R47: an element of a B16S tile is rounded to BF16 under SR
with its column's generator, which advances once in every K-step. Completes: millraceCommandStart, kStep. -/
def Obligations.MillraceRuns : Prop :=
  (∀ s core pre k m post g tm,
    let c := s.coreSt core
    let start := max (m.issued + 1) c.free
    c.race = pre ++ (k, m) :: post → (∀ e ∈ c.race, e.2.started = false) → (∀ e ∈ pre, s.raceOpen e.2.gid = false) → s.raceOpen m.gid = true →
    lookup s.groups m.gid = some g → s.teamOf g = some tm →
    let behind := ∃ q ∈ g.passes, ∃ t n, q.2.hold = .tile t n ∧ n ≤ k
    (s.cycle < start ∨ behind → exec (.millraceCommandStart core) s = .next s)
    ∧ (start ≤ s.cycle → ¬ behind → ∃ t m', exec (.millraceCommandStart core) s = .next t ∧ { t with cores := s.cores, tiles := s.tiles, mod := s.mod } = s
      ∧ (s.bad = [] → t.mod = s.mod)
      ∧ lookup (t.coreSt core).race k = some m' ∧ (∀ j, j ≠ k → lookup (t.coreSt core).race j = lookup c.race j)
      ∧ m'.started = true ∧ m'.op = m.op ∧ m'.rows = m.rows ∧ m'.tids = m.tids
      ∧ (m.op.product = false → m'.until_ = start + commandCycles m.op ∧ m'.verdict = m.verdict)
      ∧ (m.op.product = true → m.verdict = none → m.step = 0 → m'.verdict = some (s.verdictAt tm m)
        ∧ (m.rel = none → m.seg = none → m'.verdict = some .unmasked)
        ∧ m'.until_ = start + (if m'.verdict = some .skipped then 4 else commandCycles m.op / 8)
        ∧ (t.tile m.gid m.tile).infl = true ∧ (t.tile m.gid m.tile).step = 0
        ∧ (m.first = true → ∀ i ∈ m.rows, ∀ j, j < 128 → readAt Carrier.zero (t.tile m.gid m.tile).vals (i * 128 + j) = Carrier.zero
            ∧ readAt false (t.tile m.gid m.tile).admitted (i * 128 + j) = false)
        ∧ (m.first = false → (t.tile m.gid m.tile).vals = (s.tile m.gid m.tile).vals))
      ∧ (∀ b, m.op = .mdep b → (t.tile m.gid m.tile).bind = b)
      ∧ (∀ d, m.op = .mstat d 0 → m'.value = c.skipped) ∧ (∀ d, m.op = .mstat d 1 → m'.value = c.masked)
      ∧ (∀ d, m.op = .mstat d 2 → m'.value = c.unmasked)))
  ∧ (∀ s core k m g tm,
    let c := s.coreSt core
    let old := s.tile m.gid m.tile
    c.active = some (k, m) → m.op.product = true → (m.verdict = some .unmasked ∨ m.verdict = some .masked) → m.step < 8 → m.until_ ≤ s.cycle → m.bad = false →
    lookup s.groups m.gid = some g → s.teamOf g = some tm → s.raceOpen m.gid = true → m.rows.Nodup →
    ∃ t, exec (.kStep core) s = .next t ∧ { t with cores := s.cores, tiles := s.tiles } = s
      ∧ (∃ m', lookup (t.coreSt core).race k = some m' ∧ m'.step = m.step + 1 ∧ m'.started = true
          ∧ m'.until_ = (if m.step < 7 then m.until_ + commandCycles m.op / 8 + (if m.verdict = some .masked ∧ m.step = 6 then 16 else 0)
              else m.until_))
      ∧ (t.tile m.gid m.tile).step = (m.step + 1) % 8
      ∧ (∀ j, j < 128 → (readAt 1#16 (t.tile m.gid m.tile).gens j).toNat =
          if old.b16s then tapped (readAt 1#16 old.gens j).toNat else (readAt 1#16 old.gens j).toNat)
      ∧ (∀ n, n / 128 ∉ m.rows → readAt Carrier.zero (t.tile m.gid m.tile).vals n = readAt Carrier.zero old.vals n)
      ∧ (∀ i ∈ m.rows, ∀ j, j < 128 → ¬ Computes s tm m i j →
          readAt false (t.tile m.gid m.tile).admitted (i * 128 + j) = readAt false old.admitted (i * 128 + j)
          ∧ elemOf (t.tile m.gid m.tile) i j = elemOf old i j)
      ∧ (∀ i ∈ m.rows, ∀ j, j < 128 → Computes s tm m i j → readAt false (t.tile m.gid m.tile).admitted (i * 128 + j) = true
        ∧ (∀ q, m.op = .mma q → q < 4 → old.b16s = false → readAt Carrier.zero (t.tile m.gid m.tile).vals (i * 128 + j) =
            carryVal (Val.add (carrierVal (readAt Carrier.zero old.vals (i * 128 + j)))
              (sumVals (s.products tm m i j ((List.range 16).map (16 * m.step + ·))))).1)
        ∧ (m.op = .mma 4 → readAt Carrier.zero (t.tile m.gid m.tile).vals (i * 128 + j) =
            if m.step = 7 then low ((readAt Carrier.zero old.vals (i * 128 + j)).w.toNat + s.intProducts tm m i j)
            else readAt Carrier.zero old.vals (i * 128 + j))
        ∧ (∀ q, m.op = .mmas q ∨ m.op = .mmax q → old.b16s = false → readAt Carrier.zero (t.tile m.gid m.tile).vals (i * 128 + j) =
            if m.step < 7 then readAt Carrier.zero old.vals (i * 128 + j)
            else carryVal (Val.add (carrierVal (readAt Carrier.zero old.vals (i * 128 + j)))
              (if m.op = .mmas q then scaledSum s tm m i j else blockSums s tm m i j)).1)
        ∧ (old.b16s = true → ∀ q x, (m.op = .mma q ∧ q < 4 ∧ x = sumVals (s.products tm m i j ((List.range 16).map (16 * m.step + ·))))
            ∨ (m.step = 7 ∧ ((m.op = .mmas q ∧ x = scaledSum s tm m i j) ∨ (m.op = .mmax q ∧ x = blockSums s tm m i j))) →
          readAt Carrier.zero (t.tile m.gid m.tile).vals (i * 128 + j) = { s := false, w := BitVec.ofNat 32 (2 ^ 16 * finPattern fmtBF16
            (finVal (Val.add (carrierVal (readAt Carrier.zero old.vals (i * 128 + j))) x).1 fmtBF16 .sr
              (2 ^ 16 * tapped (readAt 1#16 old.gens j).toNat) (2 ^ 32)).1) })
        ∧ (∀ q, m.op = .mmas q ∨ m.op = .mmax q → m.step < 7 → readAt Carrier.zero (t.tile m.gid m.tile).vals (i * 128 + j) =
            readAt Carrier.zero old.vals (i * 128 + j))))

/-- R349, R352 to R354, R356, R358, R251 to R255, R245, R173: a command that has ended retires: the millrace is free, the matrix counter is 1 lower,
a product counts under its verdict, and a word that moves or reads tiles, or works on softmax rows, has had its effect; only MSTC writes memory, and
only its image. R169, R164: a final command on a bound tile arrives on the barrier, held when no arrival is missing. Completes:
millraceCommandRetire. -/
def Obligations.MillraceRetires : Prop :=
  ∀ s core k m g tm,
    let c := s.coreSt core
    let old := s.tile m.gid m.tile
    c.active = some (k, m) → (if m.op.product && m.verdict != some .skipped then 8 ≤ m.step else m.until_ ≤ s.cycle) →
    lookup s.groups m.gid = some g → s.teamOf g = some tm →
    ∃ t g', (m.final = false ∨ g.dead = true ∨ (s.tile m.gid (arrivesOn m)).bind = none → exec (.millraceCommandRetire core) s = .next t)
      ∧ (∀ b, m.final = true → g.dead = false → m.bad = false → (s.tile m.gid (arrivesOn m)).bind = some b → (g.bar b).expect ≠ 0 →
        ((g.bar b).arrive = 0 → exec (.millraceCommandRetire core) s = .next { t with
          groups := putAt t.groups m.gid (g'.putBar b { g.bar b with heldArr := (g.bar b).heldArr + 1 }) })
        ∧ ((g.bar b).arrive ≠ 0 → exec (.millraceCommandRetire core) s = .next (t.arriveAt m.gid b 1)))
      ∧ t.pend = s.pend ∧ t.accesses = s.accesses
      ∧ lookup t.groups m.gid = some g' ∧ { g' with count := g.count } = g ∧ readAt 0 g'.count 1 = readAt 0 g.count 1 - 1
      ∧ (t.coreSt core).race = drop c.race k ∧ (t.coreSt core).free = m.until_
      ∧ (t.coreSt core).skipped = c.skipped + (if m.op.product && m.verdict == some .skipped then 1 else 0)
      ∧ (t.coreSt core).masked = c.masked + (if m.op.product && m.verdict == some .masked then 1 else 0)
      ∧ (t.coreSt core).unmasked = c.unmasked + (if m.op.product && m.verdict == some .unmasked then 1 else 0)
      ∧ ((∀ f r, m.op ≠ .mstc f r) → t.mem = s.mem)
      ∧ (∀ f r, m.op = .mstc f r → (∀ i ∈ m.rows, i < 128) → ∀ q, (∀ o, m.a ≤ o → o < m.a + tileBytes f + 1152 → q ≠ tm.scratchAt o) → t.byte q = s.byte q)
      ∧ ((∀ d q, m.op ≠ .mstat d q) → (t.tile m.gid m.tile).infl = false ∧ (t.tile m.gid m.tile).step = 0)
      ∧ (m.op.product = true → (t.tile m.gid m.tile).vals = old.vals)
      ∧ (∀ w, m.op = .mzero w → (t.tile m.gid m.tile).b16s = w.getLsbD 0
        ∧ (∀ i ∈ m.rows, ∀ j, j < 128 → readAt Carrier.zero (t.tile m.gid m.tile).vals (i * 128 + j) = Carrier.zero)
        ∧ (∀ j, j < 128 → let seed := (w.toNat / 2 ^ 16 % 2 ^ 16 + j * 0x9E37) % 2 ^ 16
            (readAt 1#16 (t.tile m.gid m.tile).gens j).toNat = if seed = 0 then 1 else seed)
        ∧ ∀ n, n / 128 ∉ m.rows → readAt Carrier.zero (t.tile m.gid m.tile).vals n = readAt Carrier.zero old.vals n)
      ∧ (∀ f, m.op = .mscale f → m.rows.Nodup → ∀ i ∈ m.rows, ∀ j, j < 128 → readAt Carrier.zero (t.tile m.gid m.tile).vals (i * 128 + j) =
          carryVal (Val.mul (carrierVal (readAt Carrier.zero old.vals (i * 128 + j))) (carrierVal { w := f, s := false })).1)
      ∧ (∀ x, m.op = .mcopy x → ∀ i ∈ m.rows, ∀ j, j < 128 → readAt Carrier.zero (t.tile m.gid m.tile).vals (i * 128 + j) =
          readAt Carrier.zero (s.tile m.gid x).vals (i * 128 + j))
      ∧ (∀ f, m.op = .mldc f → m.rows.Nodup → (∀ i ∈ m.rows, i < 128) → m.bad = false → f ≤ 4 ∨ f = 12 → ∀ i ∈ m.rows,
          LoadedRow s tm old (t.tile m.gid m.tile) f m.a i m.lab)
      ∧ (∀ f r, m.op = .mstc f r → m.rows.Nodup → (∀ i ∈ m.rows, i < 128) → m.bad = false → f ≤ 4 ∨ f = 12 → (roundOf r).isSome → r ≠ 5 →
          Unaliased tm (m.a + tileBytes f + 1152) → (∀ i ∈ m.rows, StoredRow t tm old f r m.a i m.lab)
          ∧ (m.lab = true → ∀ b, 16 ≤ b → b < 64 → t.byte (tm.scratchAt (m.a + tileBytes f + 576 + b)) = 0)
          ∧ (m.lab = true → ∀ j b, (resummarise (s.tileSummary tm m.a (tileBytes f)) ((List.range 128).map (t.tileLabel tm m.a (tileBytes f))))[j]?
              = some b → t.byte (tm.scratchAt (m.a + tileBytes f + 512 + j)) = b))
      ∧ (∀ x, m.op = .msmx x → x ≠ m.tile → m.rows.Nodup → ∀ i ∈ m.rows, SoftStep old (s.tile m.gid x) (t.tile m.gid m.tile) (t.tile m.gid x) i)
      ∧ (m.op = .msmf → m.rows.Nodup → ∀ i ∈ m.rows, SoftEnd old (t.tile m.gid m.tile) i)
      ∧ (∀ d q, m.op = .mstat d q → ∃ r, t.results = putAt s.results s.stamp r ∧ r.fill = .uniform d ∧ r.bytes = leBytes 8 m.value.toNat
          ∧ r.tok = 4 ∧ r.fail = 0 ∧ r.gid = m.gid ∧ r.pid = m.pid ∧ r.tids = m.tids)
      ∧ (∀ d, m.op = .mprog d → ∃ r, t.results = putAt s.results s.stamp r ∧ r.fill = .uniform d ∧ r.bytes = leBytes 8 m.value.toNat
          ∧ r.tok = 4 ∧ r.fail = 0 ∧ r.gid = m.gid ∧ r.pid = m.pid ∧ r.tids = m.tids)

/-! ### The sluice -/

/-- R336 to R341, R173, R181: an engine command whose checks pass is queued with its descriptors, its barrier and its chunks of 64 KiB, and adds 1 to its
class's counter; a command that is refused, misaligned descriptors among these, faults in every cohort thread, with the count of an error that the
ECC cannot correct; one that meets a copy-on-write leaf blocks them on its resolution; at 255 commands of the class it waits. No register changes,
and of memory only A and D bits of leaves through which addresses of its context translate. (That a command counts an error beyond correction once
is the model's choice: DESIGN CHOICE, log 64; the fault address of a descriptor's fault is its address: DESIGN CHOICE, log 20.) Completes: copy, copyt, gath, scat, copyr. -/
def Obligations.EngineCommandsQueue : Prop :=
  ∀ i e, engineWord i = some e → ∀ s g p, Issues s .pass { rg := e.regs ++ e.more s g } g p → takers s .pass g p ≠ [] →
    (∀ x, s.issueEngine g (e.order s g) = .go x →
      x.gid = s.cur.gid ∧ x.op = e.op ∧ x.lab = e.lab ∧ x.bar = e.bar ∧ x.started = 0 ∧ x.ended = 0 ∧ x.horizon = 0
      ∧ x.cls = (match e.op with | .copyt => 0 | .copyr _ => 3 | .gath => 2 | .scat => 2 | .copy => if s.destIn g { x with map := none } .peer then 3 else 0)
      ∧ s.engineRead g (e.order s g).gd 64 = .inl x.dst ∧ s.engineRead g (e.order s g).gs 64 = .inl x.src
      ∧ x.chunks = (x.totalBits + 524287) / 524288
      ∧ (∀ b, e.bar = some b → b < g.nbars ∧ (g.bar b).expect ≠ 0)
      ∧ (readAt 0 g.count x.cls < 255 → ∃ t u g', exec i s = .next t ∧ Looked s g.ctx u
        ∧ { t with groups := u.groups } = { u with engines := putAt s.engines u.stamp x, stamp := u.stamp + 1 }
        ∧ lookup t.groups s.cur.gid = some g' ∧ { g' with passes := g.passes, count := g.count } = g
        ∧ lookup g'.passes s.cur.pid = some { stepped s .pass e.stall.toNat p with loud := true }
        ∧ (∀ k, k ≠ s.cur.pid → lookup g'.passes k = lookup g.passes k)
        ∧ readAt 0 g'.count x.cls = readAt 0 g.count x.cls + 1 ∧ ∀ k, k ≠ x.cls → readAt 0 g'.count k = readAt 0 g.count k)
      ∧ (readAt 0 g.count x.cls = 255 → exec i s = .next (s.waits g p .counter)))
    ∧ (∀ c a, s.issueEngine g (e.order s g) = .fault c a → ∃ u, Looked s g.ctx u
      ∧ exec i s = .next ({ u with mod := { s.mod with eccBad := s.mod.eccBad + if c = 0x14 then 1 else 0 } }.takeFaults
          s.cur.gid s.cur.pid s.cur.at_ (p.cohort.map fun t => { tid := t, code := c, detail := 0, addr := a })))
    ∧ (∀ leaf frame a, s.issueEngine g (e.order s g) = .cow leaf frame a → p.cohort.Nodup → ∃ t u g' k c, exec i s = .next t ∧ Looked s g.ctx u
      ∧ { t with groups := u.groups, cows := u.cows, stamp := u.stamp } = u ∧ lookup t.groups s.cur.gid = some g'
      ∧ (k, c) ∈ t.cows ∧ c.leaf = leaf ∧ (∀ j, j ≠ k → lookup t.cows j = lookup s.cows j) ∧ (∀ tid ∈ p.cohort, BlockedAt s p (.cow k a) (g'.thread tid))
      ∧ ∀ tid, tid ∉ p.cohort → g'.thread tid = g.thread tid)
    ∧ ((e.order s g).gd.toNat % 64 ≠ 0 → s.issueEngine g (e.order s g) = .fault 4 (e.order s g).gd)
    ∧ (∀ d, (e.order s g).gd.toNat % 64 = 0 → s.engineRead g (e.order s g).gd 64 = .inl d → (e.order s g).gs.toNat % 64 ≠ 0 →
        s.issueEngine g (e.order s g) = .fault 4 (e.order s g).gs)

/-- R190, R163, R194, R199, R200, R221, R173: a chunk whose parts are in place starts and holds its frames; behind the accesses that wait at a port
of it, its sectors are written at their homes,
reductions combined there, and counted one by one on the command's barrier; when all are done it sets its bit in the chunk map, and when that write
is complete too it releases its frames; the oldest command of a class with no chunk left retires and its counter falls. R201, R203, R204, R157: a
chunk that crosses a port fails when LINKTO has passed, a port has left Up or the peer answers with an error: its Failure events are raised, it
releases its frames, counts at its port, and its command goes on; only writes on their way to the peer stay, until the abort reaches it; a halt
detaches it. A thread's access that a peer answers with an error fails at its token. (The model's readings: that a chunk in error leaves its bit
clear, log 32; that a lost port fails a chunk at once and is counted, and that a chunk is detached 7.5 µs after its halt began, log 33; both
DEDUCED.) Completes: engineCommandRetire, chunkStart, chunkComplete, chunkTimeout, chunkAbort, chunkDetach, sectorEvent, peerErrorAnswer. -/
def Obligations.Chunks : Prop :=
  (∀ s,
    (∀ cmd e g parts, lookup s.engines cmd = some e → lookup s.groups e.gid = some g → e.started < e.chunks → g.st ≠ .halting → g.st ≠ .saved →
      e.Reaches s g parts →
      (∀ x ∈ parts, (x.2.1 = .peer → (s.routeOf x.1).isSome = true) ∧ (x.2.1 = .hbm → s.frameBusy x.1 = false)
        ∧ (x.2.1 = .peer → x.2.2.2 = false → PortFree s s.stamp x.1)) → (∀ q, keySpace q = .peer → s.badIn q 1 = false) →
      ∃ t k c, exec (.chunkStart cmd) s = .next t ∧ lookup t.engines cmd = some { e with started := e.started + 1 } ∧ t.groups = s.groups
        ∧ lookup t.chunks k = some c ∧ c.cmd = cmd ∧ c.idx = e.started ∧ c.since = s.now ∧ c.failed = false ∧ c.detached = false
        ∧ c.mapped = false ∧ (e.map = none → c.mapKey = none) ∧ (c.peer = none ↔ ∀ x ∈ parts, x.2.1 ≠ .peer)
        ∧ (∀ q, q ∈ c.ports ↔ ∃ x ∈ parts, x.2.1 = .peer ∧ s.routeOf x.1 = some q)
        ∧ c.left = c.todo.length + c.owed.length ∧ (∀ f, f ∈ c.frames ↔ ∃ x ∈ parts, x.2.1 = .hbm ∧ f = x.1 / 2 ^ 16)
        ∧ (∀ f, f ∈ c.wframes ↔ ∃ x ∈ parts, x.2.1 = .hbm ∧ x.2.2.2 = true ∧ f = x.1 / 2 ^ 16)
        ∧ ∀ f, (t.frame f).users = (s.frame f).users + if f ∈ c.frames then 1 else 0)
    ∧ (∀ k c e g x rest, lookup s.accesses k = none → lookup s.chunks k = some c → lookup s.engines c.cmd = some e →
      lookup s.groups e.gid = some g → c.extra = [] → c.resum = false → c.todo = x :: rest → c.failed = false → c.OnTime s →
      (∀ y ∈ x.pieces, PortFree s k y.key) → ∀ ext,
      ∃ t u, exec (.homeWrite k ext) s = .next t ∧ t.groups = s.groups ∧ t.engines = s.engines ∧ s.now ≤ u
        ∧ t.chunks = putAt s.chunks k { c with todo := rest, owed := c.owed ++ [(u, false)] }
        ∧ ((∀ w ∈ s.pend, s.now < w.twc) →
            (∀ w ∈ s.pend, ∀ y ∈ x.pieces, ∀ z ∈ x.pieces, w.key + w.bytes.length ≤ y.key ∨ z.key + z.bytes.length ≤ w.key) →
            ((∀ r, e.op ≠ .copyr r) →
              (∀ q, (∀ y ∈ x.pieces, q < y.key ∨ y.key + y.bytes.length ≤ q) → t.latest q = s.latest q)
              ∧ ∀ y, x.pieces = [y] → y.mask = List.replicate y.bytes.length 255 →
                ∀ j b, y.bytes[j]? = some b → t.latest (y.key + j) = b)
            ∧ ∀ r y, e.op = .copyr r → x.pieces = [y] → NowReads s t y.key
                (leBytes y.bytes.length (combined r (leNat (s.latestBytes y.key y.bytes.length)) (leNat y.bytes)))))
    ∧ (∀ k c e time err, lookup s.chunks k = some c → lookup s.engines c.cmd = some e → c.extra = [] → c.resum = false → c.failed = false →
      c.OnTime s → (c.owed.find? fun o => decide (o.1 ≤ s.now)) = some (time, err) →
      let t := { s with chunks := putAt s.chunks k { c with owed := c.owed.erase (time, err), left := c.left - 1, horizon := max c.horizon time } }
      (e.bar = none → exec (.sectorEvent k) s = .next t)
      ∧ (∀ b g, e.bar = some b → lookup s.groups e.gid = some g → g.dead = false → (g.bar b).heldArr = 0 → ∃ u g', exec (.sectorEvent k) s = .next u
        ∧ u.chunks = t.chunks ∧ u.mem = s.mem ∧ lookup u.groups e.gid = some g'
        ∧ ((g.bar b).expect = 0 ∨ (g.bar b).arrive ≠ 0 ∨ (g.bar b).sectors ≠ 1 →
            g'.bar b = { g.bar b with sectors := (g.bar b).sectors - 1, err := (g.bar b).err || err } ∧ ∀ tid, g'.thread tid = g.thread tid)
        ∧ ((g.bar b).expect ≠ 0 → (g.bar b).arrive = 0 → (g.bar b).sectors = 1 →
            g'.bar b = { g.bar b with phase := (g.bar b).phase + 1, arrive := (g.bar b).expect, sectors := 0, err := (g.bar b).err || err
                                      chain := [] }
            ∧ ∀ tid, (g.thread tid).wait = .barrier b → (g'.thread tid).wait = .ready)))
    ∧ (∀ k c e g, lookup s.chunks k = some c → lookup s.engines c.cmd = some e → lookup s.groups e.gid = some g → c.failed = false → c.todo = [] →
      c.extra = [] → c.resum = false → c.owed = [] → c.horizon ≤ s.now → c.OnTime s →
      (∀ key, c.bad = false → c.mapped = false → c.mapKey = some key → PortFree s k key → ∃ t h, exec (.chunkComplete k) s = .next t ∧ s.now ≤ h
        ∧ t.chunks = putAt s.chunks k { c with mapped := true, horizon := max c.horizon h } ∧ t.engines = s.engines
        ∧ (∀ f, t.frame f = s.frame f) ∧ (InOrder s key 8 0 → t.latest8 key = s.latest8 key ||| 1#64 <<< (c.idx % 64)))
      ∧ (c.bad = true ∨ c.mapped = true ∨ c.mapKey = none → c.frames.Nodup → ∃ t, exec (.chunkComplete k) s = .next t
        ∧ t.chunks = drop s.chunks k ∧ lookup t.engines c.cmd = some { e with ended := e.ended + 1, horizon := max e.horizon c.horizon }
        ∧ (∀ f, (t.frame f).users = (s.frame f).users - if f ∈ c.frames then 1 else 0) ∧ t.mem = s.mem ∧ t.pend = s.pend))
    ∧ ∀ gid cls g k e pre post, lookup s.groups gid = some g → s.engines = pre ++ (k, e) :: post →
        (∀ x ∈ pre, ¬ (x.2.gid = gid ∧ x.2.cls = cls)) → e.gid = gid → e.cls = cls → e.chunks ≤ e.started → e.chunks ≤ e.ended → e.horizon ≤ s.now →
        (∀ x ∈ s.chunks, x.2.cmd ≠ k) →
        ∃ g', exec (.engineCommandRetire gid cls) s = .next { s with engines := drop s.engines k, groups := putAt s.groups gid g' }
          ∧ { g' with count := g.count } = g ∧ readAt 0 g'.count cls = readAt 0 g.count cls - 1
          ∧ ∀ j, j ≠ cls → readAt 0 g'.count j = readAt 0 g.count j)
  ∧ (∀ s k,
    (∀ c e g, lookup s.chunks k = some c → lookup s.engines c.cmd = some e → lookup s.groups e.gid = some g → c.failed = false → c.peer.isSome →
      c.mapped = false → c.frames.Nodup →
      let fails := fun (i : Instr) => ∃ t d h, exec i s = .next t
        ∧ lookup t.chunks k = some d ∧ c.Ended d ∧ (∀ j, j ≠ k → lookup t.chunks j = lookup s.chunks j)
        ∧ lookup t.engines c.cmd = some { e with ended := e.ended + 1, horizon := h }
        ∧ e.horizon ≤ h ∧ c.horizon ≤ h ∧ (∀ o ∈ c.owed, o.1 ≤ h)
        ∧ (∀ f, (t.frame f).users = (s.frame f).users - if f ∈ c.frames then 1 else 0)
        ∧ t.mod.linkTimeouts = s.mod.linkTimeouts + 1 ∧ t.mem = s.mem ∧ t.pend = s.pend ∧ (e.bar = none → t.groups = s.groups)
        ∧ (∀ b, e.bar = some b → g.dead = false → (g.bar b).heldArr = 0 → (g.bar b).arrive ≠ 0 → ∃ g', lookup t.groups e.gid = some g'
          ∧ g'.bar b = { g.bar b with sectors := (g.bar b).sectors - BitVec.ofNat 32 c.left, err := (g.bar b).err || decide (0 < c.left) })
      (¬ c.OnTime s → fails (.chunkTimeout k))
      ∧ (c.OnTime s → ∀ ecc, fails (.peerErrorAnswer 1 k ecc))
      ∧ (∀ h, (s.ctx g.ctx).halt = some h → g.st = .halting → h.since + 7500 ≤ s.now →
        exec (.chunkDetach k) s = .next { s with chunks := putAt s.chunks k { c with detached := true } }))
    ∧ (∀ c, lookup s.chunks k = some c → c.failed = true →
      (lookup s.engines c.cmd = none → exec (.chunkAbort k) s = .next { s with chunks := drop s.chunks k })
      ∧ ∀ e, lookup s.engines c.cmd = some e → exec (.chunkAbort k) s = .next { s with
          chunks := drop s.chunks k, engines := putAt s.engines c.cmd { e with horizon := max e.horizon c.horizon } })
    ∧ ∀ a ecc, lookup s.accesses k = some a → a.space = .peer → ¬ TooLate s a.port a.since →
        (a.prefetch = true → exec (.peerErrorAnswer 0 k ecc) s = .next { s with accesses := drop s.accesses k })
        ∧ ∀ f, a.prefetch = false → a.fill = some f → ∃ t, exec (.peerErrorAnswer 0 k ecc) s = .next t
          ∧ t.mem = s.mem ∧ t.pend = s.pend ∧ t.groups = s.groups ∧ t.accesses = drop s.accesses k
          ∧ t.results = putAt s.results s.stamp (a.result f [] (if ecc then 0x14 else 0x0F))
          ∧ t.mod = { s.mod with linkTimeouts := s.mod.linkTimeouts + 1 })

/-! ### Tasks -/

/-- R272, R273, R124, R125, R128: TSPAWN and TRANGE emit records that the checks of R124 pass, in ascending TID, and take the descriptor fault for
one that fails; a record enters the tail of the first deque that is not full, and one that names a barrier joins its chain; with every deque full
the threads block. R274: TCLAIM takes whole granules of the group's interval. R275: TFLUSH closes the team's buffers, and records that reached one
in this very cycle form a new one. (That a descriptor fault here has address 0 is the model's choice: DESIGN CHOICE, log 20.) Completes: tspawn,
trange, tclaim, tflush. -/
def Obligations.TaskWords : Prop :=
  ∀ s g p st,
    (∀ d x, Issues s .lane { rv := [(BitVec.toNat d, 16)], rg := [BitVec.toNat x] } g p →
      let home := fun (v : View) => if (v.g x.toNat).getLsbD 3 then (v.g x.toNat).toNat % 8 else g.core % 8
      let words := fun (v : View) => (List.range 16).map fun i => (v.v (d.toNat + i)).w
      ((∃ v ∈ taking s .lane g p, (v.g x.toNat).toNat / 16 ≠ 0) →
        exec (.tspawn st d x) s = .next ((s.movedOn g p .lane st.toNat false).faulting (takers s .lane g p) 9 0))
      ∧ ((∀ v ∈ taking s .lane g p, (v.g x.toNat).toNat / 16 = 0 ∧ ¬ ∃ k, RecordGood s g 0 (words v) k) →
        exec (.tspawn st d x) s = .next ((s.movedOn g p .lane st.toNat false).faulting (takers s .lane g p) 9 0))
      ∧ (∀ v rest t, taking s .lane g p = v :: rest → (∀ u ∈ v :: rest, (u.g x.toNat).toNat / 16 = 0 ∧ ∃ k, RecordGood s g 0 (words u) k) →
        (v :: rest).foldlM (fun (u : State) (y : View) => u.emit g.team s.cur.gid g.core y.tid (home v) g (words y))
          (s.movedOn g p .lane st.toNat true) = some t →
        exec (.tspawn st d x) s = .next t)
      ∧ (∀ v k m, taking s .lane g p = [v] → (v.g x.toNat).toNat / 16 = 0 → RecordGood s g 0 (words v) k → lookup s.teams g.team = some m →
        (∀ e, e < 8 → 512 ≤ (m.deque e).length) → (g.thread v.tid).wait = .ready → v.tid ∈ p.cohort → (lookup g.threads v.tid).isSome →
        ∃ t g', exec (.tspawn st d x) s = .next t ∧ { t with groups := s.groups } = s ∧ lookup t.groups s.cur.gid = some g'
          ∧ BlockedAt s p .pool (g'.thread v.tid) ∧ ∀ tid, tid ≠ v.tid → g'.thread tid = g.thread tid))
    ∧ (∀ d a b, Issues s .pass { rg := [BitVec.toNat d, BitVec.toNat a, BitVec.toNat b] ++ List.range 10 } g p → takers s .pass g p ≠ [] →
      let w := rangeWords s g d.toNat a.toNat b.toNat
      ((¬ ∃ k, RecordGood s g 1 w k) → exec (.trange st d a b) s = .next (s.faulting p.cohort 9 0))
      ∧ (∀ k, RecordGood s g 1 w k →
        (recLo w = recHi w → exec (.trange st d a b) s = .next (s.movedOn g p .pass st.toNat false))
        ∧ (∀ t, recLo w ≠ recHi w → (s.movedOn g p .pass st.toNat true).emit g.team s.cur.gid g.core 0 (g.core % 8) g w = some t →
            exec (.trange st d a b) s = .next t)
        ∧ ∀ m, recLo w ≠ recHi w → lookup s.teams g.team = some m → (∀ e, e < 8 → 512 ≤ (m.deque e).length) → p.cohort.Nodup →
            ∃ t g', exec (.trange st d a b) s = .next t ∧ { t with groups := s.groups } = s ∧ lookup t.groups s.cur.gid = some g'
              ∧ (∀ tid ∈ p.cohort, BlockedAt s p .pool (g'.thread tid)) ∧ ∀ tid, tid ∉ p.cohort → g'.thread tid = g.thread tid))
    ∧ (∀ (u : State) gid core tid first w m h, lookup u.teams g.team = some m → lookup u.groups gid = some h → first < 8 →
      ((∀ e, e < 8 → 512 ≤ (m.deque e).length) → u.emit g.team gid core tid first g w = none)
      ∧ ∀ e, Enters m first e → ∃ t m' h', u.emit g.team gid core tid first g w = some t
        ∧ { t with teams := u.teams, groups := u.groups, stamp := u.stamp } = u ∧ t.stamp = u.stamp + 1
        ∧ (∀ k, k ≠ g.team → lookup t.teams k = lookup u.teams k) ∧ (∀ k, k ≠ gid → lookup t.groups k = lookup u.groups k)
        ∧ lookup t.teams g.team = some m' ∧ m'.deque e = m.deque e ++ [u.stamp] ∧ (∀ k, k ≠ e → m'.deque k = m.deque k)
        ∧ lookup m'.recs u.stamp = some { words := w, ctx := g.ctx, slot := g.slot, core := core, tid := tid, arrived := 0
                                          parked := (recBar w).map fun b => (gid, b), err := false, prio := g.prio }
        ∧ (∀ k, k ≠ u.stamp → lookup m'.recs k = lookup m.recs k) ∧ lookup t.groups gid = some h'
        ∧ { h' with bars := h.bars } = h
        ∧ ∀ b, h'.bar b = if recBar w = some b then { h.bar b with chain := (h.bar b).chain ++ [u.stamp] } else h.bar b)
    ∧ (∀ d a, Issues s .pass { rg := [BitVec.toNat a], wv := [(BitVec.toNat d, 3)] } g p → takers s .pass g p ≠ [] → g.lo.toNat ≤ g.hi.toNat →
      let n := (regG g a.toNat s.cycle).toNat
      let k := min ((n + 2 ^ g.gran - 1) / 2 ^ g.gran * 2 ^ g.gran) (g.hi.toNat - g.lo.toNat)
      ∃ t g' r, exec (.tclaim st d a) s = .next t ∧ { t with groups := s.groups, results := s.results, stamp := s.stamp } = s
        ∧ lookup t.groups s.cur.gid = some g' ∧ { g' with passes := g.passes, lo := g.lo } = g ∧ g'.lo.toNat = g.lo.toNat + k
        ∧ lookup g'.passes s.cur.pid = some { stepped s .pass st.toNat p with loud := p.loud || false }
        ∧ (∀ j, j < s.stamp → lookup t.results j = lookup s.results j) ∧ lookup t.results s.stamp = some r ∧ r.gid = s.cur.gid ∧ r.pid = s.cur.pid ∧ r.tids = p.cohort ∧ r.helper = false ∧ r.fail = 0
        ∧ r.fill = .ready d.toNat ∧ r.vals = [low g.lo.toNat, low (g.lo.toNat / 2 ^ 32), low k])
    ∧ (Issues s .pass {} g p → takers s .pass g p ≠ [] → ∀ m, lookup s.teams g.team = some m →
      ((∀ x ∈ m.bufs, ∀ r ∈ x.2.recs, r.arrived ≠ s.cycle) →
        exec (.tflush st) s = .next ((m.bufs.map (·.1)).foldl (fun u id => u.closeBuffer g.team id) (s.movedOn g p .pass st.toNat false)))
      ∧ ∀ b buf, m.bufs = [(b, buf)] → buf.closed = false →
        let old := buf.recs.filter fun r => decide (r.arrived ≠ s.cycle)
        let new := buf.recs.filter fun r => decide (r.arrived = s.cycle)
        (old = [] → new ≠ [] → exec (.tflush st) s = .next (s.movedOn g p .pass st.toNat false))
        ∧ (old ≠ [] → new ≠ [] → exec (.tflush st) s = .next ({ s.movedOn g p .pass st.toNat false with
            teams := putAt s.teams g.team { m with
              bufs := putAt (putAt m.bufs b { buf with recs := old }) s.stamp { buf with recs := new, timer := s.now + 4000 } }
            stamp := s.stamp + 1 }.closeBuffer g.team b)))

/-- R108, R119 to R121: the launch whose turn it is has its next team admitted whole to a cluster that holds no team and has the scratchpad: one
group for each index, on core GINT mod 8, with every thread at the kernel's entry. R126, R127: a core with room takes the record that its own deque
or, in order, another's offers: a range record starts its group there, a continuation record joins the open buffer of its key, or opens one for 4 µs
while fewer than eight stand. R130: with no record that fits it a core takes the upper part of the victim's interval. A buffer that closes starts a
group whose thread j has the words of record j, in the order of their arrival, and in one cycle of emitting core and TID. (The model's readings:
which core a closed buffer's group starts on and that closed buffers count among the eight: DEDUCED, log 34; whose turn it is: DEDUCED, log 35; that
g0 to g4 of a gathered group are those of its team's launch: DEDUCED, log 77.) Completes: teamAdmission, taskTake, gatherTimeout, taskSteal. -/
def Obligations.TeamsAndRecordsStart : Prop :=
  (∀ (s : State) cluster lid l k, s.nextLaunch = some (lid, l) → s.kernel l.ctx l.slot l.kern = some k → k.entry < 4096 →
    (∀ j h, lookup s.groups j = some h → j < s.stamp) →
    (lid, l) ∈ s.launches ∧ l.next < l.teams ∧ (s.ctx l.ctx).st = 2 ∧ (s.ctx l.ctx).halt = none
    ∧ (∀ j m, (j, m) ∈ s.launches → s.canAdmit m = true → m.prio ≤ l.prio)
    ∧ (cluster < 192 → (s.cluster cluster).team = none →
      (k.scratch + 65535) / 65536 * 65536 ≤ (s.cluster cluster).scratchBanks.length * 524288 → ∃ t m, exec (.teamAdmission cluster) s = .next t
        ∧ { t with groups := s.groups, teams := s.teams, clusters := s.clusters, launches := s.launches, turns := s.turns, full := s.full
                   stamp := s.stamp, fresh := s.fresh } = s
        ∧ (t.cluster cluster).team = some s.stamp ∧ (∀ c, c ≠ cluster → t.cluster c = s.cluster c)
        ∧ lookup t.teams s.stamp = some m ∧ (∀ j, j ≠ s.stamp → lookup t.teams j = lookup s.teams j)
        ∧ m.ctx = l.ctx ∧ m.launch = lid ∧ m.cluster = cluster ∧ m.index = l.next ∧ m.groups = k.team ∧ m.started = 0
        ∧ m.scratch = (k.scratch + 65535) / 65536 * 65536 ∧ m.recs = [] ∧ m.bufs = [] ∧ m.home = [] ∧ m.copies = []
        ∧ lookup t.launches lid = some { l with next := l.next + 1, live := l.live + 1 }
        ∧ (∀ q, lookup t.full q = if scratchKey cluster 0 0 ≤ q ∧ q < scratchKey (cluster + 1) 0 0 then none else lookup s.full q)
        ∧ (∀ j, j ≤ s.stamp → lookup t.groups j = lookup s.groups j)
        ∧ ∀ i, i < k.team → ∃ g, lookup t.groups (s.stamp + 1 + i) = some g ∧ Begun s g k l.ctx s.stamp (cluster * 8 + i % 8) l.slot l.kern i k.threads
            ∧ AllAtEntry g k.entry ∧ (∀ r, readAt 0#64 g.g r = launchG l l.next i r) ∧ g.isRange = false))
  ∧ (∀ (s : State) core team m, (s.cluster (core / 8)).team = some team → lookup s.teams team = some m → core < 1536 →
    (s.ctx m.ctx).st = 2 → (s.ctx m.ctx).halt = none → (∀ j h, lookup s.groups j = some h → j < s.stamp) →
    (∀ id r k, Takes s m core id r k → recKind r.words = 1 → r.words.length = 16 → ∃ t m' g, exec (.taskTake core) s = .next t
      ∧ { t with groups := s.groups, teams := s.teams, stamp := s.stamp, fresh := s.fresh } = s
      ∧ lookup t.teams team = some m' ∧ m'.recs = drop m.recs id ∧ (∀ e, m'.deque e = (m.deque e).filter (· ≠ id)) ∧ m'.started = m.started + 1
      ∧ m'.bufs = m.bufs ∧ lookup t.groups s.stamp = some g
      ∧ Begun s g k m.ctx team core r.slot (recKern r.words) (m.groups + m.started) k.threads
      ∧ (∀ tid, tid < g.nthr → (g.thread tid).place = .bin false (recEntry r.words) 0)
      ∧ (∀ i, i < 10 → readAt 0#64 g.g i = (r.words.getD (6 + i) 0).setWidth 64) ∧ (∀ i, 10 ≤ i → readAt 0#64 g.g i = 0#64)
      ∧ g.isRange = true ∧ g.lo = recLo r.words ∧ g.hi = recHi r.words ∧ g.gran = recGran r.words ∧ g.rwords = r.words.drop 6
      ∧ ∀ j h, j ≠ s.stamp → lookup s.groups j = some h → ∃ h', lookup t.groups j = some h' ∧ { h' with threads := h.threads } = h
          ∧ ∀ tid, h'.thread tid = if h.team = team ∧ (h.thread tid).wait = .pool then (h.thread tid).wake
              else h.thread tid)
    ∧ (∀ id r k, Takes s m core id r k → recKind r.words = 0 →
      (∀ b buf, lookup m.bufs b = some buf → buf.closed = false → buf.slot = r.slot → buf.kern = recKern r.words →
        buf.entry = recEntry r.words → buf.recs.length + 1 < 512 →
        (∀ b' o, (b', o) ∈ m.bufs → o.closed = false → o.slot = r.slot → o.kern = recKern r.words → o.entry = recEntry r.words → b' = b) →
        ∃ t m' l, exec (.taskTake core) s = .next t ∧ lookup t.teams team = some m' ∧ m'.recs = drop m.recs id ∧ m'.started = m.started
          ∧ lookup m'.bufs b = some { buf with recs := l } ∧ Joins { r with arrived := s.cycle } buf.recs l ∧ ∀ b', b' ≠ b → lookup m'.bufs b' = lookup m.bufs b')
      ∧ ((∀ b o, (b, o) ∈ m.bufs → ¬ (o.closed = false ∧ o.slot = r.slot ∧ o.kern = recKern r.words ∧ o.entry = recEntry r.words)) →
        m.bufs.length < 8 → ∃ t m', exec (.taskTake core) s = .next t ∧ lookup t.teams team = some m' ∧ m'.recs = drop m.recs id
          ∧ m'.started = m.started ∧ (∀ b', b' ≠ s.stamp → lookup m'.bufs b' = lookup m.bufs b')
          ∧ lookup m'.bufs s.stamp = some { slot := r.slot, kern := recKern r.words, entry := recEntry r.words, recs := [{ r with arrived := s.cycle }]
                                            timer := s.now + 4000, stoppedAt := none, closed := false }))
    ∧ (∀ vid v k, s.victim team = some (vid, v) → s.kernel v.ctx v.slot v.kern = some k → v.lo.toNat ≤ v.hi.toNat →
      NoneToTake s m core →
      let n := (v.hi.toNat - v.lo.toNat) / (2 * 2 ^ v.gran) * 2 ^ v.gran
      (n = 0 ∨ s.fits core k k.threads = false → exec (.taskSteal core) s = .next s)
      ∧ (n ≠ 0 → s.fits core k k.threads = true → ∃ t v' g, exec (.taskSteal core) s = .next t
        ∧ lookup t.groups vid = some v' ∧ { v' with hi := v.hi } = v ∧ v'.hi.toNat = v.hi.toNat - n ∧ lookup t.groups s.stamp = some g
        ∧ Begun s g k m.ctx team core v.slot v.kern (m.groups + m.started) k.threads ∧ g.lo = v'.hi ∧ g.hi = v.hi ∧ g.gran = v.gran ∧ g.rwords = v.rwords ∧ g.isRange = true ∧ g.entry = v.entry
        ∧ (∀ i, readAt 0#64 g.g i = (v.rwords.getD i 0).setWidth 64)
        ∧ (∀ tid, tid < g.nthr → (g.thread tid).place = .bin false v.entry 0)
        ∧ t.mem = s.mem ∧ ∀ j, j ≠ vid → j ≠ s.stamp → lookup t.groups j = lookup s.groups j))
    ∧ (∀ vid v, s.victim team = some (vid, v) → v.team = team ∧ v.isRange = true ∧ v.st = .running ∧ v.live ≠ 0
      ∧ ∀ j h, (j, h) ∈ s.groups → h.team = team → h.isRange = true → h.st = .running → h.live ≠ 0 →
          h.hi.toNat - h.lo.toNat < v.hi.toNat - v.lo.toNat ∨ (h.hi.toNat - h.lo.toNat = v.hi.toNat - v.lo.toNat ∧ v.grpid ≤ h.grpid))
    ∧ ∀ b buf, lookup m.bufs b = some buf →
      (buf.stoppedAt = none → buf.closed = true ∨ buf.timer ≤ s.now → exec (.gatherTimeout team b) s = .next (s.closeBuffer team b))
      ∧ ∀ k l, s.kernel m.ctx buf.slot buf.kern = some k → lookup s.launches m.launch = some l →
        let n := (buf.recs.length + 3) / 4 * 4
        (s.coreWithRoom m.cluster k n = none → ∃ t, s.closeBuffer team b = t ∧ { t with teams := s.teams } = s
          ∧ lookup t.teams team = some { m with bufs := putAt m.bufs b { buf with closed := true } })
        ∧ ∀ c, s.coreWithRoom m.cluster k n = some c → ∃ m' g, lookup (s.closeBuffer team b).teams team = some m' ∧ m'.started = m.started + 1
          ∧ (∀ b', lookup m'.bufs b' = if b' = b then none else lookup m.bufs b') ∧ lookup (s.closeBuffer team b).groups s.stamp = some g
          ∧ Begun s g k m.ctx team c buf.slot buf.kern (m.groups + m.started) n ∧ (∀ i, readAt 0#64 g.g i = launchG l m.index (m.groups + m.started) i)
          ∧ ∀ j, j < n → ((buf.recs.length ≤ j → (g.thread j).place = .retired)
            ∧ ∀ r, buf.recs[j]? = some r → (g.thread j).place = .bin false buf.entry 0
              ∧ ∀ i, i < 14 → readAt Carrier.zero (g.thread j).v i = { w := r.words.getD (2 + i) 0, s := false }))

/-! ### Rings and registers -/

/-- R100, R101, R92, R95: writes of TAIL, of a system ring's RBASE, CBASE and LOG2N, of a context's register block and of the other device
registers: what is accepted is stored, clamped to its range; what R100 and R101 ignore sets TERR; a Free or Destroying context ignores all.
Completes: tailWrite, ringRegisterWrite, contextRegisterWrite, registerWrite. -/
def Obligations.RegisterWrites : Prop :=
  ∀ (s : State),
    (∀ ring v, ring < 1028 → (SysRing ring → s.mod.ready = true) → v < 2 ^ 64 → (s.ring ring).st ≠ 0 →
      let x := s.ring ring
      let refused := v < x.tail ∨ x.done + 2 ^ x.log2n < v ∨ x.st = 5 ∨ x.st = 6
      (refused → exec (.tailWrite ring v) s = .next (s.putRing ring { x with terr := true }))
      ∧ (¬ refused → exec (.tailWrite ring v) s = .next (s.putRing ring { x with
          tail := v, st := if x.st = 1 ∧ ring < 1024 then 2 else x.st })))
    ∧ (∀ ring v, SysRing ring → v < 2 ^ 64 →
      let x := s.ring ring
      let fits := fun (n : Nat) => v % n = 0 ∧ (2 ^ 63 ≤ v ∨ v < hbmEnd)
      let bad := Host.Outcome.next (s.putRing ring { x with terr := true })
      (x.tail = x.done → (fits 64 → exec (.ringRegisterWrite ring 0x20 v) s = .next (s.putRing ring { x with rbase := BitVec.ofNat 64 v }))
        ∧ (fits 16 → exec (.ringRegisterWrite ring 0x28 v) s = .next (s.putRing ring { x with cbase := BitVec.ofNat 64 v }))
        ∧ (4 ≤ v → v ≤ 16 → exec (.ringRegisterWrite ring 0x30 v) s = .next (s.putRing ring { x with log2n := v })))
      ∧ (x.tail ≠ x.done ∨ ¬ fits 64 → exec (.ringRegisterWrite ring 0x20 v) s = bad)
      ∧ (x.tail ≠ x.done ∨ ¬ fits 16 → exec (.ringRegisterWrite ring 0x28 v) s = bad)
      ∧ (x.tail ≠ x.done ∨ (v < 4 ∨ (16 < v ∧ v < 32)) → exec (.ringRegisterWrite ring 0x30 v) s = bad))
    ∧ (∀ c v, c < 64 →
      let x := s.ctx c
      let n := BitVec.toNat v
      let near := fun (lo hi y : Nat) => if y < lo then lo else if hi < y then hi else y
      (x.st = 0 ∨ x.st = 5 → ∀ off, exec (.contextRegisterWrite c off v) s = .next s)
      ∧ (x.st ≠ 0 → x.st ≠ 5 →
        exec (.contextRegisterWrite c 0x08 v) s = .next (s.putCtx c { x with ptroot := v &&& 0x000FFFFFFFFFF000#64 })
        ∧ exec (.contextRegisterWrite c 0x10 v) s = .next (s.putCtx c { x with
            leaseHbm := near 64 64000 (n % 2 ^ 16), linkto := near 16 65535 (n / 2 ^ 16 % 2 ^ 16) })
        ∧ exec (.contextRegisterWrite c 0x18 v) s = .next (s.putCtx c { x with ways := near 0 16 (n % 2 ^ 5) })
        ∧ exec (.contextRegisterWrite c 0x20 v) s = .next (s.putCtx c { x with poolId := n % 2 ^ 16 })
        ∧ exec (.contextRegisterWrite c 0x28 v) s = .next (s.putCtx c { x with handlerKern := n % 2 ^ 16, handlerV := v.getLsbD 16 })
        ∧ exec (.contextRegisterWrite c 0x30 v) s = .next (s.putCtx c { x with faultBase := v &&& 0x000FFFFFFFFFFC00#64 })))
    ∧ (∀ r v, r < 1024 → (s.ring r).st ≠ 0 → exec (.registerWrite 2 (r * 0x1000 + 0x18) v) s =
        .next (if v.getLsbD 3 then s.putRing r { s.ring r with terr := false } else s))
    ∧ (∀ n v, n < 4 → (s.ring (1024 + n)).st ≠ 0 → exec (.registerWrite 0 (n * 0x1000 + 0x18) v) s =
        .next (if v.getLsbD 3 then s.putRing (1024 + n) { s.ring (1024 + n) with terr := false } else s))
    ∧ (∀ p v, p < 18 → exec (.registerWrite 0 (0x20000 + p * 0x20) v) s = .next (s.putPort p { s.port p with accept := v.getLsbD 4 }))
    ∧ ∀ v, exec (.registerWrite 0 0x20400 v) s = .next { s with mod := { s.mod with modid := BitVec.toNat v % 2 ^ 12 } }

/-- R101, R103, R104: a ring that fetches reads its next entry once and HEAD advances; an entry that does not translate is done with status 8, a
code that is none of R106 with 3. When the oldest command has ended and its stores' horizon has passed, its 16-byte record is written, DONE
advances, and INT signals the ring's vector; a queue whose record cannot be written becomes Faulted, a Draining one too unless this was its last. (The
model's choices and readings: a command that R101 ends at its fetch is reported in order, DEDUCED, log 39; a system ring's entry behind the end of
HBM, DESIGN CHOICE, log 73; that a Draining queue leaves Draining so, log 74, DEDUCED; INT signals although the record is dropped, log 75, DESIGN CHOICE; an
entry at a peer without a route is not read, DEDUCED, log 80.) Completes: commandFetch, completionRecordWrite. -/
def Obligations.CommandsAreFetchedAndReported : Prop :=
  ∀ (s : State) ring, ring < 1028 →
    let x := s.ring ring
    (s.mod.ready = true → s.mod.tripped = false → x.head < x.tail →
      (¬ SysRing ring → x.st = 2 ∧ ((s.ctx (ring / 16)).st = 1 ∨ (s.ctx (ring / 16)).st = 2)) →
      let at_ := x.rbase.toNat + x.head % 2 ^ x.log2n * 64
      let code := fun (bytes : List Byte) => leNat (bytes.take 1)
      let known := [0x01, 0x02, 0x03, 0x04, 0x05, 0x06, 0x07, 0x08, 0x09, 0x0A, 0x10, 0x11, 0x12, 0x13, 0x14, 0x20, 0x21, 0x22, 0x23, 0x30, 0x31, 0x32,
        0x33, 0x34, 0x3F]
      let takes := fun (bytes : List Byte) => ∃ t w, exec (.commandFetch ring) s = .next t ∧ (t.ring ring).head = x.head + 1
        ∧ (t.ring ring).tail = x.tail ∧ (t.ring ring).done = x.done ∧ (∀ r, r ≠ ring → t.ring r = s.ring r)
        ∧ (∀ k, k ≠ x.head → lookup (t.ring ring).cmds k = lookup x.cmds k)
        ∧ w.length = 8 ∧ (∀ i q, w[i]? = some q → BitVec.toNat q = leNat ((bytes.drop (8 * i)).take 8))
        ∧ lookup (t.ring ring).cmds x.head = some (if code bytes ∈ known then
            { words := some w, st := .fetched, status := 0, result := 0, horizon := 0, gids := [], frames := [], replay := none }
          else { words := some w, st := .done, status := 3, result := 0, horizon := 0, gids := [], frames := [], replay := none })
      let failed : Cmd := { words := none, st := .done, status := 8, result := 0, horizon := 0, gids := [], frames := [], replay := none }
      let fails := fun (u : State) =>
        exec (.commandFetch ring) s = .next (u.putRing ring { x with head := x.head + 1, cmds := putAt x.cmds x.head failed })
      (SysRing ring → 2 ^ 63 ≤ at_ → takes (s.bytes (hostKey (at_ - 2 ^ 63)) 64))
      ∧ (SysRing ring → at_ < hbmEnd → takes (s.bytes at_ 64))
      ∧ (SysRing ring → hbmEnd ≤ at_ → at_ < 2 ^ 63 → fails s)
      ∧ (¬ SysRing ring →
        (∀ space key cls leaf, s.translate (ring / 16) (BitVec.ofNat 64 at_) false = .ok space key cls leaf → s.reached space key = true →
          takes (s.bytes key 64))
        ∧ ((∀ space key cls leaf, s.translate (ring / 16) (BitVec.ofNat 64 at_) false ≠ .ok space key cls leaf) → fails s)
        ∧ ∀ space key cls leaf, s.translate (ring / 16) (BitVec.ofNat 64 at_) false = .ok space key cls leaf → s.reached space key = false →
          ∃ u, fails u ∧ u.rings = s.rings ∧ u.groups = s.groups ∧ u.mod.linkTimeouts = s.mod.linkTimeouts + 1))
    ∧ (∀ c, lookup x.cmds x.done = some c →
      (c.st = .done ∧ c.horizon ≤ s.now ∧ ∀ gid ∈ c.gids, StoresStand s gid) ∨ (c.st = .started ∧ ∃ w, c.words = some w ∧ StepTaken s w) →
      let at_ := x.cbase.toNat + x.done % 2 ^ x.log2n * 16
      let image := leBytes 8 x.done ++ leBytes 2 c.status ++ leBytes 2 0 ++ leBytes 4 c.result
      let int := ∃ w, c.words = some w ∧ opk w 0 / 2 ^ 9 % 2 = 1
      let reports := fun (t : State) (bad : Prop) => exec (.completionRecordWrite ring) s = .next t ∧ (t.ring ring).done = x.done + 1
        ∧ (t.ring ring).cmds = drop x.cmds x.done ∧ (t.ring ring).head = x.head ∧ (∀ r, r ≠ ring → t.ring r = s.ring r) ∧ t.groups = s.groups
        ∧ (int → t.mod.msix = s.mod.msix ++ [ring]) ∧ (¬ int → t.mod.msix = s.mod.msix) ∧ t.mod.cmdsDone = s.mod.cmdsDone + 1
        ∧ (x.st = 5 → (x.done + 1 = x.head → (t.ring ring).st = 6)
            ∧ (x.done + 1 ≠ x.head → (bad → (t.ring ring).st = 4) ∧ (¬ bad → (t.ring ring).st = 5))) ∧ (x.st = 6 → (t.ring ring).st = 6)
        ∧ (x.st = 1 ∨ x.st = 2 ∨ x.st = 3 ∨ x.st = 4 →
            (bad → (t.ring ring).st = 4 ∧ (t.ring ring).byHalt = false) ∧ (¬ bad → (t.ring ring).st = x.st ∧ (t.ring ring).byHalt = x.byHalt))
      (SysRing ring → at_ < hbmEnd → InOrder s at_ 16 0 → ∃ t, reports t False ∧ NowReads s t at_ image)
      ∧ (SysRing ring → 2 ^ 63 ≤ at_ → InOrder s (hostKey (at_ - 2 ^ 63)) 16 0 → ∃ t, reports t False ∧ NowReads s t (hostKey (at_ - 2 ^ 63)) image)
      ∧ (SysRing ring → hbmEnd ≤ at_ → at_ < 2 ^ 63 → ∃ t, reports t False ∧ t.mem = s.mem ∧ t.pend = s.pend)
      ∧ (¬ SysRing ring → ∀ key, Writable s (ring / 16) (BitVec.ofNat 64 at_) key → InOrder s key 16 0 →
        ∃ t, reports t False ∧ NowReads s t key image)
      ∧ (¬ SysRing ring → ∀ f, s.translate (ring / 16) (BitVec.ofNat 64 at_) true = .fault f → ∃ t, reports t True ∧ t.mem = s.mem ∧ t.pend = s.pend))

/-- R105, R90, R107, R111: the next command of a ring ends with the status of the first check that fails, and has no other effect: 2 for a
system-only command on a queue ring, 3 for a reserved field or an operand out of range, 6 on a queue that records, 1 for a context whose state
does not accept it. A step for another command of the set changes nothing. (What lies in an operand's range, DEDUCED: for CFG.LOAD and SYNC.ALL,
log 46; KERN.LOAD's OP2, log 96; that Q.CTL action 3 is answered as the pause is, log 39.) -/
def Obligations.CommandChecks : Prop :=
  ∀ i row, commandRow i = some row → ∀ s seq w c,
    (NextCommand s row.ring seq w c → (opk w 0 % 2 ^ 8 ≠ row.opc ∨ ¬ row.part w) → (row.opc = 0x13 → s.replays row.ring = []) → exec i s = .next s)
    ∧ (row.Here s seq w c →
      (row.sys = true → ¬ SysRing row.ring → exec i s = .next (s.ends row.ring seq c 2 0))
      ∧ ((row.sys = true → SysRing row.ring) →
        (¬ row.Fits s w → exec i s = .next (s.ends row.ring seq c 3 0))
        ∧ (row.Fits s w →
          ((s.ring row.ring).recording.isSome → row.recorded = false → exec i s = .next (s.ends row.ring seq c 6 0))
          ∧ ((s.ring row.ring).recording = none → row.ctx = true → (s.ctx (row.target w)).st ∉ row.states →
            exec i s = .next (s.ends row.ring seq c 1 0)))))

/-- R102, R106: Q.CREATE makes a Created queue in an unused or Destroyed slot; Q.CTL moves a queue as R102 gives; elsewhere status 1 and no change.
R382, R186, R191, R184: MAP writes the run of leaves, FRAME advanced, when every check passes; UNMAP writes its leaves as zero, lowers the count of
counted ones, and ends once nothing uses their frames; a failed check gives status 3 or 8 and no effect. POOL.CREATE takes its frames, one from each
die in turn. (The model's readings: an image with V = 0 is no leaf and UNMAP's run is checked leaf by leaf before any write, DEDUCED, log 27; what
step 4 of R382 says of a leaf below a table entry, and 8 before 3, DEDUCED, log 66; that a list of free frames is taken from its head, DESIGN
CHOICE, log 6.) Completes: qCreate, qCtlPause, qCtlResume, qCtlDestroy, map, unmap, poolCreate. -/
def Obligations.QueueMappingAndPoolCommands : Prop :=
  (∀ s seq w c,
    (∀ r row, commandRow (.qCreate r) = some row → row.Accepted s seq w c →
      let q := row.target w * 16 + opk w 2 % 16
      ((s.ring q).st ≠ 0 → (s.ring q).st ≠ 6 → exec (.qCreate r) s = .next (s.ends r seq c 1 0))
      ∧ ((s.ring q).st = 0 ∨ (s.ring q).st = 6 → ∃ t, exec (.qCreate r) s = .next t ∧ { t with rings := s.rings } = s
        ∧ t.ring r = (s.ends r seq c 0 0).ring r ∧ (∀ j, j ≠ r → j ≠ q → t.ring j = s.ring j)
        ∧ t.ring q = { tail := 0, head := 0, done := 0, st := 1, terr := false, rbase := BitVec.ofNat 64 (opk w 1), cbase := BitVec.ofNat 64 (opk w 3)
                       log2n := opk w 2 / 2 ^ 16 % 32, prio := opk w 2 / 2 ^ 8 % 8, recording := none, byHalt := false, cmds := [] }))
    ∧ ∀ r i row, commandRow i = some row → row.ring = r → row.Accepted s seq w c →
      let x := row.target w
      let q := x * 16 + opk w 1 % 16
      let n := (s.ring q).st
      let moves := fun (y : Ring) => ∃ t, exec i s = .next t ∧ { t with rings := s.rings } = s ∧ t.ring r = (s.ends r seq c 0 0).ring r
        ∧ (∀ j, j ≠ r → j ≠ q → t.ring j = s.ring j) ∧ t.ring q = y
      (i = .qCtlPause r → (n = 1 ∨ n = 2 → moves { s.ring q with st := 3, byHalt := false })
        ∧ (n ≠ 1 → n ≠ 2 → exec i s = .next (s.ends r seq c 1 0)))
      ∧ (i = .qCtlResume r → ((n = 3 ∨ n = 4) → (s.ctx x).st = 1 ∨ (s.ctx x).st = 2 → moves { s.ring q with st := 2, byHalt := false })
        ∧ (¬ ((n = 3 ∨ n = 4) ∧ ((s.ctx x).st = 1 ∨ (s.ctx x).st = 2)) → exec i s = .next (s.ends r seq c 1 0)))
      ∧ (i = .qCtlDestroy r → (1 ≤ n → n ≤ 4 → moves { s.ring q with st := if (s.ring q).done = (s.ring q).head then 6 else 5 })
        ∧ (n = 0 ∨ 4 < n → exec i s = .next (s.ends r seq c 1 0))))
  ∧ (∀ s seq w c,
    (∀ r row, commandRow (.map r) = some row → row.Accepted s seq w c →
      let x := row.target w
      let n := opk w 3
      (∀ shift keys, MapGood s x (opk w 1) (opk w 2) n shift keys → (∀ k ∈ keys, LeafOpen s k ∧ k % 8 = 0 ∧ InOrder s k 8 0) → keys.Nodup →
        ∃ t, exec (.map r) s = .next t ∧ CommandEnds s t r seq c .done 0 0 ∧ t.ctxs = s.ctxs ∧ t.frames = s.frames ∧ t.groups = s.groups
          ∧ (∀ i k, keys[i]? = some k → t.latest8 k = BitVec.ofNat 64 (opk w 2 + i * 2 ^ shift))
          ∧ ∀ q, (∀ k ∈ keys, q < k ∨ k + 8 ≤ q) → t.latest q = s.latest q)
      ∧ ((¬ ∃ shift keys, MapGood s x (opk w 1) (opk w 2) n shift keys) →
        exec (.map r) s = .next (s.ends r seq c 3 0) ∨ exec (.map r) s = .next (s.ends r seq c 8 0)))
    ∧ (∀ r row, commandRow (.unmap r) = some row → row.Accepted s seq w c →
      let x := row.target w
      let n := opk w 2
      let good := fun (l : List (Nat × Quad × Nat)) => l.length = n ∧ opk w 1 + n * 65536 ≤ 2 ^ 52 ∧ UnmapRun s x (opk w 1) l
      (∀ l, good l → (∀ y ∈ l, LeafOpen s y.1 ∧ y.1 % 8 = 0 ∧ InOrder s y.1 8 0) → (l.map (·.1)).Nodup → (s.frames.map (·.1)).Nodup →
        let idle := ∀ f u, (f, u) ∈ s.frames → u.users ≠ 0 → ∀ y ∈ l, fld y.2.1 9 8 = 0 →
          f < frameOf y.2.1 ∨ frameOf y.2.1 + 2 ^ (y.2.2 - 16) ≤ f
        ∃ t, exec (.unmap r) s = .next t ∧ t.ctxs = s.ctxs ∧ t.groups = s.groups ∧ (∀ y ∈ l, t.latest8 y.1 = 0)
          ∧ (∀ q, (∀ y ∈ l, q < y.1 ∨ y.1 + 8 ≤ q) → t.latest q = s.latest q)
          ∧ (∀ f, (t.frame f).count = (s.frame f).count - l.countP fun y => countedEntry y.2.1 && frameOf y.2.1 == f)
          ∧ (idle → CommandEnds s t r seq c .done 0 0)
          ∧ (¬ idle → ∃ c', lookup (t.ring r).cmds seq = some c' ∧ c'.st = .started))
      ∧ ((¬ ∃ l, good l) → exec (.unmap r) s = .next (s.ends r seq c 3 0) ∨ exec (.unmap r) s = .next (s.ends r seq c 8 0)))
    ∧ ∀ r row, commandRow (.poolCreate r) = some row → row.Accepted s seq w c →
      let id := opk w 1
      let n := opk w 2
      let free := (s.dieFree.map fun x => (x.2.map (·.2)).sum).sum
      ((lookup s.pools id).isSome → exec (.poolCreate r) s = .next (s.ends r seq c 1 0))
      ∧ (lookup s.pools id = none → free < n → exec (.poolCreate r) s = .next (s.ends r seq c 4 0))
      ∧ (lookup s.pools id = none → n ≤ free → Table.wf [] s.dieFree = true → (∀ x ∈ s.dieFree, x.1 < 24) → ∃ t l, exec (.poolCreate r) s = .next t
        ∧ CommandEnds s t r seq c .done 0 0 ∧ t.mem = s.mem ∧ l.length = n
        ∧ lookup t.pools id = some { free := l, total := n, reserve := opk w 3 } ∧ (∀ j, j ≠ id → lookup t.pools j = lookup s.pools j)
        ∧ (∀ f, t.frame f = if f ∈ l then { s.frame f with pool := some id } else s.frame f)
        ∧ (∀ f ∈ l, ∃ d sp, sp ∈ readAt [] s.dieFree d ∧ sp.1 ≤ f ∧ f < sp.1 + sp.2)
        ∧ ∀ h : Nat → Nat, (∀ d, d < 24 → ∃ m rest, readAt [] s.dieFree d = (h d, m + 1) :: rest) → ∀ i, i < n → i < 24 → l[i]? = some (h i)))

/-! ### Contexts -/

/-- R90, R91, R102: CTX.CREATE gives a Free context the registers of Table 5-1. CTX.DESTROY makes a context Destroying, aborts its fetched commands
with status 7 and ends its groups, at once or, in an Active one, when they have halted; with a halt in progress it joins the halt. PREEMPT begins
the halt. RESUME makes a Halted or Faulted context Active and its groups what they were. R90, R91, R155, R157, R281: when every halting group of a
context has come to rest the halt ends: its passes are saved with cause 4 and the context is Halted, Faulted after a fault record, or Destroying;
its PREEMPTs end with status 0. R383, R104: a Destroying context with nothing on its way is Free again, and its CTX.DESTROY ends, its record behind
the entries that the release wrote. (The model's readings, DEDUCED: that a sharded draw's winner still reaches the threads that wait in their pass,
log 17; which commands a CTX.DESTROY aborts and that a halt in progress is joined, log 40; that a RESUME which cannot act yet stays the next
command of its ring, log 41.) Completes: ctxCreate, ctxDestroy, preempt, resume, haltComplete, pageTableRelease. -/
def Obligations.ContextCommands : Prop :=
  (∀ s seq w c,
    (∀ r row, commandRow (.ctxCreate r) = some row → row.Accepted s seq w c →
      exec (.ctxCreate r) s = .next ((s.ends r seq c 0 0).putCtx (row.target w) { Context.free with st := 1, sys := decide (opk w 1 % 2 = 1) }))
    ∧ (∀ r row, commandRow (.ctxDestroy r) = some row → row.Accepted s seq w c →
      let x := row.target w
      let aborted := fun (j : Nat) (m : Cmd) => m.st ≠ .done ∧ ∃ v, m.words = some v ∧ ¬ (opk v 0 % 2 ^ 8 = 0x02 ∧ m.st = .started)
        ∧ if 1024 ≤ j ∧ j < 1028 then opk v 0 / 2 ^ 32 % 64 = x ∧ opk v 0 % 2 ^ 8 ∉ [0x08, 0x22, 0x3F] else j / 16 = x
      (∀ h, (s.ctx x).halt = some h → (s.ctx x).st ≠ 4 →
        exec (.ctxDestroy r) s = .next ((s.starts_ r seq c).putCtx x { s.ctx x with halt := some { h with destroy := true } }))
      ∧ ((s.ctx x).halt = none ∨ (s.ctx x).st = 4 → (s.rings.map (·.1)).Nodup → (∀ j y, (j, y) ∈ s.rings → (y.cmds.map (·.1)).Nodup) → ∃ t, exec (.ctxDestroy r) s = .next t
        ∧ (t.ctx x).st = 5 ∧ (∀ k, k ≠ x → t.ctx k = s.ctx k) ∧ t.mem = s.mem ∧ t.pend = s.pend
        ∧ (∃ c', lookup (t.ring r).cmds seq = some c' ∧ c'.st = .started ∧ c'.words = c.words)
        ∧ (∀ j k m, lookup (s.ring j).cmds k = some m → ∃ h l, m.horizon ≤ h ∧ (∀ y ∈ m.gids, y ∈ l)
          ∧ (aborted j m → (j, k) ≠ (r, seq) → lookup (t.ring j).cmds k = some { m with st := .done, status := 7, result := 0, horizon := h, gids := l })
          ∧ (¬ aborted j m → (j, k) ≠ (r, seq) → lookup (t.ring j).cmds k = some { m with horizon := h, gids := l }))
        ∧ (∀ j, j < 1024 → j / 16 = x → 1 ≤ (s.ring j).st → (s.ring j).st ≤ 4 →
          (t.ring j).st = if (s.ring j).done = (s.ring j).head then 6 else 5)
        ∧ (∀ k l, (k, l) ∈ t.launches ↔ (k, l) ∈ s.launches ∧ l.ctx ≠ x)
        ∧ (∀ k g, lookup s.groups k = some g → g.ctx ≠ x → lookup t.groups k = some g)
        ∧ ((s.ctx x).st = 2 → (t.ctx x).halt = some { since := s.now, destroy := true, byHalt := false, faulted := false }
          ∧ ∀ k g, lookup s.groups k = some g → g.ctx = x → lookup t.groups k = some g.startHalt)
        ∧ (∀ h, (s.ctx x).halt = some h → (t.ctx x).halt = some { h with destroy := true } ∧ t.groups = s.groups)
        ∧ ((s.ctx x).st ≠ 2 → (s.ctx x).halt = none → (t.ctx x).halt = none
          ∧ ∀ k g, lookup s.groups k = some g → g.ctx = x → ∃ g', lookup t.groups k = some g' ∧ g'.st = .ended ∧ g'.threads = [] ∧ g'.passes = [])))
    ∧ (∀ r row, commandRow (.preempt r) = some row → row.Accepted s seq w c →
      let x := row.target w
      (∀ h, (s.ctx x).halt = some h → exec (.preempt r) s = .next ((s.starts_ r seq c).putCtx x (s.ctx x)))
      ∧ ((s.ctx x).halt = none → (s.rings.map (·.1)).Nodup → ∃ t, exec (.preempt r) s = .next t
        ∧ t.ctx x = { s.ctx x with halt := some { since := s.now, destroy := false, byHalt := false, faulted := false } }
        ∧ (∀ k, k ≠ x → t.ctx k = s.ctx k) ∧ t.mem = s.mem ∧ t.pend = s.pend ∧ t.engines = s.engines
        ∧ lookup (t.ring r).cmds seq = some { c with st := .started }
        ∧ (∀ k g, lookup s.groups k = some g → lookup t.groups k = some (if g.ctx = x then g.startHalt else g))
        ∧ ∀ j, j < 1024 → t.ring j = if j / 16 = x ∧ (s.ring j).st = 2 then { s.ring j with st := 3, byHalt := true } else s.ring j))
    ∧ ∀ r row, commandRow (.resume r) = some row → row.Accepted s seq w c →
      let x := row.target w
      let sets := fun (cl : Nat) => ((s.groups.filter fun (_, g) => g.ctx == x && g.st == .saved && g.grant && g.core / 8 == cl).map fun (_, g) => g.nthr).sum
      let chunksEnded := ∀ k m, (k, m) ∈ s.chunks → m.detached = true → ∀ e g, lookup s.engines m.cmd = some e → lookup s.groups e.gid = some g → g.ctx ≠ x
      ((s.ctx x).halt.isSome → exec (.resume r) s = .next (s.ends r seq c 1 0))
      ∧ ((s.ctx x).halt = none → ¬ (chunksEnded ∧ ∀ cl y, (cl, y) ∈ s.clusters → sets cl ≤ y.xfree) → exec (.resume r) s = .next s)
      ∧ ((s.ctx x).halt = none → chunksEnded → (∀ cl y, (cl, y) ∈ s.clusters → sets cl ≤ y.xfree) → (s.rings.map (·.1)).Nodup →
        ∃ t, exec (.resume r) s = .next t ∧ t.ctx x = { s.ctx x with st := 2 } ∧ (∀ k, k ≠ x → t.ctx k = s.ctx k) ∧ t.mem = s.mem ∧ t.pend = s.pend
          ∧ lookup (t.ring r).cmds seq = some { c with st := .done, status := 0, result := 0 }
          ∧ (∀ k g, lookup s.groups k = some g → g.ctx ≠ x ∨ g.st ≠ .saved → lookup t.groups k = some g)
          ∧ (∀ k g, lookup s.groups k = some g → g.ctx = x → g.st = .saved → ∃ g', lookup t.groups k = some g' ∧ g'.st = g.before ∧ g'.g = g.g
            ∧ g'.bars = g.bars ∧ g'.count = g.count ∧ (∀ tid, (g'.thread tid).v = (g.thread tid).v ∧ (g'.thread tid).place = (g.thread tid).place)
            ∧ ∀ k p, lookup g.passes k = some p → lookup g'.passes k = some { p with run := if p.run = .preempted then .running else p.run })
          ∧ ∀ j, j < 1024 → t.ring j = if j / 16 = x ∧ (s.ring j).byHalt = true ∧ ((s.ring j).st = 3 ∨ (s.ring j).st = 4)
              then { s.ring j with st := 2, byHalt := false } else s.ring j))
  ∧ (∀ s x,
    (∀ h, (s.ctx x).halt = some h → (s.groups.map (·.1)).Nodup →
      let mine := fun (k : Nat) (g : Group) => (k, g) ∈ s.groups ∧ g.ctx = x ∧ g.st = .halting
      ((∃ k g, mine k g ∧ s.groupHalted k g = false) → exec (.haltComplete x) s = .next s)
      ∧ ((∀ k g, mine k g → s.groupHalted k g = true) → ∃ t, exec (.haltComplete x) s = .next t ∧ (t.ctx x).halt = none ∧ t.mem = s.mem ∧ t.pend = s.pend
        ∧ (∀ k, k ≠ x → t.ctx k = s.ctx k)
        ∧ (t.ctx x).st = (if (s.ctx x).st = 5 ∨ h.destroy = true then 5 else if h.faulted = true then 4 else 3)
        ∧ ((s.ctx x).st ≠ 5 → h.destroy = false →
          (∀ k g, mine k g → (∀ j m, (j, m) ∈ (s.coreSt g.core).race → m.gid ≠ k) → (g.passes.map (·.1)).Nodup →
            (∀ j p, (j, p) ∈ g.passes → p.cohort.Nodup ∧ ∀ tid ∈ p.cohort, (lookup g.threads tid).isSome ∧ ∀ j' p', (j', p') ∈ g.passes → tid ∈ p'.cohort → j' = j) →
            ∃ g', lookup t.groups k = some g' ∧ g'.st = .saved ∧ g'.before = g.before ∧ g'.g = g.g ∧ g'.bars = g.bars ∧ g'.count = g.count
              ∧ (∀ j p, lookup g.passes j = some p → lookup g'.passes j = some { p with
                  hold := match p.hold with
                    | .draw slot index d tids next stall => .draw slot index d tids next stall
                    | _ => .none
                  run := if p.run = .running then .preempted else p.run }
                ∧ ∀ tid ∈ p.cohort, (g'.thread tid).v = (g.thread tid).v
                  ∧ (g'.thread tid).res = if (g.thread tid).res.cause = 5 then (g.thread tid).res else { blk := p.blk, off := min p.off 0xFFF, cause := 4 }))
          ∧ ((s.ctx x).st = 4 → h.faulted = true → ∀ j, j < 1024 → t.ring j = s.ring j)
          ∧ (h.faulted = false → t.mod.msix = if h.byHalt then s.mod.msix ++ [1024] else s.mod.msix)
          ∧ ∀ r k m v, SysRing r → (r, s.ring r) ∈ s.rings → lookup (s.ring r).cmds k = some m → m.words = some v → m.st = .started →
              opk v 0 / 2 ^ 32 % 64 = x → opk v 0 % 2 ^ 8 = 0x20 → (s.rings.map (·.1)).Nodup →
              lookup (t.ring r).cmds k = some { m with st := .done, status := 0 })
        ∧ ((s.ctx x).st = 5 ∨ h.destroy = true → ∀ k g, lookup s.groups k = some g → g.ctx = x → ∃ g', lookup t.groups k = some g' ∧ g'.st = .ended
            ∧ g'.passes = [])))
    ∧ ((s.ctx x).st = 5 → (s.ctx x).halt = none → (∀ k g, (k, g) ∈ s.groups → g.ctx = x → g.st = .ended) →
      (∀ k m, (k, m) ∈ s.chunks → ∀ e g, lookup s.engines m.cmd = some e → lookup s.groups e.gid = some g → g.ctx ≠ x) →
      (∀ k m, (k, m) ∈ s.cows → m.ctx ≠ x) → ∃ t, exec (.pageTableRelease x) s = .next t
        ∧ t.ctx x = Context.free ∧ (∀ k, k ≠ x → t.ctx k = s.ctx k) ∧ (∀ k g, (k, g) ∈ t.groups ↔ (k, g) ∈ s.groups ∧ g.ctx ≠ x)
        ∧ (∀ k m, (k, m) ∈ t.teams ↔ (k, m) ∈ s.teams ∧ m.ctx ≠ x)
        ∧ ((∀ i, i < 512 → (s.latest8 (fld (s.ctx x).ptroot 51 12 * 2 ^ 12 + 8 * i)).getLsbD 0 = false) → t.mem = s.mem ∧ t.pend = s.pend ∧ t.frames = s.frames)
        ∧ ∀ r k m v, SysRing r → (r, s.ring r) ∈ s.rings → lookup (s.ring r).cmds k = some m → m.words = some v → m.st = .started →
            opk v 0 / 2 ^ 32 % 64 = x → opk v 0 % 2 ^ 8 = 0x02 → (s.rings.map (·.1)).Nodup →
            ∃ h, lookup (t.ring r).cmds k = some { m with st := .done, status := 0, horizon := h } ∧ m.horizon ≤ h ∧ Covers h t))

/-- R106, R158, R159: DBG.STOP stops the running groups it names and sets debug mode; DBG.STEP lets the stopped pass, else the oldest held one, else
one the weir starts, run one word; DBG.STEPPASS lets the stopped pass run to its end; DBG.STEPBIN names the bin of the next pass; DBG.CONT lets
stopped groups run. A group in any other state has status 1. (That a DBG.STEP waits while no pass can take its step or a stopped pass still finishes
what it began, ends with 0 where there is nothing to run, and that DBG.STEPPASS needs a stopped pass: DEDUCED, log 42; that DBG.STEPBIN looks at the
kernel's own bins only: DESIGN CHOICE, log 86.) Completes: dbgStop, dbgStep, dbgSteppass, dbgStepbin, dbgCont. -/
def Obligations.DebugCommands : Prop :=
  ∀ s seq w c i row r, commandRow i = some row → row.ring = r → row.Accepted s seq w c → (s.groups.map (·.1)).Nodup →
    let x := row.target w
    let n := opk w 1
    let all := n = 0xFFFFFFFF
    let named := fun (k : Nat) (g : Group) => lookup s.groups k = some g ∧ g.ctx = x ∧ g.st ≠ .ended ∧ (all ∨ g.grpid = n)
    let one := fun (k : Nat) (g : Group) => named k g ∧ g.grpid = n ∧ ∀ j h, named j h → h.grpid = n → j = k
    let oldest := fun (g : Group) (f : PassRun → Prop) (pid : Nat) (p : Pass) => ∃ pre post, g.passes = pre ++ (pid, p) :: post ∧ p.ended = false
      ∧ p.cohort ≠ [] ∧ f p.run ∧ ∀ y ∈ pre, y.2.ended = true ∨ y.2.cohort = [] ∨ ¬ f y.2.run
    let none_ := fun (g : Group) (f : PassRun → Prop) => ∀ y ∈ g.passes, y.2.ended = true ∨ y.2.cohort = [] ∨ ¬ f y.2.run
    let stoppedAt := fun (g g' : Group) (pid : Nat) => g'.st = .stopped ∧ g'.threads = g.threads
      ∧ ∀ k p, lookup g.passes k = some p → lookup g'.passes k = some { p with
          run := if k = pid then .stopped else if p.run = .running then .held else p.run }
    (i = .dbgStop r →
      ((∀ k g, ¬ named k g) → ¬ all → exec i s = .next (s.ends r seq c 1 0))
      ∧ ((∃ k g, named k g) ∨ all → ∃ t, exec i s = .next t ∧ { t with rings := s.rings, ctxs := s.ctxs, groups := s.groups } = s
        ∧ t.ring r = (s.ends r seq c 0 0).ring r ∧ t.ctx x = { s.ctx x with debug := true } ∧ (∀ k, k ≠ x → t.ctx k = s.ctx k)
        ∧ (∀ k g, lookup s.groups k = some g → ¬ (named k g ∧ g.st = .running) → lookup t.groups k = some g)
        ∧ ∀ k g, named k g → g.st = .running → ∃ g', lookup t.groups k = some g' ∧ g'.st = .stopped
          ∧ (∀ pid p, oldest g (fun _ => True) pid p → stoppedAt g g' pid) ∧ (none_ g (fun _ => True) → g' = { g with st := .stopped })))
    ∧ (i = .dbgStep r ∨ i = .dbgSteppass r ∨ i = .dbgStepbin r →
      ((∀ k g, named k g → g.grpid ≠ n) → exec i s = .next (s.ends r seq c 1 0))
      ∧ ∀ k g, one k g → (g.st ≠ .stopped → exec i s = .next (s.ends r seq c 1 0))
        ∧ (g.st = .stopped →
          let went := fun (g' : Group) => exec i s = .next ((s.starts_ r seq c).putGroup k g')
          let settles := ∃ y ∈ g.passes, y.2.run = .stopped ∧ (y.2.hold.finishes = true ∨ y.2.ended = true ∨ y.2.cohort = [])
          (i = .dbgSteppass r → ((∃ y ∈ g.passes, y.2.run = .stopped) → went { g with stepAll := true })
            ∧ ((∀ y ∈ g.passes, y.2.run ≠ .stopped) → exec i s = .next (s.ends r seq c 1 0)))
          ∧ (settles → i = .dbgStep r → exec i s = .next s)
          ∧ (∀ pid p, oldest g (· = .stopped) pid p → ¬ settles → i = .dbgStep r → went { g with stepOne := true })
          ∧ (none_ g (· = .stopped) → ¬ settles →
            (∀ pid p, oldest g (· = .held) pid p → i = .dbgStep r → ∃ g', went g' ∧ g'.stepOne = true ∧ stoppedAt g g' pid)
            ∧ (none_ g (· = .held) → g.passes ≠ [] → i = .dbgStep r → exec i s = .next s)
            ∧ (g.passes = [] → g.stepBin.isSome ∨ (s.select g).isSome → i = .dbgStep r → went { g with stepNew := true })
            ∧ (g.passes = [] → g.stepBin = none → s.select g = none → i = .dbgStep r → exec i s = .next (s.ends r seq c 0 0)))
          ∧ (i = .dbgStepbin r →
            let bin := (opk w 2 % 2 ^ 12, opk w 2 / 2 ^ 12 % 2 ^ 12)
            (g.passes ≠ [] ∨ g.readyThreads false bin = [] → exec i s = .next (s.ends r seq c 3 0))
            ∧ (g.passes = [] → g.readyThreads false bin ≠ [] → exec i s = .next ((s.ends r seq c 0 0).putGroup k { g with stepBin := some bin })))))
    ∧ (i = .dbgCont r →
      ((∀ k g, named k g → g.st ≠ .stopped) → ¬ all → exec i s = .next (s.ends r seq c 1 0))
      ∧ ((∃ k g, named k g ∧ g.st = .stopped) ∨ all → ∃ t, exec i s = .next t ∧ { t with rings := s.rings, ctxs := s.ctxs, groups := s.groups } = s
        ∧ t.ring r = (s.ends r seq c 0 0).ring r ∧ (t.ctx x).debug = (if n = 0xFFFFFFFF then false else (s.ctx x).debug)
        ∧ (∀ k g, lookup s.groups k = some g → ¬ (named k g ∧ g.st = .stopped) → lookup t.groups k = some g)
        ∧ ∀ k g, named k g → g.st = .stopped → ∃ g', lookup t.groups k = some g' ∧ g'.threads = g.threads ∧ g'.stepBin = none
          ∧ g'.st = (if g.live = 0 then .draining else .running)
          ∧ ∀ j p, lookup g.passes j = some p → lookup g'.passes j = some { p with
              run := if p.run = .stopped ∨ p.run = .held then .running else p.run }))

/-! ### Kernels, launches and graphs -/

/-- R115 to R117: KERN.LOAD accepts an image exactly when it has the header of Table 7-1 and descriptors of Table 7-2 with every field in its range,
its block table in order; its kernels are those the descriptors give. Any other is refused. R98, R117: KERN.LOAD puts an accepted image into a free
slot, its result, and extends the kernel measurement; KERN.UNLOAD frees a slot that nothing uses. R120, R121: LAUNCH of a kernel that fits queues
its teams and makes the context Active; else status 3. (The model's readings, DEDUCED: what uses a slot and when a LAUNCH finds no kernel, logs 35
and 44; that a bad header answers before a later byte is translated, and which alignments are checked, log 43; that NKERN, TEXTLEN, BTCOUNT and descriptors
beyond LENGTH are checked too, log 95.) Completes: kernLoad, kernUnload,
launch. -/
def Obligations.ImagesKernelsAndLaunches : Prop :=
  (∀ image len ks, parseImage image len = some ks ↔
    let word := fun (off n : Nat) => leNat ((image.drop off).take n)
    word 0 4 = 0x314B4847 ∧ word 4 4 = 1 ∧ ks.length = word 8 4 ∧ 1 ≤ word 8 4 ∧ word 8 4 ≤ 256 ∧ word 12 4 = len ∧ 64 + 64 * ks.length ≤ len
    ∧ (∀ i, 16 ≤ i → i < 64 → word i 1 = 0)
    ∧ ∀ i k, ks[i]? = some k →
      let f := fun (off n : Nat) => word (64 + 64 * i + off) n
      let entry := fun (id : Nat) => word (f 8 4 + 4 * id) 4
      k.text = (image.drop (f 0 4)).take (f 4 4) ∧ k.blocks.length = f 12 2 ∧ k.entry = f 14 2 ∧ k.dataOff = f 16 4 ∧ k.dataLen = f 20 4
      ∧ k.threads = f 24 2 ∧ k.team = f 26 1 ∧ k.regs = f 27 1 ∧ k.xregs = f 28 1 ∧ k.barriers = f 29 1 ∧ k.scratch = f 30 4 ∧ k.acc = f 34 1
      ∧ (k.schk = true ↔ f 35 1 % 2 = 1) ∧ (k.handler = true ↔ f 35 1 / 2 % 2 = 1) ∧ f 35 1 < 4 ∧ (∀ j, 36 ≤ j → j < 64 → f j 1 = 0)
      ∧ f 0 4 % 4 = 0 ∧ f 4 4 % 2 = 0 ∧ 8 ≤ f 4 4 ∧ f 0 4 + f 4 4 ≤ len ∧ f 8 4 % 4 = 0 ∧ 1 ≤ f 12 2 ∧ f 12 2 ≤ 4096 ∧ f 8 4 + 4 * f 12 2 ≤ len
      ∧ f 16 4 + f 20 4 ≤ len ∧ (k.handler = true → k.threads = 0) ∧ (k.handler = false → 4 ≤ k.threads ∧ k.threads ≤ 512 ∧ k.threads % 4 = 0)
      ∧ 1 ≤ k.team ∧ k.team ≤ 32 ∧ k.regs % 2 = 0 ∧ 2 ≤ k.regs ∧ k.regs ≤ 64 ∧ (k.xregs = 0 ∨ k.xregs = 64) ∧ k.barriers ≤ 64
      ∧ k.scratch ≤ 33554432 ∧ k.scratch % 16 = 0 ∧ k.acc ≤ 16 ∧ (k.block k.entry).isSome
      ∧ (∀ id, id < f 12 2 → k.block id = if entry id = 0xFFFFFFFF then none else some (entry id))
      ∧ (∀ id o, k.block id = some o → o % 4 = 0 ∧ o < k.text.length ∧ ∃ h, k.header id = some h ∧ h.head? = some id)
      ∧ ∀ a b x y, a < b → k.block a = some x → k.block b = some y → x < y)
  ∧ (∀ s seq w c,
    (∀ r row, commandRow (.kernLoad r) = some row → row.Accepted s seq w c →
      let x := row.target w
      let len := opk w 2
      let head := s.readMany x (opk w 1) 64
      let all := head.1.readMany x (opk w 1) len
      (head.2 = none → exec (.kernLoad r) s = .next (head.1.ends r seq c 8 0))
      ∧ (∀ u va n, { (State.readMany u x va n).1 with mem := u.mem, pend := u.pend, tlast := u.tlast, mod := u.mod, ports := u.ports } = u)
      ∧ (∀ space key cls leaf n, s.translate x (BitVec.ofNat 64 (opk w 1)) false = .ok space key cls leaf → s.reached space key = true →
        opk w 1 % 65536 + n ≤ 65536 → 0 < n → (s.readMany x (opk w 1) n).2 = some (s.bytes key n))
      ∧ (∀ h, head.2 = some h → headerGood (leNat h) len = false → exec (.kernLoad r) s = .next (head.1.ends r seq c 3 0))
      ∧ (∀ h, head.2 = some h → headerGood (leNat h) len = true → all.2 = none → exec (.kernLoad r) s = .next (all.1.ends r seq c 8 0))
      ∧ ∀ h image, head.2 = some h → headerGood (leNat h) len = true → all.2 = some image →
        (parseImage image len = none → exec (.kernLoad r) s = .next (all.1.ends r seq c 3 0))
        ∧ ∀ ks, parseImage image len = some ks →
          ((∀ j, j < 256 → (lookup (s.ctx x).images j).isSome) → exec (.kernLoad r) s = .next (all.1.ends r seq c 4 0))
          ∧ ((∃ j, j < 256 ∧ lookup (s.ctx x).images j = none) → ∃ t slot, exec (.kernLoad r) s = .next t ∧ CommandEnds s t r seq c .done 0 slot
            ∧ slot < 256 ∧ lookup (s.ctx x).images slot = none ∧ (∀ k, k ≠ x → t.ctx k = s.ctx k)
            ∧ t.ctx x = { s.ctx x with
                images := putAt (s.ctx x).images slot { base := BitVec.ofNat 64 (opk w 1), kernels := ks }
                kernM := sha3 ((s.ctx x).kernM ++ sha3 image), kcount := ((s.ctx x).kcount + 1) % 2 ^ 32 }))
    ∧ (∀ r row, commandRow (.kernUnload r) = some row → row.Accepted s seq w c →
      let x := row.target w
      let slot := opk w 1
      let used := (∃ k g, (k, g) ∈ s.groups ∧ g.ctx = x ∧ g.slot = slot ∧ g.st ≠ .ended)
        ∨ (∃ k m, (k, m) ∈ s.teams ∧ m.ctx = x ∧ ((∃ j y, (j, y) ∈ m.recs ∧ y.slot = slot) ∨ ∃ j y, (j, y) ∈ m.bufs ∧ y.slot = slot))
        ∨ ∃ k g i v, (k, g) ∈ (s.ctx x).graphs ∧ i < g.count ∧ (s.recorded x g i).2 = some v ∧ opk v 1 % 2 ^ 8 = slot
      (lookup (s.ctx x).images slot = none → exec (.kernUnload r) s = .next (s.ends r seq c 3 0))
      ∧ ((lookup (s.ctx x).images slot).isSome → used → exec (.kernUnload r) s = .next (s.ends r seq c 1 0))
      ∧ ((lookup (s.ctx x).images slot).isSome → ¬ used →
        exec (.kernUnload r) s = .next ((s.ends r seq c 0 0).putCtx x { s.ctx x with images := drop (s.ctx x).images slot })))
    ∧ ∀ r row, commandRow (.launch r) = some row → row.Accepted s seq w c →
      let x := row.target w
      let slot := opk w 1 % 2 ^ 8
      let kern := opk w 1 / 2 ^ 16 % 2 ^ 16
      let fits := fun (k : Kernel) => k.handler = false ∧ k.scratch ≤ 33030144 ∧ (k.team + 7) / 8 * k.threads ≤ 2048
        ∧ (k.team + 7) / 8 * k.threads * k.regs ≤ 131072 ∧ (k.team + 7) / 8 * k.acc ≤ 16 ∧ (k.team + 7) / 8 * k.barriers ≤ 64
      ((¬ ∃ im k, lookup (s.ctx x).images slot = some im ∧ im.kernels[kern]? = some k ∧ fits k) → exec (.launch r) s = .next (s.ends r seq c 3 0))
      ∧ ∀ im k, lookup (s.ctx x).images slot = some im → im.kernels[kern]? = some k → fits k → ∃ t, exec (.launch r) s = .next t
        ∧ { t with rings := s.rings, ctxs := s.ctxs, launches := s.launches, stamp := s.stamp } = s ∧ t.ring r = (s.starts_ r seq c).ring r
        ∧ t.ctx x = { s.ctx x with st := 2 } ∧ (∀ j, j ≠ x → t.ctx j = s.ctx j) ∧ (∀ j, j ≠ s.stamp → lookup t.launches j = lookup s.launches j)
        ∧ lookup t.launches s.stamp = some {
            ring := r, seq := seq, ctx := x, prio := if 1024 ≤ r ∧ r < 1028 then 7 else (s.ring r).prio, slot := slot, kern := kern, teams := opk w 2, next := 0
            live := 0, args := BitVec.ofNat 64 (opk w 3)
            data := if opk w 4 = 0 then im.base + BitVec.ofNat 64 k.dataOff else BitVec.ofNat 64 (opk w 4) })

/-- R110 to R112: GRAPH.RECORD opens a graph on its queue; a LAUNCH there is copied into the buffer, at most 256 of them; GRAPH.END closes it with
the count as its result. GRAPH.REPLAY reads the parameter block once and issues the recorded LAUNCHes in order with their substitutions; one that
fails ends it, with a fault record and the queue Faulted. GPARAM.SET writes one parameter. (The model's readings, DEDUCED: what is checked when a
LAUNCH is recorded and what when it is replayed, log 45; that a buffer at a peer without a route is like one that does not translate, log 80. Its
choices, DESIGN CHOICE: status 8 where a recorded LAUNCH cannot be written, log 91, or the parameter block not be read, log 92; KERN and RESUME of
the fault record, log 93; that a graph recorded anew fails its replay, log 94.) Completes: launch, graphRecord, graphEnd, graphReplay, gparamSet. -/
def Obligations.GraphCommands : Prop :=
  ∀ s seq w c,
    (∀ r row, commandRow (.graphRecord r) = some row → row.Accepted s seq w c →
      let x := row.target w
      ((∃ g, lookup (s.ctx x).graphs (opk w 1) = some g ∧ g.recording = true) → exec (.graphRecord r) s = .next (s.ends r seq c 1 0))
      ∧ ((∀ g, lookup (s.ctx x).graphs (opk w 1) = some g → g.recording = false) → ∃ t, exec (.graphRecord r) s = .next t
        ∧ { t with rings := s.rings, ctxs := s.ctxs } = s ∧ t.ring r = { (s.ends r seq c 0 0).ring r with recording := some (x * 64 + opk w 1) }
        ∧ (∀ j, j ≠ r → t.ring j = s.ring j) ∧ (∀ j, j ≠ x → t.ctx j = s.ctx j)
        ∧ t.ctx x = { s.ctx x with graphs := putAt (s.ctx x).graphs (opk w 1) { buf := BitVec.ofNat 64 (opk w 2), count := 0, recording := true } }))
    ∧ (∀ r row n g, commandRow (.launch r) = some row → row.Here s seq w c → row.Fits s w → (s.ring r).recording = some n →
      lookup (s.ctx (n / 64)).graphs (n % 64) = some g →
      let at_ := g.buf.toNat + 512 + 64 * g.count
      (256 ≤ g.count → exec (.launch r) s = .next (s.ends r seq c 6 0))
      ∧ (g.count < 256 → (∀ f, s.translate (n / 64) (BitVec.ofNat 64 at_) true = .fault f → exec (.launch r) s = .next (s.ends r seq c 8 0))
        ∧ ∀ key, Writable s (n / 64) (BitVec.ofNat 64 at_) key → InOrder s key 64 0 → ∃ t, exec (.launch r) s = .next t
          ∧ CommandEnds s t r seq c .done 0 0 ∧ NowReads s t key ((List.range 8).flatMap fun i => leBytes 8 (opk w i))
          ∧ t.ctx (n / 64) = { s.ctx (n / 64) with graphs := putAt (s.ctx (n / 64)).graphs (n % 64) { g with count := g.count + 1 } }))
    ∧ (∀ r row, commandRow (.graphEnd r) = some row →
      (row.Accepted s seq w c → exec (.graphEnd r) s = .next (s.ends r seq c 1 0))
      ∧ ∀ n g, row.Here s seq w c → row.Fits s w → (s.ring r).recording = some n → lookup (s.ctx (n / 64)).graphs (n % 64) = some g →
        ∃ t, exec (.graphEnd r) s = .next t ∧ { t with rings := s.rings, ctxs := s.ctxs } = s
          ∧ t.ring r = { (s.ends r seq c 0 g.count).ring r with recording := none } ∧ (∀ j, j ≠ r → t.ring j = s.ring j)
          ∧ t.ctx (n / 64) = { s.ctx (n / 64) with graphs := putAt (s.ctx (n / 64)).graphs (n % 64) { g with recording := false } })
    ∧ (∀ r row, commandRow (.graphReplay r) = some row → row.Accepted s seq w c →
      let x := row.target w
      ((∀ g, lookup (s.ctx x).graphs (opk w 1) = some g → g.recording = true) → exec (.graphReplay r) s = .next (s.ends r seq c 1 0))
      ∧ ∀ g, lookup (s.ctx x).graphs (opk w 1) = some g → g.recording = false →
        let block := s.readMany x g.buf.toNat 512
        let u := block.1
        ((∀ space key cls leaf, s.translate x g.buf false = .ok space key cls leaf → s.reached space key = false) → block.2 = none)
        ∧ (block.2 = none → exec (.graphReplay r) s = .next (u.ends r seq c 8 0))
        ∧ (∀ space key cls leaf, s.translate x g.buf false = .ok space key cls leaf → s.reached space key = true → g.buf.toNat % 65536 ≤ 65024 →
          block.2 = some (s.bytes key 512))
        ∧ ∀ l, block.2 = some l → ∃ t, exec (.graphReplay r) s = .next t ∧ t.ctx x = { s.ctx x with st := 2 }
          ∧ { t with rings := s.rings, ctxs := s.ctxs } = { u with rings := s.rings, ctxs := s.ctxs }
          ∧ (g.count = 0 → t.ring r = (s.ends r seq c 0 0).ring r)
          ∧ (g.count ≠ 0 → t.ring r = (s.starts_ r seq { c with result := 0, replay := some (0, g.count, (List.range 64).map fun i =>
              BitVec.ofNat 64 (leNat ((l.drop (8 * i)).take 8))) }).ring r))
    ∧ (∀ r o i n params rest g v, s.replays r = (o, i, n, params) :: rest → ((s.ring r).cmds.map (·.1)).Nodup → lookup (s.ctx o.ctx).graphs (opk o.words 1) = some g → g.recording = false →
      (s.recorded o.ctx g i).2 = some v → (opk v 0 / 2 ^ 8 % 2 = 1 ∨ ((s.ring o.ring).done = o.seq ∧ ∀ k l, (k, l) ∈ s.launches → ¬ (l.ring = o.ring ∧ l.seq = o.seq))) →
      let u := substitute params v
      (∀ im k, RecordedFits o.ring v → s.launchKernel o.ctx u = some (im, k) → operandsGood u = true → ∃ t, exec (.graphReplay r) s = .next t
        ∧ (∃ m, lookup (t.ring o.ring).cmds o.seq = some m ∧ m.replay = some (i + 1, n, params) ∧ m.st = .started) ∧ t.groups = s.groups
        ∧ t.mem = (s.recorded o.ctx g i).1.mem ∧ ∃ l, lookup t.launches s.stamp = some l ∧ l.ring = o.ring ∧ l.seq = o.seq ∧ l.ctx = o.ctx ∧ l.slot = opk u 1 % 2 ^ 8
          ∧ l.kern = opk u 1 / 2 ^ 16 % 2 ^ 16 ∧ l.teams = opk u 2 ∧ l.next = 0 ∧ l.live = 0 ∧ l.args.toNat = opk u 3)
      ∧ ((¬ RecordedFits o.ring v ∨ s.launchKernel o.ctx u = none ∨ operandsGood u = false) → (∀ k l, (k, l) ∈ s.launches → ¬ (l.ring = o.ring ∧ l.seq = o.seq)) →
        ∃ t m, exec (.graphReplay r) s = .next t ∧ lookup (t.ring o.ring).cmds o.seq = some m ∧ m.st = .done ∧ m.status = 0 ∧ m.result = i
          ∧ (¬ SysRing o.ring → (t.ring o.ring).st = 4 ∧ (t.ring o.ring).byHalt = false) ∧ Covers m.horizon t
          ∧ (t.ctx o.ctx).faultNext = ((s.ctx o.ctx).faultNext + 1) % 32 ∧ (t.ctx o.ctx).st = (s.ctx o.ctx).st ∧ t.groups = s.groups
          ∧ (RecordedFits o.ring v → (t.ctx o.ctx).lastFault = faultRecord 0x15 0 (opk u 1 / 2 ^ 16 % 2 ^ 16) 0 0 0 s.now)
          ∧ (¬ RecordedFits o.ring v → (t.ctx o.ctx).lastFault = faultRecord 0x15 0 (opk v 1 / 2 ^ 16 % 2 ^ 16) 0 0 0 s.now)))
    ∧ (∀ r o i n params rest, s.replays r = (o, i, n, params) :: rest → ((s.ring r).cmds.map (·.1)).Nodup →
      (∀ k l, (k, l) ∈ s.launches → ¬ (l.ring = o.ring ∧ l.seq = o.seq)) →
      ((∃ g, lookup (s.ctx o.ctx).graphs (opk o.words 1) = some g ∧ (g.recording = true ∨ (s.recorded o.ctx g i).2 = none)) →
        ∃ t m, exec (.graphReplay r) s = .next t ∧ lookup (t.ring o.ring).cmds o.seq = some m ∧ m.st = .done ∧ m.status = 0 ∧ m.result = i
          ∧ (¬ SysRing o.ring → (t.ring o.ring).st = 4) ∧ (t.ctx o.ctx).lastFault = faultRecord 0x15 0 0 0 0 0 s.now ∧ t.groups = s.groups))
    ∧ (∀ params v, v.length = 8 → ∀ j, j < 8 →
      let entry := fun (i : Nat) => opk v 7 / 2 ^ (16 * i) % 2 ^ 16
      ((∀ i, i < 4 → ¬ (entry i / 2 ^ 15 = 1 ∧ entry i / 2 ^ 8 % 8 = j)) → (substitute params v)[j]? = v[j]?)
      ∧ ∀ i, i < 4 → entry i / 2 ^ 15 = 1 → entry i / 2 ^ 8 % 8 = j → (∀ i', i < i' → i' < 4 → ¬ (entry i' / 2 ^ 15 = 1 ∧ entry i' / 2 ^ 8 % 8 = j)) →
          (substitute params v)[j]? = some (params.getD (entry i % 64) 0))
    ∧ ∀ r row, commandRow (.gparamSet r) = some row → row.Accepted s seq w c →
      let x := row.target w
      ((∀ g, lookup (s.ctx x).graphs (opk w 1 % 64) = some g → g.recording = true) → exec (.gparamSet r) s = .next (s.ends r seq c 1 0))
      ∧ ∀ g, lookup (s.ctx x).graphs (opk w 1 % 64) = some g → g.recording = false →
        let at_ := BitVec.ofNat 64 (g.buf.toNat + 8 * (opk w 1 / 2 ^ 8))
        (∀ f, s.translate x at_ true = .fault f → exec (.gparamSet r) s = .next (s.ends r seq c 8 0))
        ∧ ∀ key, Writable s x at_ key → InOrder s key 8 0 → ∃ t, exec (.gparamSet r) s = .next t
          ∧ CommandEnds s t r seq c .done 0 0 ∧ t.ctxs = s.ctxs ∧ NowReads s t key (leBytes 8 (opk w 2))

/-! ### Module commands -/

/-- R97, R377: CFG.LOAD applies a configuration image that passes the three checks in order, while every context is Free; the status names the first
that fails. R113: CKPT copies a range between HBM and host memory. R99: ATTEST writes the report, its signature and the public key. R114: SYNC.ALL
writes the regions of the summary, or with too small a capacity only its header, with status 4. R94: its context entries hold the last fault record.
R157, R177, R182: a checkpoint of the reserved region carries the groups saved there, their engine commands, their teams' scratchpads and the frame
entries, and its restore puts them back. (The model's readings and choices: which checks come first and what a contradicting length answers,
DEDUCED, log 46; that a checkpoint waits for pending writes and chunks, what it carries and which groups a restore finds, DEDUCED, log 47; how SYNC.ALL packs an entry, DESIGN CHOICE, log
48; all 64 bits of CKPT's OP1 are the host address, DESIGN CHOICE, log 78.) Completes: cfgLoad, ckptSave, ckptRestore, attest, syncAll. -/
def Obligations.ModuleCommands : Prop :=
  ∀ s seq w c,
    (∀ r row, commandRow (.cfgLoad r) = some row → row.Accepted s seq w c →
      let key := if 2 ^ 63 ≤ opk w 1 then hostKey (opk w 1 - 2 ^ 63) else opk w 1
      let image := s.bytes key (opk w 2)
      let word := fun (off : Nat) => leNat ((image.drop off).take 4)
      let n := word 1316
      let free := ∀ k, k < 64 → (s.ctx k).st = 0
      let whole := n % 4 = 0 ∧ n ≤ 65536 ∧ opk w 2 = 1320 + n + 2420
      let key1 := sha3 (image.take 1312) = Config.bytesOf Config.vendorKeyHash 32
      let new := Config.minVersion ≤ word 1312
      let signed := mldsaVerify (image.take 1312) (image.take (1320 + n)) ((image.drop (1320 + n)).take 2420) = true
      let at_ := fun (i dflt : Nat) => if 4 * i + 4 ≤ n then word (1320 + 4 * i) else dflt
      let ranged := 4000 ≤ at_ 0 16000 ∧ at_ 0 16000 ≤ 16000 ∧ 80 ≤ at_ 1 100 ∧ at_ 1 100 ≤ 105 ∧ 1 ≤ at_ 2 24 ∧ at_ 2 24 ≤ 168 ∧ ∀ i, 3 ≤ i → at_ i 0 = 0
      (¬ free → exec (.cfgLoad r) s = .next (s.ends r seq c 1 0))
      ∧ (free → ¬ whole → exec (.cfgLoad r) s = .next (s.ends r seq c 3 0))
      ∧ (free → whole → ¬ key1 → exec (.cfgLoad r) s = .next (s.ends r seq c 5 1))
      ∧ (free → whole → key1 → ¬ new → exec (.cfgLoad r) s = .next (s.ends r seq c 5 2))
      ∧ (free → whole → key1 → new → ¬ signed → exec (.cfgLoad r) s = .next (s.ends r seq c 5 3))
      ∧ (free → whole → key1 → new → signed → ¬ ranged → exec (.cfgLoad r) s = .next (s.ends r seq c 3 0))
      ∧ (free → whole → key1 → new → signed → ranged → exec (.cfgLoad r) s = .next { s.ends r seq c 0 0 with mod := { s.mod with
          plim := BitVec.ofNat 32 (at_ 0 16000), tthrot := BitVec.ofNat 32 (at_ 1 100), scrub := BitVec.ofNat 32 (at_ 2 24)
          cfgver := BitVec.ofNat 32 (word 1312), cfgm := sha3 image } }))
    ∧ (∀ i row r, commandRow i = some row → row.ring = r → row.Accepted s seq w c → i = .ckptSave r ∨ i = .ckptRestore r →
      let n := opk w 3
      let host := hostKey (opk w 1)
      let hbm := opk w 2
      let allowed := ∀ k, k < 64 → (s.ctx k).st = 0 ∨ (s.ctx k).st = 1 ∨ (s.ctx k).st = 3
      let goes := fun (t : State) (home len : Nat) (what : Kept → Prop) => hbm ≤ home → home + len ≤ hbm + n →
        ∃ x ∈ t.carried, x.host = host + (home - hbm) ∧ x.home = home ∧ x.len = len ∧ what x.what
      (¬ allowed → exec i s = .next (s.ends r seq c 1 0))
      ∧ (allowed → s.rangeQuiet hbm n = true → s.rangeQuiet host n = true → s.chunks = [] → ∃ t, exec i s = .next t
        ∧ CommandEnds s t r seq c .done 0 0 ∧ t.ctxs = s.ctxs ∧ t.pend = s.pend
        ∧ (i = .ckptSave r → t.groups = s.groups ∧ t.frames = s.frames ∧ t.pools = s.pools ∧ t.teams = s.teams ∧ t.engines = s.engines
          ∧ (∀ k g, (k, g) ∈ s.groups → g.st = .saved → goes t (savePart g.core) (2 ^ 26) fun x => ∃ tiles race, x = .group k g tiles race
              (s.engines.filter fun (_, e) => e.gid == k))
          ∧ (∀ k m, (k, m) ∈ s.teams → goes t (saveArea m.cluster) (2 ^ 26) fun x => ∃ bytes full, x = .team k m bytes full
              ∧ ∀ q b o, (q, b) ∈ s.mem → m.offsetOf q = some o → (o, b) ∈ bytes)
          ∧ (∀ d, d < 24 → goes t (d * 2 ^ 36) (2 ^ 23) fun x => x = .entries d (s.frames.filter fun (f, _) => f / 2 ^ 20 == d))
          ∧ (Memory.wf s.mem = true → (∀ q, q < host ∨ host + n ≤ q → t.byte q = s.byte q)
            ∧ (∀ j, j < n → (∀ d, d < 24 → hbm + j < d * 2 ^ 36 ∨ d * 2 ^ 36 + 2 ^ 23 ≤ hbm + j) →
                (∀ k m, (k, m) ∈ s.teams → hbm + j < saveArea m.cluster ∨ saveArea m.cluster + 2 ^ 26 ≤ hbm + j) →
                t.byte (host + j) = s.byte (hbm + j))
            ∧ ∀ j d f b, j < n → d < 24 → f < 2 ^ 20 → b < 8 → hbm + j = d * 2 ^ 36 + 8 * f + b →
                some (t.byte (host + j)) = (leBytes 8 (s.frameImage (d * 2 ^ 20 + f)).toNat)[b]?))
        ∧ (i = .ckptRestore r → t.carried = s.carried ∧
          let whole := fun (x : Carried) => host ≤ x.host ∧ x.host + x.len ≤ host + n ∧ x.home = hbm + (x.host - host)
          let held := fun (k ctx : Nat) (m : Team) => lookup s.teams k = some m ∧ m.ctx = ctx ∧ (s.ctx ctx).st = 3
          ((∀ x ∈ s.carried, ¬ whole x) → t.groups = s.groups ∧ t.frames = s.frames ∧ t.pools = s.pools ∧ t.teams = s.teams ∧ t.engines = s.engines)
          ∧ (∀ x k g tiles race engines m, s.carried = [x] → whole x → x.what = .group k g tiles race engines → held g.team g.ctx m →
              lookup t.groups k = some g
              ∧ ∀ j e, (j, e) ∈ engines → (∀ e', (j, e') ∈ engines → e' = e) → lookup t.engines j = some e)
          ∧ (∀ x k m bytes full now, s.carried = [x] → whole x → x.what = .team k m bytes full → held k m.ctx now →
              lookup t.teams k = some { m with cluster := now.cluster, banks := now.banks, scratch := now.scratch }
              ∧ (Memory.wf s.mem = true → ∀ o b, (o, b) ∈ bytes → (∀ o' b', (o', b') ∈ bytes → now.scratchAt o' = now.scratchAt o → b' = b) →
                t.byte (now.scratchAt o) = b))
          ∧ (Memory.wf s.mem = true → ∀ q, (∀ k m, (k, m) ∈ s.teams → m.offsetOf q = none ∧ ∀ o, m.scratchAt o ≠ q) →
            (∀ j, j < n → q = hbm + j → t.byte q = s.byte (host + j)) ∧ (q < hbm ∨ hbm + n ≤ q → t.byte q = s.byte q)))))
    ∧ (∀ r row, commandRow (.attest r) = some row → row.Accepted s seq w c →
      let x := row.target w
      let head := s.readMany x (opk w 1) 32
      let s₁ := head.1
      (head.2 = none → exec (.attest r) s = .next (s₁.ends r seq c 8 0))
      ∧ (∀ space key cls leaf, s.translate x (BitVec.ofNat 64 (opk w 1)) false = .ok space key cls leaf → s.reached space key = true →
        opk w 1 % 65536 ≤ 65504 → head.2 = some (s.bytes key 32))
      ∧ ∀ nonce, head.2 = some nonce →
        let report := leBytes 4 1 ++ leBytes 4 x ++ leBytes 8 s.now ++ nonce ++ s.mod.romm ++ s.mod.cfgm ++ leBytes 4 s.mod.cfgver.toNat
          ++ (s.ctx x).kernM ++ leBytes 4 (s.ctx x).kcount ++ List.replicate 104 0
        let out := report ++ mldsaSign identity report ++ identity.pub
        (s₁.writeMany x (opk w 2) out = none → exec (.attest r) s = .next (s₁.ends r seq c 8 0))
        ∧ (∀ s₂, s₁.writeMany x (opk w 2) out = some s₂ → ∃ t, exec (.attest r) s = .next t ∧ CommandEnds s t r seq c .done 0 0 ∧ t.ctxs = s.ctxs
          ∧ t.mem = s₂.mem ∧ t.pend = s₂.pend))
    ∧ ∀ r row, commandRow (.syncAll r) = some row → row.Accepted s seq w c →
      let key := if 2 ^ 63 ≤ opk w 1 then hostKey (opk w 1 - 2 ^ 63) else opk w 1
      let groups := s.groups.filter fun (_, g) => g.st != .ended
      let total := 64 + 64 * 64 + 1028 * 32 + groups.length * 16 + 18 * 16 + 64
      let header := leBytes 8 1 ++ leBytes 8 s.now ++ leBytes 8 total ++ leBytes 8 groups.length ++ leBytes 8 s.mod.cfgver.toNat ++ List.replicate 24 0
      let stored := fun (image : List Byte) => (s.starts_ r seq c).storeAt key image
      let begins := fun (at_ : Nat) (image : List Byte) => (s.summary.drop at_).take image.length = image
      (opk w 2 < total → ∃ t, exec (.syncAll r) s = .next t ∧ CommandEnds s t r seq c .done 4 64 ∧ t.mem = (stored header).mem
        ∧ t.pend = (stored header).pend)
      ∧ (total ≤ opk w 2 → ∃ t, exec (.syncAll r) s = .next t ∧ CommandEnds s t r seq c .done 0 total ∧ t.groups = s.groups ∧ t.ctxs = s.ctxs
        ∧ t.mem = (stored s.summary).mem ∧ t.pend = (stored s.summary).pend ∧ s.summary.length = total ∧ begins 0 header
        ∧ (∀ k, k < 64 → begins (64 + 64 * k) (leBytes 1 (s.ctx k).st ++ leBytes 1 (if (s.ctx k).sys then 1 else 0) ++ leBytes 2 (s.ctx k).faultNext
          ++ leBytes 4 (s.ctx k).poolId) ∧ begins (96 + 64 * k) ((s.ctx k).lastFault.take 32))
        ∧ (∀ k, k < 1028 → begins (4160 + 32 * k) (leBytes 1 (s.ring k).st ++ leBytes 1 (s.ring k).prio ++ List.replicate 6 0 ++ leBytes 8 (s.ring k).head
          ++ leBytes 8 (s.ring k).done ++ leBytes 8 (s.ring k).tail))
        ∧ (∀ k j g, groups[k]? = some (j, g) → begins (37056 + 16 * k) (leBytes 2 g.ctx ++ leBytes 2 g.kern ++ leBytes 4 g.grpid ++ leBytes 2 g.slot
          ++ leBytes 2 g.st.code ++ leBytes 4 g.core))
        ∧ (∀ k, k < 18 → begins (37056 + 16 * groups.length + 16 * k) (leBytes 4 (s.port k).st ++ leBytes 4 (s.port k).peer
          ++ leBytes 8 (s.port k).timeouts))
        ∧ ∀ spare, (∀ d n, (d, n) ∈ s.mod.spares → spare ≤ 1024 - n) → (spare = 1024 ∨ ∃ d n, (d, n) ∈ s.mod.spares ∧ spare = 1024 - n) →
          spare ≤ 1024 → begins (37344 + 16 * groups.length) (leBytes 8 s.mod.cmdsDone.toNat ++ leBytes 8 s.mod.eccFixed.toNat
            ++ leBytes 8 s.mod.eccBad.toNat ++ leBytes 8 s.mod.linkTimeouts.toNat ++ leBytes 8 spare ++ List.replicate 24 0))

/-! ### Ports -/

/-- R193 to R195, R203: a write of ENABLE, training, loss of flits and replays move a port between the states of R195; a port that leaves Up ends
every thread access in flight on it; a flit with a bad CRC counts as a replay; a boundary that delivers nothing is counted. R204, R200, R221, R223:
a peer's request is served at its home: a read answers the bytes, with a lease, R225: or a reader's own write that is not yet visible, without one;
a write answers its write completion time, an atomic or a reduction the old value with that time; with ACCEPT 0, where there is no memory, or for data
beyond correction, it is answered with an error and has no effect. R201: the abort of a peer's chunk discards its later writes. (The model's choices:
the form of a request and of its answer, and 16 µs for a lease to a peer, DESIGN CHOICE, log 49; that MODID takes effect at a port's training and how
training starts anew, DEDUCED, log 50; that a request which meets data beyond correction counts one error, DESIGN CHOICE, log 64.) Completes: portEnableWrite, portTrainingSuccess,
portTrainingFailure, portLinkLoss, portReplayLimit, flitReceive, idleFlit, peerRequest, d2dBoundaryTimeout. -/
def Obligations.PortsAndPeers : Prop :=
  (∀ s p, p < 18 →
    let x := s.port p
    let leaves := fun (i : Instr) (st : Nat) (on : Bool) => ∃ t, exec i s = .next t ∧ (t.port p).st = st ∧ (t.port p).enable = on ∧ t.mem = s.mem
      ∧ t.pend = s.pend ∧ t.ctxs = s.ctxs ∧ (∀ q, (t.port q).st = if q = p then st else (s.port q).st)
      ∧ (∀ k a, (k, a) ∈ t.accesses → a.port ≠ some p) ∧ (∀ k r, (k, r) ∈ t.results → r.port = some p → r.fail ≠ 0)
      ∧ (∀ k r, (k, r) ∈ t.replies → r.port = some p → r.via ≠ none)
      ∧ ∀ k c, (k, c) ∈ t.chunks → p ∈ c.ports → c.failed = true ∨ c.mapped = true
    ((x.st = 0 ∨ x.st = 4 → exec (.portEnableWrite p true) s = .next (s.putPort p { x with
          st := 1, enable := true, fails := 0, replays := 0, began := s.now }))
      ∧ (x.st = 1 ∨ x.st = 2 ∨ x.st = 3 → exec (.portEnableWrite p true) s = .next s)
      ∧ (x.st ≠ 2 → exec (.portEnableWrite p false) s = .next (s.putPort p { x with st := 0, enable := false }))
      ∧ ((s.chunks.map (·.1)).Nodup → (∀ k c, (k, c) ∈ s.chunks → (lookup s.engines c.cmd).isSome) → (s.accesses.map (·.1)).Nodup →
        (s.replies.map (·.1)).Nodup →
        (x.st = 2 → leaves (.portEnableWrite p false) 0 false) ∧ (x.st = 2 → x.heard + 1000 ≤ s.now → leaves (.portLinkLoss p) 1 true)
        ∧ (x.st = 2 → 8 ≤ x.replays → leaves (.portReplayLimit p) 1 true)
        ∧ (x.st = 2 → x.heard + 1000 ≤ s.now ∨ 8 ≤ x.replays → ∀ good, leaves (.flitReceive p good) 1 true)))
    ∧ (∀ peer toff, x.st = 1 → s.now ≤ x.began + 100000 → exec (.portTrainingSuccess p peer toff) s = .next (s.putPort p { x with
        st := 2, peer := peer % 4096, own := s.mod.modid, toff := toff, fails := 0, replays := 0, seq := 0, heard := s.now }))
    ∧ (∀ peer toff, x.began + 100000 < s.now → exec (.portTrainingSuccess p peer toff) s = .next s)
    ∧ (x.st = 1 → exec (.portTrainingFailure p) s = .next (s.putPort p { x with
        st := if x.fails = 2 ∨ 2 < x.fails then 4 else 1, fails := x.fails + 1, began := s.now }))
    ∧ (x.st ≠ 1 → (∀ peer toff, exec (.portTrainingSuccess p peer toff) s = .next s) ∧ exec (.portTrainingFailure p) s = .next s)
    ∧ (InUse s p x → exec (.flitReceive p true) s = .next (s.putPort p { x with heard := s.now, replays := 0, seq := x.seq + 1 })
      ∧ exec (.flitReceive p false) s = .next (s.putPort p { x with heard := s.now, replays := x.replays + 1 })
      ∧ ∃ t, exec (.idleFlit p) s = .next t ∧ { t with mod := s.mod } = s ∧ { t.mod with idles := s.mod.idles } = s.mod
        ∧ readAt 0 t.mod.idles p = readAt 0 s.mod.idles p + 1)
    ∧ ∀ b, ∃ t, exec (.d2dBoundaryTimeout b) s = .next t ∧ { t with mod := s.mod } = s ∧ t.mod.linkTimeouts = s.mod.linkTimeouts + 1
        ∧ (∀ q, q ∈ t.mod.around ↔ q ∈ s.mod.around ∨ q = b) ∧ { t.mod with around := s.mod.around, linkTimeouts := s.mod.linkTimeouts } = s.mod)
  ∧ (∀ s p addr bytes code, InUse s p (s.port p) →
    let kind := code % 32
    let who := code / 32
    let run := exec (.peerRequest p addr code bytes) s
    let refusal : Answer := { port := p, bytes := [], err := true, time := none }
    let error := { s with mod := { s.mod with answers := s.mod.answers ++ [refusal] } }
    let spoilt := { s with mod := { s.mod with answers := s.mod.answers ++ [refusal], eccBad := s.mod.eccBad + 1 } }
    let answers := fun (t : State) (l : List Byte) (time : Option Nat) => run = .next t
      ∧ t.mod.answers = s.mod.answers ++ [{ port := p, bytes := l, err := false, time := time }]
      ∧ t.groups = s.groups ∧ t.ctxs = s.ctxs ∧ t.ports = s.ports
    let writes := fun (l new : List Byte) => InOrder s addr new.length 0 → ∃ t, answers t l (some (completionTime s addr new.length 0))
      ∧ NowReads s t addr new ∧ ∀ y ∈ t.pend, y ∈ s.pend ∨ (y.key = addr ∧ y.seen = [(p, who)])
    let own := fun (y : Pending) => (p, who) ∈ y.seen ∧ y.key < addr + bytes.length ∧ addr < y.key + y.bytes.length
    let ops : List AtomOp := [.add, .minI, .maxI, .minN, .maxN, .and, .or, .xor, .exch, .cas, .addW, .fadd]
    (kind = 19 → run = .next { s with mod := { s.mod with aborted := s.mod.aborted ++ [(p, who)] } })
    ∧ (kind ≠ 19 → kind ≠ 0 → who % 2 = 1 → (p, who) ∈ s.mod.aborted → run = .next s)
    ∧ (kind ≠ 19 → kind = 0 ∨ who % 2 = 0 ∨ (p, who) ∉ s.mod.aborted → s.migratingAt addr = false →
      ((s.port p).accept = false → run = .next error)
      ∧ ((s.port p).accept = true →
        (kind < 2 → hbmEnd < addr + bytes.length → run = .next error)
        ∧ (kind = 0 → addr + bytes.length ≤ hbmEnd → s.badIn addr bytes.length = true → run = .next spoilt)
        ∧ (kind = 0 → addr + bytes.length ≤ hbmEnd → s.badIn addr bytes.length = false →
          ((∀ y ∈ s.pend, ¬ own y) → ∃ t time, answers t (s.bytes addr bytes.length) time ∧ t.mem = s.mem ∧ t.pend = s.pend
            ∧ ((∀ y ∈ s.pend, y.key / 128 ≠ addr / 128 ∧ (y.key + (y.bytes.length - 1)) / 128 ≠ addr / 128) → time = some (s.now + 16000)
              ∧ readAt 0 t.emax (addr / 128 * 128) = max (readAt 0 s.emax (addr / 128 * 128)) (s.now + 16000)))
          ∧ ((∃ y ∈ s.pend, own y) → ∃ t l, answers t l none ∧ t.emax = s.emax ∧ t.mem = s.mem ∧ t.pend = s.pend
            ∧ ∀ i, i < bytes.length → (∀ pre y post b, s.pend = pre ++ y :: post → (p, who) ∈ y.seen → y.key ≤ addr + i →
                y.bytes[addr + i - y.key]? = some b → (∀ z ∈ post, (p, who) ∈ z.seen → addr + i < z.key ∨ z.key + z.bytes.length ≤ addr + i) →
                l[i]? = some b)
              ∧ ((∀ y ∈ s.pend, (p, who) ∈ y.seen → addr + i < y.key ∨ y.key + y.bytes.length ≤ addr + i) → l[i]? = some (s.byte (addr + i)))))
        ∧ (kind = 1 → addr + bytes.length ≤ hbmEnd → addr < hbmEnd → writes [] bytes)
        ∧ (∀ op, ops[kind - 2]? = some op → 2 ≤ kind →
          let n := if op = .addW then 8 else 4
          let old := leNat ((List.range n).map fun j => s.latest (addr + j))
          (hbmEnd < addr + n → run = .next error) ∧ (addr + n ≤ hbmEnd → (s.badIn addr n = true → run = .next spoilt)
            ∧ (s.badIn addr n = false → writes (leBytes n old)
                (leBytes n (atomResult op old (leNat (bytes.take 8) % 2 ^ 64) (leNat (bytes.drop 8) % 2 ^ 64) % 2 ^ (8 * n)).toNat))))
        ∧ (14 ≤ kind → kind ≤ 18 →
          let n := if kind = 16 then 2 else 4
          let old := leNat ((List.range n).map fun j => s.latest (addr + j))
          (hbmEnd < addr + n → run = .next error) ∧ (addr + n ≤ hbmEnd → (s.badIn addr n = true → run = .next spoilt)
            ∧ (s.badIn addr n = false → writes (leBytes n old) (leBytes n (combined (kind - 14) old (leNat (bytes.take n))))))))))

/-! ### Power, reset and memory errors -/

/-- R375, R376: the controller's measurement sets MSTAT and DUTY, the largest that keeps power at or below PLIM, and at or above TTHROT one less; a junction at 115 °C trips: every Active context begins to halt and no command is fetched
until every junction is below 95 °C; a second trip changes nothing. R374, R378: out of its range the supply resets the module and what it holds;
bring-up takes the ROM's measurement, frees every frame outside the reserved region, sets module time to 0 and sets READY. R379, R380: a scrub
counts its corrected and uncorrectable errors, marks the sectors beyond correction, and retires a row at its fourth error while a spare is left; one
scrub of a stack follows another after SCRUB hours. (The model's choices: that memory of which the reset discards the contents reads as memDefault,
DESIGN CHOICE, log 1; the order of the free lists, DESIGN CHOICE, log 6; what an event of the module brings with it and how the power at another duty
is foreseen, DESIGN CHOICE and DEDUCED, log 49; what stays over a reset, DEDUCED, log 51; when errors are met, DESIGN CHOICE, log 64.) Completes:
hbmScrub, powerMeasurement, thermalTrip, thermalTripClear, supplyOutOfRange, bringUp. -/
def Obligations.PowerResetAndScrub : Prop :=
  (∀ s,
    (∀ power temp matrix best d,
      let hot := decide (s.mod.tthrot.toNat ≤ temp)
      let now := s.mod.duty.toNat
      let holds := fun (d : Nat) => d < 64 ∧ 64 * power + matrix * (d + 1) ≤ 64 * s.mod.plim.toNat + matrix * (now + 1)
      let next := { s.mod with power := BitVec.ofNat 16 (power / 10), temp := BitVec.ofNat 8 temp, throt := hot, duty := BitVec.ofNat 6 d }
      (holds best ∧ (∀ k, holds k → k ≤ best)) ∨ (best = 0 ∧ ∀ k, ¬ holds k) → d = (if hot then min best (now - 1) else best) →
      (s.mod.tripped = true ∨ temp < 115 → exec (.powerMeasurement power temp matrix) s = .next { s with mod := next })
      ∧ (s.mod.tripped = false → 115 ≤ temp → ∃ t, exec (.powerMeasurement power temp matrix) s = .next t ∧ Tripped s t
        ∧ t.mod = { next with tripped := true, trips := s.mod.trips + 1 }))
    ∧ (∀ temp, (s.mod.tripped = true ∨ temp < 115 → exec (.thermalTrip temp) s = .next s)
      ∧ (s.mod.tripped = false → 115 ≤ temp → ∃ t, exec (.thermalTrip temp) s = .next t ∧ Tripped s t ∧ t.mod = { s.mod with
          tripped := true, trips := s.mod.trips + 1, temp := BitVec.ofNat 8 temp, throt := decide (s.mod.tthrot.toNat ≤ temp) }))
    ∧ ((s.mod.tripped = true → s.mod.temp.toNat < 95 → exec .thermalTripClear s = .next { s with mod := { s.mod with tripped := false } })
      ∧ (s.mod.tripped = false ∨ 95 ≤ s.mod.temp.toNat → exec .thermalTripClear s = .next s))
    ∧ (∀ v, (48 ≤ v → v ≤ 58 → exec (.supplyOutOfRange v) s = .next { s with mod := { s.mod with volts := v } })
      ∧ (v < 48 ∨ 58 < v → ∃ t, exec (.supplyOutOfRange v) s = .next t ∧ t.mod.ready = false ∧ exec .bringUp t = .next t ∧ t.groups = []
        ∧ t.teams = [] ∧ t.frames = [] ∧ t.pools = []
        ∧ t.chunks = [] ∧ t.engines = [] ∧ t.accesses = [] ∧ t.pend = [] ∧ t.cycle = 0 ∧ (∀ c, t.ctx c = Context.free) ∧ (∀ k, k < 2 ^ 68 → t.byte k = memDefault)
        ∧ ∀ r, 1024 ≤ r → r < 1028 → ∀ w, exec (.tailWrite r w) t = .next t))
    ∧ ((s.mod.ready = true ∨ s.mod.volts < 48 ∨ 58 < s.mod.volts → exec .bringUp s = .next s)
      ∧ (s.mod.ready = false → 48 ≤ s.mod.volts → s.mod.volts ≤ 58 → ∃ t, exec .bringUp s = .next t ∧ t.mod.ready = true
        ∧ t.mod.romm = Config.bytesOf Config.romHash 32 ∧ t.cycle = 0
        ∧ (∀ c, t.ctx c = Context.free) ∧ (∀ p, t.port p = Port.zero) ∧ t.frames = [] ∧ t.pools = [] ∧ t.groups = [] ∧ t.rings = s.rings
        ∧ t.mod.plim = 16000 ∧ t.mod.tthrot = 100 ∧ t.mod.scrub = 24
        ∧ (∀ c b, b < 64 → (t.cluster c).mode b = if b < 32 then 1 else if b < 63 then 0 else 2)
        ∧ ∀ d, readAt [] t.dieFree d = if d < 24 then [(d * 2 ^ 20 + 8320, 2 ^ 20 - 8320)] else [])))
  ∧ (∀ s die sectors rows, s.now < readAt 0 s.mod.scrubAt die + s.mod.scrub.toNat * 3600000000000 → exec (.hbmScrub die sectors rows) s = .next s)
  ∧ (∀ s die sectors rows, readAt 0 s.mod.scrubAt die + s.mod.scrub.toNat * 3600000000000 ≤ s.now →
    ∃ t, exec (.hbmScrub die sectors rows) s = .next t ∧ { t with mod := s.mod, bad := s.bad } = s
    ∧ (∀ d, readAt 0 t.mod.scrubAt d = if d = die then s.now else readAt 0 s.mod.scrubAt d) ∧ t.mod.eccFixed = s.mod.eccFixed + BitVec.ofNat 64 rows.length ∧ t.mod.eccBad = s.mod.eccBad + BitVec.ofNat 64 sectors.length
    ∧ (∀ k, readAt false t.bad k = true ↔ readAt false s.bad k = true ∨ ∃ x ∈ sectors, k = x / 32 * 32)
    ∧ (∀ r, r < 2 ^ 32 → readAt 0 t.mod.rowErrs (die * 2 ^ 32 + r) = rows.count r)
    ∧ (∀ r ∈ rows, r < 2 ^ 32 → 4 ≤ rows.count r → readAt 0 s.mod.spares die + rows.eraseDups.length ≤ 1024 → die * 2 ^ 32 + r ∈ t.mod.retired
      ∧ ∀ f ∈ Config.rowFrames die r, die * 2 ^ 32 + r ∈ s.mod.retired ∨ f ∈ t.mod.migrate)
    ∧ (1024 ≤ readAt 0 s.mod.spares die → t.mod.retired = s.mod.retired ∧ t.mod.migrate = s.mod.migrate
      ∧ ((∃ r ∈ rows, 4 ≤ rows.count r ∧ r < 2 ^ 32 ∧ die * 2 ^ 32 + r ∉ s.mod.retired) → t.mod.sparex = true)))
end

