-- ==== Sys2Proof/Laws/Decode.lean ====
section
/-! SUPPORT. Packing the fields of a word and unpacking them are inverse, for every list of segments, and so are a number and its bytes. -/

namespace Sys2Proof

/-- Field values that a list of segments holds: one for each field, within its width; every fixed value within its own. -/
def Holds : List Seg → List Nat → Prop
  | [], xs => xs = []
  | .fix w v :: rest, xs => v < 2 ^ w ∧ Holds rest xs
  | .fld _ :: _, [] => False
  | .fld w :: rest, x :: xs => x < 2 ^ w ∧ Holds rest xs

theorem unpackSegs_packSegs : ∀ (segs : List Seg) (xs : List Nat), Holds segs xs → unpackSegs segs (packSegs segs xs) = some xs
  | [], xs, h => by rw [show xs = [] from h]; rfl
  | .fix w v :: rest, xs, h => by
    have hw : 0 < 2 ^ w := Nat.pos_of_ne_zero (by simp)
    simp only [packSegs, unpackSegs, Nat.mod_eq_of_lt h.1, Nat.add_mul_mod_self_left, if_pos, Nat.add_mul_div_left _ _ hw,
      Nat.div_eq_of_lt h.1, Nat.zero_add]
    exact unpackSegs_packSegs rest xs h.2
  | .fld _ :: _, [], h => h.elim
  | .fld w :: rest, x :: xs, h => by
    have hw : 0 < 2 ^ w := Nat.pos_of_ne_zero (by simp)
    simp only [packSegs, unpackSegs, Nat.mod_eq_of_lt h.1, Nat.add_mul_mod_self_left, Nat.add_mul_div_left _ _ hw,
      Nat.div_eq_of_lt h.1, Nat.zero_add, unpackSegs_packSegs rest xs h.2, Option.map_some]

theorem packSegs_unpackSegs : ∀ (segs : List Seg) (x : Nat) (xs : List Nat), x < 2 ^ segsWidth segs → unpackSegs segs x = some xs →
    packSegs segs xs = x ∧ Holds segs xs
  | [], x, xs, hx, h => by
    have : x = 0 := by simpa [segsWidth] using hx
    subst this
    cases h
    exact ⟨rfl, rfl⟩
  | .fix w v :: rest, x, xs, hx, h => by
    have hw : 0 < 2 ^ w := Nat.pos_of_ne_zero (by simp)
    have hd : x / 2 ^ w < 2 ^ segsWidth rest := Nat.div_lt_of_lt_mul (by rw [← Nat.pow_add]; exact hx)
    simp only [unpackSegs] at h
    split at h
    · next hv =>
      have ih := packSegs_unpackSegs rest _ xs hd h
      refine ⟨?_, hv ▸ Nat.mod_lt _ hw, ih.2⟩
      rw [packSegs, ih.1, Nat.mod_eq_of_lt (hv ▸ Nat.mod_lt _ hw), ← hv]
      exact Nat.mod_add_div _ _
    · cases h
  | .fld w :: rest, x, xs, hx, h => by
    have hw : 0 < 2 ^ w := Nat.pos_of_ne_zero (by simp)
    have hd : x / 2 ^ w < 2 ^ segsWidth rest := Nat.div_lt_of_lt_mul (by rw [← Nat.pow_add]; exact hx)
    simp only [unpackSegs, Option.map_eq_some_iff] at h
    obtain ⟨ys, hy, rfl⟩ := h
    have ih := packSegs_unpackSegs rest _ ys hd hy
    refine ⟨?_, Nat.mod_lt _ hw, ih.2⟩
    rw [packSegs, ih.1, Nat.mod_mod]
    exact Nat.mod_add_div _ _

theorem packSegs_lt : ∀ (segs : List Seg) (xs : List Nat), packSegs segs xs < 2 ^ segsWidth segs
  | [], _ => by simp [packSegs, segsWidth]
  | .fix w v :: rest, xs => by
    have h := packSegs_lt rest xs
    have hv := Nat.mod_lt v (Nat.pos_of_ne_zero (show 2 ^ w ≠ 0 by simp))
    simp only [packSegs, segsWidth, Nat.pow_add]
    calc v % 2 ^ w + 2 ^ w * packSegs rest xs < 2 ^ w * (packSegs rest xs + 1) := by rw [Nat.mul_add]; omega
      _ ≤ _ := Nat.mul_le_mul_left _ h
  | .fld w :: rest, [] => by
    have h := packSegs_lt rest []
    simp only [packSegs, segsWidth, Nat.pow_add]
    exact Nat.mul_lt_mul_of_pos_left h (Nat.pos_of_ne_zero (by simp))
  | .fld w :: rest, x :: xs => by
    have h := packSegs_lt rest xs
    have hv := Nat.mod_lt x (Nat.pos_of_ne_zero (show 2 ^ w ≠ 0 by simp))
    simp only [packSegs, segsWidth, Nat.pow_add]
    calc x % 2 ^ w + 2 ^ w * packSegs rest xs < 2 ^ w * (packSegs rest xs + 1) := by rw [Nat.mul_add]; omega
      _ ≤ _ := Nat.mul_le_mul_left _ h

theorem natOfBytes_bytesOf : ∀ n x : Nat, x < 2 ^ (8 * n) → natOfBytes (bytesOf n x) = x
  | 0, x, h => by
    have : x = 0 := by simpa using h
    simp [this, bytesOf, natOfBytes]
  | n + 1, x, h => by
    have hd : x / 2 ^ 8 < 2 ^ (8 * n) := Nat.div_lt_of_lt_mul (by rw [← Nat.pow_add, Nat.add_comm]; exact h)
    rw [bytesOf, natOfBytes, natOfBytes_bytesOf n _ hd, BitVec.toNat_ofNat]
    exact Nat.mod_add_div _ _

theorem bytesOf_natOfBytes : ∀ l : List Byte, bytesOf l.length (natOfBytes l) = l
  | [] => rfl
  | b :: rest => by
    have hb : b.toNat < 2 ^ 8 := b.isLt
    rw [natOfBytes, List.length_cons, bytesOf]
    congr 1
    · apply BitVec.eq_of_toNat_eq
      rw [BitVec.toNat_ofNat]
      omega
    · rw [Nat.add_mul_div_left _ _ (by decide), Nat.div_eq_of_lt hb, Nat.zero_add, bytesOf_natOfBytes rest]

@[simp] theorem length_bytesOf : ∀ n x : Nat, (bytesOf n x).length = n
  | 0, _ => rfl
  | n + 1, x => by rw [bytesOf, List.length_cons, length_bytesOf n]

end Sys2Proof
end

