-- ==== Sys2Proof/Laws/Table.lean ====
section
/-! SUPPORT. What the operations of sparse tables do: reads after writes, and that every operation keeps the canonical form. -/

namespace Sys2Proof.Machine

variable {α : Type}

@[simp] theorem lookup_nil (i : Nat) : lookup ([] : Table α) i = none := rfl

@[simp] theorem lookup_drop_same (t : Table α) (i : Nat) : lookup (drop t i) i = none := by
  induction t with
  | nil => rfl
  | cons h t ih =>
    obtain ⟨k, v⟩ := h
    by_cases hk : k = i <;> simp [drop, lookup, hk, ih]

theorem lookup_drop_other (t : Table α) {i j : Nat} (h : j ≠ i) : lookup (drop t i) j = lookup t j := by
  induction t with
  | nil => rfl
  | cons e t ih =>
    obtain ⟨k, v⟩ := e
    by_cases hk : k = i
    · have : k ≠ j := fun e => h (e ▸ hk)
      simp [drop, lookup, hk, ih, Ne.symm h]
    · simp only [drop, hk, if_false, lookup, ih]

theorem lookup_place_same (t : Table α) (i : Nat) (x : α) (h : lookup t i = none) : lookup (place t i x) i = some x := by
  induction t with
  | nil => simp [place, lookup]
  | cons e t ih =>
    obtain ⟨k, v⟩ := e
    by_cases hk : k = i
    · simp [lookup, hk] at h
    · have h' : lookup t i = none := by simpa [lookup, hk] using h
      by_cases hlt : i < k <;> simp [place, lookup, hlt, hk, ih h']

theorem lookup_place_other (t : Table α) {i j : Nat} (x : α) (h : j ≠ i) : lookup (place t i x) j = lookup t j := by
  induction t with
  | nil => simp [place, lookup, Ne.symm h]
  | cons e t ih =>
    obtain ⟨k, v⟩ := e
    by_cases hlt : i < k
    · simp [place, lookup, hlt, Ne.symm h]
    · simp only [place, hlt, if_false, lookup, ih]

@[simp] theorem lookup_putAt_same (t : Table α) (i : Nat) (x : α) : lookup (putAt t i x) i = some x :=
  lookup_place_same _ _ _ (lookup_drop_same t i)

theorem lookup_putAt_other (t : Table α) {i j : Nat} (x : α) (h : j ≠ i) : lookup (putAt t i x) j = lookup t j := by
  rw [putAt, lookup_place_other _ _ h, lookup_drop_other _ h]

variable [DecidableEq α] {dflt : α}

omit [DecidableEq α] in
@[simp] theorem readAt_nil (i : Nat) : readAt dflt ([] : Table α) i = dflt := rfl

@[simp] theorem readAt_writeAt_same (t : Table α) (i : Nat) (x : α) : readAt dflt (writeAt dflt t i x) i = x := by
  by_cases h : x = dflt
  · simp [readAt, writeAt, h]
  · simp [readAt, writeAt, h, lookup_place_same _ _ _ (lookup_drop_same t i)]

theorem readAt_writeAt_other (t : Table α) {i j : Nat} (x : α) (h : j ≠ i) : readAt dflt (writeAt dflt t i x) j = readAt dflt t j := by
  by_cases hx : x = dflt
  · simp [readAt, writeAt, hx, lookup_drop_other _ h]
  · simp [readAt, writeAt, hx, lookup_place_other _ _ h, lookup_drop_other _ h]

/-! ### The canonical form -/

theorem wfFrom_weaken {t : Table α} {lo lo' : Nat} (h : Table.wfFrom dflt lo t) (hle : lo' ≤ lo) : Table.wfFrom dflt lo' t := by
  cases t with
  | nil => rfl
  | cons e t =>
    simp only [Table.wfFrom, Bool.and_eq_true, decide_eq_true_eq] at h ⊢
    exact ⟨⟨Nat.le_trans hle h.1.1, h.1.2⟩, h.2⟩

theorem wfFrom_drop {t : Table α} {lo : Nat} (i : Nat) (h : Table.wfFrom dflt lo t) : Table.wfFrom dflt lo (drop t i) := by
  induction t generalizing lo with
  | nil => rfl
  | cons e t ih =>
    obtain ⟨k, v⟩ := e
    simp only [Table.wfFrom, Bool.and_eq_true, decide_eq_true_eq] at h
    by_cases hk : k = i
    · simpa [drop, hk] using ih (wfFrom_weaken h.2 (by omega))
    · simp only [drop, hk, if_false, Table.wfFrom, Bool.and_eq_true, decide_eq_true_eq]
      exact ⟨h.1, ih h.2⟩

theorem wfFrom_place {t : Table α} {lo i : Nat} {x : α} (h : Table.wfFrom dflt lo t) (hi : lo ≤ i) (hx : x ≠ dflt)
    (hn : lookup t i = none) : Table.wfFrom dflt lo (place t i x) := by
  induction t generalizing lo with
  | nil => simp [place, Table.wfFrom, hi, hx]
  | cons e t ih =>
    obtain ⟨k, v⟩ := e
    simp only [Table.wfFrom, Bool.and_eq_true, decide_eq_true_eq] at h
    have hk : k ≠ i := by
      rintro rfl
      simp [lookup] at hn
    by_cases hlt : i < k
    · simp only [place, hlt, if_true, Table.wfFrom, Bool.and_eq_true, decide_eq_true_eq]
      exact ⟨⟨hi, hx⟩, ⟨by omega, h.1.2⟩, h.2⟩
    · simp only [place, hlt, if_false, Table.wfFrom, Bool.and_eq_true, decide_eq_true_eq]
      exact ⟨h.1, ih h.2 (by omega) (by simpa [lookup, hk] using hn)⟩

/-- A write keeps the canonical form. -/
theorem wf_writeAt {t : Table α} (h : Table.wf dflt t) (i : Nat) (x : α) : Table.wf dflt (writeAt dflt t i x) := by
  by_cases hx : x = dflt
  · simpa [Table.wf, writeAt, hx] using wfFrom_drop i h
  · simpa [Table.wf, writeAt, hx] using wfFrom_place (wfFrom_drop i h) (Nat.zero_le i) hx (lookup_drop_same t i)

theorem wfFrom_filter {t : Table α} {lo : Nat} (p : Nat × α → Bool) (h : Table.wfFrom dflt lo t) :
    Table.wfFrom dflt lo (t.filter p) := by
  induction t generalizing lo with
  | nil => rfl
  | cons e t ih =>
    obtain ⟨k, v⟩ := e
    simp only [Table.wfFrom, Bool.and_eq_true, decide_eq_true_eq] at h
    by_cases hp : p (k, v)
    · simp only [List.filter_cons, hp, if_true, Table.wfFrom, Bool.and_eq_true, decide_eq_true_eq]
      exact ⟨h.1, ih h.2⟩
    · simpa [List.filter_cons, hp] using ih (wfFrom_weaken h.2 (by omega))

end Sys2Proof.Machine
end

