-- ==== Sys2Proof/Laws/Memory.lean ====
section
/-! SUPPORT. Reading and writing bytes, numbers as bytes, and that settling, the clock and an arriving write keep the canonical form
of memory (R2, R221). -/

namespace Sys2Proof.Machine

/-! ### Bytes of numbers -/

@[simp] theorem length_leBytes (n x : Nat) : (leBytes n x).length = n := by
  induction n generalizing x with
  | zero => rfl
  | succ n ih => simp [leBytes, ih]

/-- A number below 2^(8n) is read back from its bytes. -/
theorem leNat_leBytes (n x : Nat) (h : x < 256 ^ n) : leNat (leBytes n x) = x := by
  induction n generalizing x with
  | zero => simp [leBytes, leNat]; simp at h; omega
  | succ n ih =>
    have hd : x / 256 < 256 ^ n := by
      rw [Nat.div_lt_iff_lt_mul (by decide)]
      rwa [Nat.pow_succ] at h
    rw [leBytes, leNat, ih _ hd, BitVec.toNat_ofNat]
    omega

/-! ### Writes -/

theorem wf_writeBytes {m : Table Byte} (key : Nat) (bytes : List Byte) (h : Memory.wf m) : Memory.wf (writeBytes m key bytes) := by
  induction bytes generalizing m key with
  | nil => exact h
  | cons b rest ih => exact ih _ (wf_writeAt h _ _)

/-- A byte outside the written range reads as before. -/
theorem readAt_writeBytes_outside (m : Table Byte) (key : Nat) (bytes : List Byte) (k : Nat) (h : k < key ∨ key + bytes.length ≤ k) :
    readAt memDefault (writeBytes m key bytes) k = readAt memDefault m k := by
  induction bytes generalizing m key with
  | nil => rfl
  | cons b rest ih =>
    simp only [List.length_cons] at h
    rw [writeBytes, ih _ _ (by omega), readAt_writeAt_other]
    omega

/-- A byte inside the written range reads as written. -/
theorem readAt_writeBytes_inside (m : Table Byte) (key : Nat) (bytes : List Byte) (i : Nat) (h : i < bytes.length) :
    readAt memDefault (writeBytes m key bytes) (key + i) = bytes[i] := by
  induction bytes generalizing m key i with
  | nil => simp at h
  | cons b rest ih =>
    cases i with
    | zero =>
      rw [writeBytes, readAt_writeBytes_outside _ _ _ _ (by omega)]
      simp
    | succ i =>
      have := ih (writeAt memDefault m key b) (key + 1) i (by simpa using h)
      rw [writeBytes, List.getElem_cons_succ, ← this]
      congr 1
      omega

/-! ### The clock and arriving writes -/

theorem wf_mergeDue (now : Nat) (l : List Pending) {m : Table Byte} (h : Memory.wf m) : Memory.wf (mergeDue now l m).1 := by
  induction l generalizing m with
  | nil => exact h
  | cons w rest ih =>
    by_cases hw : w.twc ≤ now
    · simpa [mergeDue, hw] using ih (wf_writeBytes _ _ h)
    · simpa [mergeDue, hw] using ih h

/-- What is still pending after settling was pending before. -/
theorem mem_mergeDue (now : Nat) (l : List Pending) (m : Table Byte) {w : Pending} (h : w ∈ (mergeDue now l m).2) :
    w ∈ l ∧ now < w.twc := by
  induction l generalizing m with
  | nil => simp [mergeDue] at h
  | cons v rest ih =>
    by_cases hv : v.twc ≤ now
    · have := ih _ (by simpa [mergeDue, hv] using h)
      exact ⟨List.mem_cons_of_mem _ this.1, this.2⟩
    · simp only [mergeDue, hv, if_false] at h
      rcases List.mem_cons.1 h with rfl | h
      · exact ⟨List.mem_cons_self, by omega⟩
      · have := ih _ h
        exact ⟨List.mem_cons_of_mem _ this.1, this.2⟩

theorem State.settle_mem (s : State) : s.settle.mem = (mergeDue s.now s.pend s.mem).1 := rfl

theorem State.settle_rest (s : State) : { s.settle with mem := s.mem, pend := s.pend } = s := rfl

theorem State.wf_settle {s : State} (h : Memory.wf s.mem) : Memory.wf s.settle.mem := wf_mergeDue _ _ h

theorem State.wf_advance {s : State} (n : Nat) (h : Memory.wf s.mem) : Memory.wf (s.advance n).mem :=
  State.wf_settle (s := { s with cycle := s.cycle + n }) h

theorem State.wf_advanceTo {s : State} (c : Nat) (h : Memory.wf s.mem) : Memory.wf (s.advanceTo c).mem :=
  State.wf_settle (s := { s with cycle := max s.cycle c }) h

theorem State.wf_arriveWith {s : State} (key : Nat) (bytes : List Byte) (gid : Nat) (tids : List Nat) (twc : Nat) (h : Memory.wf s.mem) :
    Memory.wf (s.arriveWith key bytes gid tids twc).mem := by
  unfold State.arriveWith
  split
  · exact wf_writeBytes _ _ h
  · exact State.wf_settle (s := { s with pend := _ }) h
  · exact State.wf_settle (s := { s with pend := _, tlast := _ }) h

theorem State.wf_arrive {s : State} (key : Nat) (bytes : List Byte) (gid : Nat) (tids : List Nat) (ext : Nat) (h : Memory.wf s.mem) :
    Memory.wf (s.arrive key bytes gid tids ext).mem := State.wf_arriveWith _ _ _ _ _ h

/-- An arriving write changes only memory, what is pending and the completion times of its lines. -/
theorem State.arrive_rest (s : State) (key : Nat) (bytes : List Byte) (gid : Nat) (tids : List Nat) (ext : Nat) :
    { s.arrive key bytes gid tids ext with mem := s.mem, pend := s.pend, tlast := s.tlast } = s := by
  unfold State.arrive State.arriveWith
  split <;> rfl

theorem State.wf_touch {s : State} (leaf : Option Nat) (write : Bool) (h : Memory.wf s.mem) : Memory.wf (s.touch leaf write).mem := by
  unfold State.touch
  split
  · exact h
  · dsimp only
    split <;> split <;> first | exact h | exact State.wf_arrive _ _ _ _ _ h

end Sys2Proof.Machine
end

