-- ==== Sys2Proof/Laws/Faults.lean ====
section
/-! SUPPORT. Memory keeps its canonical form through copy-on-write, the device's own writes, and the taking of faults; halting a context
writes no memory (05_context R90, R94; 08_group R150, R151; 10_page R188). -/

namespace Sys2Proof.Machine

theorem State.freeIfIdle_mem (s : State) (f : Nat) : (s.freeIfIdle f).mem = s.mem := by
  unfold State.freeIfIdle
  simp only
  split
  · rfl
  · split
    · split <;> rfl
    · rfl

theorem State.decCount_mem (s : State) (f : Nat) : (s.decCount f).mem = s.mem := State.freeIfIdle_mem _ _

theorem State.settleFrame_mem (s : State) (f : Nat) : (s.settleFrame f).mem = s.mem := State.freeIfIdle_mem _ _

theorem State.countTimeout_mem (s : State) (p : Option Nat) : (s.countTimeout p).mem = s.mem := by
  unfold State.countTimeout
  dsimp only
  split
  · rfl
  · split <;> rfl

theorem State.wf_writePte {s : State} (k : Nat) (e : Quad) (h : Memory.wf s.mem) : Memory.wf (s.writePte k e).mem :=
  State.wf_arrive _ _ _ _ _ h

theorem State.wf_copyFrame {s : State} (old new : Nat) (h : Memory.wf s.mem) : Memory.wf (s.copyFrame old new).mem := by
  unfold State.copyFrame
  generalize List.range 2048 = l
  induction l generalizing s with
  | nil => exact h
  | cons i l ih => exact ih (State.wf_arrive _ _ _ _ _ h)

theorem State.wf_decideCow {s : State} (ctx leaf frame : Nat) (h : Memory.wf s.mem) : Memory.wf (s.decideCow ctx leaf frame).1.mem := by
  unfold State.decideCow
  simp only
  split
  · exact h
  · split
    · exact State.wf_writePte _ _ h
    · split
      · exact h
      · next q pl _ =>
        split
        · exact h
        · cases ht : s.takeHead q pl with
          | none => exact h
          | some x =>
            obtain ⟨n, u⟩ := x
            have hu : u.mem = s.mem := by
              unfold State.takeHead at ht
              split at ht <;> cases ht
              rfl
            simp only [State.decCount_mem]
            exact State.wf_writePte _ _ (State.wf_copyFrame _ _ (by rw [State.putFrame, hu]; exact h))

theorem State.wf_resolveNow {s : State} (ctx leaf frame : Nat) (h : Memory.wf s.mem) : Memory.wf (s.resolveNow ctx leaf frame).1.mem := by
  have hd := State.wf_decideCow ctx leaf frame h
  unfold State.resolveNow
  split <;> next he => rw [he] at hd; first | exact hd | (rw [State.settleFrame_mem]; exact hd)

theorem State.wf_resolveFor {s : State} (ctx leaf frame : Nat) (h : Memory.wf s.mem) : Memory.wf (s.resolveFor ctx leaf frame).1.mem := by
  unfold State.resolveFor
  split
  · exact State.wf_resolveNow _ _ _ h
  · next k c _ =>
    have hd := State.wf_decideCow c.ctx c.leaf c.frame h
    split <;> next he => rw [he] at hd; first | exact hd | exact h

theorem State.wf_deviceWrite {s : State} (ctx : Nat) (va : Quad) (bytes : List Byte) (h : Memory.wf s.mem) :
    Memory.wf (s.deviceWrite ctx va bytes).1.mem := by
  have go : ∀ {u : State}, Memory.wf u.mem → Memory.wf (match u.translate ctx va true with
      | .ok space key _ leaf =>
        if u.reached space key then ((u.touch leaf true).arrive key bytes 0 [] 0, true)
        else ((u.touch leaf true).countTimeout (u.portToward key), false)
      | _ => (u, false)).1.mem := by
    intro u hu
    split
    · split
      · exact State.wf_arrive _ _ _ _ _ (State.wf_touch _ _ hu)
      · rw [State.countTimeout_mem]
        exact State.wf_touch _ _ hu
    · exact hu
  unfold State.deviceWrite
  simp only
  split
  · next leaf frame _ =>
    have hr := State.wf_resolveFor ctx leaf frame h
    split
    · next he => rw [he] at hr; exact go hr
    · next he => rw [he] at hr; exact hr
  · exact go h

theorem State.beginHalt_mem (s : State) (c : Nat) (f : Halt → Halt) : (s.beginHalt c f).mem = s.mem := by
  unfold State.beginHalt
  simp only
  split <;> rfl

theorem State.enterFaulted_mem (s : State) (c : Nat) : (s.enterFaulted c).mem = s.mem := by
  unfold State.enterFaulted
  simp only
  split
  · rfl
  · split <;> rfl

theorem State.wf_putFaultRecord {s : State} (c : Nat) (r : List Byte) (h : Memory.wf s.mem) : Memory.wf (s.putFaultRecord c r).mem :=
  State.wf_deviceWrite _ _ _ h

theorem State.dropChains_mem (s : State) (gid : Nat) (g : Group) : (s.dropChains gid g).mem = s.mem := by
  unfold State.dropChains
  split
  · rfl
  · dsimp only
    split <;> rfl

theorem State.wf_endByFault {s : State} (gid tid code code2 : Nat) (h : Memory.wf s.mem) : Memory.wf (s.endByFault gid tid code code2).mem := by
  unfold State.endByFault
  split
  · exact h
  · split
    · exact h
    · simp only [State.enterFaulted_mem]
      show Memory.wf (State.dropChains _ _ _).mem
      rw [State.dropChains_mem]
      exact State.wf_putFaultRecord _ _ h

theorem State.wf_faultThread {s : State} (gid blk off : Nat) (f : Flt) (h : Memory.wf s.mem) : Memory.wf (s.faultThread gid blk off f).mem := by
  unfold State.faultThread
  split
  · exact h
  · simp only
    split
    · exact h
    · split
      · exact State.wf_endByFault _ _ _ _ h
      · split
        · exact State.wf_endByFault _ _ _ _ h
        · exact h

theorem State.wf_takeFault {s : State} (gid pid off : Nat) (f : Flt) (h : Memory.wf s.mem) : Memory.wf (s.takeFault gid pid off f).mem := by
  unfold State.takeFault
  split
  · exact h
  · exact State.wf_faultThread _ _ _ _ h

theorem State.wf_takeFaults {s : State} (gid pid off : Nat) (l : List Flt) (h : Memory.wf s.mem) : Memory.wf (s.takeFaults gid pid off l).mem := by
  induction l generalizing s with
  | nil => exact h
  | cons f l ih => exact ih (State.wf_takeFault _ _ _ _ h)

end Sys2Proof.Machine
end

