-- ==== Sys2Proof/Laws/State.lean ====
section
/-! SUPPORT. The fields of the state after each of its shared updates, one lemma for a field and an update: no proof needs to unfold a
record. The updates are `putGroup`, `putCtx`, `putRing`, `putPort` and `tick`; what reading the changed field gives comes after them. -/

namespace Sys2Proof.Machine

variable (s : State)

/-! ### putGroup -/

@[simp] theorem State.putGroup_cycle (gid : Nat) (x : Group) : (s.putGroup gid x).cycle = s.cycle := rfl
@[simp] theorem State.putGroup_agenda (gid : Nat) (x : Group) : (s.putGroup gid x).agenda = s.agenda := rfl
@[simp] theorem State.putGroup_stamp (gid : Nat) (x : Group) : (s.putGroup gid x).stamp = s.stamp := rfl
@[simp] theorem State.putGroup_fresh (gid : Nat) (x : Group) : (s.putGroup gid x).fresh = s.fresh := rfl
@[simp] theorem State.putGroup_cur (gid : Nat) (x : Group) : (s.putGroup gid x).cur = s.cur := rfl
@[simp] theorem State.putGroup_mem (gid : Nat) (x : Group) : (s.putGroup gid x).mem = s.mem := rfl
@[simp] theorem State.putGroup_pend (gid : Nat) (x : Group) : (s.putGroup gid x).pend = s.pend := rfl
@[simp] theorem State.putGroup_emax (gid : Nat) (x : Group) : (s.putGroup gid x).emax = s.emax := rfl
@[simp] theorem State.putGroup_tlast (gid : Nat) (x : Group) : (s.putGroup gid x).tlast = s.tlast := rfl
@[simp] theorem State.putGroup_accesses (gid : Nat) (x : Group) : (s.putGroup gid x).accesses = s.accesses := rfl
@[simp] theorem State.putGroup_replies (gid : Nat) (x : Group) : (s.putGroup gid x).replies = s.replies := rfl
@[simp] theorem State.putGroup_results (gid : Nat) (x : Group) : (s.putGroup gid x).results = s.results := rfl
@[simp] theorem State.putGroup_copies (gid : Nat) (x : Group) : (s.putGroup gid x).copies = s.copies := rfl
@[simp] theorem State.putGroup_full (gid : Nat) (x : Group) : (s.putGroup gid x).full = s.full := rfl
@[simp] theorem State.putGroup_bad (gid : Nat) (x : Group) : (s.putGroup gid x).bad = s.bad := rfl
@[simp] theorem State.putGroup_ctxs (gid : Nat) (x : Group) : (s.putGroup gid x).ctxs = s.ctxs := rfl
@[simp] theorem State.putGroup_rings (gid : Nat) (x : Group) : (s.putGroup gid x).rings = s.rings := rfl
@[simp] theorem State.putGroup_launches (gid : Nat) (x : Group) : (s.putGroup gid x).launches = s.launches := rfl
@[simp] theorem State.putGroup_turns (gid : Nat) (x : Group) : (s.putGroup gid x).turns = s.turns := rfl
@[simp] theorem State.putGroup_teams (gid : Nat) (x : Group) : (s.putGroup gid x).teams = s.teams := rfl
@[simp] theorem State.putGroup_groups (gid : Nat) (x : Group) : (s.putGroup gid x).groups = putAt s.groups gid x := rfl
@[simp] theorem State.putGroup_clusters (gid : Nat) (x : Group) : (s.putGroup gid x).clusters = s.clusters := rfl
@[simp] theorem State.putGroup_cores (gid : Nat) (x : Group) : (s.putGroup gid x).cores = s.cores := rfl
@[simp] theorem State.putGroup_tiles (gid : Nat) (x : Group) : (s.putGroup gid x).tiles = s.tiles := rfl
@[simp] theorem State.putGroup_engines (gid : Nat) (x : Group) : (s.putGroup gid x).engines = s.engines := rfl
@[simp] theorem State.putGroup_chunks (gid : Nat) (x : Group) : (s.putGroup gid x).chunks = s.chunks := rfl
@[simp] theorem State.putGroup_windows (gid : Nat) (x : Group) : (s.putGroup gid x).windows = s.windows := rfl
@[simp] theorem State.putGroup_frames (gid : Nat) (x : Group) : (s.putGroup gid x).frames = s.frames := rfl
@[simp] theorem State.putGroup_dieFree (gid : Nat) (x : Group) : (s.putGroup gid x).dieFree = s.dieFree := rfl
@[simp] theorem State.putGroup_pools (gid : Nat) (x : Group) : (s.putGroup gid x).pools = s.pools := rfl
@[simp] theorem State.putGroup_cows (gid : Nat) (x : Group) : (s.putGroup gid x).cows = s.cows := rfl
@[simp] theorem State.putGroup_ports (gid : Nat) (x : Group) : (s.putGroup gid x).ports = s.ports := rfl
@[simp] theorem State.putGroup_draws (gid : Nat) (x : Group) : (s.putGroup gid x).draws = s.draws := rfl
@[simp] theorem State.putGroup_shards (gid : Nat) (x : Group) : (s.putGroup gid x).shards = s.shards := rfl
@[simp] theorem State.putGroup_mod (gid : Nat) (x : Group) : (s.putGroup gid x).mod = s.mod := rfl

/-! ### putCtx -/

@[simp] theorem State.putCtx_cycle (c : Nat) (x : Context) : (s.putCtx c x).cycle = s.cycle := rfl
@[simp] theorem State.putCtx_agenda (c : Nat) (x : Context) : (s.putCtx c x).agenda = s.agenda := rfl
@[simp] theorem State.putCtx_stamp (c : Nat) (x : Context) : (s.putCtx c x).stamp = s.stamp := rfl
@[simp] theorem State.putCtx_fresh (c : Nat) (x : Context) : (s.putCtx c x).fresh = s.fresh := rfl
@[simp] theorem State.putCtx_cur (c : Nat) (x : Context) : (s.putCtx c x).cur = s.cur := rfl
@[simp] theorem State.putCtx_mem (c : Nat) (x : Context) : (s.putCtx c x).mem = s.mem := rfl
@[simp] theorem State.putCtx_pend (c : Nat) (x : Context) : (s.putCtx c x).pend = s.pend := rfl
@[simp] theorem State.putCtx_emax (c : Nat) (x : Context) : (s.putCtx c x).emax = s.emax := rfl
@[simp] theorem State.putCtx_tlast (c : Nat) (x : Context) : (s.putCtx c x).tlast = s.tlast := rfl
@[simp] theorem State.putCtx_accesses (c : Nat) (x : Context) : (s.putCtx c x).accesses = s.accesses := rfl
@[simp] theorem State.putCtx_replies (c : Nat) (x : Context) : (s.putCtx c x).replies = s.replies := rfl
@[simp] theorem State.putCtx_results (c : Nat) (x : Context) : (s.putCtx c x).results = s.results := rfl
@[simp] theorem State.putCtx_copies (c : Nat) (x : Context) : (s.putCtx c x).copies = s.copies := rfl
@[simp] theorem State.putCtx_full (c : Nat) (x : Context) : (s.putCtx c x).full = s.full := rfl
@[simp] theorem State.putCtx_bad (c : Nat) (x : Context) : (s.putCtx c x).bad = s.bad := rfl
@[simp] theorem State.putCtx_ctxs (c : Nat) (x : Context) : (s.putCtx c x).ctxs = putAt s.ctxs c x := rfl
@[simp] theorem State.putCtx_rings (c : Nat) (x : Context) : (s.putCtx c x).rings = s.rings := rfl
@[simp] theorem State.putCtx_launches (c : Nat) (x : Context) : (s.putCtx c x).launches = s.launches := rfl
@[simp] theorem State.putCtx_turns (c : Nat) (x : Context) : (s.putCtx c x).turns = s.turns := rfl
@[simp] theorem State.putCtx_teams (c : Nat) (x : Context) : (s.putCtx c x).teams = s.teams := rfl
@[simp] theorem State.putCtx_groups (c : Nat) (x : Context) : (s.putCtx c x).groups = s.groups := rfl
@[simp] theorem State.putCtx_clusters (c : Nat) (x : Context) : (s.putCtx c x).clusters = s.clusters := rfl
@[simp] theorem State.putCtx_cores (c : Nat) (x : Context) : (s.putCtx c x).cores = s.cores := rfl
@[simp] theorem State.putCtx_tiles (c : Nat) (x : Context) : (s.putCtx c x).tiles = s.tiles := rfl
@[simp] theorem State.putCtx_engines (c : Nat) (x : Context) : (s.putCtx c x).engines = s.engines := rfl
@[simp] theorem State.putCtx_chunks (c : Nat) (x : Context) : (s.putCtx c x).chunks = s.chunks := rfl
@[simp] theorem State.putCtx_windows (c : Nat) (x : Context) : (s.putCtx c x).windows = s.windows := rfl
@[simp] theorem State.putCtx_frames (c : Nat) (x : Context) : (s.putCtx c x).frames = s.frames := rfl
@[simp] theorem State.putCtx_dieFree (c : Nat) (x : Context) : (s.putCtx c x).dieFree = s.dieFree := rfl
@[simp] theorem State.putCtx_pools (c : Nat) (x : Context) : (s.putCtx c x).pools = s.pools := rfl
@[simp] theorem State.putCtx_cows (c : Nat) (x : Context) : (s.putCtx c x).cows = s.cows := rfl
@[simp] theorem State.putCtx_ports (c : Nat) (x : Context) : (s.putCtx c x).ports = s.ports := rfl
@[simp] theorem State.putCtx_draws (c : Nat) (x : Context) : (s.putCtx c x).draws = s.draws := rfl
@[simp] theorem State.putCtx_shards (c : Nat) (x : Context) : (s.putCtx c x).shards = s.shards := rfl
@[simp] theorem State.putCtx_mod (c : Nat) (x : Context) : (s.putCtx c x).mod = s.mod := rfl

/-! ### putRing -/

@[simp] theorem State.putRing_cycle (r : Nat) (x : Ring) : (s.putRing r x).cycle = s.cycle := rfl
@[simp] theorem State.putRing_agenda (r : Nat) (x : Ring) : (s.putRing r x).agenda = s.agenda := rfl
@[simp] theorem State.putRing_stamp (r : Nat) (x : Ring) : (s.putRing r x).stamp = s.stamp := rfl
@[simp] theorem State.putRing_fresh (r : Nat) (x : Ring) : (s.putRing r x).fresh = s.fresh := rfl
@[simp] theorem State.putRing_cur (r : Nat) (x : Ring) : (s.putRing r x).cur = s.cur := rfl
@[simp] theorem State.putRing_mem (r : Nat) (x : Ring) : (s.putRing r x).mem = s.mem := rfl
@[simp] theorem State.putRing_pend (r : Nat) (x : Ring) : (s.putRing r x).pend = s.pend := rfl
@[simp] theorem State.putRing_emax (r : Nat) (x : Ring) : (s.putRing r x).emax = s.emax := rfl
@[simp] theorem State.putRing_tlast (r : Nat) (x : Ring) : (s.putRing r x).tlast = s.tlast := rfl
@[simp] theorem State.putRing_accesses (r : Nat) (x : Ring) : (s.putRing r x).accesses = s.accesses := rfl
@[simp] theorem State.putRing_replies (r : Nat) (x : Ring) : (s.putRing r x).replies = s.replies := rfl
@[simp] theorem State.putRing_results (r : Nat) (x : Ring) : (s.putRing r x).results = s.results := rfl
@[simp] theorem State.putRing_copies (r : Nat) (x : Ring) : (s.putRing r x).copies = s.copies := rfl
@[simp] theorem State.putRing_full (r : Nat) (x : Ring) : (s.putRing r x).full = s.full := rfl
@[simp] theorem State.putRing_bad (r : Nat) (x : Ring) : (s.putRing r x).bad = s.bad := rfl
@[simp] theorem State.putRing_ctxs (r : Nat) (x : Ring) : (s.putRing r x).ctxs = s.ctxs := rfl
@[simp] theorem State.putRing_rings (r : Nat) (x : Ring) : (s.putRing r x).rings = putAt s.rings r x := rfl
@[simp] theorem State.putRing_launches (r : Nat) (x : Ring) : (s.putRing r x).launches = s.launches := rfl
@[simp] theorem State.putRing_turns (r : Nat) (x : Ring) : (s.putRing r x).turns = s.turns := rfl
@[simp] theorem State.putRing_teams (r : Nat) (x : Ring) : (s.putRing r x).teams = s.teams := rfl
@[simp] theorem State.putRing_groups (r : Nat) (x : Ring) : (s.putRing r x).groups = s.groups := rfl
@[simp] theorem State.putRing_clusters (r : Nat) (x : Ring) : (s.putRing r x).clusters = s.clusters := rfl
@[simp] theorem State.putRing_cores (r : Nat) (x : Ring) : (s.putRing r x).cores = s.cores := rfl
@[simp] theorem State.putRing_tiles (r : Nat) (x : Ring) : (s.putRing r x).tiles = s.tiles := rfl
@[simp] theorem State.putRing_engines (r : Nat) (x : Ring) : (s.putRing r x).engines = s.engines := rfl
@[simp] theorem State.putRing_chunks (r : Nat) (x : Ring) : (s.putRing r x).chunks = s.chunks := rfl
@[simp] theorem State.putRing_windows (r : Nat) (x : Ring) : (s.putRing r x).windows = s.windows := rfl
@[simp] theorem State.putRing_frames (r : Nat) (x : Ring) : (s.putRing r x).frames = s.frames := rfl
@[simp] theorem State.putRing_dieFree (r : Nat) (x : Ring) : (s.putRing r x).dieFree = s.dieFree := rfl
@[simp] theorem State.putRing_pools (r : Nat) (x : Ring) : (s.putRing r x).pools = s.pools := rfl
@[simp] theorem State.putRing_cows (r : Nat) (x : Ring) : (s.putRing r x).cows = s.cows := rfl
@[simp] theorem State.putRing_ports (r : Nat) (x : Ring) : (s.putRing r x).ports = s.ports := rfl
@[simp] theorem State.putRing_draws (r : Nat) (x : Ring) : (s.putRing r x).draws = s.draws := rfl
@[simp] theorem State.putRing_shards (r : Nat) (x : Ring) : (s.putRing r x).shards = s.shards := rfl
@[simp] theorem State.putRing_mod (r : Nat) (x : Ring) : (s.putRing r x).mod = s.mod := rfl

/-! ### putPort -/

@[simp] theorem State.putPort_cycle (p : Nat) (x : Port) : (s.putPort p x).cycle = s.cycle := rfl
@[simp] theorem State.putPort_agenda (p : Nat) (x : Port) : (s.putPort p x).agenda = s.agenda := rfl
@[simp] theorem State.putPort_stamp (p : Nat) (x : Port) : (s.putPort p x).stamp = s.stamp := rfl
@[simp] theorem State.putPort_fresh (p : Nat) (x : Port) : (s.putPort p x).fresh = s.fresh := rfl
@[simp] theorem State.putPort_cur (p : Nat) (x : Port) : (s.putPort p x).cur = s.cur := rfl
@[simp] theorem State.putPort_mem (p : Nat) (x : Port) : (s.putPort p x).mem = s.mem := rfl
@[simp] theorem State.putPort_pend (p : Nat) (x : Port) : (s.putPort p x).pend = s.pend := rfl
@[simp] theorem State.putPort_emax (p : Nat) (x : Port) : (s.putPort p x).emax = s.emax := rfl
@[simp] theorem State.putPort_tlast (p : Nat) (x : Port) : (s.putPort p x).tlast = s.tlast := rfl
@[simp] theorem State.putPort_accesses (p : Nat) (x : Port) : (s.putPort p x).accesses = s.accesses := rfl
@[simp] theorem State.putPort_replies (p : Nat) (x : Port) : (s.putPort p x).replies = s.replies := rfl
@[simp] theorem State.putPort_results (p : Nat) (x : Port) : (s.putPort p x).results = s.results := rfl
@[simp] theorem State.putPort_copies (p : Nat) (x : Port) : (s.putPort p x).copies = s.copies := rfl
@[simp] theorem State.putPort_full (p : Nat) (x : Port) : (s.putPort p x).full = s.full := rfl
@[simp] theorem State.putPort_bad (p : Nat) (x : Port) : (s.putPort p x).bad = s.bad := rfl
@[simp] theorem State.putPort_ctxs (p : Nat) (x : Port) : (s.putPort p x).ctxs = s.ctxs := rfl
@[simp] theorem State.putPort_rings (p : Nat) (x : Port) : (s.putPort p x).rings = s.rings := rfl
@[simp] theorem State.putPort_launches (p : Nat) (x : Port) : (s.putPort p x).launches = s.launches := rfl
@[simp] theorem State.putPort_turns (p : Nat) (x : Port) : (s.putPort p x).turns = s.turns := rfl
@[simp] theorem State.putPort_teams (p : Nat) (x : Port) : (s.putPort p x).teams = s.teams := rfl
@[simp] theorem State.putPort_groups (p : Nat) (x : Port) : (s.putPort p x).groups = s.groups := rfl
@[simp] theorem State.putPort_clusters (p : Nat) (x : Port) : (s.putPort p x).clusters = s.clusters := rfl
@[simp] theorem State.putPort_cores (p : Nat) (x : Port) : (s.putPort p x).cores = s.cores := rfl
@[simp] theorem State.putPort_tiles (p : Nat) (x : Port) : (s.putPort p x).tiles = s.tiles := rfl
@[simp] theorem State.putPort_engines (p : Nat) (x : Port) : (s.putPort p x).engines = s.engines := rfl
@[simp] theorem State.putPort_chunks (p : Nat) (x : Port) : (s.putPort p x).chunks = s.chunks := rfl
@[simp] theorem State.putPort_windows (p : Nat) (x : Port) : (s.putPort p x).windows = s.windows := rfl
@[simp] theorem State.putPort_frames (p : Nat) (x : Port) : (s.putPort p x).frames = s.frames := rfl
@[simp] theorem State.putPort_dieFree (p : Nat) (x : Port) : (s.putPort p x).dieFree = s.dieFree := rfl
@[simp] theorem State.putPort_pools (p : Nat) (x : Port) : (s.putPort p x).pools = s.pools := rfl
@[simp] theorem State.putPort_cows (p : Nat) (x : Port) : (s.putPort p x).cows = s.cows := rfl
@[simp] theorem State.putPort_ports (p : Nat) (x : Port) : (s.putPort p x).ports = writeAt Port.zero s.ports p x := rfl
@[simp] theorem State.putPort_draws (p : Nat) (x : Port) : (s.putPort p x).draws = s.draws := rfl
@[simp] theorem State.putPort_shards (p : Nat) (x : Port) : (s.putPort p x).shards = s.shards := rfl
@[simp] theorem State.putPort_mod (p : Nat) (x : Port) : (s.putPort p x).mod = s.mod := rfl

/-! ### tick -/

@[simp] theorem State.tick_cycle : s.tick.cycle = s.cycle := rfl
@[simp] theorem State.tick_agenda : s.tick.agenda = s.agenda := rfl
@[simp] theorem State.tick_stamp : s.tick.stamp = s.stamp + 1 := rfl
@[simp] theorem State.tick_fresh : s.tick.fresh = s.fresh := rfl
@[simp] theorem State.tick_cur : s.tick.cur = s.cur := rfl
@[simp] theorem State.tick_mem : s.tick.mem = s.mem := rfl
@[simp] theorem State.tick_pend : s.tick.pend = s.pend := rfl
@[simp] theorem State.tick_emax : s.tick.emax = s.emax := rfl
@[simp] theorem State.tick_tlast : s.tick.tlast = s.tlast := rfl
@[simp] theorem State.tick_accesses : s.tick.accesses = s.accesses := rfl
@[simp] theorem State.tick_replies : s.tick.replies = s.replies := rfl
@[simp] theorem State.tick_results : s.tick.results = s.results := rfl
@[simp] theorem State.tick_copies : s.tick.copies = s.copies := rfl
@[simp] theorem State.tick_full : s.tick.full = s.full := rfl
@[simp] theorem State.tick_bad : s.tick.bad = s.bad := rfl
@[simp] theorem State.tick_ctxs : s.tick.ctxs = s.ctxs := rfl
@[simp] theorem State.tick_rings : s.tick.rings = s.rings := rfl
@[simp] theorem State.tick_launches : s.tick.launches = s.launches := rfl
@[simp] theorem State.tick_turns : s.tick.turns = s.turns := rfl
@[simp] theorem State.tick_teams : s.tick.teams = s.teams := rfl
@[simp] theorem State.tick_groups : s.tick.groups = s.groups := rfl
@[simp] theorem State.tick_clusters : s.tick.clusters = s.clusters := rfl
@[simp] theorem State.tick_cores : s.tick.cores = s.cores := rfl
@[simp] theorem State.tick_tiles : s.tick.tiles = s.tiles := rfl
@[simp] theorem State.tick_engines : s.tick.engines = s.engines := rfl
@[simp] theorem State.tick_chunks : s.tick.chunks = s.chunks := rfl
@[simp] theorem State.tick_windows : s.tick.windows = s.windows := rfl
@[simp] theorem State.tick_frames : s.tick.frames = s.frames := rfl
@[simp] theorem State.tick_dieFree : s.tick.dieFree = s.dieFree := rfl
@[simp] theorem State.tick_pools : s.tick.pools = s.pools := rfl
@[simp] theorem State.tick_cows : s.tick.cows = s.cows := rfl
@[simp] theorem State.tick_ports : s.tick.ports = s.ports := rfl
@[simp] theorem State.tick_draws : s.tick.draws = s.draws := rfl
@[simp] theorem State.tick_shards : s.tick.shards = s.shards := rfl
@[simp] theorem State.tick_mod : s.tick.mod = s.mod := rfl

/-! ### What reads the changed field -/

@[simp] theorem State.group_putGroup (gid : Nat) (x : Group) : lookup (s.putGroup gid x).groups gid = some x := lookup_putAt_same _ _ _

@[simp] theorem State.ctx_putCtx (c : Nat) (x : Context) : (s.putCtx c x).ctx c = x := by
  simp [State.ctx, lookup_putAt_same]

theorem State.ctx_putCtx_other {c j : Nat} (x : Context) (h : j ≠ c) : (s.putCtx c x).ctx j = s.ctx j := by
  simp [State.ctx, lookup_putAt_other _ _ h]

@[simp] theorem State.ring_putRing (r : Nat) (x : Ring) : (s.putRing r x).ring r = x := by
  simp [State.ring, lookup_putAt_same]

theorem State.ring_putRing_other {r j : Nat} (x : Ring) (h : j ≠ r) : (s.putRing r x).ring j = s.ring j := by
  simp [State.ring, lookup_putAt_other _ _ h]

@[simp] theorem State.port_putPort (p : Nat) (x : Port) : (s.putPort p x).port p = x := by
  simp [State.port]

theorem State.port_putPort_other {p j : Nat} (x : Port) (h : j ≠ p) : (s.putPort p x).port j = s.port j := by
  simp [State.port, readAt_writeAt_other _ _ h]

@[simp] theorem State.ctx_putGroup (gid : Nat) (x : Group) (c : Nat) : (s.putGroup gid x).ctx c = s.ctx c := rfl
@[simp] theorem State.ctx_putRing (r : Nat) (x : Ring) (c : Nat) : (s.putRing r x).ctx c = s.ctx c := rfl
@[simp] theorem State.ring_putGroup (gid : Nat) (x : Group) (r : Nat) : (s.putGroup gid x).ring r = s.ring r := rfl
@[simp] theorem State.ring_putCtx (c : Nat) (x : Context) (r : Nat) : (s.putCtx c x).ring r = s.ring r := rfl
@[simp] theorem State.byte_putGroup (gid : Nat) (x : Group) (k : Nat) : (s.putGroup gid x).byte k = s.byte k := rfl
@[simp] theorem State.byte_putCtx (c : Nat) (x : Context) (k : Nat) : (s.putCtx c x).byte k = s.byte k := rfl
@[simp] theorem State.byte_putRing (r : Nat) (x : Ring) (k : Nat) : (s.putRing r x).byte k = s.byte k := rfl
@[simp] theorem State.latest_putGroup (gid : Nat) (x : Group) (k : Nat) : (s.putGroup gid x).latest k = s.latest k := rfl
@[simp] theorem State.latest_putCtx (c : Nat) (x : Context) (k : Nat) : (s.putCtx c x).latest k = s.latest k := rfl
@[simp] theorem State.latest_putRing (r : Nat) (x : Ring) (k : Nat) : (s.putRing r x).latest k = s.latest k := rfl
@[simp] theorem State.now_putGroup (gid : Nat) (x : Group) : (s.putGroup gid x).now = s.now := rfl
@[simp] theorem State.now_putCtx (c : Nat) (x : Context) : (s.putCtx c x).now = s.now := rfl
@[simp] theorem State.now_putRing (r : Nat) (x : Ring) : (s.putRing r x).now = s.now := rfl

end Sys2Proof.Machine
end

