-- ==== Sys2Proof/Laws/Words.lean ====
section
/-! SUPPORT. What the shared operations of instruction words do: the opening of a word that issues, reading a register among results on
their way, and writing results back (04_encoding R79 to R87; 08_group R140 to R144). -/

namespace Sys2Proof.Machine

/-! ### The opening -/

theorem State.issuing_some {s : State} {g : Group} {p : Pass} (h : s.issuing = some (g, p)) :
    lookup s.groups s.cur.gid = some g ∧ lookup g.passes s.cur.pid = some p := by
  unfold State.issuing at h
  split at h
  · cases h
  · next g' hg =>
    split at h
    · cases h
    · next p' hp =>
      cases h
      exact ⟨hg, hp⟩

/-- The stall check finds what R85 names. -/
theorem stallFails_iff (s : State) (g : Group) (p : Pass) (n : Needs) (vs : List View) (a : View) :
    stallFails g p s.owed s.cur.guard n vs a = true ↔ TooEarly s g p n vs a := by
  have guards : ∀ i, (i ∈ n.rp ++ match s.cur.guard with | none => [] | some (j, _) => [j])
      ↔ (i ∈ n.rp ∨ ∃ v, s.cur.guard = some (i, v)) := by
    intro i
    rw [List.mem_append]
    cases hg : s.cur.guard with
    | none => simp
    | some x => simp [Prod.ext_iff, eq_comm]
  have out : ∀ i, s.owed.busy a i = true ↔ Outstanding s a i := by
    intro i
    simp only [State.owed, outstandingReg, Outstanding, Bool.or_eq_true, List.any_eq_true, Bool.and_eq_true, beq_iff_eq, Prod.exists,
      List.contains_iff_mem]
    refine or_congr (exists_congr fun k => exists_congr fun x => ?_) (exists_congr fun k => exists_congr fun r => ?_)
    · cases x.fill <;> simp [and_assoc]
    · simp [and_assoc]
  simp only [stallFails, Bool.or_eq_true, List.any_eq_true, isEarly, TooEarly, or_assoc, Bool.and_eq_true, beq_iff_eq, decide_eq_true_eq,
    Pass.uncleared, and_assoc, out, Prod.exists]
  exact or_congr Iff.rfl (or_congr Iff.rfl (or_congr (exists_congr fun i => and_congr (guards i) Iff.rfl) Iff.rfl))

theorem Issues.decodeFault_none {s : State} {k : Kind} {n : Needs} {g : Group} {p : Pass} (h : Issues s k n g p) :
    decodeFault (s.ctx g.ctx).sys g p s.owed s.cur.guard n (k.views g p s.cycle) = none := by
  have hs : ∀ v, (g.schk && (k.views g p s.cycle).any v) = true → g.schk = true := by
    intro v hv
    simp only [Bool.and_eq_true] at hv
    exact hv.1
  unfold decodeFault
  simp only [h.accepted, Bool.not_true, Bool.false_eq_true, if_false]
  split
  · next hp =>
    simp only [Bool.and_eq_true, Bool.not_eq_true'] at hp
    have := h.privileged hp.1
    rw [hp.2] at this
    cases this
  · split
    · next hc =>
      simp only [Bool.and_eq_true, List.any_eq_true] at hc
      obtain ⟨hc, a, ha, hf⟩ := hc
      exact absurd ((stallFails_iff ..).mp hf) (h.early hc a ha)
    · rfl

/-- A word that issues goes on to its own meaning. -/
theorem Issues.opening {s : State} {k : Kind} {n : Needs} {g : Group} {p : Pass} (h : Issues s k n g p)
    (f : Group → Pass → List View → Res) : opening s k n f = f g p (k.views g p s.cycle) := by
  unfold Machine.opening
  rw [h.here]
  simp [h.may, h.calm, h.decodeFault_none]

/-! ### Reading a register -/

section Due

variable {α : Type}

/-- A result list without an entry for the register that is due by then changes no reading. -/
theorem readDue_none (tid i c : Nat) (m : List (Due α)) (best : Nat) (acc : α)
    (h : ∀ d ∈ m, d.tid = tid → d.idx = i → c < d.cyc) : readDue tid i c m best acc = acc := by
  induction m generalizing best with
  | nil => rfl
  | cons d m ih =>
    have hd := h d List.mem_cons_self
    have hn : ¬(d.tid = tid ∧ d.idx = i ∧ d.cyc ≤ c ∧ best ≤ d.cyc) := by
      rintro ⟨h1, h2, h3, -⟩
      exact absurd h3 (Nat.not_le.2 (hd h1 h2))
    rw [readDue, if_neg hn]
    exact ih _ fun d' hd' => h d' (List.mem_cons_of_mem _ hd')

theorem readDue_append_none (tid i c : Nat) (l m : List (Due α)) (best : Nat) (acc : α)
    (h : ∀ d ∈ m, d.tid = tid → d.idx = i → c < d.cyc) : readDue tid i c (l ++ m) best acc = readDue tid i c l best acc := by
  induction l generalizing best acc with
  | nil => exact readDue_none tid i c m best acc h
  | cons d l ih =>
    simp only [List.cons_append, readDue]
    split <;> exact ih _ _

/-- The last entry for the register wins when none before it is due later. -/
theorem readDue_last (tid i c : Nat) (pre post : List (Due α)) (d : Due α) (best : Nat) (acc : α) (ht : d.tid = tid) (hi : d.idx = i)
    (hc : d.cyc ≤ c) (hb : best ≤ d.cyc) (hpre : ∀ e ∈ pre, e.tid = tid → e.idx = i → e.cyc ≤ d.cyc)
    (hpost : ∀ e ∈ post, e.tid = tid → e.idx ≠ i) : readDue tid i c (pre ++ d :: post) best acc = d.val := by
  induction pre generalizing best acc with
  | nil =>
    rw [List.nil_append, readDue, if_pos ⟨ht, hi, hc, hb⟩]
    exact readDue_none _ _ _ _ _ _ fun e he h1 h2 => absurd h2 (hpost e he h1)
  | cons e pre ih =>
    have hr := fun b a hb => ih b a hb fun e' he' => hpre e' (List.mem_cons_of_mem _ he')
    simp only [List.cons_append, readDue]
    split
    · next h => exact hr _ _ (hpre e List.mem_cons_self h.1 h.2.1)
    · exact hr _ _ hb

end Due

/-! ### Positions and their cycles -/

theorem viewsFrom_cyc (g : Group) (p : Pass) (c pos : Nat) (l : List Nat) : ∀ a ∈ viewsFrom g p c pos l, c + pos / 32 ≤ a.cyc := by
  induction l generalizing pos with
  | nil => intro a h; simp [viewsFrom] at h
  | cons tid rest ih =>
    intro a h
    rcases List.mem_cons.1 h with rfl | h
    · exact Nat.le_refl _
    · have := ih _ a h
      have : pos / 32 ≤ (pos + 1) / 32 := Nat.div_le_div_right (Nat.le_succ _)
      omega

/-- Later positions issue in the same beat or a later one (R140). -/
theorem viewsFrom_ascending (g : Group) (p : Pass) (c pos : Nat) (l : List Nat) :
    (viewsFrom g p c pos l).Pairwise fun a b => a.cyc ≤ b.cyc := by
  induction l generalizing pos with
  | nil => exact List.Pairwise.nil
  | cons tid rest ih =>
    refine List.Pairwise.cons (fun b hb => ?_) (ih _)
    have := viewsFrom_cyc g p c (pos + 1) rest b hb
    have : pos / 32 ≤ (pos + 1) / 32 := Nat.div_le_div_right (Nat.le_succ _)
    show c + pos / 32 ≤ b.cyc
    omega

theorem views_ascending (k : Kind) (g : Group) (p : Pass) (c : Nat) : (k.views g p c).Pairwise fun a b => a.cyc ≤ b.cyc := by
  cases k with
  | pass =>
    simp only [Kind.views, List.pairwise_map]
    exact List.Pairwise.imp (fun _ => Nat.le_refl c) (viewsFrom_ascending g p c 0 p.positions)
  | lane => exact viewsFrom_ascending g p c 0 p.positions
  | cohort => exact viewsFrom_ascending g p c 0 p.positions

theorem views_cyc (k : Kind) (g : Group) (p : Pass) (c : Nat) : ∀ a ∈ k.views g p c, c ≤ a.cyc := by
  intro a h
  cases k with
  | pass =>
    simp only [Kind.views, List.mem_map] at h
    obtain ⟨b, -, rfl⟩ := h
    exact Nat.le_refl c
  | lane =>
    have := viewsFrom_cyc g p c 0 p.positions a h
    omega
  | cohort =>
    have := viewsFrom_cyc g p c 0 p.positions a h
    omega

/-! ### Writing back -/

theorem lastOf_split {tid : Nat} {l : List View} {a : View} (h : lastOf tid l = some a) :
    ∃ pre post, l = pre ++ a :: post ∧ a.tid = tid ∧ ∀ b ∈ post, b.tid ≠ tid := by
  induction l with
  | nil => simp [lastOf] at h
  | cons b rest ih =>
    by_cases hr : ∃ c ∈ rest, c.tid = tid
    · have h' : lastOf tid rest = some a := by
        unfold lastOf at h ⊢
        by_cases hb : b.tid = tid
        · simp only [List.filter_cons, hb, beq_self_eq_true, if_true] at h
          obtain ⟨c, hc, hct⟩ := hr
          have hne : rest.filter (fun a => a.tid == tid) ≠ [] :=
            List.ne_nil_of_mem (List.mem_filter.2 ⟨hc, by simp [hct]⟩)
          rwa [List.getLast?_cons_of_ne_nil hne] at h
        · simpa [List.filter_cons, hb] using h
      obtain ⟨pre, post, rfl, ht, hp⟩ := ih h'
      exact ⟨b :: pre, post, rfl, ht, hp⟩
    · have hnil : rest.filter (fun a => a.tid == tid) = [] := by
        rw [List.filter_eq_nil_iff]
        intro c hc hct
        exact hr ⟨c, hc, by simpa using hct⟩
      unfold lastOf at h
      by_cases hb : b.tid = tid
      · simp only [List.filter_cons, hb, beq_self_eq_true, if_true, hnil, List.getLast?_singleton, Option.some.injEq] at h
        subst h
        exact ⟨[], rest, rfl, hb, fun c hc hct => hr ⟨c, hc, hct⟩⟩
      · simp [hb, hnil] at h

theorem mem_dues {α : Type} {at_ : View → Nat} {f : Put → List (Nat × α)} {l : List (View × Put)} {d : Due α} (h : d ∈ dues at_ f l) :
    ∃ x ∈ l, d.cyc = at_ x.1 ∧ d.tid = x.1.tid ∧ (d.idx, d.val) ∈ f x.2 := by
  simp only [dues, List.mem_flatMap, List.mem_map] at h
  obtain ⟨x, hx, y, hy, rfl⟩ := h
  exact ⟨x, hx, rfl, rfl, hy⟩

theorem dues_append {α : Type} (at_ : View → Nat) (f : Put → List (Nat × α)) (l m : List (View × Put)) :
    dues at_ f (l ++ m) = dues at_ f l ++ dues at_ f m := by
  simp [dues]

section WriteBack

variable {α : Type} {at_ : View → Nat} {f : Put → List (Nat × α)} {out : View → Put} {l : List View}

/-- Reading after results were added: the law behind `Written.result`. -/
theorem readDue_dues (due : List (Due α)) (hmono : l.Pairwise fun a b => at_ a ≤ at_ b)
    (hnd : ∀ a ∈ l, ((f (out a)).map (·.1)).Nodup) {tid : Nat} {a : View} (ha : lastOf tid l = some a) {i : Nat} {x : α}
    (hx : (i, x) ∈ f (out a)) {c : Nat} (hc : at_ a ≤ c) (hdue : ∀ d ∈ due, d.tid = tid → d.idx = i → d.cyc ≤ at_ a) (acc : α) :
    readDue tid i c (due ++ dues at_ f (l.map fun a => (a, out a))) 0 acc = x := by
  obtain ⟨pre, post, rfl, hat, hpost⟩ := lastOf_split ha
  obtain ⟨o1, o2, ho⟩ := List.append_of_mem hx
  have hn := hnd a (by simp)
  rw [ho, List.map_append, List.map_cons] at hn
  have hne : ∀ y ∈ o2, y.1 ≠ i := by
    intro y hy hyi
    have := (List.nodup_append.1 hn).2.1
    rw [List.nodup_cons] at this
    exact this.1 (List.mem_map.2 ⟨y, hy, hyi⟩)
  have hsplit : due ++ dues at_ f ((pre ++ a :: post).map fun a => (a, out a))
      = (due ++ dues at_ f (pre.map fun a => (a, out a)) ++ o1.map fun y => { cyc := at_ a, tid := a.tid, idx := y.1, val := y.2 })
        ++ { cyc := at_ a, tid := a.tid, idx := i, val := x }
          :: ((o2.map fun y => { cyc := at_ a, tid := a.tid, idx := y.1, val := y.2 }) ++ dues at_ f (post.map fun a => (a, out a))) := by
    rw [List.map_append, List.map_cons, dues_append]
    simp [dues, ho]
  rw [hsplit]
  refine readDue_last tid i c _ _ _ 0 acc hat rfl hc (Nat.zero_le _) ?_ ?_
  · intro e he h1 h2
    rcases List.mem_append.1 he with he | he
    · rcases List.mem_append.1 he with he | he
      · exact hdue e he h1 h2
      · obtain ⟨y, hy, hcy, -⟩ := mem_dues he
        obtain ⟨b, hb, rfl⟩ := List.mem_map.1 hy
        rw [hcy]
        exact (List.pairwise_append.1 hmono).2.2 b hb a List.mem_cons_self
    · obtain ⟨y, -, rfl⟩ := List.mem_map.1 he
      exact Nat.le_refl _
  · intro e he h1
    rcases List.mem_append.1 he with he | he
    · obtain ⟨y, hy, rfl⟩ := List.mem_map.1 he
      exact hne y hy
    · obtain ⟨y, hy, -, hty, -⟩ := mem_dues he
      obtain ⟨b, hb, rfl⟩ := List.mem_map.1 hy
      exact absurd (hty ▸ h1) (hpost b hb)

theorem readDue_dues_other (due : List (Due α)) {tid i : Nat} (h : ∀ a ∈ l, a.tid = tid → ∀ x, (i, x) ∉ f (out a)) (c : Nat) (acc : α) :
    readDue tid i c (due ++ dues at_ f (l.map fun a => (a, out a))) 0 acc = readDue tid i c due 0 acc := by
  refine readDue_append_none _ _ _ _ _ _ _ fun d hd h1 h2 => ?_
  obtain ⟨y, hy, -, hty, hm⟩ := mem_dues hd
  obtain ⟨b, hb, rfl⟩ := List.mem_map.1 hy
  rw [h2] at hm
  exact absurd hm (h b hb (hty ▸ h1) _)

theorem readDue_dues_before (due : List (Due α)) {first : Nat} (h : ∀ a ∈ l, first ≤ at_ a) {c : Nat} (hc : c < first) (tid i : Nat)
    (acc : α) : readDue tid i c (due ++ dues at_ f (l.map fun a => (a, out a))) 0 acc = readDue tid i c due 0 acc := by
  refine readDue_append_none _ _ _ _ _ _ _ fun d hd _ _ => ?_
  obtain ⟨y, hy, hcy, -⟩ := mem_dues hd
  obtain ⟨b, hb, rfl⟩ := List.mem_map.1 hy
  have hle : first ≤ d.cyc := hcy ▸ h b hb
  omega

end WriteBack

/-! ### Threads -/

@[simp] theorem thread_putThread_same (g : Group) (tid : Nat) (t : Thread) : (g.putThread tid t).thread tid = t := by
  simp [Group.putThread, Group.thread]

theorem thread_putThread_other (g : Group) {tid j : Nat} (t : Thread) (h : j ≠ tid) : (g.putThread tid t).thread j = g.thread j := by
  simp [Group.putThread, Group.thread, lookup_putAt_other _ _ h]

theorem thread_putStatus (g : Group) (l : List View) (out : View → Put) (tid : Nat) :
    (g.putStatus (l.map fun a => (a, out a))).thread tid
      = statusAfter out (g.thread tid) (l.filter fun a => a.tid == tid && !a.helper) := by
  induction l generalizing g with
  | nil => rfl
  | cons a rest ih =>
    simp only [List.map_cons, Group.putStatus]
    rw [ih]
    by_cases hh : a.helper = true
    · simp [hh]
    · have hh' : a.helper = false := by simpa using hh
      by_cases ht : a.tid = tid
      · have hf : (a :: rest).filter (fun a => a.tid == tid && !a.helper) = a :: rest.filter fun a => a.tid == tid && !a.helper := by
          simp [ht, hh']
        rw [hf]
        show statusAfter _ _ _ = statusAfter _ _ _
        by_cases hz : (out a).flags = 0#32 ∧ (out a).dith = none
        · simp [hh', hz, statusAfter]
        · simp only [hh', hz, if_false, statusAfter, List.foldl_cons, Bool.false_eq_true]
          subst ht
          simp [Thread.addFlags]
      · have hf : (a :: rest).filter (fun a => a.tid == tid && !a.helper) = rest.filter fun a => a.tid == tid && !a.helper := by
          simp [ht]
        rw [hf]
        by_cases hz : (out a).flags = 0#32 ∧ (out a).dith = none
        · simp [hh', hz]
        · simp [hh', hz, thread_putThread_other _ _ (Ne.symm ht)]

theorem putStatus_rest (g : Group) (l : List (View × Put)) : { g.putStatus l with threads := g.threads } = g := by
  induction l generalizing g with
  | nil => rfl
  | cons a rest ih =>
    obtain ⟨a, u⟩ := a
    simp only [Group.putStatus]
    split
    · exact ih g
    · split
      · exact ih g
      · exact congrArg (fun h : Group => { h with threads := g.threads }) (ih (g.putThread a.tid _))

theorem statusAfter_regs (out : View → Put) (t : Thread) (l : List View) :
    (statusAfter out t l).v = t.v ∧ (statusAfter out t l).x = t.x ∧ (statusAfter out t l).p = t.p := by
  unfold statusAfter
  induction l generalizing t with
  | nil => exact ⟨rfl, rfl, rfl⟩
  | cons a rest ih => exact ih { t with fstat := t.fstat ||| (out a).flags, dith := (out a).dith.getD t.dith }

/-! ### The whole write-back -/

theorem at_mono (s : State) (k : Kind) (p : Pass) (lat : Nat) {l : List View} (h : l.Pairwise fun a b => a.cyc ≤ b.cyc) :
    l.Pairwise fun a b => readyAt s k p lat a ≤ readyAt s k p lat b := by
  refine h.imp fun {a b} hab => ?_
  cases k <;> simp only [readyAt]
  · omega
  · exact Nat.le_refl _
  · omega

theorem beats_pos (p : Pass) : 1 ≤ p.beats := by
  unfold Pass.beats
  omega

theorem readyAt_first (s : State) (k : Kind) (p : Pass) (lat : Nat) {a : View} (h : s.cycle ≤ a.cyc) :
    s.cycle + lat ≤ readyAt s k p lat a := by
  have := beats_pos p
  cases k <;> simp only [readyAt] <;> omega

theorem past_past (s : State) (k : Kind) (stall : Nat) (p q : Pass) (h : q.positions = p.positions) :
    Past s k stall p (q.past s.cur k s.cycle stall) := by
  have hb : q.beats = p.beats := by unfold Pass.beats; rw [h]
  refine ⟨rfl, rfl, ?_⟩
  cases k <;> simp [Pass.past, nextIssue, Kind.beats, hb]

theorem State.byte_of_rest {s t : State} (h : { t with groups := s.groups } = s) (k : Nat) :
    t.byte k = s.byte k ∧ t.latest k = s.latest k := by
  have hm : t.mem = s.mem := (congrArg State.mem h :)
  have hp : t.pend = s.pend := (congrArg State.pend h :)
  have hc : t.byte k = s.byte k := by unfold State.byte; rw [hm]
  exact ⟨hc, by unfold State.latest; rw [hc, hp]⟩

/-- A group put back with the pass of the word changed is an `OnlyPass`. -/
theorem onlyPass_putGroup {s : State} {g g₁ : Group} {p p' : Pass}
    (hg : { g₁ with threads := g.threads, dueG := g.dueG } = g)
    (hp : { p' with dueV := p.dueV, dueX := p.dueX, dueP := p.dueP, covered := p.covered, off := p.off, next := p.next, hold := p.hold } = p) :
    OnlyPass s (s.putGroup s.cur.gid { g₁ with passes := putAt g₁.passes s.cur.pid p' }) g
      { g₁ with passes := putAt g₁.passes s.cur.pid p' } p p' := by
  have hps : g₁.passes = g.passes := (congrArg Group.passes hg :)
  have hst : { s.putGroup s.cur.gid { g₁ with passes := putAt g₁.passes s.cur.pid p' } with groups := s.groups } = s := rfl
  exact {
    state := hst
    memory := State.byte_of_rest hst
    groups := fun k hk => lookup_putAt_other _ _ hk
    group := lookup_putAt_same _ _ _
    passes := fun k hk => by rw [← hps]; exact lookup_putAt_other _ _ hk
    pass := lookup_putAt_same _ _ _
    ofGroup := by
      have := congrArg (fun h : Group => { h with passes := g.passes }) hg
      exact this
    ofPass := hp }

theorem nodup_filter_keys {α : Type} {l : List (Nat × α)} (q : Nat × α → Bool) (h : (l.map (·.1)).Nodup) :
    ((l.filter q).map (·.1)).Nodup := by
  induction l with
  | nil => exact List.nodup_nil
  | cons x rest ih =>
    rw [List.map_cons, List.nodup_cons] at h
    have ih := ih h.2
    by_cases hq : q x
    · rw [List.filter_cons_of_pos hq, List.map_cons, List.nodup_cons]
      refine ⟨fun hm => h.1 ?_, ih⟩
      obtain ⟨y, hy, he⟩ := List.mem_map.1 hm
      exact List.mem_map.2 ⟨y, (List.mem_filter.1 hy).1, he⟩
    · rwa [List.filter_cons_of_neg hq]

theorem filter_dues (at_ : View → Nat) (l : List (View × Put)) :
    (dues at_ Put.p l).filter (fun d => d.idx != 0) = dues at_ (fun u => u.p.filter fun x => x.1 != 0) l := by
  induction l with
  | nil => rfl
  | cons a rest ih =>
    have hc : ∀ f : Put → List (Nat × Bool), dues at_ f (a :: rest) = dues at_ f [a] ++ dues at_ f rest := fun f =>
      dues_append at_ f [a] rest
    rw [hc, hc, List.filter_append, ih]
    congr 1
    obtain ⟨a, u⟩ := a
    simp only [dues, List.flatMap_cons, List.flatMap_nil, List.append_nil]
    induction u.p with
    | nil => rfl
    | cons y ys ihy =>
      by_cases hy : (y.1 != 0) = true
      · simp only [List.map_cons, List.filter_cons, hy, if_true, ihy]
      · simp only [List.map_cons, List.filter_cons, hy, ihy]
        rfl

theorem owedG_putG (g : Group) (pid c : Nat) (l : List (Nat × Quad)) :
    (g.putG pid c l).owedG = g.owedG ++ l.map fun y => { cyc := c, tid := 0, idx := y.1, val := y.2 } := by
  simp [Group.owedG, Group.putG]

/-- What a list of results says of a register, by the writes that it comes from. -/
theorem any_dues (at_ : View → Nat) (out : View → Put) (l : List View) (t i : Nat) :
    ((dues at_ Put.v (l.map fun a => (a, out a))).any fun d => d.tid == t && d.idx == i)
      = l.any fun a => (out a).v.any fun y => a.tid == t && y.1 == i := by
  simp [dues, List.any_flatMap, List.any_map, List.flatMap_map, Function.comp_def]

/-- Writing results back makes a word that has run, for a word without g results. -/
theorem writeBack_ran (s : State) (g : Group) (p : Pass) (k : Kind) (stall lat : Nat) (l : List View)
    (out : View → Put) (outG : List (Nat × Quad)) (hmono : l.Pairwise fun a b => a.cyc ≤ b.cyc) (hcyc : ∀ a ∈ l, s.cycle ≤ a.cyc)
    (hv : ∀ a ∈ l, ((out a).v.map (·.1)).Nodup) (hx : ∀ a ∈ l, ((out a).x.map (·.1)).Nodup)
    (hp : ∀ a ∈ l, ((out a).p.map (·.1)).Nodup) (hg : (outG.map (·.1)).Nodup) :
    Ran s (s.writeBack (g.putG s.cur.pid (s.cycle + lat) outG) p k stall lat (l.map fun a => (a, out a))) k stall lat g p l out outG := by
  let gg := g.putG s.cur.pid (s.cycle + lat) outG
  let g₁ := gg.putStatus (l.map fun a => (a, out a))
  let q := p.putResults (readyAt s k p lat) (l.map fun a => (a, out a))
  have hwb : s.writeBack gg p k stall lat (l.map fun a => (a, out a))
      = s.putGroup s.cur.gid { g₁ with passes := putAt gg.passes s.cur.pid (q.past s.cur k s.cycle stall) } := by
    unfold State.writeBack
    rfl
  have hst : { g₁ with threads := gg.threads } = gg := putStatus_rest _ _
  have hps : g₁.passes = gg.passes := (congrArg Group.passes hst :)
  have hdg : g₁.owedG = g.owedG ++ outG.map fun y => { cyc := s.cycle + lat, tid := 0, idx := y.1, val := y.2 } :=
    (congrArg Group.owedG hst :).trans (owedG_putG _ _ _ _)
  have hgg : g₁.g = g.g := (congrArg Group.g hst :)
  rw [hwb, ← hps]
  have hmono' := at_mono s k p lat hmono
  have hfirst : ∀ a ∈ l, s.cycle + lat ≤ readyAt s k p lat a := fun a ha => readyAt_first s k p lat (hcyc a ha)
  have hthread : ∀ tid, g₁.thread tid = statusAfter out (g.thread tid) (l.filter fun a => a.tid == tid && !a.helper) := fun tid =>
    thread_putStatus gg l out tid
  let p' := q.past s.cur k s.cycle stall
  let g' : Group := { g₁ with passes := putAt g₁.passes s.cur.pid p' }
  have hmem : ∀ tid, (p'.member g' tid).v = (p.member g tid).v ∧ (p'.member g' tid).x = (p.member g tid).x
      ∧ (p'.member g' tid).p = (p.member g tid).p := by
    intro tid
    unfold Pass.member
    by_cases hc : p.cohort.contains tid
    · have hc' : p'.cohort.contains tid := hc
      simp only [hc, hc', if_true]
      show (g₁.thread tid).v = _ ∧ (g₁.thread tid).x = _ ∧ (g₁.thread tid).p = _
      rw [hthread]
      exact statusAfter_regs _ _ _
    · have hc' : ¬p'.cohort.contains tid := hc
      simp only [hc, hc']
      exact ⟨rfl, rfl, rfl⟩
  refine ⟨⟨_, _, onlyPass_putGroup ?_ rfl, past_past s k stall p q rfl, ?_, ?_, ?_, ?_, hthread, ?_, ?_, ?_⟩⟩
  · exact congrArg (fun h : Group => { h with threads := g.threads, dueG := g.dueG }) hst
  · refine ⟨fun tid a ha i x hx c hc hdue => ?_, fun tid i h c => ?_, fun c hc tid i => ?_⟩
    all_goals show readDue tid i c (p.dueV ++ dues _ Put.v _) 0 (readAt Carrier.zero _ i) = _
    · exact readDue_dues p.dueV hmono' hv ha hx hc hdue _
    · rw [readDue_dues_other p.dueV h, (hmem tid).1]
      rfl
    · rw [readDue_dues_before p.dueV hfirst hc, (hmem tid).1]
      rfl
  · refine ⟨fun tid a ha i x hx' c hc hdue => ?_, fun tid i h c => ?_, fun c hc tid i => ?_⟩
    all_goals show readDue tid i c (p.dueX ++ dues _ Put.x _) 0 (readAt Carrier.zero _ i) = _
    · exact readDue_dues p.dueX hmono' hx ha hx' hc hdue _
    · rw [readDue_dues_other p.dueX h, (hmem tid).2.1]
      rfl
    · rw [readDue_dues_before p.dueX hfirst hc, (hmem tid).2.1]
      rfl
  · have hreg : ∀ tid i c, regP g' p' tid i c = if i = 0 then true else
        readDue tid i c (p.dueP ++ dues (readyAt s k p lat) (fun u => u.p.filter fun x => x.1 != 0) (l.map fun a => (a, out a))) 0
          (readAt false (p.member g tid).p i) := by
      intro tid i c
      rw [← filter_dues, ← (hmem tid).2.2]
      rfl
    refine ⟨fun tid a ha i x hx' c hc hdue => ?_, fun tid i h c => ?_, fun c hc tid i => ?_⟩
    all_goals rw [hreg]
    · have hi0 : i ≠ 0 := by simpa using (List.mem_filter.1 hx').2
      rw [if_neg hi0]
      exact readDue_dues p.dueP hmono' (fun a ha => nodup_filter_keys _ (hp a ha)) ha hx' hc hdue _
    · rw [readDue_dues_other p.dueP h]
      rfl
    · rw [readDue_dues_before p.dueP hfirst hc]
      rfl
  · exact List.filter_congr fun x _ => congrArg Bool.not (any_dues (readyAt s k p lat) out l x.2.1 x.2.2)
  · intro i x hx' c hc hdue
    show readDue 0 i c g₁.owedG 0 (readAt 0#64 g₁.g i) = x
    rw [hdg, hgg]
    obtain ⟨o1, o2, ho⟩ := List.append_of_mem hx'
    have hn := hg
    rw [ho, List.map_append, List.map_cons] at hn
    have hne : ∀ y ∈ o2, y.1 ≠ i := by
      intro y hy hyi
      have := (List.nodup_append.1 hn).2.1
      rw [List.nodup_cons] at this
      exact this.1 (List.mem_map.2 ⟨y, hy, hyi⟩)
    rw [ho, List.map_append, List.map_cons, ← List.append_assoc]
    refine readDue_last 0 i c _ _ { cyc := s.cycle + lat, tid := 0, idx := i, val := x } 0 _ rfl rfl hc (Nat.zero_le _) ?_ ?_
    · intro e he h1 h2
      rcases List.mem_append.1 he with he | he
      · obtain ⟨d, hd, rfl⟩ := List.mem_map.1 he
        exact hdue d hd h2
      · obtain ⟨y, -, rfl⟩ := List.mem_map.1 he
        exact Nat.le_refl _
    · intro e he _
      obtain ⟨y, hy, rfl⟩ := List.mem_map.1 he
      exact hne y hy
  · intro i h c
    show readDue 0 i c g₁.owedG 0 (readAt 0#64 g₁.g i) = _
    rw [hdg, hgg]
    refine readDue_append_none _ _ _ _ _ _ _ fun d hd _ h2 => ?_
    obtain ⟨y, hy, rfl⟩ := List.mem_map.1 hd
    exact absurd (h2 ▸ hy) (h y.2)
  · intro i c hc
    show readDue 0 i c g₁.owedG 0 (readAt 0#64 g₁.g i) = _
    rw [hdg, hgg]
    refine readDue_append_none _ _ _ _ _ _ _ fun d hd _ _ => ?_
    obtain ⟨y, -, rfl⟩ := List.mem_map.1 hd
    exact hc

theorem putG_nil (g : Group) (pid c : Nat) : g.putG pid c [] = g := by
  simp [Group.putG]

/-- No executing view: the word only passes by. -/
theorem writeBack_nobody (s : State) (g : Group) (p : Pass) (k : Kind) (stall lat : Nat) (out : View → Put) :
    Ran s (s.writeBack g p k stall lat []) k stall lat g p [] out [] := by
  have := writeBack_ran s g p k stall lat [] out [] List.Pairwise.nil (by simp) (by simp) (by simp) (by simp) (by simp)
  rwa [putG_nil] at this

/-- The one statement of a per-thread word that computes registers. -/
theorem laneOp_ran {s : State} {n : Needs} {g : Group} {p : Pass} (h : Issues s .lane n g p) (st : BitVec 2) (lat : Nat)
    (f : List View → View → Put) (hv : ∀ vs a, ((f vs a).v.map (·.1)).Nodup) (hx : ∀ vs a, ((f vs a).x.map (·.1)).Nodup)
    (hp : ∀ vs a, ((f vs a).p.map (·.1)).Nodup) :
    ∃ t, laneOp s st lat n f = .next t ∧ Ran s t .lane st.toNat lat g p (passing s g p) (f (p.views g s.cycle)) [] := by
  have hr := writeBack_ran s g p .lane st.toNat lat (passing s g p) (f (p.views g s.cycle)) []
    ((views_ascending .lane g p s.cycle).sublist List.filter_sublist)
    (fun a ha => views_cyc .lane g p s.cycle a (List.mem_filter.1 ha).1) (fun a _ => hv _ a) (fun a _ => hx _ a) (fun a _ => hp _ a)
    List.nodup_nil
  rw [putG_nil] at hr
  exact ⟨_, h.opening _, hr⟩

/-- The one statement of a cohort word that computes registers. -/
theorem cohortOp_ran {s : State} {n : Needs} {g : Group} {p : Pass} (h : Issues s .cohort n g p) (st : BitVec 2) (lat : Nat)
    (f : List View → View → Put) (hv : ∀ vs a, ((f vs a).v.map (·.1)).Nodup) (hx : ∀ vs a, ((f vs a).x.map (·.1)).Nodup)
    (hp : ∀ vs a, ((f vs a).p.map (·.1)).Nodup) :
    ∃ t, cohortOp s st lat n f = .next t ∧ Ran s t .cohort st.toNat lat g p (taking s .cohort g p) (f (p.views g s.cycle)) [] := by
  have hr := writeBack_ran s g p .cohort st.toNat lat (taking s .cohort g p) (f (p.views g s.cycle)) []
    ((views_ascending .cohort g p s.cycle).sublist List.filter_sublist)
    (fun a ha => views_cyc .cohort g p s.cycle a (List.mem_filter.1 ha).1) (fun a _ => hv _ a) (fun a _ => hx _ a) (fun a _ => hp _ a)
    List.nodup_nil
  rw [putG_nil] at hr
  exact ⟨_, h.opening _, hr⟩

/-- The one statement of a per-pass word that computes registers; `a` is the lowest-TID participant. -/
theorem passOp_ran {s : State} {n : Needs} {g : Group} {p : Pass} (h : Issues s .pass n g p) (st : BitVec 2)
    (fg : View → List (Nat × Quad)) (f : View → Put) {a : View} {rest : List View} (ha : taking s .pass g p = a :: rest)
    (hv : ((f a).v.map (·.1)).Nodup) (hx : ((f a).x.map (·.1)).Nodup) (hp : ((f a).p.map (·.1)).Nodup)
    (hg : ((fg a).map (·.1)).Nodup) :
    ∃ t, passOp s st n fg f = .next t
      ∧ Ran s t .pass st.toNat 4 g p (Kind.pass.views g p s.cycle) (fun _ => f a) (fg a) := by
  have hr := writeBack_ran s g p .pass st.toNat 4 (Kind.pass.views g p s.cycle) (fun _ => f a) (fg a)
    (views_ascending .pass g p s.cycle) (views_cyc .pass g p s.cycle) (fun _ _ => hv) (fun _ _ => hx) (fun _ _ => hp) hg
  refine ⟨_, ?_, hr⟩
  rw [passOp, h.opening]
  have : participants (Kind.pass.views g p s.cycle) s.cur.guard = a :: rest := ha
  simp only [this]

/-- A per-pass word that no cohort thread passes the guard of. -/
theorem passOp_nobody {s : State} {n : Needs} {g : Group} {p : Pass} (h : Issues s .pass n g p) (st : BitVec 2)
    (fg : View → List (Nat × Quad)) (f : View → Put) (ha : taking s .pass g p = []) :
    ∃ t, passOp s st n fg f = .next t ∧ Ran s t .pass st.toNat 4 g p [] (fun _ => {}) [] := by
  refine ⟨_, ?_, writeBack_nobody s g p .pass st.toNat 4 _⟩
  rw [passOp, h.opening]
  have : participants (Kind.pass.views g p s.cycle) s.cur.guard = [] := ha
  simp only [this]

end Sys2Proof.Machine
end

