-- ==== Sys2Proof/Laws/Ops.lean ====
section
/-! SUPPORT. The shared shapes of the meanings, each said once: what the opening of a word can answer, what a word without register results
leaves, what the millrace, the sluice and the page operations do with a word that issues, and what a command can answer. -/

namespace Sys2Proof.Machine

/-! ### The opening, from its answer -/

theorem issues_of_checks {s : State} {k : Kind} {n : Needs} {g : Group} {p : Pass} (here : s.issuing = some (g, p))
    (may : mayIssue s g p = true) (calm : lateOf [4] g p = [])
    (h : decodeFault (s.ctx g.ctx).sys g p s.owed s.cur.guard n (k.views g p s.cycle) = none) : Issues s k n g p := by
  unfold decodeFault at h
  split at h
  · cases h
  · next ho =>
    split at h
    · cases h
    · next hp =>
      split at h
      · cases h
      · next hs =>
        refine ⟨here, may, calm, by simpa using ho, fun hn => ?_, fun hg a ha => ?_⟩
        · simpa [hn] using hp
        · simp only [hg, Bool.true_and, List.any_eq_true, not_exists, not_and] at hs
          exact fun early => hs a ha ((stallFails_iff ..).mpr early)

/-- A word answers a next state: it waits and nothing changes, a late fault or a decoding fault is taken, or its own meaning answers. -/
theorem opening_cases {s t : State} {k : Kind} {n : Needs} {f : Group → Pass → List View → Res} (h : opening s k n f = .next t) :
    t = s ∨ ∃ g p, s.issuing = some (g, p) ∧ mayIssue s g p = true ∧
      ((lateOf [4] g p ≠ [] ∧ t = (s.putGroup s.cur.gid (g.dropLate [4] p)).takeFaults s.cur.gid s.cur.pid s.cur.at_ (lateOf [4] g p))
      ∨ (∃ code, decodeFault (s.ctx g.ctx).sys g p s.owed s.cur.guard n (k.views g p s.cycle) = some code ∧ t = s.faultAll p code 0 0)
      ∨ (Issues s k n g p ∧ f g p (k.views g p s.cycle) = .next t)) := by
  unfold opening at h
  split at h
  · cases h
  · next g p hi =>
    split at h
    · cases h
      exact .inl rfl
    · next hm =>
      have hm : mayIssue s g p = true := by simpa using hm
      refine .inr ⟨g, p, hi, hm, ?_⟩
      split at h
      · next hl =>
        cases h
        exact .inl ⟨by simpa using hl, rfl⟩
      · next hl =>
        have hl : lateOf [4] g p = [] := by simpa using hl
        simp only at h
        split at h
        · next code hd =>
          cases h
          exact .inr (.inl ⟨code, hd, rfl⟩)
        · next hd => exact .inr (.inr ⟨issues_of_checks hi hm hl hd, h⟩)

/-! ### Words without register results -/

theorem passBy_eq {s : State} {g : Group} {p : Pass} (h : s.issuing = some (g, p)) (k : Kind) (stall : Nat) (loud : Bool) :
    s.passBy k stall loud = s.movedOn g p k stall loud := by
  unfold State.passBy
  rw [h]
  cases k <;> rfl

theorem holdAt_eq {s : State} {g : Group} {p : Pass} (h : s.issuing = some (g, p)) (w : Hold) : s.holdAt w = s.waits g p w := by
  unfold State.holdAt
  rw [h]
  rfl

theorem faultAll_eq (s : State) (p : Pass) (code detail : Nat) : s.faultAll p code detail 0 = s.faulting p.cohort code detail := rfl

theorem taking_eq (s : State) (k : Kind) (g : Group) (p : Pass) : participants (k.views g p s.cycle) s.cur.guard = taking s k g p := rfl

theorem gNow_eq (s : State) (g : Group) (i : Nat) : s.gNow g i = regG g i s.cycle := rfl

/-! ### Millrace, sluice and page words -/

/-- A millrace word that issues with a participant: its check's fault, its wait at 255 commands, or its command queued (R343 to R346);
`seen` is what its checks' reads leave behind. -/
theorem millOp_issues {s : State} {n : Needs} {g : Group} {p : Pass} (h : Issues s .pass n g p) (st : BitVec 2)
    (check : Group → Option Team → Option Bad) (mk : Group → List Nat → MCmd) (also : State → State) (seen : Group → State → State)
    (hne : takers s .pass g p ≠ []) :
    millOp s st n check mk also seen = match check g (s.teamOf g) with
      | some (code, addr) => .next (((seen g s).countBad (code == 0x14)).faultAll p code 0 addr)
      | none => if g.counter 1 = 255 then .next (s.waits g p .counter)
        else .next (also ((((seen g s).passBy .pass st.toNat true).onGroup s.cur.gid fun g => g.setCounter 1 (g.counter 1 + 1)).enqueue g.core
          (mk g (takers s .pass g p)))) := by
  unfold millOp
  rw [h.opening]
  simp only [taking_eq, holdAt_eq h.here]
  split
  · next he => exact absurd he hne
  · rfl

/-- An engine word that issues with a participant (R336, R173), on the state in which its issue has read and translated (R181, R231). -/
theorem engineOp_issues {s : State} {regs : List Nat} {g : Group} {p : Pass} (h : Issues s .pass { rg := regs } g p) (st : BitVec 2)
    (mk : Group → Ordered) (hne : takers s .pass g p ≠ []) :
    engineOp s st regs mk = match s.issueEngine g (mk g) with
      | .fault c a => .next (((s.issueSeen g (mk g)).countBad (c == 0x14)).faultAll p c 0 a)
      | .cow leaf frame a => .next ((s.issueSeen g (mk g)).cowThese g.ctx leaf frame a p.cohort)
      | .go e => if g.counter e.cls = 255 then .next (s.waits g p .counter)
        else
          let s1 := ((s.issueSeen g (mk g)).passBy .pass st.toNat true).onGroup s.cur.gid fun g => g.setCounter e.cls (g.counter e.cls + 1)
          .next { s1 with engines := putAt s1.engines s1.stamp e, stamp := s1.stamp + 1 } := by
  unfold engineOp
  rw [h.opening]
  simp only [passBy_eq h.here, holdAt_eq h.here]
  split
  · next he =>
    refine absurd ?_ hne
    simpa [takers, taking] using he
  · rfl

/-- A per-pass word without a participant only moves on (R293). -/
theorem millOp_nobody {s : State} {n : Needs} {g : Group} {p : Pass} (h : Issues s .pass n g p) (st : BitVec 2)
    (check : Group → Option Team → Option Bad) (mk : Group → List Nat → MCmd) (also : State → State) (seen : Group → State → State)
    (hn : takers s .pass g p = []) :
    millOp s st n check mk also seen = .next (s.movedOn g p .pass st.toNat false) := by
  unfold millOp
  rw [h.opening]
  simp only [taking_eq, passBy_eq h.here]
  split
  · rfl
  · next he => exact absurd hn he

/-! ### Commands -/

/-- The end of a command is a write of its ring, or nothing. -/
theorem done_eq (s : State) (o : Order) (status result : Nat) : s.done o status result = s ∨ ∃ c, lookup (s.ring o.ring).cmds o.seq = some c
    ∧ s.done o status result = s.ends o.ring o.seq c status result := by
  unfold State.done State.finishCmd
  simp only
  split
  · exact .inl rfl
  · next c h => exact .inr ⟨c, h, rfl⟩

theorem startCommand_eq (s : State) (ring seq : Nat) : s.startCommand ring seq = s ∨ ∃ c, lookup (s.ring ring).cmds seq = some c
    ∧ s.startCommand ring seq = s.starts_ ring seq c := by
  unfold State.startCommand
  simp only
  split
  · exact .inl rfl
  · next c h => exact .inr ⟨c, h, rfl⟩

theorem done_rest (s : State) (o : Order) (status result : Nat) : { s.done o status result with rings := s.rings } = s := by
  rcases done_eq s o status result with h | ⟨c, _, h⟩
  · rw [h]
  · rw [h]; rfl

theorem startCommand_rest (s : State) (ring seq : Nat) : { s.startCommand ring seq with rings := s.rings } = s := by
  rcases startCommand_eq s ring seq with h | ⟨c, _, h⟩
  · rw [h]
  · rw [h]; rfl

/-- A command always answers a next state: it waits, or it is done with the status of the first check that fails, or its own rule or that of
a recording queue answers (R104, R105, R111). -/
theorem command_cases (s : State) (ring : Nat) (c : Spec) (own : State → Order → Option State) (rec_ : Option (State → Order → State)) :
    command s ring c own rec_ = .next s ∨ ∃ seq w o, s.nextCmd ring = some (seq, w) ∧ Order.ring o = ring ∧ o.seq = seq ∧ o.words = w
      ∧ ((∃ status ∈ [1, 2, 3, 6], command s ring c own rec_ = .next ((s.startCommand ring seq).done o status 0))
        ∨ (∃ t, own (s.startCommand ring seq) o = some t ∧ command s ring c own rec_ = .next t)
        ∨ ∃ f, rec_ = some f ∧ command s ring c own rec_ = .next (f (s.startCommand ring seq) o)) := by
  unfold command
  cases hn : s.nextCmd ring with
  | none => exact .inl rfl
  | some q =>
    obtain ⟨seq, w⟩ := q
    simp only
    generalize (if isSys ring = true then fld (w.getD 0 0) 37 32 else ring / 16) = x
    split
    · exact .inl rfl
    · split
      · exact .inr ⟨seq, w, _, rfl, rfl, rfl, rfl, .inl ⟨2, by simp, rfl⟩⟩
      · split
        · exact .inr ⟨seq, w, _, rfl, rfl, rfl, rfl, .inl ⟨3, by simp, rfl⟩⟩
        · split
          · cases rec_ with
            | none => exact .inr ⟨seq, w, _, rfl, rfl, rfl, rfl, .inl ⟨6, by simp, rfl⟩⟩
            | some f => exact .inr ⟨seq, w, _, rfl, rfl, rfl, rfl, .inr (.inr ⟨f, rfl, rfl⟩)⟩
          · split
            · exact .inr ⟨seq, w, _, rfl, rfl, rfl, rfl, .inl ⟨1, by simp, rfl⟩⟩
            · cases ho : own (s.startCommand ring seq)
                { ring := ring, seq := seq, ctx := x, words := w } with
              | none => exact .inl rfl
              | some t => exact .inr ⟨seq, w, _, rfl, rfl, rfl, rfl, .inr (.inl ⟨t, ho, rfl⟩)⟩

end Sys2Proof.Machine
end

