-- ==== Sys2Proof/Tests/Slice0.lean ====
section
/-! SUPPORT. The author's tests: instruction words written out from the spec decode to what they stand for; ill-formed terms are refused; small
runs of one step; and for every statement of Certificates/Slice0/Obligations.lean, for each of its clauses, a state and operands that meet its
hypotheses. Expected words are the examples printed in 04_encoding and 14_isa_control to 18_isa_matrix, or are built from the tables there. -/

namespace Sys2Proof.Tests

set_option maxRecDepth 4000
set_option Elab.async false

open Sys2Proof.Machine

/-! ### Words -/

/-- 04_encoding R61, R74: the 16-bit words. -/
theorem test_words_short : decodeTableWord 16 0x4040 = some (.mov16 1 4) ∧ decodeTableWord 16 0x1044 = some (.iadd16 1 1)
    ∧ decodeTableWord 16 0x0000 = none ∧ decodeTableWord 32 0x00404069 = some (.mov 0 1 4) := by decide +kernel

/-- 15_isa_integer R283 to R291: the printed examples. -/
theorem test_words_integer : decodeTableWord 32 0x20612009 = some (.iaddW 0 4 6 8) ∧ decodeTableWord 32 0x0C210C11 = some (.imad 0 4 2 3)
    ∧ decodeTableWord 32 0x230A0871 = some (.sel 0 2 5 6 1) ∧ decodeTableWord 32 (0x230A0871 + 2 ^ 30) = none
    ∧ decodeTableWord 32 0x00C71C49 = some (.shri 0 7 7 3) ∧ decodeTableWord 32 0x3F800461 = some (.ldih 0 1 0x3F80)
    ∧ decodeTableWord 32 0x00030459 = some (.ldi 0 1 3) ∧ decodeTableWord 32 0x08708491 = some (.pand 0 4 7 1)
    ∧ decodeTableWord 32 0x08113C89 = some (.fcmp 0 7 9 1 2) := by decide +kernel

/-- 15_isa_integer R294 to R303: the printed examples. -/
theorem test_words_uniform_and_lanes : decodeTableWord 32 0x1440C0A1 = some (.gadd 0 3 4 5) ∧ decodeTableWord 32 0x0C20B8C1 = some (.gcmp 0 6 5 2 3)
    ∧ decodeTableWord 32 0x28920CC9 = some (.rshfx 0 8 9 10) ∧ decodeTableWord 32 0x0041A0D1 = some (.crfadd 0 6 4)
    ∧ decodeTableWord 32 0x0041A0D7 = some (.crfadd 3 6 4) ∧ decodeTableWord 32 0x0020C0D9 = some (.vany 0 6 2 0)
    ∧ decodeTableWord 32 0x000608E1 = some (.vbal 0 2 3) ∧ decodeTableWord 32 0x004140E9 = some (.matchRank 0 5 4) := by decide +kernel

/-- 16_isa_float R305 to R321: the printed examples. -/
theorem test_words_float : decodeTableWord 32 0x08115109 = some (.ffma 0 0 0 5 1 2) ∧ decodeTableWord 32 0x04314139 = some (.ffin 0 0 5 3 1)
    ∧ decodeTableWord 32 0x04318139 = some (.ffin 0 0 6 3 1) ∧ decodeTableWord 32 0x0810C101 = some (.fadd 0 0 0 3 1 2)
    ∧ decodeTableWord 32 0x08110121 = some (.fdiv 0 0 0 4 1 2) ∧ decodeTableWord 32 0x04008571 = some (.rngu 0 2 0 1) := by decide +kernel

/-- 14_isa_control R265 to R281: the printed examples; the barrier words b2 from the tables of R268, where the printed ones differ. -/
theorem test_words_control : decodeTableWord 32 0x00000B89 = some (.jmp 0 2) ∧ decodeTableWord 32 0x00C00B91 = some (.brc 0 2 3 0)
    ∧ decodeTableWord 32 0x00200399 = some (.brx 0 2) ∧ decodeTableWord 32 0x00000FA1 = some (.call 0 3)
    ∧ decodeTableWord 32 0x200003A9 = some (.exit 0 0 1) ∧ decodeTableWord 32 0x01C003A9 = some (.exit 0 7 0)
    ∧ decodeTableWord 32 0x0020C2D1 = some (.bwait 0 3 2) ∧ decodeTableWord 32 0x0001C6E1 = some (.bargCount 0 7)
    ∧ decodeTableWord 32 0x002006B1 = some (.waite 0 1 2) ∧ decodeTableWord 32 0x0C8006E9 = some (.pnmin 0 8 3)
    ∧ decodeTableWord 32 0x0C028EE9 = some (.pnrd 0 10 3) ∧ decodeTableWord 32 0x00500331 = some (.trap 0 5) := by decide +kernel

theorem test_words_system : decodeTableWord 32 0xC0200301 = some (.tspawn 0 0 2) ∧ decodeTableWord 32 0x38D30309 = some (.trange 0 12 13 14)
    ∧ decodeTableWord 32 0x00610311 = some (.tclaim 0 4 6) ∧ decodeTableWord 32 0x00000319 = some (.tflush 0)
    ∧ decodeTableWord 32 0x00000321 = some (.acqx 0) ∧ decodeTableWord 32 0x00000329 = some (.relx 0)
    ∧ decodeTableWord 32 0x00000339 = some (.tretResume 0) ∧ decodeTableWord 32 0x00000739 = some (.tretSkip 0)
    ∧ decodeTableWord 32 0x00000B39 = some (.tretRetire 0) ∧ decodeTableWord 32 0x01908345 = some (.smov 2 2 0x019)
    ∧ decodeTableWord 32 0x01118349 = some (.sset 0 6 0x011) ∧ decodeTableWord 32 0x00000351 = some (.halt 0) := by decide +kernel

/-- 17_isa_memory R324 to R342: the printed examples. -/
theorem test_words_memory : decodeTableWord 32 0x47211581 = some (.ld 0 1 1 0 4 2 7 1) ∧ decodeTableWord 32 0xC0114999 = some (.st 0 2 0 5 1 0)
    ∧ decodeTableWord 32 0x021105E9 = some (.ldfe 0 1 4 1 2 0) ∧ decodeTableWord 32 0x825041F9 = some (.stcmp 0 1 5 2 2)
    ∧ decodeTableWord 32 0x106002B9 = some (.qpost 0 0 6 16 0) ∧ decodeTableWord 32 0x0931A601 = some (.atomCas 0 6 3 9 0)
    ∧ decodeTableWord 32 0xC9318209 = some (.redAdd 0 6 3 9) := by decide +kernel

theorem test_words_engines : decodeTableWord 32 0x00C41641 = some (.stg 0 5 4 3) ∧ decodeTableWord 32 0xFFC41E39 = some (.ldg 0 7 4 (-1))
    ∧ decodeTableWord 32 0x14400229 = some (.pin 0 0 4 5) ∧ decodeTableWord 32 0x00000231 = some (.unpin 0 0)
    ∧ decodeTableWord 32 0x24818251 = some (.pgalloc 0 6 8 9) ∧ decodeTableWord 32 0x00000E11 = some (.fence 0 3 0)
    ∧ decodeTableWord 32 0x00100E11 = some (.fence 0 3 1) ∧ decodeTableWord 32 0xC3200219 = some (.pftch 0 2 3)
    ∧ decodeTableWord 32 0xC3200E21 = some (.czero 0 2 3) ∧ decodeTableWord 32 0x4A980A81 = some (.copy 0 2 8 9 10 0 1 0)
    ∧ decodeTableWord 32 0x0A980691 = some (.gath 0 1 8 9 10 0 0 0) ∧ decodeTableWord 32 0x1A9812A1 = some (.copyr 0 4 8 9 10 1 0)
    ∧ decodeTableWord 32 0x855103C1 = some (.mma 0 0 4 4 5 1 2) ∧ decodeTableWord 32 0x0C251FD9 = some (.mstatProg 0 4 9) := by decide +kernel

/-! ### Ill-formed terms -/

/-- Each check of WellFormed.lean refuses a term that breaks it. -/
theorem test_ill_formed_words : (wellFormed (.mov16 0 0) || wellFormed (.stall 0) || wellFormed (.icmp 0 6 1 2 3) || wellFormed (.ncmp 0 7 1 2 3)
    || wellFormed (.fcvt 0 0 0 1 2 14) || wellFormed (.ffin 0 7 1 2 0) || wellFormed (.ffin 0 0 1 2 15) || wellFormed (.fpack 0 7 0 1 2 3)
    || wellFormed (.fpk8 0 0 1 2 3 14) || wellFormed (.funpk 0 0 1 2 5) || wellFormed (.ftoi 0 8 1 2 0) || wellFormed (.itof 0 1 2 14)
    || wellFormed (.ld 0 2 1 0 4 2 7 1) || wellFormed (.ldf 0 14 1 2 3 0) || wellFormed (.stfF32 0 7 1 2 3) || wellFormed (.fence 0 5 0)
    || wellFormed (.copy 0 1 2 3 4 0 0 1) || wellFormed (.copyt 0 1 2 3 0 1) || wellFormed (.gath 0 1 2 3 4 0 0 1) || wellFormed (.scat 0 1 2 3 4 0 0 1)
    || wellFormed (.copyr 0 0 2 3 4 5 0) || wellFormed (.mma 0 5 0 1 2 0 0) || wellFormed (.mmas 0 4 0 1 2 0 0) || wellFormed (.mmax 0 14 0 1 2 0 0)
    || wellFormed (.mldc 0 0 1 14 0) || wellFormed (.mstc 0 0 1 7 0 0) || wellFormed (.mstat 0 1 3)) = false := by decide +kernel

theorem test_ill_formed_events : (wellFormed (.tailWrite 1028 0) || wellFormed (.contextRegisterWrite 64 0 0) || wellFormed (.portEnableWrite 18 true)
    || wellFormed (.teamAdmission 192) || wellFormed (.taskTake 1536) || wellFormed (.engineCommandRetire 0 4) || wellFormed (.hbmScrub 24 [] [])
    || wellFormed (.portTrainingSuccess 0 4096 0) || wellFormed (.peerRequest 0 0 20 []) || wellFormed (.d2dBoundaryTimeout 38)
    || wellFormed (.powerMeasurement (10 * 2 ^ 16) 0 0) || wellFormed (.thermalTrip 114) || wellFormed (.peerErrorAnswer 3 0 false))
    = false := by decide +kernel

/-! ### Small states -/

/-- Checks that a word issues, as one computation. -/
def issuesB (s : State) (k : Kind) (n : Needs) (g : Group) (p : Pass) : Bool :=
  decide (s.issuing = some (g, p)) && mayIssue s g p && (lateOf [4] g p).isEmpty && operandsOk p s.cur.guard n && (!n.priv || (s.ctx g.ctx).sys)
    && (!g.schk || (k.views g p s.cycle).all fun a => !stallFails g p s.owed s.cur.guard n (k.views g p s.cycle) a)

theorem issues_of {s : State} {k : Kind} {n : Needs} {g : Group} {p : Pass} (h : issuesB s k n g p = true) : Issues s k n g p := by
  simp only [issuesB, Bool.and_eq_true, decide_eq_true_eq, Bool.or_eq_true, Bool.not_eq_true', List.isEmpty_iff, List.all_eq_true] at h
  obtain ⟨⟨⟨⟨⟨h1, h2⟩, h3⟩, h4⟩, h5⟩, h6⟩ := h
  refine ⟨h1, h2, h3, h4, fun hn => ?_, fun hg a ha => ?_⟩
  · rcases h5 with h | h
    · rw [hn] at h; cases h
    · exact h
  · rcases h6 with h | h
    · rw [hg] at h; cases h
    · exact fun early => absurd (h a ha) (by rw [(stallFails_iff ..).mpr early]; decide)

/-- Nothing listed is in nothing. -/
theorem none_in {α : Type} {P : Nat → α → Prop} : ∀ k x, (k, x) ∈ ([] : List (Nat × α)) → P k x := fun _ _ h => (List.not_mem_nil h).elim

/-- A page table at 0x1000 to 0x4000 and, from VA 0x10000 up in steps of a page: an HBM leaf, a copy-on-write one, none, a counted one, a host
one, a peer one and a read-only one; A and D are set. -/
def pages : Table Byte :=
  [(0x1000, 0x2001), (0x2000, 0x3001), (0x3000, 0x4001), (0x4008, 0x23280073), (0x4010, 0x2329007F), (0x4020, 0x232A0077), (0x4028, 0x232B0273),
    (0x4030, 0x00100000232C0173), (0x4038, 0x232D0071)].foldl (fun m e => writeBytes m e.1 (leBytes 8 e.2)) []

def words (l : List (Nat × Nat)) : Table Carrier := l.map fun x => (x.1, { w := BitVec.ofNat 32 x.2, s := false })
def quads (l : List (Nat × Nat)) : Table Quad := l.map fun x => (x.1, BitVec.ofNat 64 x.2)

/-- Four threads of pass 0 with v registers. -/
def thr (v : Nat → List (Nat × Nat)) : Table Thread :=
  (List.range 4).map fun t => (t, { Thread.blank with dith := dithStart 0 t, place := .pass 0, v := words (v t) })

/-- A running group of them, with g registers. -/
def grp (v : Nat → List (Nat × Nat)) (g : List (Nat × Nat)) : Group := { oneWordGroup with threads := thr v, g := quads g }

/-- Context 0 of the tests: a system context with the page table, one kernel of two words after the BLK, and a handler kernel. -/
def ctx0 : Context :=
  { Context.free with
    st := 2, sys := true, ptroot := 0x1000, handlerV := true, handlerKern := 1
    images := [(0, { base := 0, kernels := [oneWordKernel 32 0, { oneWordKernel 32 0 with handler := true, threads := 0 }] })] }

/-- A state whose only group is `g`, at cycle 100, with pass 0 at the word after its BLK. -/
def here (g : Group) : State :=
  { State.reset with
    cycle := 100, stamp := 10, cur := { gid := 0, pid := 0, at_ := 2, next := 4, guard := none, hint := none },
    mem := pages, ctxs := [(0, ctx0)], clusters := [(0, { Cluster.zero with team := some 0 })], teams := [(0, oneWordTeam)], groups := [(0, g)] }

/-- The plain group of the tests, its pass, and the state with it. -/
def g0 : Group := grp (fun _ => []) []
def p0 : Pass := oneWordPass
def s0 : State := here g0

/-- s0 after a change of its group, of its pass. -/
def with_ (f : Group → Group) : State := here (f g0)
def gp (h : Pass → Pass) (g : Group) : Group := { g with passes := [(0, h p0)] }

/-! ### Decoding and stepping -/

theorem met_decodeEncode : wellFormed (.iadd 0 1 2 3) = true ∧ (codeOf (.iadd 0 1 2 3)).isSome ∧ wellFormed (.mma 0 4 15 9 8 15 3) = true
    ∧ (codeOf (.mma 0 4 15 9 8 15 3)).isSome := by decide +kernel

theorem met_encodeDecode : decode (bytesOf 4 0x20612009) = (.instr (.iaddW 0 4 6 8), 4) ∧ decode (bytesOf 2 0x4040) = (.instr (.mov16 1 4), 2) := by
  decide +kernel

/-- A word, a guarded word and a word that is no instruction, where the next step fetches them. -/
theorem met_stepRunsTheNextChoice_word : let s := State.reset.withFetchWord 32 0x20612009
    s.agenda = [.issue 0 0] ∧ lookup s.groups 0 = some oneWordGroup ∧ lookup oneWordGroup.passes 0 = some p0 ∧ p0.off < 4096
    ∧ s.code oneWordGroup p0.handler = some (oneWordKernel 32 0x20612009)
    ∧ decode ((oneWordKernel 32 0x20612009).bytesAt p0.blk p0.off) = (.instr (.iaddW 0 4 6 8), 4) := by decide +kernel

theorem met_stepRunsTheNextChoice_guarded : let s := State.reset.withFetchWord 32 0x40401026
    s.code oneWordGroup p0.handler = some (oneWordKernel 32 0x40401026)
    ∧ decode ((oneWordKernel 32 0x40401026).bytesAt p0.blk p0.off) = (.guard 1 true, 2) ∧ p0.off + 1 < 4096
    ∧ isGuardable ((oneWordKernel 32 0x40401026).bytesAt p0.blk (p0.off + 1)) = true
    ∧ decode ((oneWordKernel 32 0x40401026).bytesAt p0.blk (p0.off + 1)) = (.instr (.mov16 1 4), 2) := by decide +kernel

/-- The same word behind an IF of p97; and a second group on the core whose pass has waited 256 cycles longer. -/
theorem met_stepRunsTheNextChoice_noPredicate : decode ((oneWordKernel 32 0x40401C26).bytesAt p0.blk p0.off) = (.guard 97 true, 2)
    ∧ 96 ≤ (97#7).toNat ∧ isGuardable ((oneWordKernel 32 0x40401C26).bytesAt p0.blk (p0.off + 1)) = true := by decide +kernel

def crowded : State :=
  { s0 with cycle := 600, groups := [(0, gp (fun p => { p with next := 600 }) g0), (1, { g0 with grpid := 1 })], agenda := [.issue 0 0] }

theorem met_stepRunsTheNextChoice_outranked : ({ crowded with agenda := [] }.advanceTo 600).outranked
      ((0, gp (fun p => { p with next := 600 }) g0), (0, { p0 with next := 600 })) = true
    ∧ ({ crowded with agenda := [] }.advanceTo 600).outranked ((1, { g0 with grpid := 1 }), (0, p0)) = false := by decide +kernel

theorem met_stepRunsTheNextChoice_rejected : (State.reset.withFetchWord 32 0x00003009).code oneWordGroup p0.handler = some (oneWordKernel 32 0x00003009)
    ∧ decode ((oneWordKernel 32 0x00003009).bytesAt p0.blk p0.off) = (.reject .reserved, 4) := by decide +kernel

theorem met_stepRunsTheNextChoice_event : let s : State := { State.reset with agenda := [.event .bringUp, .tick 7] }
    s.agenda = .event .bringUp :: [.tick 7] ∧ isEvent .bringUp = true ∧ { s with agenda := [.tick 7] }.agenda = .tick 7 :: [] := by decide +kernel

/-- A step that answers, from a memory in canonical form, with a context that stays. -/
theorem met_everyStep : Memory.wf (State.reset.withFetchWord 32 0x20612009).mem = true
    ∧ (match step (State.reset.withFetchWord 32 0x20612009) with
      | .next t => decide ((t.ctx 0).st = 2) && decide (((State.reset.withFetchWord 32 0x20612009).ctx 0).st = 2)
      | _ => false) = true := by decide +kernel

/-! ### Registers -/

/-- A result due at once after one due earlier, a register that has none, a result that comes before one due later. -/
theorem met_registersReadTheirLatestResult : let d : Due Carrier := { cyc := 9, tid := 1, idx := 5, val := Carrier.ofWord 7 }
    let q := { p0 with dueV := [{ d with cyc := 9, val := Carrier.ofWord 3 }] }
    let r := { p0 with dueV := [{ d with cyc := 10, val := Carrier.ofWord 3 }] }
    (d.cyc ≤ 9 ∧ ∀ e ∈ q.dueV, e.tid = 1 → e.idx = 5 → e.cyc ≤ d.cyc) ∧ (d.tid ≠ 2 ∨ d.idx ≠ 5 ∨ 9 < d.cyc) ∧ 8 < d.cyc
    ∧ (∃ e ∈ r.dueV, e.tid = 1 ∧ e.idx = 5 ∧ e.cyc ≤ 10 ∧ d.cyc < e.cyc) := by decide +kernel

/-! ### Register words -/

theorem met_integerWords : (∃ e, arithmetic (.iadd 0 1 2 3) = some e ∧ Issues s0 e.kind e.needs g0 p0)
    ∧ ∃ e, bitwork (.shl 1 61 60 59) = some e ∧ Issues s0 e.kind e.needs g0 p0 :=
  ⟨⟨_, rfl, issues_of (by decide +kernel)⟩, _, rfl, issues_of (by decide +kernel)⟩

theorem met_movesComparesAndLanes : (∃ e, moves (.mov 0 1 2) = some e ∧ Issues s0 e.kind e.needs g0 p0)
    ∧ (∃ e, laneMoves (.rshfx 0 8 9 10) = some e ∧ Issues s0 e.kind e.needs g0 p0)
    ∧ ∃ e, collectives (.vany 0 6 2 0) = some e ∧ Issues s0 e.kind e.needs g0 p0 :=
  ⟨⟨_, rfl, issues_of (by decide +kernel)⟩, ⟨_, rfl, issues_of (by decide +kernel)⟩, _, rfl, issues_of (by decide +kernel)⟩

/-- SEL, with a result for v[6] of thread 2 that comes too late for the word. -/
def pSel : Pass := { p0 with dueV := [{ cyc := 105, tid := 2, idx := 6, val := Carrier.ofWord 7 }] }
def gSel : Group := { g0 with passes := [(0, pSel)] }
theorem met_sel : Issues (here gSel) .lane { rv := [(6, 1), (5, 1)], wv := [(5, 1)], rp := [2] } gSel pSel
    ∧ (∃ x ∈ passing (here gSel) gSel pSel, x.tid = 2 ∧ x.helper = false ∧ (lookup gSel.threads x.tid).isSome
      ∧ ∀ y ∈ pSel.dueV, y.tid = x.tid → y.idx = 6 → x.cyc < y.cyc) ∧ (0 : BitVec 2) = 0 ∧ (1 : BitVec 2) ≠ 0 := by
  refine ⟨issues_of (by decide +kernel), ?_, rfl, by decide⟩
  have : (passing (here gSel) gSel pSel).any (fun x => decide (x.tid = 2) && !x.helper && (lookup gSel.threads x.tid).isSome
      && pSel.dueV.all fun y => !(y.tid == x.tid && y.idx == 6) || decide (x.cyc < y.cyc)) = true := by decide +kernel
  obtain ⟨x, hx, h⟩ := List.any_eq_true.mp this
  simp only [Bool.and_eq_true, decide_eq_true_eq, Bool.not_eq_true', List.all_eq_true, Bool.or_eq_true, Bool.and_eq_false_imp, beq_iff_eq, beq_eq_false_iff_ne] at h
  exact ⟨x, hx, h.1.1.1, h.1.1.2, h.1.2, fun y hy ht hi => (h.2 y hy).resolve_left fun n => n ht hi⟩

theorem met_uniformWords : ∃ e, uniforms (.gadd 0 3 4 5) = some e ∧ Issues s0 .pass e.needs g0 p0 := ⟨_, rfl, issues_of (by decide +kernel)⟩

theorem met_floatWords : (∃ e, floatArithmetic (.fadd 0 0 0 3 1 2) = some e ∧ Issues s0 e.kind e.needs g0 p0)
    ∧ (∃ e, floatChoice (.fabs 0 0 0 3 1) = some e ∧ Issues s0 e.kind e.needs g0 p0)
    ∧ (∃ e, floatSpecial (.frsq 0 0 0 3 1) = some e ∧ Issues s0 e.kind e.needs g0 p0)
    ∧ (∃ e, choices (.fmin 0 0 0 3 1 2) = some e ∧ Issues s0 .lane e.needs g0 p0)
    ∧ Issues s0 .cohort { rv := [(4, 1)], wv := [(6, 1)] } g0 p0 ∧ taking s0 .cohort g0 p0 ≠ [] :=
  ⟨⟨_, rfl, issues_of (by decide +kernel)⟩, ⟨_, rfl, issues_of (by decide +kernel)⟩, ⟨_, rfl, issues_of (by decide +kernel)⟩,
    ⟨_, rfl, issues_of (by decide +kernel)⟩, issues_of (by decide +kernel), by decide +kernel⟩

/-- 4, 3 with its sticky bit, and −0 as carriers. -/
def four : Carrier := Carrier.ofWord 0x40800000
def pastThree : Carrier := { w := 0x40400000#32, s := true }
def minusZero : Carrier := Carrier.ofWord 0x80000000

/-- Each class of operand of the float functions: NaN, the infinities, zeros, numbers on and off a grid, a square, powers of 2. -/
theorem met_floatFunctions : 0x7F800000 < magBits quietNaN ∧ magBits (infinity true) = 0x7F800000 ∧ isFinite minusZero ∧ numberOf minusZero = 0
    ∧ magBits minusZero = 0 ∧ isFinite pastThree ∧ 0 < numberOf pastThree ∧ numberOf (flipped pastThree) < 0 ∧ isFinite four
    ∧ numberOf four = two_ 2 ∧ numberOf four = (4 : Int) ∧ numberOf pastThree ≤ numberOf four ∧ (floatFormat 3).isSome
    ∧ (two_ (2 * -1) * numberOf four ≤ 1 ∧ 1 < two_ (2 * (-1 + 1)) * numberOf four) ∧ 128 ≤ numberOf (Carrier.ofWord 0x43000000) := by
  unfold isFinite; decide +kernel

theorem met_fcvtGrid : floatFormat 3 = some ⟨4, -6, 448, false, true⟩ ∧ OnGrid (numberOf pastThree) 1 (max (1 - (4 + 2) + 1) (-6 - 4 - 1)) 48
    ∧ OnGrid (numberOf four) 2 (max (2 - (4 + 2) + 1) (-6 - 4 - 1)) 32 := ⟨rfl, by unfold OnGrid; decide +kernel, by unfold OnGrid; decide +kernel⟩

/-- Exact numbers: 0, −3/4 and 7; a number of each kind for every clause of the kernel. -/
theorem met_numericKernel : let x : Ex := { neg := true, n := 3, d := 4, e := 0 }
    let z : Ex := { neg := true, n := 0, d := 1, e := 0 }
    x.d ≠ 0 ∧ x.rat ≠ 0 ∧ z.d ≠ 0 ∧ z.rat = 0 ∧ x.rat + ({ x with neg := false } : Ex).rat = 0 ∧ two_ (-1) ≤ sizeOf_ x.rat ∧ sizeOf_ x.rat < two_ 0
    ∧ isFinite pastThree ∧ (0 : Nat) ≤ sizeOf_ x.rat ∧ sizeOf_ x.rat < (0 : Nat) + 1 ∧ intBounds 9 = some (-128, 127) ∧ (0 : Nat) < 2 ^ 32
    ∧ (floatFmt 3).isSome ∧ (floatFmt 5).isSome := by unfold isFinite; decide +kernel

theorem met_numericKernelGrid : let x : Ex := { neg := true, n := 3, d := 4, e := 0 }
    OnGrid x.rat (-1) (max (-1 - 4 + 1) (-6 - 4 + 1)) 12 ∧ OnGrid x.rat (-1) (max (-1 - 1 + 1) (-9)) 1 :=
  ⟨by unfold OnGrid; decide +kernel, by unfold OnGrid; decide +kernel⟩

/-- Finite operands below 128 and above 0, and two in order. -/
theorem met_specialFunctionBounds : isFinite four ∧ numberOf four < 128 ∧ 0 < numberOf four ∧ isFinite pastThree ∧ 0 < numberOf pastThree
    ∧ numberOf pastThree ≤ numberOf four ∧ numberOf (rngu 5 7) ≤ numberOf (rngu 5 7) := by
  refine ⟨?_, ?_, ?_, ?_, ?_, ?_, Rat.le_refl⟩ <;> (try unfold isFinite) <;> decide +kernel

theorem met_floatConversions : wellFormed (.ffin 0 0 5 3 1) = true ∧ ∃ e, conversions (.ffin 0 0 5 3 1) = some e ∧ Issues s0 e.kind e.needs g0 p0 :=
  ⟨by decide +kernel, _, rfl, issues_of (by decide +kernel)⟩

/-! ### Extended registers and control -/

def gNo : Group := { g0 with grant := false }
def xqueued (free : Nat) : State := { s0 with clusters := [(0, { Cluster.zero with xfree := free, xqueue := [(0, 4)] })] }
/-- Changes of pennants on their way to the copies of cores 1 and 0. -/
def change1 : Change := { core := 1, pen := 2, val := 7, gid := 0, tid := 0, at_ := 60 }
def change0 : Change := { core := 0, pen := 3, val := 9, gid := 0, tid := 1, at_ := 61 }
def moving : State := { s0 with teams := [(0, { oneWordTeam with moving := [change1, change0] })] }

theorem met_extendedRegisters : Issues s0 .lane { wv := [(5, 1)], rx := [3], ext := true } g0 p0 ∧ g0.grant = true
    ∧ Issues (here gNo) .lane { wv := [(5, 1)], rx := [3], ext := true } gNo p0 ∧ Issues s0 .lane { rv := [(61, 1)], ext := true } g0 p0
    ∧ Issues (here gNo) .lane { rv := [(61, 1)], ext := true } gNo p0 ∧ gNo.grant = false :=
  ⟨issues_of (by decide +kernel), rfl, issues_of (by decide +kernel), issues_of (by decide +kernel), issues_of (by decide +kernel), rfl⟩

theorem met_grantsAndPennantCopies : ((xqueued 4).cluster 0).xqueue = [(0, 4)] ∧ 4 ≤ ((xqueued 4).cluster 0).xfree ∧ lookup (xqueued 4).groups 0 = some g0
    ∧ ((xqueued 3).cluster 0).xfree < 4 ∧ lookup moving.teams 0 = some { oneWordTeam with moving := [change1] ++ change0 :: [] }
    ∧ change0.core = 8 % 8 ∧ ∀ d ∈ [change1], d.core ≠ 8 % 8 := by decide +kernel

/-- An access of thread 1 on its way under token 2. -/
def access1 : Access :=
  { gid := 0, pid := 0, tids := [1], helper := false, tok := 2, addr := 0x10000, space := .hbm, key := 0x23280000, size := 4, act := .read
    fill := some (.words 5 1), acquire := false, cls := 0, since := 71, ctx := 0 }
def loading : State := { s0 with accesses := [(5, access1)] }
/-- The word before offset 4096. -/
def atEnd : State := { s0 with cur := { s0.cur with at_ := 4094, next := 4096 } }
def debugged : State := { s0 with ctxs := [(0, { ctx0 with debug := true })] }
def halted : State := { s0 with ctxs := [(0, { ctx0 with halt := some (Halt.begin 70) })] }

theorem met_escapes : Issues s0 .pass {} g0 p0 ∧ (∀ i, (7#3).getLsbD i = true → s0.tokenPending 0 i = false)
    ∧ (∀ tid ∈ p0.cohort, ∀ l ∈ (g0.thread tid).late, (7#3).getLsbD l.tok = false) ∧ Issues loading .pass {} g0 p0
    ∧ (4#3).getLsbD 2 = true ∧ loading.tokenPending loading.cur.gid 2 = true ∧ s0.cur.next < 4096
    ∧ Issues atEnd .pass {} g0 p0 ∧ 4096 ≤ atEnd.cur.next :=
  ⟨issues_of (by decide +kernel), fun _ _ => rfl, by decide +kernel, issues_of (by decide +kernel), by decide +kernel, by decide +kernel, by decide,
    issues_of (by decide +kernel), by decide⟩

theorem met_trapsAndHalt : Issues s0 .lane {} g0 p0 ∧ (s0.ctx g0.ctx).debug = false ∧ Issues debugged .pass {} g0 p0 ∧ (debugged.ctx g0.ctx).debug = true
    ∧ Reaches s0 g0 p0 ∧ Issues s0 .pass { priv := true } g0 p0 ∧ takers s0 .pass g0 p0 ≠ [] ∧ (s0.ctx g0.ctx).halt = none
    ∧ Issues halted .pass { priv := true } g0 p0 ∧ takers halted .pass g0 p0 ≠ [] ∧ (halted.ctx g0.ctx).halt = some (Halt.begin 70) :=
  ⟨issues_of (by decide +kernel), rfl, issues_of (by decide +kernel), rfl, ⟨by decide +kernel, by decide +kernel, by decide +kernel⟩,
    issues_of (by decide +kernel), by decide +kernel, rfl, issues_of (by decide +kernel), by decide +kernel, rfl⟩

/-- A kernel of two blocks: block 0 falls through to block 1. -/
def twoBlocks : Kernel := { oneWordKernel 32 0 with blocks := [some 0, some 0] }
def inTwo : State := { s0 with ctxs := [(0, { ctx0 with images := [(0, { base := 0, kernels := [twoBlocks] })] })] }

/-- A jump to a valid block and to none, a CALL whose fall-through exists, an EXIT whose threads retire. -/
theorem met_terminators : (∃ e, terminators inTwo g0 (.jmp 0 1) = some e ∧ Issues inTwo .lane e.needs g0 p0 ∧ inTwo.code g0 p0.handler = some twoBlocks
      ∧ e.link = false ∧ (∀ x, ∀ b, e.go twoBlocks p0 x = some b → (twoBlocks.block b).isSome))
    ∧ (∃ e, terminators inTwo g0 (.jmp 0 2) = some e ∧ Issues inTwo .lane e.needs g0 p0 ∧ ∀ x, ∃ b, e.go twoBlocks p0 x = some b ∧ twoBlocks.block b = none)
    ∧ (∃ e, terminators inTwo g0 (.call 0 1) = some e ∧ Issues inTwo .lane e.needs g0 p0 ∧ (twoBlocks.block (twoBlocks.fall p0.blk)).isSome
      ∧ ∀ x, ∀ b, e.go twoBlocks p0 x = some b → (twoBlocks.block b).isSome) := by
  refine ⟨⟨_, rfl, issues_of (by decide +kernel), by decide +kernel, rfl, fun x b h => ?_⟩, ⟨_, rfl, issues_of (by decide +kernel), fun x => ⟨2, rfl, rfl⟩⟩,
    ⟨_, rfl, issues_of (by decide +kernel), by decide +kernel, fun x b h => ?_⟩⟩ <;> (cases h; rfl)

/-- A pass of one thread: its view is the only one. -/
def p1 : Pass := { p0 with cohort := [0], quad := false }
def gOne (g : Group) : Group := { g with passes := [(0, p1)] }
def g1 : Group := gOne g0
def s1 : State := here g1

theorem met_specialRegisters : specialExists (BitVec.toNat 0x019#12) ∧ 64 ≤ s1.regs g1
    ∧ Issues s1 .lane { wv := [(5, 1)], priv := decide (0x800 ≤ BitVec.toNat 0x801#12) } g1 p1
    ∧ Issues s1 .lane { rv := [(5, 1)], priv := decide (0x800 ≤ BitVec.toNat 0x800#12) } g1 p1 ∧ specialExists (BitVec.toNat 0x800#12)
    ∧ (BitVec.toNat 0x800#12 ≠ 0x801 ∧ BitVec.toNat 0x800#12 ∈ [0x011, 0x012, 0x019, 0x800]) ∧ specialExists (BitVec.toNat 0x014#12)
    ∧ (∃ x, passing s1 g1 p1 = [x] ∧ x.helper = false) := by
  refine ⟨.inl (by decide), by decide +kernel, issues_of (by decide +kernel), issues_of (by decide +kernel), .inr (.inl rfl), by decide, .inl (by decide),
    ⟨_, rfl, rfl⟩⟩

/-- One thread whose v[5] asks for mode `m` of bank `b`, with the requests already waiting. -/
def gBank (b m : Nat) : Group := gOne (grp (fun _ => [(5, b + 64 * m)]) [])
def sBank (b m : Nat) (l : List (Nat × Nat × Nat × Nat)) : State :=
  { here (gBank b m) with clusters := [(0, { Cluster.zero with team := some 0, changes := l })] }

theorem refused_team : RefusedMode s0 (s0.cluster 0) 0 0 := .inr (.inr (.inr ⟨by decide +kernel, by decide, 0, oneWordTeam, by decide +kernel, by decide +kernel,
  by decide +kernel⟩))
theorem accepted_change {s : State} {cl : Cluster} (h : cl.mode 40 = 0) : ¬ RefusedMode s cl 40 1 := by
  rintro (h1 | h1 | h1 | ⟨h1, -⟩)
  · cases h1
  · cases h1
  · cases h1
  · rw [h] at h1; cases h1
theorem accepted_same {s : State} {cl : Cluster} : ¬ RefusedMode s cl 5 1 := by
  rintro (h1 | h1 | h1 | ⟨-, h1, -⟩)
  · cases h1
  · cases h1
  · cases h1
  · exact h1 rfl

/-- Bank 63, a bank in the mode asked for, one in another, and one behind a request; then the same requests in their turn. -/
theorem met_bankModes : Issues (sBank 63 1 []) .lane { rv := [(5, 1)], priv := true } (gBank 63 1) p1 ∧ p1.hold = .none
    ∧ (∃ x, (p1.views (gBank 63 1) 100).filter (fun v => v.passes none) = [x] ∧ x.helper = false ∧ x.tid ∈ p1.cohort ∧ (x.v 5).w.toNat % 64 = 63)
    ∧ RefusedMode (sBank 63 1 []) ((sBank 63 1 []).cluster 0) 63 1
    ∧ Issues (sBank 5 1 []) .lane { rv := [(5, 1)], priv := true } (gBank 5 1) p1 ∧ ¬ RefusedMode (sBank 5 1 []) ((sBank 5 1 []).cluster 0) 5 1
    ∧ ((sBank 5 1 []).cluster 0).mode 5 = 1 ∧ Issues (sBank 40 1 []) .lane { rv := [(5, 1)], priv := true } (gBank 40 1) p1
    ∧ ¬ RefusedMode (sBank 40 1 []) ((sBank 40 1 []).cluster 0) 40 1 ∧ ((sBank 40 1 []).cluster 0).mode 40 ≠ 1
    ∧ Issues (sBank 40 1 [(3, 0, 40, 0)]) .lane { rv := [(5, 1)], priv := true } (gBank 40 1) p1
    ∧ (∀ c ∈ ((sBank 40 1 [(3, 0, 40, 0)]).cluster 0).changes, c.1 ≠ 0) ∧ ∃ c ∈ ((sBank 40 1 [(3, 0, 40, 0)]).cluster 0).changes, c.2.2.1 = 40 :=
  ⟨issues_of (by decide +kernel), rfl, ⟨_, rfl, by decide +kernel, by decide +kernel, by decide +kernel⟩, .inr (.inl rfl), issues_of (by decide +kernel),
    accepted_same, by decide +kernel, issues_of (by decide +kernel), accepted_change (by decide +kernel), by decide +kernel, issues_of (by decide +kernel),
    by decide +kernel, by decide +kernel⟩

theorem met_bankTurns : ((sBank 0 0 [(0, 0, 0, 0)]).cluster 0).changes = [(0, 0, 0, 0)] ∧ RefusedMode s0 (s0.cluster 0) 0 0
    ∧ ((sBank 5 1 [(0, 0, 5, 1)]).cluster 0).changes = [(0, 0, 5, 1)] ∧ ¬ RefusedMode s0 (s0.cluster 0) 5 1 ∧ (s0.cluster 0).mode 5 = 1
    ∧ ((sBank 40 1 [(0, 0, 40, 1)]).cluster 0).changes = [(0, 0, 40, 1)] ∧ ¬ RefusedMode s0 (s0.cluster 0) 40 1 ∧ (s0.cluster 0).mode 40 ≠ 1
    ∧ Memory.wf s0.mem = true ∧ 40 < 64 ∧ 1 < 4 :=
  ⟨by decide +kernel, refused_team, by decide +kernel, accepted_same, by decide +kernel, by decide +kernel, accepted_change (by decide +kernel),
    by decide +kernel, by decide +kernel, by decide, by decide⟩

/-- The first core, and the last of the module. -/
theorem met_coresAreNumbered : g0.core < 1536 ∧ Issues s0 .lane { wv := [(5, 1)] } g0 p0 ∧ { g0 with core := 1535 }.core < 1536
    ∧ Issues (here { g0 with core := 1535 }) .lane { wv := [(5, 1)] } { g0 with core := 1535 } p0 :=
  ⟨by decide, issues_of (by decide +kernel), by decide, issues_of (by decide +kernel)⟩

/-! ### Exceptions -/

def fault3 : Flt := { tid := 3, code := 4, detail := 0, addr := 0x10001 }
def noHandler : State := { s0 with ctxs := [(0, { ctx0 with handlerV := false })] }
/-- Every thread of the pass is in its handler, from block 0 and the word at offset 2. -/
def gBack : Group :=
  { g0 with threads := (thr fun _ => []).map fun (k, t) => (k, { t with res := { blk := 0, off := 2, cause := 5 }, fcode := 4 }) }

theorem met_faultsAreTaken : lookup s0.groups 0 = some g0 ∧ lookup g0.passes 0 = some p0 ∧ fault3.tid ∈ p0.cohort ∧ (g0.thread fault3.tid).res.cause ≠ 5
    ∧ (s0.handler g0).isSome ∧ lookup noHandler.groups 0 = some g0 ∧ noHandler.handler g0 = none ∧ lookup (here gBack).groups 0 = some gBack
    ∧ (gBack.thread fault3.tid).res.cause = 5 ∧ g0.dead = false ∧ gBack.dead = false
    ∧ lookup (here { g0 with dead := true }).groups 0 = some { g0 with dead := true } := by decide +kernel

/-- Thread 2 has a result for v[5] that is due in five cycles, and the stall check is on. -/
def pEarly : Pass := { p0 with dueV := [{ cyc := 105, tid := 2, idx := 5, val := Carrier.ofWord 7 }] }
def gEarly : Group := { g0 with schk := true, passes := [(0, pEarly)] }
def unprivileged (g : Group) : State := { here g with ctxs := [(0, { ctx0 with sys := false })] }
def gLate : Group := g0.putThread 1 { g0.thread 1 with late := [{ tok := 4, code := 0x0F, addr := 0x60000 }] }
def gSoon : Group := gp (fun p => { p with next := 101 }) g0

theorem met_decodingFaults : Reaches s0 g0 p0 ∧ operandsOk p0 s0.cur.guard { rv := [(62, 1)] } = false
    ∧ Reaches (here gEarly) gEarly pEarly ∧ operandsOk pEarly none { rv := [(5, 1)] } = true ∧ gEarly.schk = true
    ∧ (∃ a ∈ Kind.lane.views gEarly pEarly (here gEarly).cycle,
        TooEarly (here gEarly) gEarly pEarly { rv := [(5, 1)] } (Kind.lane.views gEarly pEarly (here gEarly).cycle) a)
    ∧ Reaches (unprivileged g0) g0 p0 ∧ ((unprivileged g0).ctx g0.ctx).sys = false ∧ operandsOk p0 none {} = true
    ∧ operandsOk p0 none { wv := [(5, 1)] } = true ∧ operandsOk p0 none { rv := [(5, 1)] } = true
    ∧ (∃ i k n, wellFormed i = true ∧ registerWord i = none ∧ checkedWord (here gEarly) gEarly i = some (k, n) ∧ n.rv = [(5, 1)] ∧ k = .lane)
    ∧ (∃ i k n, wellFormed i = true ∧ registerWord i = none ∧ checkedWord s0 g0 i = some (k, n) ∧ operandsOk p0 s0.cur.guard n = false)
    ∧ ∀ w at_ after left, p0.hold ≠ .beats w at_ after left ∧ pEarly.hold ≠ .beats w at_ after left := by
  refine ⟨⟨by decide +kernel, by decide +kernel, by decide +kernel⟩, by decide +kernel, ⟨by decide +kernel, by decide +kernel, by decide +kernel⟩,
    by decide +kernel, rfl, (List.any_eq_true.mp (by decide +kernel)).imp fun a h => ⟨h.1, (stallFails_iff ..).mp h.2⟩, ⟨by decide +kernel, by decide +kernel, by decide +kernel⟩, rfl, rfl, rfl, rfl,
    ⟨.btest 0 1 5 0, _, _, by decide, rfl, rfl, rfl, rfl⟩, ⟨.btest 0 1 62 0, _, _, by decide, rfl, rfl, by decide +kernel⟩, fun _ _ _ _ => ⟨fun h => (by cases h), fun h => (by cases h)⟩⟩

theorem met_waits : (here gSoon).issuing = some (gSoon, { p0 with next := 101 }) ∧ mayIssue (here gSoon) gSoon { p0 with next := 101 } = false
    ∧ (here gLate).issuing = some (gLate, p0) ∧ mayIssue (here gLate) gLate p0 = true ∧ lateOf [4] gLate p0 ≠ []
    ∧ (arithmetic (.iadd 0 1 2 3)).isSome := by decide +kernel

theorem arrived_of {s : State} {p : Pass} {tid : Nat} (ha : s.accesses = []) (hr : s.results = []) (hd : (p.dueV, p.dueX, p.dueP) = ([], [], [])) :
    Arrived s p tid := by
  simp only [Prod.mk.injEq] at hd
  refine ⟨fun _ _ h => ?_, fun _ _ h => ?_, fun _ h => ?_, fun _ h => ?_, fun _ h => ?_⟩
  · rw [ha] at h; cases h
  · rw [hr] at h; cases h
  · rw [hd.1] at h; cases h
  · rw [hd.2.1] at h; cases h
  · rw [hd.2.2] at h; cases h

theorem met_returnsFromTheHandler : Issues (here gBack) .lane {} gBack p0
    ∧ (here gBack).kernel gBack.ctx gBack.slot gBack.kern = some (oneWordKernel 32 0)
    ∧ ((taking (here gBack) .lane gBack p0).all fun x => decide (x.th.res.cause = 5) && ((oneWordKernel 32 0).block x.th.res.blk).isSome
      && !(oneWordKernel 32 0).terminatorAt x.th.res.blk x.th.res.off) = true
    ∧ (taking (here gBack) .lane gBack p0).length = 4 ∧ (∀ tid, Arrived (here gBack) p0 tid) ∧ Issues s0 .lane {} g0 p0
    ∧ ((taking s0 .lane g0 p0).all fun x => decide (x.th.res.cause ≠ 5)) = true :=
  ⟨issues_of (by decide +kernel), rfl, by decide +kernel, by decide +kernel, fun _ => arrived_of rfl rfl rfl, issues_of (by decide +kernel), by decide +kernel⟩

/-- One thread whose record stands at offset 4095; and four of which thread 1 still awaits a load. -/
def gEdge : Group :=
  { g1 with threads := (thr fun _ => []).map fun (k, t) => (k, { t with res := { blk := 0, off := 4095, cause := 5 }, fcode := 4 }) }

theorem met_returnsFromTheHandler_edges : Issues (here gEdge) .lane {} gEdge p1 ∧ (∀ tid, Arrived (here gEdge) p1 tid)
    ∧ (∃ x, taking (here gEdge) .lane gEdge p1 = [x] ∧ x.th.res.cause = 5 ∧ ((oneWordKernel 32 0).block x.th.res.blk).isSome
      ∧ (oneWordKernel 32 0).terminatorAt x.th.res.blk x.th.res.off = false
      ∧ 4096 ≤ (oneWordKernel 32 0).bodyAt x.th.res.blk x.th.res.off
          + (oneWordKernel 32 0).lenAt x.th.res.blk ((oneWordKernel 32 0).bodyAt x.th.res.blk x.th.res.off))
    ∧ ((here gEdge).handler gEdge).isSome ∧ Issues { here gBack with accesses := [(5, access1)] } .lane {} gBack p0
    ∧ (∃ x ∈ taking { here gBack with accesses := [(5, access1)] } .lane gBack p0, x.th.res.cause = 5
      ∧ ¬ Arrived { here gBack with accesses := [(5, access1)] } p0 x.tid) := by
  refine ⟨issues_of (by decide +kernel), fun _ => arrived_of rfl rfl rfl, ⟨_, rfl, by decide +kernel, by decide +kernel, by decide +kernel, by decide +kernel⟩,
    by decide +kernel, issues_of (by decide +kernel), ?_⟩
  obtain ⟨x, hx, h⟩ := List.any_eq_true.mp (by decide +kernel :
    ((taking { here gBack with accesses := [(5, access1)] } .lane gBack p0).any fun x => decide (x.tid = 1) && decide (x.th.res.cause = 5)) = true)
  simp only [Bool.and_eq_true, decide_eq_true_eq] at h
  refine ⟨x, hx, h.2, fun a => ?_⟩
  have := a.accesses 5 access1 (List.mem_singleton.mpr rfl) rfl (by rw [h.1]; decide) rfl
  cases this

/-! ### Barriers, counters and pennants -/

def bar (expect arrive sectors : Nat) : Barrier :=
  { Barrier.zero with expect := BitVec.ofNat 16 expect, arrive := BitVec.ofNat 16 arrive, sectors := BitVec.ofNat 32 sectors }
def gBar (b : Barrier) : Group := { g0 with bars := [(63, b)], g := quads [(4, 2)] }
/-- Thread 0 waits at barrier 63. -/
def gWaits : Group := { gBar (bar 2 2 0) with threads := (thr fun _ => []).map fun (k, t) => (k, if k = 0 then { t with wait := .barrier 63 } else t) }

/-- All of two arrivals, the first of two, and two with a sector missing. -/
theorem met_phasesComplete : lookup (here (gBar (bar 2 2 0))).groups 0 = some (gBar (bar 2 2 0)) ∧ 0 < 2 ∧ 2 ≤ ((gBar (bar 2 2 0)).bar 63).arrive.toNat
    ∧ ((gBar (bar 2 2 0)).bar 63).expect ≠ 0 ∧ ((gBar (bar 2 2 0)).bar 63).heldArr = 0 ∧ 2 = ((gBar (bar 2 2 0)).bar 63).arrive.toNat
    ∧ ((gBar (bar 2 2 0)).bar 63).sectors = 0 ∧ 1 < ((gBar (bar 2 2 0)).bar 63).arrive.toNat ∧ ((gBar (bar 2 2 1)).bar 63).sectors ≠ 0
    ∧ (gWaits.thread 0).wait = .barrier 63 := by decide +kernel

/-- Counts of 0 and of one too many, the first arrival, and the last for a count of 2 and for all. -/
theorem met_groupBarrier : lookup g0.passes 0 = some p0 ∧ 3 ∈ p0.cohort ∧ g0.nthr < 5 ∧ (0 < 4 ∧ 4 ≤ g0.nthr) ∧ g0.gbar.count = none ∧ g0.gbar.arrived = 0
    ∧ { g0 with gbar := { count := some (2, false), arrived := 1 } }.gbar.arrived + 1 = 2
    ∧ { g0 with gbar := { count := some (4, true), arrived := 3 } }.gbar.arrived + 1 = 4
    ∧ { g0 with gbar := { count := some (2, false), arrived := 1 } }.gbar.count = some (2, false) ∧ 3 ≠ 2 ∧ 3 ≤ g0.nthr := by decide +kernel

theorem met_barrierWords_set : (63 : BitVec 6).toNat < (gBar (bar 0 0 0)).nbars ∧ Issues (here (gBar (bar 0 0 0))) .pass { rg := [4] } (gBar (bar 0 0 0)) p0
    ∧ takers (here (gBar (bar 0 0 0))) .pass (gBar (bar 0 0 0)) p0 ≠ []
    ∧ binitBad (gBar (bar 0 0 0)) 63 ((regG (gBar (bar 0 0 0)) 4 100).toNat % 2 ^ 16) = false
    ∧ binitBad (gBar (bar 0 0 0)) 63 ((regG (gBar (bar 0 0 0)) 5 100).toNat % 2 ^ 16) = true
    ∧ Issues (here (gBar (bar 0 0 0))) .pass { rg := [5] } (gBar (bar 0 0 0)) p0 :=
  ⟨by decide +kernel, issues_of (by decide +kernel), by decide +kernel, by decide +kernel, by decide +kernel, issues_of (by decide +kernel)⟩

theorem met_barrierWords_arrive : let g := gBar (bar 4 4 0)
    Issues (here g) .lane {} g p0 ∧ takers (here g) .lane g p0 ≠ [] ∧ (g.bar 63).expect ≠ 0
    ∧ (∀ t ∈ takers (here g) .lane g p0, (here g).fenceMet 0 t g 0 = true) ∧ (takers (here g) .lane g p0).length ≤ (g.bar 63).arrive.toNat
    ∧ Issues (here g) .pass {} g p0 ∧ takers (here g) .pass g p0 ≠ [] ∧ (g.bar 63).arrive ≠ 0 ∧ Issues (here g) .pass { rg := [4] } g p0 :=
  ⟨issues_of (by decide +kernel), by decide +kernel, by decide +kernel, by decide +kernel, by decide +kernel, issues_of (by decide +kernel),
    by decide +kernel, by decide +kernel, issues_of (by decide +kernel)⟩

/-- Two of four arrivals have a place and a sector is missing; none has; and a barrier that nothing has set up. -/
theorem met_barrierWords_block : let g := gBar (bar 4 2 1)
    let h := gBar (bar 4 0 0)
    let n := gBar (bar 0 0 0)
    Issues (here g) .lane {} g p0 ∧ takers (here g) .lane g p0 ≠ [] ∧ (g.bar 63).expect ≠ 0
    ∧ (∀ t ∈ takers (here g) .lane g p0, (here g).fenceMet 0 t g 0 = true) ∧ (g.bar 63).arrive.toNat < (takers (here g) .lane g p0).length
    ∧ (g.bar 63).sectors ≠ 0 ∧ Issues (here h) .lane {} h p0 ∧ (h.bar 63).expect ≠ 0 ∧ (h.bar 63).arrive = 0 ∧ Issues (here h) .pass {} h p0
    ∧ (n.bar 63).expect = 0 ∧ Issues (here n) .lane {} n p0 ∧ takers (here n) .lane n p0 ≠ [] ∧ Issues (here n) .pass {} n p0
    ∧ Issues (here n) .pass { rg := [4] } n p0 ∧ Issues (here n) .lane { rv := [(5, 1)], wp := [95] } n p0
    ∧ Issues (here n) .lane { rv := [(5, 1)], wv := [(5, 1)] } n p0 :=
  ⟨issues_of (by decide +kernel), by decide +kernel, by decide +kernel, by decide +kernel, by decide +kernel, by decide +kernel,
    issues_of (by decide +kernel), by decide +kernel, by decide +kernel, issues_of (by decide +kernel), by decide +kernel, issues_of (by decide +kernel),
    by decide +kernel, issues_of (by decide +kernel), issues_of (by decide +kernel), issues_of (by decide +kernel), issues_of (by decide +kernel)⟩

/-- Phase 15: a thread that awaits phase 14 goes on, one that awaits 31, which is 15 modulo 16, blocks. -/
def gPhase (v : Nat) : Group := { grp (fun _ => [(5, v)]) [] with bars := [(63, { bar 4 4 0 with phase := 15 })] }

theorem met_barrierWords_wait : Issues (here (gPhase 14)) .lane { rv := [(5, 1)], wp := [95] } (gPhase 14) p0 ∧ ((gPhase 14).bar 63).expect ≠ 0
    ∧ Issues (here (gPhase 14)) .lane { rv := [(5, 1)], wv := [(5, 1)] } (gPhase 14) p0
    ∧ ((passing (here (gPhase 14)) (gPhase 14) p0).all fun x => decide ((((gPhase 14).bar 63).phase.toNat : Int) ≠ x.n 5 % 16)) = true
    ∧ Issues (here (gPhase 31)) .lane { rv := [(5, 1)], wv := [(5, 1)] } (gPhase 31) p0
    ∧ ((passing (here (gPhase 31)) (gPhase 31) p0).all fun x =>
      decide ((((gPhase 31).bar 63).phase.toNat : Int) = x.n 5 % 16) && !x.th.woken) = true :=
  ⟨issues_of (by decide +kernel), by decide +kernel, issues_of (by decide +kernel), by decide +kernel, issues_of (by decide +kernel), by decide +kernel⟩

def gCounts : Group := { g0 with count := [(3, 255)] }
def sets (free : Nat) (g : Group) : State := { here g with clusters := [(0, { Cluster.zero with team := some 0, xfree := free })] }

theorem met_groupBarrierCountersAndGrants : Issues s0 .lane {} g0 p0
    ∧ ((taking s0 .lane g0 p0).all fun x => !x.th.woken && s0.fenceMet 0 x.tid g0 0) = true ∧ Issues s0 .lane { rg := [7] } g0 p0
    ∧ Issues (here gCounts) .pass {} gCounts p0 ∧ takers (here gCounts) .pass gCounts p0 ≠ [] ∧ gCounts.counter 3 ≤ (255 : BitVec 8).toNat
    ∧ (254 : BitVec 8).toNat < gCounts.counter 3 ∧ g0.grant = true ∧ takers s0 .pass g0 p0 ≠ []
    ∧ Issues (sets 4 gNo) .pass { ext := true } gNo p0 ∧ takers (sets 4 gNo) .pass gNo p0 ≠ [] ∧ (∀ tid ∈ p0.cohort, (gNo.thread tid).woken = false)
    ∧ ((sets 4 gNo).cluster 0).xqueue = [] ∧ gNo.nthr ≤ ((sets 4 gNo).cluster 0).xfree ∧ Issues s0 .pass { ext := true } g0 p0 :=
  ⟨issues_of (by decide +kernel), by decide +kernel, issues_of (by decide +kernel), issues_of (by decide +kernel), by decide +kernel, by decide +kernel,
    by decide +kernel, rfl, by decide +kernel, issues_of (by decide +kernel), by decide +kernel, by decide +kernel, by decide +kernel, by decide +kernel,
    issues_of (by decide +kernel)⟩

/-- Threads whose group barrier, or grant, has let them go on; a return without a grant; a request with one set too few, and behind another. -/
def gWoken (g : Group) : Group := { g with threads := (thr fun _ => []).map fun (k, t) => (k, { t with woken := true }) }

theorem met_wokenAndWaiting : Issues (here (gWoken g0)) .lane {} (gWoken g0) p0
    ∧ (∀ x ∈ taking (here (gWoken g0)) .lane (gWoken g0) p0, x.th.woken = true
      ∧ ∀ y ∈ taking (here (gWoken g0)) .lane (gWoken g0) p0, y.tid = x.tid → y = x)
    ∧ Issues (here (gWoken gNo)) .pass { ext := true } (gWoken gNo) p0 ∧ takers (here (gWoken gNo)) .pass (gWoken gNo) p0 ≠ []
    ∧ (∀ tid ∈ p0.cohort, ((gWoken gNo).thread tid).woken = true) ∧ Issues (here gNo) .pass {} gNo p0 ∧ takers (here gNo) .pass gNo p0 ≠ []
    ∧ Issues (sets 3 gNo) .pass { ext := true } gNo p0 ∧ takers (sets 3 gNo) .pass gNo p0 ≠ [] ∧ ((sets 3 gNo).cluster 0).xfree < gNo.nthr
    ∧ (∀ x ∈ ((sets 3 gNo).cluster 0).xqueue, x.1 ≠ 0) :=
  ⟨issues_of (by decide +kernel), fun x hx => ⟨List.all_eq_true.mp (by decide +kernel : (taking (here (gWoken g0)) .lane (gWoken g0) p0).all
      (fun x => x.th.woken) = true) x hx, fun y hy h => List.inj_on_of_nodup_map (by decide +kernel :
      ((taking (here (gWoken g0)) .lane (gWoken g0) p0).map (·.tid)).Nodup) hy hx h⟩, issues_of (by decide +kernel), by decide +kernel, by decide +kernel, issues_of (by decide +kernel),
    by decide +kernel, issues_of (by decide +kernel), by decide +kernel, by decide +kernel, by decide +kernel⟩

theorem met_pennants : Issues s0 .lane { rv := [(60, 2)] } g0 p0 ∧ lookup s0.teams g0.team = some oneWordTeam
    ∧ Issues s0 .lane { wv := [(60, 2)] } g0 p0 := ⟨issues_of (by decide +kernel), by decide +kernel, issues_of (by decide +kernel)⟩

/-! ### Memory -/

/-- Threads whose v[1] is their TID, with g[2] = 0x10000 in HBM, g[3] the scratchpad's last 16 bytes, g[4] misaligned, g[5] a copy-on-write page. -/
def gMem : Group := grp (fun t => [(1, t), (6, 4)]) [(2, 0x10000), (3, 0xFF00000000000000 + 65520), (4, 0x10001), (5, 0x20000), (6, 0xFF00000000000000 + 65536)]
def sMem : State := here gMem

/-- Whether every asker of a memory word leads where `loc` says, its leaf's A and D set: `Accesses.Leads`, computed. -/
def leadsB (e : Accesses) (s : State) (g : Group) (x : View) (space : Space) (key cls : Nat) (leaf : Option Nat) : Bool :=
  decide ((e.addr x).toNat % e.size = 0) && (!e.hostless || decide (space ≠ .host)) && decide (s.locate g (e.addr x) e.writes = .ok space key cls leaf)
    && (match leaf with
      | none => true
      | some k => (s.latest8 k).getLsbD 4 && (!e.writes || (s.latest8 k).getLsbD 5))

theorem leads_of {e : Accesses} {s : State} {g : Group} {x : View} {space : Space} {key cls : Nat} {leaf : Option Nat}
    (h : leadsB e s g x space key cls leaf = true) : e.Leads s g x space key cls := by
  simp only [leadsB, Bool.and_eq_true, decide_eq_true_eq, Bool.or_eq_true, Bool.not_eq_true'] at h
  obtain ⟨⟨⟨h1, h2⟩, h3⟩, h4⟩ := h
  refine ⟨h1, fun hh => ?_, leaf, h3, fun k hk => ?_⟩
  · rcases h2 with h | h
    · rw [hh] at h; cases h
    · exact h
  · subst hk
    simp only [Bool.and_eq_true, Bool.or_eq_true, Bool.not_eq_true'] at h4
    refine ⟨h4.1, fun hw => ?_⟩
    rcases h4.2 with h | h
    · rw [hw] at h; cases h
    · exact h

/-- A load of four words of HBM, and a store to the last word of the scratchpad for each of its last four words. -/
theorem met_memoryWords_load : ∃ e, memoryWord (.ld 0 2 0 0 5 2 1 0) = some e ∧ wellFormed (.ld 0 2 0 0 5 2 1 0) = true ∧ Issues sMem .lane e.needs gMem p0
    ∧ ∀ x ∈ e.askers sMem gMem p0, e.Leads sMem gMem x .hbm (0x23280000 + 4 * x.tid) 0 :=
  ⟨_, rfl, rfl, issues_of (by decide +kernel), fun x hx => leads_of (leaf := some 0x4008)
    ((List.all_eq_true.mp (by decide +kernel : ((passing sMem gMem p0).filter fun x => !x.helper || !false).all (fun x =>
      leadsB _ sMem gMem x .hbm (0x23280000 + 4 * x.tid) 0 (some 0x4008)) = true)) x hx)⟩

theorem met_memoryWords_store : ∃ e, memoryWord (.st 0 2 0 5 3 1) = some e ∧ Issues sMem .lane e.needs gMem p0
    ∧ ∀ x ∈ e.askers sMem gMem p0, e.Leads sMem gMem x .scratch (scratchKey 0 0 (65520 + 4 * x.tid)) 0 :=
  ⟨_, rfl, issues_of (by decide +kernel), fun x hx => leads_of (leaf := none)
    ((List.all_eq_true.mp (by decide +kernel : ((passing sMem gMem p0).filter fun x => !x.helper || !true).all (fun x =>
      leadsB _ sMem gMem x .scratch (scratchKey 0 0 (65520 + 4 * x.tid)) 0 none) = true)) x hx)⟩

theorem touched_of {e : Accesses} {s : State} {g : Group} {x : View}
    (h : (decide ((e.addr x).toNat % e.size ≠ 0) || (match s.locate g (e.addr x) e.writes with | .fault _ => true | _ => false)) = true) : e.Touched s g x := by
  intro ha sp key cls k hl
  rw [hl] at h
  simp [ha] at h

/-- Misaligned addresses, and addresses just past the scratchpad: every asker faults. One writer of a copy-on-write leaf. -/
theorem met_memoryWords_faults : (∃ e, memoryWord (.ld 0 2 0 0 5 4 1 0) = some e ∧ Issues sMem .lane e.needs gMem p0
      ∧ ∀ x ∈ e.askers sMem gMem p0, x.helper = false ∧ (e.faults sMem gMem x).isSome ∧ e.Touched sMem gMem x)
    ∧ (∃ e, memoryWord (.st 0 2 0 5 6 1) = some e ∧ Issues sMem .lane e.needs gMem p0
      ∧ ∀ x ∈ e.askers sMem gMem p0, x.helper = false ∧ (e.faults sMem gMem x).isSome ∧ e.Touched sMem gMem x)
    ∧ ∃ e x, memoryWord (.st 0 2 0 5 5 1) = some e ∧ Issues (here (gOne gMem)) .lane e.needs (gOne gMem) p1 ∧ e.askers (here (gOne gMem)) (gOne gMem) p1 = [x]
      ∧ (e.addr x).toNat % e.size = 0 ∧ (here (gOne gMem)).locate (gOne gMem) (e.addr x) e.writes = .cow 0x4010 0x2329
      ∧ ∀ c ∈ (here (gOne gMem)).cows, c.2.leaf ≠ 0x4010 := by
  have all : ∀ {e : Accesses} {l : List View}, (l.all fun x => !x.helper && (e.faults sMem gMem x).isSome && (decide ((e.addr x).toNat % e.size ≠ 0)
      || (match sMem.locate gMem (e.addr x) e.writes with | .fault _ => true | _ => false))) = true →
      ∀ x ∈ l, x.helper = false ∧ (e.faults sMem gMem x).isSome ∧ e.Touched sMem gMem x := by
    intro e l h x hx
    have := List.all_eq_true.mp h x hx
    simp only [Bool.and_eq_true, Bool.not_eq_true'] at this
    exact ⟨this.1.1, this.1.2, touched_of this.2⟩
  refine ⟨⟨_, rfl, issues_of (by decide +kernel), all (by decide +kernel)⟩, ⟨_, rfl, issues_of (by decide +kernel), all (by decide +kernel)⟩,
    ⟨_, _, rfl, issues_of (by decide +kernel), rfl, ?_, ?_, by decide +kernel⟩⟩ <;> decide +kernel

/-! ### Translation -/

theorem table_entry {e : Quad} (h : (e.getLsbD 0 && (List.range 64).all fun i => !(decide ((1 ≤ i ∧ i < 12) ∨ 52 ≤ i)) || !e.getLsbD i) = true) :
    TableEntry e := by
  simp only [Bool.and_eq_true, List.all_eq_true, List.mem_range, Bool.or_eq_true, Bool.not_eq_true', decide_eq_false_iff_not] at h
  refine ⟨h.1, fun i hi => ?_⟩
  by_cases hl : i < 64
  · exact (h.2 i hl).resolve_left fun n => n hi
  · exact BitVec.getLsbD_of_ge _ _ (Nat.le_of_not_lt hl)

/-- The three upper levels of the tests' page table lead to its last node. -/
theorem walk_down {s : State} {va : Nat} {w : Walk}
    (h : (decide (s.latest8 (entryKey 1 0x1000 va) = 0x2001) && decide (s.latest8 (entryKey 2 0x2000 va) = 0x3001)
      && decide (s.latest8 (entryKey 3 0x3000 va) = 0x4001)) = true) (hw : Walks s va 4 0x4000 w) : Walks s va 1 0x1000 w := by
  simp only [Bool.and_eq_true, decide_eq_true_eq] at h
  obtain ⟨⟨h1, h2⟩, h3⟩ := h
  refine .down (by decide) (by rw [h1]; exact table_entry (by decide +kernel)) ?_
  rw [h1]
  refine .down (by decide) (by rw [show fld 0x2001 51 12 * 2 ^ 12 = 0x2000 from rfl, h2]; exact table_entry (by decide +kernel)) ?_
  rw [show fld 0x2001 51 12 * 2 ^ 12 = 0x2000 from rfl, h2]
  refine .down (by decide) (by rw [show fld 0x3001 51 12 * 2 ^ 12 = 0x3000 from rfl, h3]; exact table_entry (by decide +kernel)) ?_
  rw [show fld 0x3001 51 12 * 2 ^ 12 = 0x3000 from rfl, h3]
  exact hw

/-- A plain leaf, a read-only one, a copy-on-write one, a counted copy-on-write one, no entry, and an entry of no good shape. -/
theorem met_walks : (∃ k e n, Walks s0 0x10000 1 0x1000 (.leaf k e n) ∧ e.getLsbD 1 = true ∧ e.getLsbD 3 = false)
    ∧ (∃ k e n, Walks s0 0x70000 1 0x1000 (.leaf k e n) ∧ e.getLsbD 1 = false)
    ∧ (∃ k e n, Walks s0 0x20000 1 0x1000 (.leaf k e n) ∧ e.getLsbD 1 = true ∧ e.getLsbD 3 = true ∧ Resolvable e n)
    ∧ Walks s0 0x30000 1 0x1000 (.bad 5) ∧ Walks { s0 with mem := writeBytes pages 0x4000 (leBytes 8 0x8003) } 0 1 0x1000 (.bad 9) := by
  refine ⟨⟨_, _, _, walk_down (by decide +kernel) (.leaf ?_), ?_, ?_⟩, ⟨_, _, _, walk_down (by decide +kernel) (.leaf ?_), ?_⟩,
    ⟨_, _, _, walk_down (by decide +kernel) (.leaf ?_), ?_, ?_, ?_⟩, walk_down (by decide +kernel) (.absent (by decide +kernel)),
    walk_down (by decide +kernel) (.wrong (by decide +kernel) (fun h => absurd h.1 (by decide)) fun h => absurd h.reserved (by decide +kernel))⟩
  · constructor <;> decide +kernel
  · decide +kernel
  · decide +kernel
  · constructor <;> decide +kernel
  · decide +kernel
  · constructor <;> decide +kernel
  · decide +kernel
  · decide +kernel
  · unfold Resolvable; decide +kernel

/-- Scratchpad's last byte, just below it and just past it; a team that is gone; a load that translates; a port that leads to module 7. -/
theorem met_addressTranslation : (∃ va : Quad, fld va 63 52 = 0) ∧ fld 0xFF0000000000FFFF 63 52 ≠ 0 ∧ lookup s0.teams g0.team = some oneWordTeam
    ∧ (0xFF0000000000FFFF : Nat) < 0xFF00000000000000 + oneWordTeam.scratch ∧ 0xFF00000000000000 + oneWordTeam.scratch ≤ 0xFF00000000010000
    ∧ (0xFEFFFFFFFFFFFFFF : Nat) < 0xFF00000000000000 ∧ lookup { s0 with teams := [] }.teams g0.team = none
    ∧ (∃ e x, memoryWord (.ld 0 2 0 0 5 2 1 0) = some e ∧ Issues (here (gOne gMem)) .lane e.needs (gOne gMem) p1 ∧ e.askers (here (gOne gMem)) (gOne gMem) p1 = [x]
      ∧ (e.addr x).toNat % e.size = 0 ∧ (here (gOne gMem)).locate (gOne gMem) (e.addr x) e.writes = .ok .hbm 0x23280000 0 (some 0x4008))
    ∧ InOrder (here (gOne gMem)) 0x4008 8 0 ∧ Toward { s0 with ports := [(3, { Port.zero with st := 2, peer := 7, own := 1 })] } 7 [3] := by
  refine ⟨⟨0, by decide⟩, by decide, by decide +kernel, by decide, by decide, by decide, rfl,
    ⟨_, _, rfl, issues_of (by decide +kernel), rfl, by decide +kernel, by decide +kernel⟩, ⟨fun w hw => (List.not_mem_nil hw).elim, fun w hw => (List.not_mem_nil hw).elim⟩, ?_, by decide⟩
  intro q
  constructor
  · rintro h
    cases List.mem_singleton.mp h
    exact ⟨by decide, _, ⟨rfl, rfl, by decide +kernel, by decide⟩, rfl, by decide⟩
  · rintro ⟨-, x, ⟨hx, -⟩, -⟩
    by_cases h : q = 3
    · exact List.mem_singleton.mpr h
    · rw [lookup] at hx
      simp [Ne.symm h, lookup] at hx

/-! ### Homes, results and fences -/

theorem inOrder_of {s : State} {key n ext : Nat} (h : s.pend = []) : InOrder s key n ext :=
  ⟨fun w hw => by rw [h] at hw; exact (List.not_mem_nil hw).elim, fun w hw => by rw [h] at hw; exact (List.not_mem_nil hw).elim⟩

/-- A write of the line that reaches its T_wc later, so that one that arrives now comes after it. -/
def before : Pending := { key := 0x23280002, bytes := [7, 7], twc := 200, gid := 0, tids := [1], seen := [] }
def storing : Access := { access1 with act := .write [1, 2, 3, 4], fill := none, tok := 3 }
def adding : Access := { access1 with act := .atom .add 1 0 }
def swapping (x : Quad) : Access := { access1 with act := .atom .cas x 9 }
def accessing (a : Access) : State := { s0 with accesses := [(5, a)], pend := [before], tlast := [(0x23280000, 200)] }

/-- A store and an atomic arrive behind a pending write of two of their bytes. -/
theorem met_writesAtTheirHome : lookup (accessing storing).accesses 5 = some storing ∧ (accessing storing).mayPerform 5 storing = true
    ∧ storing.act ≠ .read ∧ storing.shaped ∧ InOrder (accessing storing) storing.key storing.size 0
    ∧ (accessing adding).mayPerform 5 adding = true ∧ adding.act ≠ .read ∧ adding.shaped ∧ (accessing adding).badIn adding.key adding.size = false
    ∧ leNat ((accessing (swapping 0)).latestBytes 0x23280000 4) ≠ 1 ∧ (accessing (swapping 1)).mayPerform 5 (swapping 1) = true
    ∧ leNat ((accessing (swapping 0)).latestBytes 0x23280000 4) = 0x07070000 ∧ lookup (accessing (swapping 0x07070000)).groups 0 = some g0
    ∧ lookup g0.passes 0 = some p0 :=
  ⟨by decide +kernel, by decide +kernel, by decide +kernel, rfl, ⟨by decide +kernel, by decide +kernel⟩, by decide +kernel, by decide +kernel, rfl,
    by decide +kernel, by decide +kernel, by decide +kernel, by decide +kernel, by decide +kernel, by decide +kernel⟩

/-- The line of access1 in cluster 0, leased to 90 ns. -/
def copy1 (e : Nat) : Copy :=
  { cache := .cluster 0, line := 0x23280000, data := List.replicate 128 3, expiry := some e, used := 1, prot := false, stale := false, window := none }
def cached (e : Nat) : State := { loading with copies := [(2, copy1 e)] }

theorem met_readsAtTheirHome : loading.mayPerform 5 access1 = true ∧ access1.fill = some (.words 5 1) ∧ loading.badIn access1.key 4 = false
    ∧ loading.unseen 5 access1 = false ∧ loading.serving (.cluster 0) 0x23280000 = none ∧ loading.serving (.die 0) 0x23280000 = none
    ∧ (cached 72).serving (.cluster 0) 0x23280000 = some (2, copy1 72) ∧ lookup (cached 71).copies 2 = some (copy1 71) ∧ 71 ≤ (cached 71).now := by
  decide +kernel

def result1 (fail : Nat) : Result :=
  { gid := 0, pid := 0, tids := [1], helper := false, tok := 2, addr := 0x10000, fill := .words 5 1, bytes := [1, 2, 3, 4], vals := [], fail := fail }
def reply1 (sp : Space) : Reply := { gid := 0, tids := [1], space := sp, key := 0x23280000, twc := 200, since := 60, addr := 0x10000 }
def answered (fail : Nat) : State := { s0 with results := [(5, result1 fail)], replies := [(5, reply1 .hbm)] }

theorem met_resultsAndTimesReturn : lookup (answered 0).results 5 = some (result1 0) ∧ (result1 0).fail = 0 ∧ (result1 0).due ≤ (answered 0).now
    ∧ lookup (answered 0).groups 0 = some g0 ∧ lookup g0.passes 0 = some p0 ∧ (result1 0).fill.fits (result1 0).bytes.length
    ∧ ¬ TooLate (answered 0) (result1 0).port (result1 0).since ∧ (result1 0).helper = false ∧ (∀ tid ∈ (result1 0).tids, tid ∈ p0.cohort)
    ∧ lookup (answered 0x14).results 5 = some (result1 0x14) ∧ (result1 0x14).fail ≠ 0
    ∧ (∀ d, (result1 0x14).fill ≠ .uniform d) ∧ (lookup g0.threads 1).isSome ∧ lookup (answered 0).replies 5 = some (reply1 .hbm)
    ∧ ¬ TooLate (answered 0) (reply1 .hbm).port (reply1 .hbm).since :=
  ⟨by decide +kernel, rfl, by decide +kernel, by decide +kernel, by decide +kernel, rfl, (fun h => by obtain ⟨_, h, _⟩ := h; cases h), rfl, by decide +kernel, by decide +kernel,
    by decide, (fun _ h => nomatch h), by decide +kernel, by decide +kernel, fun h => by obtain ⟨_, h, _⟩ := h; cases h⟩

/-- Thread 1 has left its pass before its result comes; a per-pass result. -/
def gLeft : Group := { g0 with passes := [(0, { p0 with cohort := [0, 2, 3] })] }
theorem met_resultsAfterThePass : lookup { answered 0 with groups := [(0, gLeft)] }.groups 0 = some gLeft ∧ (lookup gLeft.threads 1).isSome
    ∧ (∀ p, lookup gLeft.passes 0 = some p → 1 ∉ p.cohort) ∧ (result1 0).tids = [1]
    ∧ { result1 0 with fill := .uniform 7, bytes := List.replicate 8 1 }.fill.fits 8 :=
  ⟨by decide +kernel, by decide +kernel, fun p h => by cases h; decide, rfl, rfl⟩

theorem fenced_of {s : State} {g : Group} {m : Team} {scope tid : Nat} (ha : s.accesses = []) (hr : s.replies = []) (hm : lookup s.teams g.team = some m)
    (hq : m.moving = []) (h : (g.thread tid).hs = 0 ∧ (g.thread tid).hm ≤ s.now ∧ (g.thread tid).hx ≤ s.now) : Fenced s g scope tid :=
  ⟨⟨h.1, h.2.1, fun _ => h.2.2⟩, fun _ n hn => by rw [hm] at hn; cases hn; rw [hq]; exact fun _ hc => (List.not_mem_nil hc).elim,
    fun _ _ hk => by rw [ha] at hk; exact (List.not_mem_nil hk).elim, fun _ _ hk => by rw [hr] at hk; exact (List.not_mem_nil hk).elim⟩

theorem bound_of {s : State} {tids : List Nat} (ha : s.accesses = []) : Bound s tids :=
  fun _ _ hk => by rw [ha] at hk; exact (List.not_mem_nil hk).elim

/-- Thread 2 has a scratchpad store that is not answered; the pass holds at a FENCE. -/
def gStored : Group := gMem.putThread 2 { gMem.thread 2 with hs := 1 }
def pFence : Pass := { p0 with hold := .fence 3 false [0, 1, 2, 3] 4 1 }
def gFence : Group := { g0 with passes := [(0, pFence)] }

theorem met_fences : Issues s0 .lane {} g0 p0 ∧ (4#4 ≤ 4#4) ∧ (∀ tid ∈ takers s0 .lane g0 p0, Fenced s0 g0 4 tid) ∧ Bound s0 (takers s0 .lane g0 p0)
    ∧ (∀ tid ∈ takers s0 .lane g0 p0, ∀ l ∈ (g0.thread tid).late, l.tok ≠ 5) ∧ Issues (here gStored) .lane {} gStored p0
    ∧ (∃ tid ∈ takers (here gStored) .lane gStored p0, ¬ Fenced (here gStored) gStored 0 tid) :=
  ⟨issues_of (by decide +kernel), by decide, fun tid h => fenced_of rfl rfl rfl rfl
      ((by decide +kernel : ∀ t ∈ takers s0 .lane g0 p0, (g0.thread t).hs = 0 ∧ (g0.thread t).hm ≤ s0.now ∧ (g0.thread t).hx ≤ s0.now) tid h),
    bound_of rfl, by decide +kernel, issues_of (by decide +kernel), 2, by decide +kernel, fun h => by
      have : (gStored.thread 2).hs = 1 := by decide +kernel
      rw [h.answered.1] at this; cases this⟩

theorem met_fenceCompletes : lookup (here gFence).groups 0 = some gFence ∧ lookup gFence.passes 0 = some pFence ∧ pFence.hold = .fence 3 false [0, 1, 2, 3] 4 1
    ∧ mayIssue (here gFence) gFence pFence = true ∧ (here gFence).cur.gid = 0 ∧ (∀ tid ∈ [0, 1, 2, 3], Fenced (here gFence) gFence 3 tid) ∧ Bound (here gFence) [0, 1, 2, 3] :=
  ⟨by decide +kernel, by decide +kernel, rfl, by decide +kernel, rfl, fun tid h => fenced_of rfl rfl rfl rfl
      ((by decide +kernel : ∀ t ∈ [0, 1, 2, 3], (gFence.thread t).hs = 0 ∧ (gFence.thread t).hm ≤ (here gFence).now ∧ (gFence.thread t).hx ≤ (here gFence).now)
        tid h), bound_of rfl⟩

/-- A release store to HBM whose threads have no store outstanding, and one where a thread has. -/
theorem met_releaseStores : Issues sMem .lane (atNeeds 2 1 [(5, 1)] []) gMem p0
    ∧ ((taking sMem .lane gMem p0).all fun x => decide (sMem.locate gMem (ea x 2 1 2) true = .ok .hbm (0x23280000 + 4 * x.tid) 0 (some 0x4008))) = true
    ∧ (∀ tid ∈ takers sMem .lane gMem p0, Fenced sMem gMem 3 tid) ∧ Bound sMem (takers sMem .lane gMem p0)
    ∧ Issues (here gStored) .lane (atNeeds 2 1 [(5, 1)] []) gStored p0 ∧ ∃ tid ∈ takers (here gStored) .lane gStored p0, ¬ Fenced (here gStored) gStored 3 tid :=
  ⟨issues_of (by decide +kernel), by decide +kernel, fun tid h => fenced_of rfl rfl rfl rfl
      ((by decide +kernel : ∀ t ∈ takers sMem .lane gMem p0, (gMem.thread t).hs = 0 ∧ (gMem.thread t).hm ≤ sMem.now ∧ (gMem.thread t).hx ≤ sMem.now) tid h),
    bound_of rfl, issues_of (by decide +kernel), 2, by decide +kernel, fun h => by
      have : (gStored.thread 2).hs = 1 := by decide +kernel
      rw [h.answered.1] at this; cases this⟩

/-- A failed peer store waits in thread 1; release stores to a host page with nothing outstanding, behind a scratchpad store, and behind the
failure. -/
def gHost : Group := grp (fun t => [(1, t), (6, 4)]) [(7, 0x50000)]
def lost (g : Group) : Group := { g with threads := g.threads.map fun (k, t) => (k, { t with late := [{ tok := 5, code := 0x0F, addr := 0x60000 }] }) }

theorem met_fenceFaults : Issues (here (lost g0)) .lane {} (lost g0) p0
    ∧ (∀ tid ∈ takers (here (lost g0)) .lane (lost g0) p0, Fenced (here (lost g0)) (lost g0) 4 tid) ∧ (lateFaults (lost g0) p0.cohort).length = 4 :=
  ⟨issues_of (by decide +kernel), fun tid h => fenced_of rfl rfl rfl rfl ((by decide +kernel : ∀ t ∈ takers (here (lost g0)) .lane (lost g0) p0,
      ((lost g0).thread t).hs = 0 ∧ ((lost g0).thread t).hm ≤ (here (lost g0)).now ∧ ((lost g0).thread t).hx ≤ (here (lost g0)).now) tid h), by decide +kernel⟩

theorem met_releaseStoresOut : Issues (here gHost) .lane (atNeeds 7 1 [(5, 1)] []) gHost p0
    ∧ ((taking (here gHost) .lane gHost p0).all fun x => GoesOut (here gHost) gHost (ea x 7 1 2) 4) = true
    ∧ (∀ tid ∈ takers (here gHost) .lane gHost p0, Fenced (here gHost) gHost 4 tid)
    ∧ ((taking (here gHost) .lane gHost p0).all fun x => (gHost.thread x.tid).late.all fun l => l.tok != 5) = true
    ∧ Issues (here (lost gHost)) .lane (atNeeds 7 1 [(5, 1)] []) (lost gHost) p0
    ∧ ((taking (here (lost gHost)) .lane (lost gHost) p0).all fun x => GoesOut (here (lost gHost)) (lost gHost) (ea x 7 1 2) 4
      && ((lost gHost).thread x.tid).late.any fun l => l.tok == 5) = true
    ∧ (∀ tid ∈ takers (here (lost gHost)) .lane (lost gHost) p0, Fenced (here (lost gHost)) (lost gHost) 4 tid) :=
  ⟨issues_of (by decide +kernel), by decide +kernel, fun tid h => fenced_of rfl rfl rfl rfl ((by decide +kernel : ∀ t ∈ takers (here gHost) .lane gHost p0,
      (gHost.thread t).hs = 0 ∧ (gHost.thread t).hm ≤ (here gHost).now ∧ (gHost.thread t).hx ≤ (here gHost).now) tid h), by decide +kernel,
    issues_of (by decide +kernel), by decide +kernel, fun tid h => fenced_of rfl rfl rfl rfl ((by decide +kernel :
      ∀ t ∈ takers (here (lost gHost)) .lane (lost gHost) p0, ((lost gHost).thread t).hs = 0 ∧ ((lost gHost).thread t).hm ≤ (here (lost gHost)).now
        ∧ ((lost gHost).thread t).hx ≤ (here (lost gHost)).now) tid h)⟩

/-! ### Caches and windows -/

theorem lineDone_of {s : State} {tid line : Nat} (ha : s.accesses = []) (hp : s.pend = []) (hr : s.replies = []) : LineDone s tid line :=
  ⟨fun _ _ hk => by rw [ha] at hk; exact (List.not_mem_nil hk).elim, fun _ hk => by rw [hp] at hk; exact (List.not_mem_nil hk).elim,
    fun _ _ hk => by rw [hr] at hk; exact (List.not_mem_nil hk).elim⟩

/-- Thread 1's store to its line is on its way. -/
def sLine : State := { sMem with accesses := [(5, { storing with key := 0x23280080, addr := 0x10080 })] }

theorem met_cacheWords : Issues sMem .lane (atNeeds 2 1 [] []) gMem p0 ∧ NamesLines sMem gMem p0 2 1 (fun x => 0x23280000 + 128 * x.tid)
    ∧ (∀ x ∈ taking sMem .lane gMem p0, LineDone sMem x.tid ((0x23280000 + 128 * x.tid) / 128 * 128)) ∧ Issues sLine .lane (atNeeds 2 1 [] []) gMem p0
    ∧ (∃ x ∈ taking sLine .lane gMem p0, ¬ LineDone sLine x.tid ((0x23280000 + 128 * x.tid) / 128 * 128))
    ∧ Issues sMem .lane (atNeeds 4 1 [] []) gMem p0 ∧ ((taking sMem .lane gMem p0).all fun x => decide ((ea x 4 1 7).toNat % 128 ≠ 0)) = true := by
  refine ⟨issues_of (by decide +kernel), fun x hx => ?_, fun x _ => lineDone_of rfl rfl rfl, issues_of (by decide +kernel), ?_, issues_of (by decide +kernel),
    by decide +kernel⟩
  · have h := List.all_eq_true.mp (by decide +kernel : ((taking sMem .lane gMem p0).all fun x => decide ((ea x 2 1 7).toNat % 128 = 0)
      && decide (sMem.locate gMem (ea x 2 1 7) false = .ok .hbm (0x23280000 + 128 * x.tid) 0 (some 0x4008))) = true) x hx
    simp only [Bool.and_eq_true, decide_eq_true_eq] at h
    exact ⟨h.1, .hbm, 0, some 0x4008, h.2, fun k hk => by cases hk; decide +kernel⟩
  · obtain ⟨x, hx, ht⟩ := List.any_eq_true.mp (by decide +kernel : ((taking sLine .lane gMem p0).any fun x => decide (x.tid = 1)) = true)
    have ht : x.tid = 1 := by simpa using ht
    refine ⟨x, hx, fun h => h.sent 5 _ (List.mem_singleton.mpr rfl) rfl ?_ (by decide) ?_⟩
    · rw [ht]; decide
    · rw [ht]

/-- A prefetch on its way. -/
def prefetching : Access := { access1 with fill := none, size := 128, helper := true, tok := 3 }
theorem met_prefetch : lookup { s0 with accesses := [(5, prefetching)] }.accesses 5 = some prefetching ∧ prefetching.act = .read ∧ prefetching.fill = none
    ∧ { s0 with accesses := [(5, prefetching)] }.mayPerform 5 prefetching = true := by decide +kernel

def windowed : State := { s0 with windows := [(1, { Window.zero with pinned := true, eways := 9, ways := 9, ctx := 3, mask := 1, base := 0x20000, len := 1 })] }
def gPin (x : Nat) : Group := grp (fun _ => []) [(4, 0x10000), (5, x)]
def sPin (x : Nat) : State := { windowed with groups := [(0, gPin x)] }

/-- LEN 1 and 16 ways of slice 0, beside a window that holds 9 of them; LEN 0 is refused. -/
theorem met_retentionWindows : Issues (sPin 0x101000001) .pass { rg := [4, 5] } (gPin 0x101000001) p0 ∧ takers (sPin 0x101000001) .pass (gPin 0x101000001) p0 ≠ []
    ∧ badWindow (regG (gPin 0x101000001) 4 100).toNat (regG (gPin 0x101000001) 5 100).toNat = false
    ∧ effectiveWays (sPin 0x101000001) 0 0 0 16 1 = 3 ∧ Issues (sPin 0x101000000) .pass { rg := [4, 5] } (gPin 0x101000000) p0
    ∧ badWindow (regG (gPin 0x101000000) 4 100).toNat (regG (gPin 0x101000000) 5 100).toNat = true ∧ Issues (sPin 1) .pass {} (gPin 1) p0
    ∧ ((sPin 1).window 0 1).pinned = true :=
  ⟨issues_of (by decide +kernel), by decide +kernel, by decide +kernel, by decide +kernel, issues_of (by decide +kernel), by decide +kernel,
    issues_of (by decide +kernel), by decide +kernel⟩

/-! ### Uniform access -/

def peerAccess : Access := { access1 with addr := 0x60000, space := .peer, key := peerKey 1 0x232C0000, since := 71 }
def late : State := { s0 with cycle := 5699, accesses := [(5, peerAccess)], replies := [(6, { reply1 .peer with since := 70, port := some 3 })],
                                results := [(7, { result1 0 with port := some 3, since := 71, wrote := true })] }

/-- A store at g[2] + 8 × 511 and a misaligned one; a peer access exactly 4 µs after its start. -/
theorem met_uniformAccess : Issues sMem .pass { rg := [2, 6] } gMem p0 ∧ takers sMem .pass gMem p0 ≠ [] ∧ Issues sMem .pass { rg := [2] } gMem p0
    ∧ (BitVec.ofInt 64 ((regG gMem 2 100).toNat + 8 * (511#10).toInt)).toNat % 8 = 0
    ∧ sMem.locate gMem (BitVec.ofInt 64 ((regG gMem 2 100).toNat + 8 * (511#10).toInt)) true = .ok .hbm 0x23280FF8 0 (some 0x4008)
    ∧ (sMem.latest8 0x4008).getLsbD 4 = true ∧ (sMem.latest8 0x4008).getLsbD 5 = true
    ∧ (BitVec.ofInt 64 ((regG gMem 4 100).toNat + 8 * (0#10).toInt)).toNat % 8 ≠ 0
    ∧ sMem.locate gMem (BitVec.ofInt 64 ((regG gMem 6 100).toNat + 8 * (0#10).toInt)) true = .fault 5
    ∧ peerAccess.since + 4000 = 4071 ∧ { late with cycle := 5700 }.now = 4071 ∧ lookup late.accesses 6 = none
    ∧ lookup late.replies 6 = some { reply1 .peer with since := 70, port := some 3 } ∧ 70 + 4000 ≤ late.now ∧ lookup late.results 6 = none
    ∧ lookup late.accesses 7 = none ∧ (lookup late.results 7).any (fun r => r.port != none && r.fail == 0 && r.wrote && r.since + 4000 ≤ { late with cycle := 5700 }.now)
      = true :=
  ⟨issues_of (by decide +kernel), by decide +kernel, issues_of (by decide +kernel), by decide +kernel, by decide +kernel, by decide +kernel,
    by decide +kernel, by decide +kernel, by decide +kernel, rfl, rfl, rfl, rfl, by decide +kernel, rfl, rfl, by decide +kernel⟩

/-- R203: an atomic performed at a peer whose answer is lost fails at its token, its write and destination as they are. -/
theorem test_lost_atomic_answer : (match exec (.peerAccessTimeout true 7) { late with cycle := 5700 } with
    | .next t => ((lookup t.results 7).map fun r => (r.fail, r.bytes, r.port), t.mod.linkTimeouts, t.accesses.length)
    | _ => (none, 0, 0)) = (some (0x0F, [], none), 1, 1) := by decide +kernel

/-! ### Passes and groups -/

/-- Four threads ready at block 0, no pass. -/
def gReady : Group := { g0 with threads := (thr fun _ => []).map fun (k, t) => (k, { t with place := .bin false 0 0 }), passes := [] }

theorem gReady_places {h : Bool} {k : BinKey} (m : MayStart gReady h k) : h = false ∧ k = (0, 0) := by
  obtain ⟨tid, th, hm, hr⟩ := m.some_
  have hp : th.place = .bin false 0 0 := (by decide +kernel : ∀ e ∈ gReady.threads, e.2.place = .bin false 0 0) _ hm
  have e := hr.place.symm.trans hp
  simp only [Place.bin.injEq] at e
  exact ⟨e.1, Prod.ext e.2.1 e.2.2⟩

theorem gReady_starts : MayStart gReady false (0, 0) :=
  ⟨⟨0, _, List.mem_cons_self .., ⟨rfl, rfl⟩⟩, fun _ _ h => (List.not_mem_nil h).elim, fun _ tid th hm hc _ _ => by
    have : th.res.cause = 0 := (by decide +kernel : ∀ e ∈ gReady.threads, e.2.res.cause = 0) _ hm
    rw [this] at hc; cases hc⟩

theorem met_passStarts : lookup (here gReady).groups 0 = some gReady ∧ gReady.st = .running ∧ gReady.passes.length < 4 ∧ gReady.fan.sweep = none
    ∧ gReady.fan.idle < 16 ∧ gReady.stepBin = none ∧ Selected gReady false (0, 0)
    ∧ (∀ e ∈ gReady.threads, NothingOwed (here gReady) 0 e.1)
    ∧ (here gReady).code gReady false = some (oneWordKernel 32 0) ∧ (oneWordKernel 32 0).header 0 = some [0, 31, 1, 1, 0] ∧ 2 * 31 ≤ (here gReady).regs gReady
    ∧ 16 ≤ { gReady with fan := { gReady.fan with idle := 16 } }.fan.idle := by
  refine ⟨by decide +kernel, rfl, by decide +kernel, rfl, by decide, rfl, ⟨gReady_starts, fun m hm hb => ?_, fun _ m hm => ?_⟩, fun e he => ⟨none_in, none_in, fun g hg i c hc => ?_⟩, by decide +kernel,
    by decide +kernel, by decide +kernel, by decide⟩
  · obtain ⟨_, rfl⟩ := gReady_places hm
    rcases hb with h | h
    · exact Nat.lt_irrefl _ h
    · exact Nat.lt_irrefl _ h.2
  · cases (gReady_places hm).1
  · have : g = gReady := by simpa [here, lookup] using hg.symm
    subst this
    rw [(by decide +kernel : ∀ e ∈ gReady.threads, (gReady.thread e.1).owed = []) e he] at hc
    cases hc

/-- A pass whose terminator has run: threads 0 and 1 go to block 7, the others retire. -/
def pEnded : Pass := { p0 with ended := true, loud := true, exits := [(0, .bin false 7 0), (1, .bin false 7 0), (2, .retire), (3, .retire)] }
def gEnded : Group := { g0 with passes := [(0, pEnded)] }

theorem met_passEnds : lookup (here gEnded).groups 0 = some gEnded ∧ lookup gEnded.passes 0 = some pEnded ∧ pEnded.ended = true
    ∧ AllWritten (here gEnded) 0 0 pEnded ∧ (pEnded.exits.map (·.1)).Nodup ∧ (2, .retire) ∈ pEnded.exits ∧ 2 ∈ pEnded.cohort :=
  ⟨by decide +kernel, by decide +kernel, rfl, ⟨none_in, none_in, fun _ h => (List.not_mem_nil h).elim, fun _ h => (List.not_mem_nil h).elim,
    fun _ h => (List.not_mem_nil h).elim, by
      intro g hg d hd
      have : g = gEnded := by simpa [here, lookup] using hg.symm
      subst this
      exact (List.not_mem_nil hd).elim, by
      intro g hg j q hq tok at_ after left hh
      have : g = gEnded := by simpa [here, lookup] using hg.symm
      subst this
      cases List.mem_singleton.mp hq
      cases hh⟩, by decide +kernel, by decide +kernel, by decide +kernel⟩

/-- Threads that wait at the group barrier, and a drained group that is the last of its team. -/
def gDead : Group := { gReady with threads := gReady.threads.map fun (k, t) => (k, if k = 3 then { t with place := .retired } else { t with wait := .groupBarrier }) }
def gDrained : Group := { gReady with st := .draining, threads := [] }
def launch1 : Launch := { ring := 16, seq := 3, ctx := 0, prio := 7, slot := 0, kern := 0, teams := 1, next := 1, live := 1, args := 0, data := 0 }
def cmdOf (w : List Quad) (st : CmdSt) : Cmd := { words := some w, st := st, status := 0, result := 0, horizon := 0, gids := [], frames := [], replay := none }
def sDrained : State :=
  { here gDrained with launches := [(0, launch1)], rings := [(16, { Ring.zero with st := 2, tail := 4, head := 4, done := 3, cmds := [(3, cmdOf [] .started)] })] }

theorem met_deadlockAndGroupEnd : lookup (here gDead).groups 0 = some gDead ∧ CountersZero gDead ∧ gDead.passes = [] ∧ gDead.st = .running
    ∧ (∃ e ∈ gDead.threads, e.2.place ≠ .retired) ∧ (∀ tid th, (tid, th) ∈ gDead.threads → th.place = .retired ∨ th.wait = .groupBarrier)
    ∧ lookup sDrained.groups 0 = some gDrained ∧ gDrained.st = .draining ∧ CountersZero gDrained
    ∧ lookup sDrained.teams gDrained.team = some oneWordTeam ∧ oneWordTeam.openRecs = [] ∧ oneWordTeam.bufs = []
    ∧ (∀ j h, (j, h) ∈ sDrained.groups → j ≠ 0 → h.team = gDrained.team → h.st = .ended)
    ∧ (∀ j h, (j, h) ∈ sDrained.groups → h.team = gDrained.team → ∀ b, b ∈ h.bars → b.2.chain = [])
    ∧ lookup sDrained.launches oneWordTeam.launch = some launch1 ∧ launch1.next = launch1.teams ∧ launch1.live = 1
    ∧ lookup (sDrained.ring 16).cmds 3 = some (cmdOf [] .started)
    ∧ lookup { sDrained with groups := [(0, gDrained), (1, g0)] }.groups 1 = some g0 ∧ g0.team = gDrained.team ∧ g0.st ≠ .ended := by
  refine ⟨by decide +kernel, fun c hc => rfl, rfl, rfl, by decide +kernel, fun tid th h => ?_, by decide +kernel, rfl, fun c hc => rfl, by decide +kernel,
    by decide +kernel, rfl, ?_, ?_, by decide +kernel, rfl, rfl, by decide +kernel, by decide +kernel, rfl, by decide⟩
  · exact (by decide +kernel : ∀ e ∈ gDead.threads, e.2.place = .retired ∨ e.2.wait = .groupBarrier) _ h
  · exact fun j h hm hj => absurd (congrArg Prod.fst (List.mem_singleton.mp hm)) hj
  · intro j h hm _ b hb
    have : h = gDrained := congrArg Prod.snd (List.mem_singleton.mp hm)
    subst this
    exact (List.not_mem_nil hb).elim

/-! ### Structures in memory -/

/-- Whether an address leads to a place, its leaf's A and D set: `Home`, computed. -/
def homeB (s : State) (g : Group) (addr : Quad) (size : Nat) (space : Space) (key cls : Nat) (leaf : Option Nat) : Bool :=
  decide (addr.toNat % size = 0) && decide (s.locate g addr true = .ok space key cls leaf)
    && (match leaf with
      | none => true
      | some k => (s.latest8 k).getLsbD 4 && (s.latest8 k).getLsbD 5)

theorem home_of {s : State} {g : Group} {addr : Quad} {size : Nat} {space : Space} {key cls : Nat} {leaf : Option Nat}
    (h : homeB s g addr size space key cls leaf = true) : Home s g addr size space key cls := by
  simp only [homeB, Bool.and_eq_true, decide_eq_true_eq] at h
  refine ⟨h.1.1, leaf, h.1.2, fun k hk => ?_⟩
  subst hk
  simpa using h.2

/-- A scratchpad address leads to its place whatever memory holds. -/
theorem homeBesides_of {s : State} {g : Group} {m : Team} {addr : Quad} {size at_ n off : Nat} (hm : lookup s.teams g.team = some m)
    (ha : addr.toNat = 0xFF00000000000000 + off) (ho : off < m.scratch) (h : addr.toNat % size = 0) :
    HomeBesides s g addr size at_ n .scratch (m.scratchAt off) 0 := by
  intro u _ ht _
  refine ⟨h, none, ?_, fun _ hk => nomatch hk⟩
  have hf : fld addr 63 52 ≠ 0 := by
    unfold fld
    rw [ha]
    have := addr.isLt
    omega
  have hge : 0xFF00000000000000 ≤ addr.toNat := by omega
  have hlt : addr.toNat < 0xFF00000000000000 + m.scratch := by omega
  have hs : addr.toNat - 0xFF00000000000000 = off := by omega
  unfold State.locate State.teamOf
  rw [if_neg hf, ht, hm]
  simp only [hge, hlt, hs, and_self, if_true]

/-- A draw slot, an append queue or a header at 0x23280000, and four threads that hold 1.0, 2.0, 3.0, 4.0 with indexes. -/
def holding (l : List (Nat × Nat)) (g : Group) : State := { here g with mem := l.foldl (fun m e => writeBytes m e.1 (leBytes 8 e.2)) pages }
def gDraw : Group := grp (fun t => [(6, 0x3F800000 + t * 0x400000), (7, 100 + t), (1, t)]) [(5, 0x10000)]

theorem met_draws : let s := holding [(0x23280000, 0x1234), (0x23280008, 7)] gDraw
    Issues s .cohort { rv := [(6, 2)], wv := [(8, 1)], rg := [5] } gDraw p0 ∧ taking s .cohort gDraw p0 ≠ []
    ∧ Home s gDraw (regG gDraw 5 s.cycle) 32 .hbm 0x23280000 0 ∧ (s.mayActNow (takers s .cohort gDraw p0) 0x23280000 32 = true ∧ s.badIn 0x23280000 32 = false)
    ∧ slotOk (leNat (s.latestBytes 0x23280000 32)) = true ∧ leNat (s.latestBytes 0x23280000 32) / 2 ^ 160 % 2 ^ 8 < 2
    ∧ leNat (s.latestBytes 0x23280000 32) / 2 ^ 128 % 2 ^ 32 = 0 ∧ drawStatus ((taking s .cohort gDraw p0).map fun x => x.v 6) = 0
    ∧ InOrder s 0x23280008 8 0 ∧ (bestCand (candidates 0x1234 7 6 (taking s .cohort gDraw p0))).isSome
    ∧ ((cohortViews s gDraw p0).all fun x => decide (x.th.drawn = none)) = true ∧ waitsForDraw p0 = false :=
  ⟨issues_of (by decide +kernel), List.ne_nil_of_length_pos (by decide +kernel), home_of (leaf := some 0x4008) (by decide +kernel), by decide +kernel,
    by decide +kernel, by decide +kernel, by decide +kernel, by decide +kernel, inOrder_of rfl, by decide +kernel, by decide +kernel, rfl⟩

/-- A slot of two shards; threads 2 and 3 do not pass the guard and have no pending draw. -/
def gGuard : Group := { gDraw with threads := gDraw.threads.map fun (k, t) => (k, { t with p := if k < 2 then [(1, true)] else [] }) }
def sGuard : State :=
  { holding [(0x23280008, 7), (0x23280010, 2 * 2 ^ 32)] gGuard with cur := { s0.cur with guard := some (1, true) } }

theorem met_draws_shardStart : Issues sGuard .cohort { rv := [(6, 2)], wv := [(8, 1)], rg := [5] } gGuard p0 ∧ taking sGuard .cohort gGuard p0 ≠ []
    ∧ Home sGuard gGuard (regG gGuard 5 sGuard.cycle) 32 .hbm 0x23280000 0 ∧ slotOk (leNat (sGuard.latestBytes 0x23280000 32)) = true
    ∧ 2 ≤ leNat (sGuard.latestBytes 0x23280000 32) / 2 ^ 160 % 2 ^ 8 ∧ leNat (sGuard.latestBytes 0x23280000 32) / 2 ^ 128 % 2 ^ 32 = 0
    ∧ ((taking sGuard .cohort gGuard p0).all fun x => decide (x.th.mark = none)) = true
    ∧ (bestCand (candidates 0 7 6 (taking sGuard .cohort gGuard p0))).isSome
    ∧ p0.cohort.filter (fun t => t ∉ takers sGuard .cohort gGuard p0) = [2, 3] :=
  ⟨issues_of (by decide +kernel), List.ne_nil_of_length_pos (by decide +kernel), home_of (leaf := some 0x4008) (by decide +kernel), by decide +kernel,
    by decide +kernel, by decide +kernel, by decide +kernel, by decide +kernel, by decide +kernel⟩

/-- A slot with status 4, values with a NaN, and a slot with a reserved bit. -/
theorem met_draws_faults : leNat ((holding [(0x23280010, 4)] gDraw).latestBytes 0x23280000 32) / 2 ^ 128 % 2 ^ 32 = 4
    ∧ slotOk (leNat ((holding [(0x23280010, 4)] gDraw).latestBytes 0x23280000 32)) = true
    ∧ (let g := grp (fun t => [(6, 0x7FC00000 + t)]) [(5, 0x10000)]
      drawStatus ((taking (here g) .cohort g p0).map fun x => x.v 6) = 1 ∧ (here g).handler g ≠ none ∧ ∀ tid ∈ p0.cohort, (g.thread tid).res.cause ≠ 5)
    ∧ slotOk (leNat ((holding [(0x23280018, 1)] gDraw).latestBytes 0x23280000 32)) = false := by decide +kernel

/-- The first of two shards, the last of two, and a draw whose last shard is 1 ms late; thread 2 waits for the draw of index 7. -/
def shard1 : Shard := { ctx := 0, slot := 0x23280000, addr := 0x10000, val := Carrier.ofWord 0x3F800000, idx := 9, status := 0, draw := 7 }
def draw1 : Draw := { since := 71, ctx := 0, vals := [(Carrier.ofWord 0x40000000, 5, 0)] }
def gDrawing : Group := g0.putThread 2 { g0.thread 2 with wait := .draw 0x23280000, mark := some (0x10000, 7), place := .bin false 0 2 }
def sharded (arrived : Nat) : State :=
  { holding [(0x23280008, 7), (0x23280010, (2 + arrived * 2 ^ 8) * 2 ^ 32)] gDrawing with shards := [(5, shard1)], draws := [(0x23280000, draw1)] }

theorem met_draws_sharded : lookup (sharded 0).shards 5 = some shard1 ∧ shard1.slot % 32 = 0 ∧ InOrder (sharded 0) (shard1.slot + 8) 16 0
    ∧ leNat ((sharded 0).latestBytes shard1.slot 32) / 2 ^ 128 % 2 ^ 32 = 0
    ∧ leNat ((sharded 0).latestBytes shard1.slot 32) / 2 ^ 168 % 2 ^ 8 + 1 < leNat ((sharded 0).latestBytes shard1.slot 32) / 2 ^ 160 % 2 ^ 8
    ∧ leNat ((sharded 1).latestBytes shard1.slot 32) / 2 ^ 160 % 2 ^ 8 ≤ leNat ((sharded 1).latestBytes shard1.slot 32) / 2 ^ 168 % 2 ^ 8 + 1
    ∧ { draw1 with vals := draw1.vals ++ [(shard1.val, shard1.idx, shard1.status)] }.status = 0
    ∧ (bestCand { draw1 with vals := draw1.vals ++ [(shard1.val, shard1.idx, shard1.status)] }.cands).isSome
    ∧ (gDrawing.thread 2).wait = .draw shard1.slot ∧ (gDrawing.thread 2).mark = some (0x10000, leNat ((sharded 1).latestBytes shard1.slot 32) / 2 ^ 64 % 2 ^ 32) := by
  refine ⟨by decide +kernel, by decide, inOrder_of rfl, ?_⟩
  decide +kernel

/-- The pass that waits for the draw with threads 0 and 1. -/
def pDrawing : Pass := { p0 with hold := .draw 0x23280000 7 8 [0, 1] 4 0 }
theorem met_draws_waitingPass : let s : State := { sharded 1 with groups := [(0, { gDrawing with passes := [(0, pDrawing)] })] }
    lookup s.groups 0 = some { gDrawing with passes := [(0, pDrawing)] } ∧ (s.groups.map (·.1)).Nodup ∧ ([(0, pDrawing)].map (·.1)).Nodup
    ∧ pDrawing.hold = .draw shard1.slot 7 8 [0, 1] 4 0 ∧ ∀ tid ∈ [0, 1], tid ∈ pDrawing.cohort := by decide +kernel

theorem met_draws_timeout : let s : State := { s0 with cycle := 2000000, draws := [(0x23280000, draw1)] }
    lookup s.draws 0x23280000 = some draw1 ∧ draw1.since + (s.ctx draw1.ctx).linkto * 1000 ≤ s.now ∧ 0x23280000 % 32 = 0 ∧ InOrder s (0x23280000 + 16) 8 0
    ∧ (∀ gid g tid th, lookup s.groups gid = some g → (tid, th) ∈ g.threads → th.wait ≠ .draw 0x23280000) ∧ (s.groups.map (·.1)).Nodup
    ∧ (∀ gid g pid q, lookup s.groups gid = some g → (pid, q) ∈ g.passes → ∀ i d l n st, q.hold ≠ .draw 0x23280000 i d l n st) := by
  have only : ∀ gid g, lookup [(0, g0)] gid = some g → g = g0 := by
    intro gid g hg
    change (if (0 : Nat) = gid then some g0 else none) = some g at hg
    split at hg <;> cases hg
    rfl
  refine ⟨by decide +kernel, by decide +kernel, by decide, inOrder_of rfl, fun gid g tid th hg hm => ?_, by decide +kernel, fun gid g pid q hg hm => ?_⟩
  · cases only gid g hg
    exact (by decide +kernel : ∀ e ∈ g0.threads, e.2.wait ≠ .draw 0x23280000) _ hm
  · cases only gid g hg
    have : q = p0 := congrArg Prod.snd (List.mem_singleton.mp hm)
    subst this
    intro i d l n st h
    cases h

/-- The draw of index 7 that its last shard leaves 1 ms late, with thread 2 blocked in it; a shard that comes after that; values and indexes of
a draw are numbers and 32 bits. -/
def sLate : State := { sharded 1 with cycle := 2000000 }
theorem met_draws_late : lookup sLate.draws 0x23280000 = some draw1 ∧ draw1.since + (sLate.ctx draw1.ctx).linkto * 1000 ≤ sLate.now
    ∧ lookup sLate.shards 5 = some shard1 ∧ lookup sLate.draws shard1.slot = some draw1 ∧ (sharded 1).now < draw1.since + ((sharded 1).ctx draw1.ctx).linkto * 1000
    ∧ (∀ gid g pid q, lookup sLate.groups gid = some g → (pid, q) ∈ g.passes → ∀ i d l n st, q.hold ≠ .draw 0x23280000 i d l n st)
    ∧ (sLate.groups.map (·.1)).Nodup ∧ (∀ gid g, lookup sLate.groups gid = some g → (g.threads.map (·.1)).Nodup)
    ∧ (∀ gid g tid th, lookup sLate.groups gid = some g → (tid, th) ∈ g.threads → th.wait = .draw 0x23280000 →
        th.res.cause ≠ 5 ∧ (sLate.handler g).isSome ∧ g.dead = false)
    ∧ (∃ th h b o, lookup gDrawing.threads 2 = some th ∧ th.wait = .draw 0x23280000
      ∧ th.mark = some (0x10000, leNat (sLate.latestBytes 0x23280000 32) / 2 ^ 64 % 2 ^ 32) ∧ th.place = .bin h b o)
    ∧ ∀ x ∈ draw1.vals, carrierVal x.1 ≠ .nan ∧ x.2.1 < 2 ^ 32 := by
  have only : ∀ gid g, lookup [(0, gDrawing)] gid = some g → g = gDrawing := by
    intro gid g hg
    change (if (0 : Nat) = gid then some gDrawing else none) = some g at hg
    split at hg <;> cases hg
    rfl
  refine ⟨by decide +kernel, by decide +kernel, by decide +kernel, by decide +kernel, by decide +kernel, fun gid g pid q hg hm i d l n st h => ?_, by decide +kernel,
    fun gid g hg => ?_, fun gid g tid th hg hm _ => ?_, ⟨_, _, _, _, rfl, by decide +kernel, by decide +kernel, rfl⟩, by decide +kernel⟩
  · cases only gid g hg
    have : q = p0 := congrArg Prod.snd (List.mem_singleton.mp hm)
    subst this
    cases h
  · cases only gid g hg
    decide +kernel
  · cases only gid g hg
    exact ⟨(by decide +kernel : ∀ e ∈ gDrawing.threads, e.2.res.cause ≠ 5) _ hm, by decide +kernel, rfl⟩

/-- A queue with room for two of the four participants, whose last elements lie at the end of the scratchpad. -/
def queueAt (base cap tail : Nat) : List (Nat × Nat) := [(0x23280000, base), (0x23280008, cap + tail * 2 ^ 32), (0x23280010, 0), (0x23280018, 0)]

theorem met_queueClaims_append : let s := holding (queueAt (0xFF00000000000000 + 65488) 12 10) gDraw
    Issues s .cohort { rv := [(7, 1)], wv := [(9, 1)], rg := [5] } gDraw p0 ∧ taking s .cohort gDraw p0 ≠ []
    ∧ Home s gDraw (regG gDraw 5 s.cycle) 32 .hbm 0x23280000 0 ∧ (s.mayActNow (takers s .cohort gDraw p0) 0x23280000 32 = true ∧ s.badIn 0x23280000 32 = false)
    ∧ InOrder s (0x23280000 + 12) 8 0 ∧ leNat (s.latestBytes 0x23280000 32) / 2 ^ 160 = 0 ∧ leNat (s.latestBytes 0x23280000 32) / 2 ^ 128 % 2 ^ 32 ≤ 1
    ∧ min (taking s .cohort gDraw p0).length (leNat (s.latestBytes 0x23280000 32) / 2 ^ 64 % 2 ^ 32 - 10) = 2
    ∧ ∀ r, r < 2 → HomeBesides s gDraw (BitVec.ofNat 64 (0xFF00000000000000 + 65488 + 4 * (10 + r))) 4 (0x23280000 + 12) 8 .scratch
        (oneWordTeam.scratchAt (65528 + 4 * r)) 0 := by
  refine ⟨issues_of (by decide +kernel), List.ne_nil_of_length_pos (by decide +kernel), home_of (leaf := some 0x4008) (by decide +kernel), by decide +kernel,
    inOrder_of rfl, by decide +kernel, by decide +kernel, by decide +kernel, fun r hr => ?_⟩
  have : r = 0 ∨ r = 1 := by omega
  rcases this with rfl | rfl <;> exact homeBesides_of (m := oneWordTeam) rfl (by decide +kernel) (by decide +kernel) (by decide +kernel)

/-- A ring of 16 slots in the scratchpad with one left, and a full one. -/
def ringAt (wr : Nat) : List (Nat × Nat) := [(0x23280000, 0xFF00000000000000), (0x23280008, wr), (0x23280010, 0), (0x23280018, 4)]
def gPost : Group := gOne gDraw

theorem met_queueClaims_post : (∀ wr ∈ [15, 16], issuesB (holding (ringAt wr) gPost) .lane { rv := [(21, 15)], wv := [(9, 1)], rg := [5] } gPost p1 = true
      ∧ (holding (ringAt wr) gPost).badIn 0x23280000 64 = false ∧ headerOk (leNat ((holding (ringAt wr) gPost).latestBytes 0x23280000 64)) = true
      ∧ homeB (holding (ringAt wr) gPost) gPost (regG gPost 5 100) 64 .hbm 0x23280000 0 (some 0x4008) = true
      ∧ (holding (ringAt wr) gPost).mayActNow [0] 0x23280000 64 = true)
    ∧ (∃ x, taking (holding (ringAt 15) gPost) .lane gPost p1 = [x]) ∧ 15 < 2 ^ 4 ∧ 2 ^ 4 ≤ 16
    ∧ Home (holding (ringAt 15) gPost) gPost (BitVec.ofNat 64 (0xFF00000000000000 + 64 * (15 % 16))) 64 .scratch (oneWordTeam.scratchAt 960) 0 :=
  ⟨by decide +kernel, ⟨_, rfl⟩, by decide, by decide, home_of (leaf := none) (by decide +kernel)⟩

/-- A full granule, the last of the scratchpad, and an empty one. -/
theorem met_fullEmptyAccesses : let g := gOne (grp (fun _ => [(1, 4095)]) [(3, 0xFF00000000000000)])
    let s : State := { here g with full := [(oneWordTeam.scratchAt (16 * 4095), true)] }
    (∃ x, passing s g p1 = [x] ∧ x.helper = false ∧ x.th.woken = false) ∧ lookup s.teams g.team = some oneWordTeam
    ∧ 16 * 4095 < oneWordTeam.scratch ∧ oneWordTeam.queue = [] ∧ s.mayActNow [0] (oneWordTeam.scratchAt (16 * 4095)) 16 = true
    ∧ s.badIn (oneWordTeam.scratchAt (16 * 4095)) 16 = false ∧ Issues s .lane (atNeeds 3 1 [] [(8, 4)]) g p1 ∧ Issues s .lane (atNeeds 3 1 [(8, 4)] []) g p1
    ∧ readAt false s.full (oneWordTeam.scratchAt (16 * 4095)) = true ∧ readAt false (here g).full (oneWordTeam.scratchAt (16 * 4095)) = false
    ∧ ((passing s g p1).all fun x => decide ((ea x 3 1 4).toNat = 0xFF00000000000000 + 16 * 4095) && decide (x.cyc = s.cycle)) = true
    ∧ (∀ tok at_ after left, p1.hold ≠ .beats tok at_ after left) ∧ (gWoken g).thread 0 = { g.thread 0 with v := [], woken := true } :=
  ⟨⟨_, rfl, rfl, rfl⟩, by decide +kernel, by decide +kernel, rfl, by decide +kernel, by decide +kernel, issues_of (by decide +kernel),
    issues_of (by decide +kernel), by decide +kernel, by decide +kernel, by decide +kernel, (fun _ _ _ _ h => nomatch h), by decide +kernel⟩

/-- The re-executed LDFE of a thread whose retry has read the granule. -/
theorem met_fullEmptyAccesses_again : let g := gOne (gWoken (grp (fun _ => [(1, 4095)]) [(3, 0xFF00000000000000)]))
    ∃ x, passing (here g) g p1 = [x] ∧ x.helper = false ∧ x.th.woken = true ∧ Issues (here g) .lane (atNeeds 3 0 [] [(8, 4)]) g p1
      ∧ (ea x 3 0 4).toNat = 0xFF00000000000000 + 16 * 0 :=
  ⟨_, rfl, rfl, rfl, issues_of (by decide +kernel), by decide +kernel⟩

/-! ### Pages -/

/-- Pool 7 of two frames, one in reserve; frame 0x232A is mapped once, 0x2329 twice. -/
def gPage : Group := grp (fun _ => []) [(1, 1), (3, 0x30000), (4, 0x40000)]
def pool7 : Pool := { free := [0x5000, 0x5001], total := 4, reserve := 1 }
def sPage : State :=
  { here gPage with
    ctxs := [(0, { ctx0 with poolId := 7 })], pools := [(7, pool7)]
    frames := [(0x2329, { count := 2, st := .allocated, users := 0, pool := some 7 }), (0x232A, { count := 1, st := .allocated, users := 0, pool := some 7 })] }

theorem met_pageOperations : takers sPage .pass gPage p0 ≠ [] ∧ (∀ c ∈ sPage.cows, c.2.st = .waiting) ∧ (∀ w ∈ sPage.pend, sPage.now < w.twc)
    ∧ Issues sPage .pass { rg := [3, 1] } gPage p0 ∧ regG gPage 1 100 = 1 ∧ sPage.entry 0 0x30000 = .at_ 0x4018 0 ∧ (0#64).getLsbD 0 = false
    ∧ sPage.poolOf 0 = some (7, pool7) ∧ pool7.reserve < pool7.free.length ∧ InOrder sPage 0x4018 8 0
    ∧ Issues sPage .pass { rg := [3, 4] } gPage p0 ∧ sPage.entry 0 0x40000 = .at_ 0x4020 0x232A0077 ∧ countedEntry 0x232A0077 = true
    ∧ (sPage.frame (frameOf 0x232A0077)).count ≠ 0 ∧ (sPage.frame (frameOf 0x232A0077)).count ≠ 65535 ∧ InOrder sPage 0x4020 8 0
    ∧ Issues sPage .pass { rg := [4, 1] } gPage p0 ∧ sPage.frame (frameOf 0x232A0077) = { count := 1, st := .allocated, users := 0, pool := some 7 }
    ∧ (here gPage).ctx 0 = ctx0 ∧ ctx0.poolId = 0xFFFF ∧ Issues sPage .pass { rg := [4] } gPage p0
    ∧ countedEntry 0x232A1077 = true ∧ fld 0x232A1077 15 12 ≠ 0 ∧ fld 0x232A0077 15 12 = 0
    ∧ sPage.chunks = [] ∧ sPage.pools = [(7, pool7)] ∧ pool7.free = [] ++ 0x5000 :: [0x5001] ∧ sPage.nextFree 0x5000 = 0x5001 ∧ sPage.nextFree 0x5001 = 0xFFFFFFFF :=
  ⟨by decide +kernel, none_, none_, issues_of (by decide +kernel), by decide +kernel, by decide +kernel, rfl, by decide +kernel, by decide, inOrder_of rfl,
    issues_of (by decide +kernel), by decide +kernel, by decide +kernel, by decide +kernel, by decide +kernel, inOrder_of rfl, issues_of (by decide +kernel),
    by decide +kernel, by decide +kernel, rfl, issues_of (by decide +kernel), by decide, by decide, by decide, rfl, rfl, rfl, by decide +kernel, by decide +kernel⟩
where none_ {α : Type} {P : α → Prop} : ∀ c ∈ ([] : List α), P c := fun _ h => (List.not_mem_nil h).elim

def cow1 : Cow := { ctx := 0, leaf := 0x4010, frame := 0x2329, st := .waiting }
def gCow : Group := g0.putThread 1 { g0.thread 1 with wait := .cow 3 0x20000, place := .bin false 0 2 }
def sCow (count : Nat) (poolId : Nat) (c : Cow) : State :=
  { sPage with
    groups := [(0, gCow)], cows := [(3, c)], ctxs := [(0, { ctx0 with poolId := poolId })]
    frames := [(0x2329, { count := count, st := .allocated, users := 0, pool := some 7 })]
    mod := { Module.reset with migrate := [0x2329] } }

/-- One mapping, two with a pool, two without; a leaf that another frame replaced; a resolution that is over; a frame to migrate. -/
theorem met_copyOnWriteAndMigration : lookup (sCow 1 7 cow1).cows 3 = some cow1 ∧ cow1.st = .waiting
    ∧ cowLeafStands ((sCow 1 7 cow1).latest8 0x4010) 0x2329 = true ∧ ((sCow 1 7 cow1).frame 0x2329).count ≤ 1 ∧ InOrder (sCow 1 7 cow1) 0x4010 8 0
    ∧ 1 < ((sCow 2 7 cow1).frame 0x2329).count ∧ (sCow 2 7 cow1).poolOf 0 = some (7, pool7) ∧ pool7.reserve < pool7.free.length
    ∧ (0x5000 ≠ 0x2329 ∧ 0x5000 < 2 ^ 36 ∧ 0x4010 + 8 ≤ 0x5000 * 2 ^ 16) ∧ (sCow 2 0xFFFF cow1).poolOf 0 = none
    ∧ (sCow 2 0xFFFF cow1).cowWaiters 3 = [(0, 1, 0x20000)] ∧ (gCow.thread 1).place = .bin false 0 2
    ∧ cowLeafStands ((sCow 2 7 { cow1 with frame := 0x2330 }).latest8 0x4010) 0x2330 = false
    ∧ { cow1 with st := .decided 71 (some 0x5000) }.st = .decided 71 (some 0x5000) ∧ 71 ≤ s0.now ∧ 0x2329 ∈ (sCow 1 7 cow1).mod.migrate
    ∧ ((sCow 1 7 cow1).frame 0x2329).st = .allocated ∧ ((sCow 1 7 cow1).frame 0x2329).users = 0
    ∧ (∀ d ∈ (sCow 1 7 cow1).cows, d.2.leaf = cow1.leaf → d.2.st = .waiting) ∧ { pool7 with free := [0x5000] }.free.length ≤ pool7.reserve
    ∧ { (sCow 2 7 cow1) with pools := [(7, { pool7 with free := [0x5000] })] }.poolOf 0 = some (7, { pool7 with free := [0x5000] })
    ∧ (gCow.thread 1).wait = .cow 3 0x20000 ∧ (gCow.thread 1).res.cause ≠ 5 := by
  refine ⟨by decide +kernel, rfl, by decide +kernel, by decide +kernel, inOrder_of rfl, ?_⟩
  decide +kernel

/-- A decided frame that nothing maps any more; frames to migrate that are In flight, in use, or done. -/
def sFrame (f : Frame) : State := { sCow 1 7 cow1 with frames := [(0x2329, f)] }
theorem met_framesAfterwards : ((sFrame { count := 0, st := .inFlight, users := 0, pool := some 7 }).frame 0x2329).count = 0
    ∧ ((sFrame { count := 0, st := .inFlight, users := 0, pool := some 7 }).frame 0x2329).pool = some 7 ∧ lookup (sFrame (Frame.zero)).pools 7 = some pool7
    ∧ ((sFrame { count := 1, st := .inFlight, users := 0, pool := some 7 }).frame 0x2329).st = .inFlight
    ∧ ((sFrame { count := 1, st := .allocated, users := 2, pool := some 7 }).frame 0x2329).users ≠ 0
    ∧ ((sFrame { count := 1, st := .migrating, users := 0, pool := some 7 }).frame 0x2329).st = .migrating
    ∧ ((sFrame { count := 1, st := .migrating, users := 0, pool := some 7 }).frame 0x2329).count ≠ 0
    ∧ 0x2329 ∈ (sFrame { count := 1, st := .migrating, users := 0, pool := some 7 }).mod.migrate
    ∧ (let s : State := { sFrame Frame.zero with frames := [(0x5000, { Frame.zero with st := .migrating })], mod := { Module.reset with migrate := [0x5000] } }
      0x5000 ∈ s.mod.migrate ∧ (s.frame 0x5000).st = .migrating ∧ (s.frame 0x5000).count = 0 ∧ (s.frame 0x5000).users = 0 ∧ (7, pool7) ∈ s.pools ∧ 0x5000 ∈ pool7.free)
    ∧ (sFrame { Frame.zero with st := .free }).frame 0x2329 = { Frame.zero with st := .free } := by decide +kernel

/-! ### The matrix engine -/

/-- The A tile at the start of the scratchpad and the B tile in its other half; a tile 15 of its own; a relation at scratchpad 0. -/
def gMill (n : Nat) : Group :=
  { grp (fun t => [(5, t + 7)]) [(3, 0), (4, 32768), (5, 0xFF00000000000000)] with count := [(1, n)] }
def sMill : State := here (gMill 254)

/-- A kernel with 15 tiles. -/
def s15 : State := { s0 with ctxs := [(0, { ctx0 with images := [(0, { base := 0, kernels := [{ oneWordKernel 32 0 with acc := 15 }] })] })] }

theorem met_matrixCommandsQueue : (∃ e, millWord (.mma 0 0 15 3 4 0 3) = some e ∧ wellFormed (.mma 0 0 15 3 4 0 3) = true
      ∧ Issues sMill .pass e.needs (gMill 254) p0 ∧ e.legal sMill (gMill 254) oneWordTeam ∧ readAt 0 (gMill 254).count 1 < 255)
    ∧ takers sMill .pass (gMill 254) p0 ≠ [] ∧ sMill.teamOf (gMill 254) = some oneWordTeam
    ∧ (∃ e, millWord (.mzero 0 15 3 0) = some e ∧ Issues (here (gMill 255)) .pass e.needs (gMill 255) p0
      ∧ e.legal (here (gMill 255)) (gMill 255) oneWordTeam ∧ readAt 0 (gMill 255).count 1 = 255)
    ∧ ∃ e, millWord (.msmf 0 15 0) = some e ∧ e.tile = 15
        ∧ Issues s15 .pass e.needs g0 p0 ∧ s15.acc g0 ≤ e.tile := by
  refine ⟨⟨_, rfl, by decide +kernel, issues_of (by decide +kernel), ?_, by decide +kernel⟩, by decide +kernel, by decide +kernel,
    ⟨_, rfl, issues_of (by decide +kernel), ?_, by decide +kernel⟩, _, rfl, rfl, issues_of (by decide +kernel), by decide +kernel⟩
  · refine ⟨by decide +kernel, .inl rfl, by decide +kernel, by decide +kernel, by decide +kernel, fun _ => by decide +kernel,
      ⟨by decide +kernel, by decide +kernel⟩, ⟨by decide +kernel, by decide +kernel⟩, fun h => (by cases h), fun h => ?_⟩
    exact absurd h (by decide +kernel)
  · exact ⟨by decide +kernel, by decide +kernel, by decide +kernel⟩

/-- A command of the tests: four rows of tile 2 from tile rows of zeros. -/
def mcmd (op : MOp) : MCmd :=
  { gid := 0, pid := 0, at_ := 2, issued := 70, op := op, tile := 2, final := false, first := true, lab := false, rel := none, rows := [0, 1, 2, 3]
    tids := [0, 1, 2, 3], a := 0, b := 32768, seg := none, started := false, verdict := none, step := 0, until_ := 0, gens := [], value := 0, bad := false }
def racing (m : MCmd) : State := { s0 with cores := [(0, { CoreSt.zero with race := [(7, m)], free := 100 })] }

theorem met_matrixRegisterWords : let sr : State := here (gOne (gMill 0))
    Issues sr .pass { rg := [5] } (gOne (gMill 0)) p1 ∧ (∃ x, taking sr .pass (gOne (gMill 0)) p1 = [x])
    ∧ (regG (gMill 0) 5 100).toNat % 64 = 0 ∧ sr.locate (gOne (gMill 0)) (regG (gMill 0) 5 100) false = .ok .scratch (oneWordTeam.scratchAt 0) 0 none
    ∧ (sr.mayActNow [0] (oneWordTeam.scratchAt 0) 64 = true ∧ sr.badIn (oneWordTeam.scratchAt 0) 64 = false) ∧ relOk (leNat (sr.bytes (oneWordTeam.scratchAt 0) 64)) = true
    ∧ (let u := { sr with mem := writeBytes pages (oneWordTeam.scratchAt 6) [1] }
      u.mayActNow [0] (oneWordTeam.scratchAt 0) 64 = true ∧ u.badIn (oneWordTeam.scratchAt 0) 64 = false ∧ relOk (leNat (u.bytes (oneWordTeam.scratchAt 0) 64)) = false)
    ∧ Issues (here (gMill 0)) .lane { rv := [(5, 1)], wv := [(8, 16)] } (gMill 0) p0 ∧ (15#4).toNat < (here (gMill 0)).acc (gMill 0)
    ∧ TileFree (here (gMill 0)) (gMill 0) p0 15 ∧ ¬ TileFree (racing (mcmd (.mma 0))) g0 p0 2
    ∧ Issues (here (gMill 0)) .lane { rv := [(5, 1), (8, 16)] } (gMill 0) p0 ∧ (takers (here (gMill 0)) .lane (gMill 0) p0).Nodup
    ∧ takers sr .pass (gOne (gMill 0)) p1 ≠ [] ∧ takers (here (gMill 0)) .lane (gMill 0) p0 ≠ [] ∧ s15.acc g0 ≤ (15#4).toNat
    ∧ Issues s15 .lane { rv := [(5, 1), (8, 16)] } g0 p0 ∧ Issues s15 .lane { rv := [(5, 1)], wv := [(8, 16)] } g0 p0 ∧ takers s15 .lane g0 p0 ≠ [] :=
  ⟨issues_of (by decide +kernel), ⟨_, rfl⟩, by decide +kernel, by decide +kernel, by decide +kernel, by decide +kernel,
    ⟨by decide +kernel, by decide +kernel⟩, issues_of (by decide +kernel), by decide +kernel, fun _ _ h => (by cases h),
    fun h => absurd (h 7 (mcmd (.mma 0)) (.head _) rfl (.inl rfl)) (by decide), issues_of (by decide +kernel), by decide +kernel, by decide +kernel,
    by decide +kernel, by decide +kernel, issues_of (by decide +kernel), issues_of (by decide +kernel), by decide +kernel⟩

/-- A command whose turn comes at cycle 100, when the one before it ended, and one cycle earlier; its eighth K-step. -/
def running8 : MCmd := { mcmd (.mma 0) with started := true, verdict := some .unmasked, step := 7, until_ := 100 }

theorem met_millraceRuns : let s := racing (mcmd (.mma 0))
    (s.coreSt 0).race = [] ++ (7, mcmd (.mma 0)) :: [] ∧ (∀ e ∈ (s.coreSt 0).race, e.2.started = false) ∧ s.raceOpen 0 = true
    ∧ lookup s.groups 0 = some g0 ∧ s.teamOf g0 = some oneWordTeam ∧ max ((mcmd (.mma 0)).issued + 1) (s.coreSt 0).free = s.cycle
    ∧ (mcmd (.mma 0)).op.product = true ∧ (mcmd (.mma 0)).verdict = none ∧ (mcmd (.mma 0)).step = 0
    ∧ { s with cycle := 99 }.cycle < 100 ∧ ((racing running8).coreSt 0).active = some (7, running8) ∧ running8.verdict = some .unmasked
    ∧ running8.step < 8 ∧ running8.until_ ≤ (racing running8).cycle ∧ running8.bad = false ∧ running8.rows.Nodup
    ∧ (let early := { p0 with hold := .tile 2 5 }
      (0, early) ∈ (gp (fun _ => early) g0).passes ∧ early.hold = .tile 2 5 ∧ 5 ≤ 7) ∧ (mcmd (.mma 0)).tile = 2 ∧ g0.passes = [(0, p0)]
    ∧ p0.hold = .none := by decide +kernel

/-- The eighth K-step of a product into a tile that rounds to BF16. -/
theorem met_millraceRuns_rounded : let s : State := { racing running8 with tiles := [(2, { Tile.zero with b16s := true })] }
    (s.coreSt 0).active = some (7, running8) ∧ (s.tile running8.gid running8.tile).b16s = true ∧ running8.op = .mma 0 ∧ running8.step = 7
    ∧ s.raceOpen running8.gid = true := by decide +kernel

/-- A product after its eighth K-step, a skipped one at its fourth cycle, an MZERO that ends now. -/
theorem met_millraceRetires : let m8 := { running8 with step := 8 }
    let sk := { running8 with verdict := some .skipped, step := 0 }
    let mz := { mcmd (.mzero 1) with started := true, until_ := 100 }
    ((racing m8).coreSt 0).active = some (7, m8) ∧ (if m8.op.product && m8.verdict != some .skipped then 8 ≤ m8.step else m8.until_ ≤ (racing m8).cycle)
    ∧ ((racing sk).coreSt 0).active = some (7, sk) ∧ (if sk.op.product && sk.verdict != some .skipped then 8 ≤ sk.step else sk.until_ ≤ (racing sk).cycle)
    ∧ ((racing mz).coreSt 0).active = some (7, mz) ∧ (if mz.op.product && mz.verdict != some .skipped then 8 ≤ mz.step else mz.until_ ≤ (racing mz).cycle)
    ∧ m8.final = false ∧ sk.final = false ∧ mz.final = false ∧ (∀ i ∈ mz.rows, i < 128) ∧ mz.rows.Nodup := by decide +kernel

/-- A final product on a bound tile whose barrier misses an arrival, and misses none; commands that move tile rows and softmax rows. -/
def gBound (n : Nat) : Group := { g0 with bars := [(3, bar 1 n 0)] }
def sBound (n : Nat) : State :=
  { racing { running8 with step := 8, final := true } with groups := [(0, gBound n)], tiles := [(2, { Tile.zero with bind := some 3 })] }
theorem met_finalCommandsArrive : let m := { running8 with step := 8, final := true }
    m.final = true ∧ (gBound 0).dead = false ∧ m.bad = false ∧ ((sBound 0).tile m.gid (arrivesOn m)).bind = some 3 ∧ ((gBound 0).bar 3).expect ≠ 0
    ∧ ((gBound 0).bar 3).arrive = 0 ∧ ((gBound 1).bar 3).arrive ≠ 0 ∧ ((sBound 1).tile m.gid (arrivesOn m)).bind = some 3
    ∧ (let w (op : MOp) : MCmd := { mcmd op with started := true, until_ := 100, a := 0 }
      (∀ op ∈ [MOp.mldc 3, .mstc 3 0, .msmx 1, .msmf, .mdep none, .mcopy 1, .mscale 0x40000000#32, .mstat 5 0, .mprog 5],
        ((racing (w op)).coreSt 0).active = some (7, w op) ∧ (w op).until_ ≤ (racing (w op)).cycle ∧ (w op).op.product = false)
      ∧ (roundOf 0).isSome ∧ 1 ≠ (w (.msmx 1)).tile) := by decide +kernel

/-- What an MSTC image covers has one address each. -/
theorem met_unaliased : Unaliased oneWordTeam (0 + tileBytes 3 + 1152) := by
  intro a b ha hb h
  simp only [tileBytes] at ha hb
  simp [oneWordTeam, Team.scratchAt, scratchKey] at h
  omega

/-! ### The sluice -/

/-- A descriptor of 64 F32 elements at a base. -/
def tensor64 (base : Nat) : List Byte := leBytes 8 base ++ [1] ++ List.replicate 7 0 ++ leBytes 4 64 ++ List.replicate 44 0
/-- COPY from the scratchpad at 512 to it at 1024, with barrier 63; its descriptors lie at 0 and 64. -/
def gSluice (n : Nat) : Group :=
  { grp (fun _ => []) [(3, 0xFF00000000000000), (4, 0xFF00000000000040), (6, 0xFF00000000000020)] with
    bars := [(63, bar 1 1 0)], count := [(0, n)], passes := [(0, p1)] }
def sSluice (n : Nat) : State :=
  { here (gSluice n) with mem := writeBytes (writeBytes [] (oneWordTeam.scratchAt 0) (tensor64 1024)) (oneWordTeam.scratchAt 64) (tensor64 512) }
def order0 : Ordered :=
  { op := .copy, dDir := true, sDir := true, lab := false, bar := some 63, gd := 0xFF00000000000000#64, gs := 0xFF00000000000040#64, gx := 0 }

/-- An order that goes on, with a property of the command. -/
def goesB (P : Engine → Bool) : Issue → Bool
  | .go x => P x
  | _ => false

theorem goes_of {P : Engine → Bool} {r : Issue} (h : goesB P r = true) : ∃ x, r = .go x ∧ P x = true := by
  cases r with
  | go x => exact ⟨x, rfl, h⟩
  | _ => cases h

theorem met_engineCommandsQueue_goes : goesB (fun x => decide (x.cls = 0)) ((sSluice 254).issueEngine (gSluice 254) order0) = true := by decide +kernel

theorem met_engineCommandsQueue : (∃ e, engineWord (.copy 0 63 3 4 0 3 0 0) = some e ∧ Issues (sSluice 254) .pass { rg := e.regs ++ e.more (sSluice 254) (gSluice 254) } (gSluice 254) p1
      ∧ e.order (sSluice 254) (gSluice 254) = order0 ∧ Issues (sSluice 255) .pass { rg := e.regs ++ e.more (sSluice 255) (gSluice 255) } (gSluice 255) p1
      ∧ e.order (sSluice 255) (gSluice 255) = order0)
    ∧ takers (sSluice 254) .pass (gSluice 254) p1 ≠ [] ∧ readAt 0 (gSluice 254).count 0 < 255 ∧ readAt 0 (gSluice 255).count 0 = 255
    ∧ (∃ e, engineWord (.copy 0 63 6 4 0 3 0 0) = some e ∧ (e.order (sSluice 0) (gSluice 0)).gd.toNat % 64 ≠ 0)
    ∧ ∃ e, engineWord (.copy 0 63 3 6 0 3 0 0) = some e ∧ (e.order (sSluice 0) (gSluice 0)).gd.toNat % 64 = 0
      ∧ ((sSluice 0).engineRead (gSluice 0) (e.order (sSluice 0) (gSluice 0)).gd 64).isLeft = true ∧ (e.order (sSluice 0) (gSluice 0)).gs.toNat % 64 ≠ 0 := by
  refine ⟨⟨_, rfl, issues_of (by decide +kernel), by decide +kernel, issues_of (by decide +kernel), by decide +kernel⟩, by decide +kernel, by decide +kernel,
    by decide +kernel, ⟨_, rfl, by decide +kernel⟩, _, rfl, by decide +kernel, by decide +kernel, by decide +kernel⟩

/-- A COPY to a copy-on-write leaf, and one whose barrier is not there. -/
def sShared : State :=
  { sSluice 0 with mem := writeBytes (writeBytes pages (oneWordTeam.scratchAt 0) (tensor64 0x20000)) (oneWordTeam.scratchAt 64) (tensor64 512) }
theorem met_engineCommandsStop : (∃ e, engineWord (.copy 0 63 3 4 0 1 0 0) = some e
      ∧ Issues sShared .pass { rg := e.regs ++ e.more sShared (gSluice 0) } (gSluice 0) p1
      ∧ (match sShared.issueEngine (gSluice 0) (e.order sShared (gSluice 0)) with
        | .cow leaf frame a => leaf == 0x4010 && frame == 0x2329 && a == 0x20000#64
        | _ => false) = true)
    ∧ (∃ e, engineWord (.copy 0 62 3 4 0 3 0 0) = some e
      ∧ (match (sSluice 0).issueEngine (gSluice 0) (e.order (sSluice 0) (gSluice 0)) with
        | .fault _ _ => true
        | _ => false) = true) ∧ p1.cohort.Nodup := by
  refine ⟨⟨_, rfl, issues_of (by decide +kernel), by decide +kernel⟩, ⟨_, rfl, by decide +kernel⟩, by decide +kernel⟩

/-- The engine's command, not started; its chunk with a sector to write, with one to count, and with all of it done. -/
def engine0 : Engine :=
  { gid := 0, cls := 0, op := .copy, dst := tensor64 1024, src := tensor64 512, dScr := true, sScr := true, idx := [], lab := false, bar := some 63
    map := none, chunks := 1, started := 0, ended := 0, horizon := 0 }
def sector0 : Sector := { block := 32, pieces := [{ key := oneWordTeam.scratchAt 1024, bytes := List.replicate 32 9, mask := List.replicate 32 255 }], joined := false }
def chunk0 : Chunk :=
  { cmd := 4, idx := 0, since := 70, frames := [0x2328], wframes := [], mapKey := none, mapped := false, peer := none, ports := [], todo := [sector0], extra := [], resum := false, owed := []
    left := 1, horizon := 0, bad := false, failed := false, detached := false }
def copying (e : Engine) (c : Table Chunk) : State := { sSluice 1 with engines := [(4, e)], chunks := c }
def owing : Chunk := { chunk0 with todo := [], owed := [(71, false)] }
def finished : Chunk := { chunk0 with todo := [], left := 0 }

/-- A chunk that may start, whose sector may be written, whose sectors may be counted (the last of the phase, one of two), that is done,
and its command, which may retire. -/
theorem met_chunks : lookup (copying engine0 []).engines 4 = some engine0 ∧ lookup (copying engine0 []).groups engine0.gid = some (gSluice 1)
    ∧ engine0.started < engine0.chunks ∧ (gSluice 1).st ≠ .halting ∧ (gSluice 1).st ≠ .saved
    ∧ (((copying engine0 []).parts (gSluice 1) (engine0.touches engine0.started)).any fun l => l.all fun x => decide (x.2.1 = .scratch)) = true
    ∧ (let s := copying { engine0 with started := 1 } [(9, chunk0)]
      lookup s.accesses 9 = none ∧ lookup s.chunks 9 = some chunk0 ∧ chunk0.todo = sector0 :: [] ∧ (∀ w ∈ s.pend, s.now < w.twc) ∧ sector0.pieces.length = 1
      ∧ (sector0.pieces.all fun y => decide (y.mask = List.replicate y.bytes.length 255)) = true)
    ∧ lookup (copying { engine0 with started := 1 } [(9, owing)]).chunks 9 = some owing
    ∧ (owing.owed.find? fun o => decide (o.1 ≤ (copying { engine0 with started := 1 } [(9, owing)]).now)) = some (71, false)
    ∧ ((gSluice 1).bar 63).heldArr = 0 ∧ ((gSluice 1).bar 63).arrive ≠ 0
    ∧ (let g := { gSluice 1 with bars := [(63, bar 1 0 1)] }
      (g.bar 63).expect ≠ 0 ∧ (g.bar 63).arrive = 0 ∧ (g.bar 63).sectors = 1 ∧ (g.bar 63).heldArr = 0 ∧ g.dead = false)
    ∧ finished.todo = [] ∧ finished.owed = [] ∧ finished.horizon ≤ (copying engine0 [(9, finished)]).now ∧ finished.frames.Nodup
    ∧ (let e := { engine0 with started := 1, ended := 1 }
      (copying e []).engines = [] ++ (4, e) :: [] ∧ e.chunks ≤ e.started ∧ e.chunks ≤ e.ended ∧ e.horizon ≤ (copying e []).now) := by decide +kernel

/-- A chunk of a reduction, and one with a word of its chunk map. -/
def mappedTo : Chunk := { finished with mapKey := some 0x23280008 }
theorem met_chunksCombineAndMap : let r := { engine0 with op := .copyr 0, started := 1 }
    lookup (copying r [(9, chunk0)]).engines 4 = some r ∧ r.op = .copyr 0 ∧ chunk0.OnTime (copying r [(9, chunk0)]) ∧ chunk0.resum = false ∧ chunk0.extra = []
    ∧ lookup (copying engine0 [(9, mappedTo)]).chunks 9 = some mappedTo ∧ mappedTo.bad = false ∧ mappedTo.mapped = false
    ∧ mappedTo.mapKey = some 0x23280008 ∧ InOrder (copying engine0 [(9, mappedTo)]) 0x23280008 8 0 ∧ { mappedTo with mapped := true }.mapped = true :=
  ⟨by decide +kernel, rfl, .inl rfl, rfl, rfl, by decide +kernel, rfl, rfl, rfl, inOrder_of rfl, rfl⟩

/-- A chunk that touches a peer through port 17: 4 µs after its start, on a port that is down, and in a halt whose 7.5 µs have passed; one that failed. -/
def remote : Chunk := { chunk0 with peer := some 0, ports := [17] }
def stuck : State := { copying { engine0 with started := 1, bar := none } [(9, remote)] with cycle := 12000 }

/-- Its port is up, and LEASE.LINKTO far off. -/
def linked : State := { stuck with ports := [(17, { Port.zero with st := 2, heard := 8500 })], ctxs := [(0, { ctx0 with linkto := 1000 })] }
def lostChunk : Chunk := { chunk0 with failed := true, horizon := 300 }

theorem met_chunks_fail : lookup stuck.chunks 9 = some remote ∧ lookup stuck.engines remote.cmd = some { engine0 with started := 1, bar := none }
    ∧ lookup stuck.groups 0 = some (gSluice 1) ∧ remote.failed = false ∧ remote.peer.isSome ∧ remote.mapped = false ∧ remote.frames.Nodup
    ∧ ¬ remote.OnTime stuck ∧ remote.OnTime linked ∧ (gSluice 1).dead = false ∧ ((gSluice 1).bar 63).heldArr = 0 ∧ ((gSluice 1).bar 63).arrive ≠ 0
    ∧ (let s : State := { stuck with ctxs := [(0, { ctx0 with halt := some (Halt.begin 70) })], groups := [(0, { gSluice 1 with st := .halting })] }
      (s.ctx 0).halt = some (Halt.begin 70) ∧ lookup s.groups 0 = some { gSluice 1 with st := .halting } ∧ (Halt.begin 70).since + 7500 ≤ s.now)
    ∧ lookup (copying engine0 [(9, lostChunk)]).chunks 9 = some lostChunk ∧ lookup (copying engine0 [(9, lostChunk)]).engines 4 = some engine0
    ∧ lookup { copying engine0 [(9, lostChunk)] with engines := [] }.engines 4 = none
    ∧ lookup { s0 with accesses := [(5, peerAccess)] }.accesses 5 = some peerAccess ∧ peerAccess.space = .peer ∧ peerAccess.fill = some (.words 5 1)
    ∧ peerAccess.prefetch = false ∧ { peerAccess with fill := none, tok := 3 }.prefetch = true
    ∧ ¬ TooLate { s0 with accesses := [(5, peerAccess)] } peerAccess.port peerAccess.since ∧ ¬ TooLate linked (some 17) 8000 := by
  refine ⟨by decide +kernel, by decide +kernel, by decide +kernel, rfl, rfl, rfl, by decide, ?_, .inr (.inr ⟨?_, ?_⟩), by decide +kernel, by decide +kernel,
    by decide +kernel, by decide +kernel, by decide +kernel, by decide +kernel, by decide +kernel, by decide +kernel, rfl, rfl, by decide +kernel,
    by decide +kernel, (fun h => by obtain ⟨_, h, _⟩ := h; cases h), ?_⟩
  · rintro (h | h | ⟨h, -⟩)
    · cases h
    · cases h
    · obtain ⟨x, ⟨hx, -⟩⟩ := h 17 (.head _)
      cases hx
  · intro q hq
    obtain rfl : q = 17 := by simpa [remote] using hq
    exact ⟨_, rfl, rfl, by decide +kernel, by decide +kernel⟩
  · exact ⟨{ engine0 with started := 1, bar := none }, gSluice 1, by decide +kernel, by decide +kernel, by decide +kernel⟩
  · rintro ⟨q, hq, h | h⟩
    · exact absurd h (by decide +kernel)
    · cases hq
      exact h _ ⟨rfl, rfl, by decide +kernel, by decide +kernel⟩

/-! ### Tasks -/

/-- The words of a record of kernel 0 at block 0, of a kind; a range of 1000 iterations in granules of 16. -/
def recWords (kind : Nat) (bar : Nat) : List Word := [BitVec.ofNat 32 (kind * 4096), BitVec.ofNat 32 bar] ++ List.replicate 14 0
def rangeRec : List Word := [4096, 4 * 256, 0, 0, 1000, 0] ++ List.replicate 10 9

theorem good0 : RecordGood s0 g0 0 (recWords 0 0) (oneWordKernel 32 0) := by
  refine ⟨by decide +kernel, by decide +kernel, by decide +kernel, by decide +kernel, fun b h => ?_, by decide +kernel, fun h => (by cases h)⟩
  have : recBar (recWords 0 0) = none := by decide +kernel
  rw [this] at h
  cases h

theorem good1 : RecordGood s0 g0 1 rangeRec (oneWordKernel 32 0) := by
  refine ⟨by decide +kernel, by decide +kernel, by decide +kernel, by decide +kernel, fun b h => ?_, by decide +kernel, fun _ => by decide +kernel⟩
  have : recBar rangeRec = none := by decide +kernel
  rw [this] at h
  cases h

/-- One thread whose v[5] onward holds a record, with g[9] = 0, then a bad home; a TRANGE of rangeRec in g[0] to g[9] and in g[1], g[2], g[3]. -/
def gSpawn : Group := gOne (grp (fun _ => []) [(3, 16)])
def fullTeam : Team := { oneWordTeam with deques := (List.range 8).map fun d => (d, List.replicate 512 3) }

theorem full_deques : ∀ e, e < 8 → 512 ≤ (fullTeam.deque e).length := by decide +kernel

theorem met_taskWords_spawn : Issues (here gSpawn) .lane { rv := [(5, 16)], rg := [9] } gSpawn p1 ∧ Issues (here gSpawn) .lane { rv := [(5, 16)], rg := [3] } gSpawn p1
    ∧ (∃ x, taking (here gSpawn) .lane gSpawn p1 = [x] ∧ (x.g 9).toNat / 16 = 0 ∧ (x.g 3).toNat / 16 ≠ 0 ∧ x.tid ∈ p1.cohort ∧ (lookup gSpawn.threads x.tid).isSome
      ∧ (gSpawn.thread x.tid).wait = .ready ∧ (List.range 16).map (fun i => (x.v (5 + i)).w) = recWords 0 0)
    ∧ lookup { here gSpawn with teams := [(0, fullTeam)] }.teams gSpawn.team = some fullTeam ∧ recKind (recWords 2 0) ≠ 0 :=
  ⟨issues_of (by decide +kernel), issues_of (by decide +kernel), ⟨_, rfl, by decide +kernel⟩, by decide +kernel, by decide +kernel⟩

/-- g[0] to g[9] of a TRANGE, its words in g[10], g[11], g[12]; the same with an empty interval. -/
def gRange (hi : Nat) : Group :=
  { grp (fun _ => []) ([(10, 4096 + 4 * 256 * 2 ^ 32), (11, 0), (12, hi)]) with lo := 10, hi := 15, gran := 2 }

theorem met_taskWords_range : Issues (here (gRange 7)) .pass { rg := [10, 11, 12] ++ List.range 10 } (gRange 7) p0 ∧ takers (here (gRange 7)) .pass (gRange 7) p0 ≠ []
    ∧ rangeWords (here (gRange 7)) (gRange 7) 10 11 12 = [4096, 1024, 0, 0, 7, 0] ++ List.replicate 10 0
    ∧ recLo (rangeWords (here (gRange 0)) (gRange 0) 10 11 12) = recHi (rangeWords (here (gRange 0)) (gRange 0) 10 11 12)
    ∧ recLo (rangeWords (here (gRange 7)) (gRange 7) 10 11 12) ≠ recHi (rangeWords (here (gRange 7)) (gRange 7) 10 11 12)
    ∧ (∃ k, RecordGood (here (gRange 7)) (gRange 7) 1 (rangeWords (here (gRange 7)) (gRange 7) 10 11 12) k)
    ∧ (¬ ∃ k, RecordGood (here (gRange 7)) (gRange 7) 1 (rangeWords (here (gRange 7)) (gRange 7) 11 11 12) k)
    ∧ Issues (here (gRange 7)) .pass { rg := [11], wv := [(5, 3)] } (gRange 7) p0 ∧ (gRange 7).lo.toNat ≤ (gRange 7).hi.toNat
    ∧ lookup (here (gRange 7)).teams (gRange 7).team = some oneWordTeam := by
  refine ⟨issues_of (by decide +kernel), by decide +kernel, by decide +kernel, by decide +kernel, by decide +kernel,
    ⟨oneWordKernel 32 0, by decide +kernel, by decide +kernel, by decide +kernel, by decide +kernel, fun b h => ?_, by decide +kernel, fun _ => by decide +kernel⟩,
    fun ⟨_, h⟩ => absurd h.same (by decide +kernel), issues_of (by decide +kernel), by decide +kernel, by decide +kernel⟩
  have : recBar (rangeWords (here (gRange 7)) (gRange 7) 10 11 12) = none := by decide +kernel
  rw [this] at h
  cases h

/-- The pool takes a thread's record, or its deques are full, for a record and for a range; the record is whole in both states. -/
theorem met_taskWords_pool : ((taking (here gSpawn) .lane gSpawn p1).foldlM (fun (u : State) (y : View) =>
        u.emit gSpawn.team 0 gSpawn.core y.tid 0 gSpawn (recWords 0 0)) ((here gSpawn).movedOn gSpawn p1 .lane 0 true)).isSome = true
    ∧ RecordGood (here gSpawn) gSpawn 0 (recWords 0 0) (oneWordKernel 32 0)
    ∧ (let s : State := { here gSpawn with teams := [(0, fullTeam)] }
      Issues s .lane { rv := [(5, 16)], rg := [9] } gSpawn p1 ∧ (∃ x, taking s .lane gSpawn p1 = [x])
      ∧ RecordGood s gSpawn 0 (recWords 0 0) (oneWordKernel 32 0))
    ∧ (let s : State := { here (gRange 7) with teams := [(0, fullTeam)] }
      Issues s .pass { rg := [10, 11, 12] ++ List.range 10 } (gRange 7) p0 ∧ lookup s.teams (gRange 7).team = some fullTeam) := by
  have none_ : recBar (recWords 0 0) = none := by decide +kernel
  refine ⟨by decide +kernel, ⟨by decide +kernel, by decide +kernel, by decide +kernel, by decide +kernel, fun b h => ?_, by decide +kernel, fun h => (by cases h)⟩,
    ⟨issues_of (by decide +kernel), ⟨_, rfl⟩, by decide +kernel, by decide +kernel, by decide +kernel, by decide +kernel, fun b h => ?_, by decide +kernel,
      fun h => (by cases h)⟩, issues_of (by decide +kernel), by decide +kernel⟩ <;> (rw [none_] at h; cases h)

/-- The first choice is full, so a record enters the next deque, modulo 8; with every deque full it enters none. -/
theorem met_taskWords_emit : let m := { oneWordTeam with deques := [(7, List.replicate 512 3)] }
    Enters m 7 0 ∧ (∀ e, e < 8 → 512 ≤ (fullTeam.deque e).length) ∧ lookup s0.groups 0 = some g0 ∧ Enters oneWordTeam 7 7 := by
  refine ⟨⟨1, by decide, rfl, by decide +kernel, fun j hj => ?_⟩, full_deques, by decide +kernel, 0, by decide, rfl, by decide +kernel, fun j hj => by omega⟩
  have : j = 0 := by omega
  subst this
  decide +kernel

/-! ### Teams and records -/

/-- Nothing is resident, and a launch of two teams waits; cluster 191 has no team. -/
def idle : State := { s0 with clusters := [], teams := [], groups := [], launches := [(3, { launch1 with teams := 2, next := 1, live := 1 })] }

theorem met_admission : idle.nextLaunch = some (3, { launch1 with teams := 2, next := 1, live := 1 }) ∧ idle.kernel 0 0 0 = some (oneWordKernel 32 0)
    ∧ (idle.cluster 191).team = none ∧ ((oneWordKernel 32 0).scratch + 65535) / 65536 * 65536 ≤ (idle.cluster 191).scratchBanks.length * 524288 := by
  decide +kernel

/-- Record 3, of a kind, in deque 0 of team 0, whose core 1 may take it. -/
def taskRec (w : List Word) : Record := { words := w, ctx := 0, slot := 0, core := 0, tid := 0, arrived := 70, parked := none, err := false, prio := 7 }
def pooled (w : List Word) : Team := { oneWordTeam with deques := [(0, [3])], recs := [(3, taskRec w)] }
def pooling (w : List Word) : State := { s0 with teams := [(0, pooled w)], launches := [(0, launch1)] }

theorem offers_of {w : List Word} {i id : Nat} {r : Record} (h : Offers (pooled w) 1 i id r) (hi : i < 8) : i = 7 ∧ id = 3 ∧ r = taskRec w := by
  obtain ⟨hl, _, pre, post, hd, _⟩ := h
  have hm : id ∈ (pooled w).deque ((1 + i) % 8) := by rw [hd]; simp
  have : ∀ j, j ≠ 0 → (pooled w).deque j = [] := fun j hj => by
    simp only [pooled, Team.deque, readAt, lookup, if_neg (Ne.symm hj), Option.getD_none]
  have hi7 : (1 + i) % 8 = 0 := Decidable.byContradiction fun hc => by rw [this _ hc] at hm; exact List.not_mem_nil hm
  rw [hi7] at hm
  have h3 : id = 3 := by simpa [pooled, Team.deque, readAt, lookup] using hm
  subst h3
  have : some r = some (taskRec w) := hl.symm.trans (by simp [pooled, lookup])
  exact ⟨by omega, rfl, Option.some.inj this⟩

theorem takes (w : List Word) (k : recKern w = 0) : Takes (pooling w) (pooled w) 1 3 (taskRec w) (oneWordKernel 32 0) := by
  refine ⟨?_, ?_, 7, by decide, ⟨by simp [pooled, lookup], rfl, [], [], by simp [pooled, Team.deque, readAt, lookup], ?_⟩, fun j hj id' r' k' ho => ?_⟩
  · change (pooling w).kernel 0 0 (recKern w) = _
    rw [k]
    rfl
  · exact (by decide +kernel : (pooling []).fits 1 (oneWordKernel 32 0) (oneWordKernel 32 0).threads = true)
  · exact fun x h => (List.not_mem_nil h).elim
  · obtain ⟨h, _⟩ := offers_of ho (by omega)
    omega

/-- A range record; a continuation record with an open buffer of its key, and with none. -/
def open1 : Buffer := { slot := 0, kern := 0, entry := 0, recs := [taskRec (recWords 0 0)], timer := 71, stoppedAt := none, closed := false }
theorem only0 (j : Nat) (h : Group) (hl : lookup (pooling rangeRec).groups j = some h) : j < (pooling rangeRec).stamp := by
  change (if (0 : Nat) = j then some g0 else none) = some h at hl
  split at hl
  · subst j; decide
  · cases hl

theorem met_records : Takes (pooling rangeRec) (pooled rangeRec) 1 3 (taskRec rangeRec) (oneWordKernel 32 0) ∧ recKind rangeRec = 1 ∧ rangeRec.length = 16
    ∧ ((pooling rangeRec).cluster (1 / 8)).team = some 0 ∧ lookup (pooling rangeRec).teams 0 = some (pooled rangeRec) ∧ ((pooling rangeRec).ctx 0).st = 2
    ∧ ((pooling rangeRec).ctx 0).halt = none ∧ (∀ j h, lookup (pooling rangeRec).groups j = some h → j < (pooling rangeRec).stamp)
    ∧ Takes (pooling (recWords 0 0)) (pooled (recWords 0 0)) 1 3 (taskRec (recWords 0 0)) (oneWordKernel 32 0) ∧ recKind (recWords 0 0) = 0
    ∧ (pooled (recWords 0 0)).bufs = [] ∧ open1.recs.length + 1 < 512 ∧ open1.kern = recKern (recWords 0 0) ∧ open1.entry = recEntry (recWords 0 0) :=
  ⟨takes _ (by decide +kernel), by decide +kernel, by decide +kernel, by decide +kernel, by decide +kernel, by decide +kernel, by decide +kernel, only0,
    takes _ (by decide +kernel), by decide +kernel, rfl, by decide, by decide +kernel, by decide +kernel⟩

/-- A buffer whose two records arrived earlier and in this cycle, and with one of them; no record stands in a deque. -/
def bufferOf (l : List Nat) : Buffer := { open1 with recs := l.map fun c => { taskRec (recWords 0 0) with arrived := c } }
theorem met_flushes : (∀ l ∈ [[70, 100], [100], [70]], (bufferOf l).closed = false)
    ∧ ((bufferOf [70, 100]).recs.filter fun r => decide (r.arrived ≠ s0.cycle)) ≠ [] ∧ ((bufferOf [70, 100]).recs.filter fun r => decide (r.arrived = s0.cycle)) ≠ []
    ∧ ((bufferOf [100]).recs.filter fun r => decide (r.arrived ≠ s0.cycle)) = [] ∧ (∀ r ∈ (bufferOf [70]).recs, r.arrived ≠ s0.cycle) := by decide +kernel

theorem met_noneToTake : NoneToTake s0 oneWordTeam 1 := by
  rintro i - id r k ⟨h, -⟩ -
  cases h

/-- A range group with 1000 iterations left in granules of 16, and one with too few to steal; a buffer whose timer has run out. -/
def gVictim (hi : Nat) : Group := { g0 with isRange := true, lo := 0, hi := BitVec.ofNat 64 hi, gran := 4 }
def robbed (hi : Nat) : State := { here (gVictim hi) with launches := [(0, launch1)], teams := [(0, { oneWordTeam with bufs := [(2, open1)] })] }

theorem met_stealsAndGathers : (robbed 1000).victim 0 = some (0, gVictim 1000) ∧ (robbed 1000).kernel 0 0 0 = some (oneWordKernel 32 0)
    ∧ ((gVictim 1000).hi.toNat - (gVictim 1000).lo.toNat) / (2 * 2 ^ (gVictim 1000).gran) * 2 ^ (gVictim 1000).gran ≠ 0
    ∧ (robbed 1000).fits 1 (oneWordKernel 32 0) (oneWordKernel 32 0).threads = true ∧ (robbed 31).victim 0 = some (0, gVictim 31)
    ∧ ((gVictim 31).hi.toNat - (gVictim 31).lo.toNat) / (2 * 2 ^ (gVictim 31).gran) * 2 ^ (gVictim 31).gran = 0
    ∧ lookup ({ oneWordTeam with bufs := [(2, open1)] } : Team).bufs 2 = some open1 ∧ open1.stoppedAt = none ∧ open1.timer ≤ (robbed 31).now
    ∧ (robbed 31).kernel 0 open1.slot open1.kern = some (oneWordKernel 32 0) ∧ lookup (robbed 31).launches 0 = some launch1
    ∧ (robbed 31).coreWithRoom 0 (oneWordKernel 32 0) 4 = some 1
    ∧ (let k := { oneWordKernel 32 0 with acc := 17 }
      (robbed 31).coreWithRoom 0 k 4 = none) := by decide +kernel

/-! ### Rings and registers -/

def inRing (r : Nat) (x : Ring) : State := { s0 with rings := [(r, x)], mod := { Module.reset with ready := true } }
def ring8 : Ring := { Ring.zero with st := 1, tail := 4, head := 4, done := 3 }

/-- The last value that TAIL accepts, one too many, one too low; a ring at rest and not; a context that takes writes and one that does not. -/
theorem met_registerWrites : (inRing 0 ring8).mod.ready = true ∧ ((inRing 0 ring8).ring 0).st ≠ 0 ∧ ¬ ring8.done + 2 ^ ring8.log2n < 19
    ∧ ring8.done + 2 ^ ring8.log2n < 20 ∧ 3 < ring8.tail ∧ SysRing 1027 ∧ ((inRing 1027 { ring8 with done := 4 }).ring 1027).tail = 4
    ∧ ((inRing 1027 { ring8 with done := 4 }).ring 1027).done = 4 ∧ ((inRing 1027 ring8).ring 1027).tail ≠ ((inRing 1027 ring8).ring 1027).done
    ∧ (s0.ctx 63).st = 0 ∧ (s0.ctx 0).st ≠ 0 ∧ (s0.ctx 0).st ≠ 5 ∧ (8#64).getLsbD 3 = true ∧ ((inRing 1027 ring8).ring (1024 + 3)).st ≠ 0 := by
  refine ⟨by decide +kernel, by decide +kernel, by decide, by decide, by decide, ⟨by decide, by decide⟩, ?_⟩
  decide +kernel

/-- Rings that fetch: a system ring in HBM and in host memory, a queue whose entry translates and one whose entry does not. -/
def fetching (r base : Nat) : State := inRing r { ring8 with st := 2, tail := 5, rbase := BitVec.ofNat 64 base, cbase := BitVec.ofNat 64 base }
/-- Rings whose oldest command has ended. -/
def reporting (r base : Nat) (f : Ring → Ring) : State :=
  inRing r (f { ring8 with st := 2, rbase := BitVec.ofNat 64 base, cbase := BitVec.ofNat 64 base, cmds := [(3, cmdOf [512] .done)] })

theorem met_commandFetch : (fetching 1024 (2 ^ 63)).mod.ready = true ∧ (fetching 1024 (2 ^ 63)).mod.tripped = false
    ∧ ((fetching 1024 (2 ^ 63)).ring 1024).head < ((fetching 1024 (2 ^ 63)).ring 1024).tail
    ∧ 2 ^ 63 ≤ ((fetching 1024 (2 ^ 63)).ring 1024).rbase.toNat + 4 % 2 ^ 4 * 64 ∧ ((fetching 1024 0).ring 1024).rbase.toNat + 4 % 2 ^ 4 * 64 < hbmEnd
    ∧ ((fetching 15 0x10000).ring 15).st = 2 ∧ ((fetching 15 0x10000).ctx (15 / 16)).st = 2 ∧ ¬ (1024 ≤ 15 ∧ 15 < 1028)
    ∧ (fetching 15 0x10000).translate (15 / 16) (BitVec.ofNat 64 (0x10000 + 4 % 2 ^ 4 * 64)) false = .ok .hbm 0x23280100 0 (some 0x4008)
    ∧ (fetching 15 0x30000).translate (15 / 16) (BitVec.ofNat 64 (0x30000 + 4 % 2 ^ 4 * 64)) false = .fault 5
    ∧ (fetching 15 0x10000).reached .hbm 0x23280100 = true ∧ hbmEnd ≤ ((fetching 1024 hbmEnd).ring 1024).rbase.toNat + 4 % 2 ^ 4 * 64
    ∧ (fetching 15 0x60000).reached .peer (peerKey 1 0x232C0100) = false
    ∧ (fetching 15 0x60000).translate (15 / 16) (BitVec.ofNat 64 (0x60000 + 4 % 2 ^ 4 * 64)) false = .ok .peer (peerKey 1 0x232C0100) 0 (some 0x4030) := by
  decide +kernel

theorem met_completionRecord : lookup ((reporting 1024 0 id).ring 1024).cmds ((reporting 1024 0 id).ring 1024).done = some (cmdOf [512] .done)
    ∧ (cmdOf [512] .done).st = .done ∧ (cmdOf [512] .done).horizon ≤ (reporting 1024 0 id).now ∧ opk [512] 0 / 2 ^ 9 % 2 = 1 ∧ (reporting 1024 0 id).pend = []
    ∧ (reporting 15 0xFF00000000000000 id).translate (15 / 16) (BitVec.ofNat 64 (0x30000 + 3 % 2 ^ 4 * 16)) true = .fault 5
    ∧ ((reporting 15 0x30000 id).ring 15).st = 2 ∧ ((reporting 15 0 fun x => { x with st := 5 }).ring 15).done + 1 = ((reporting 15 0 id).ring 15).head := by
  decide +kernel

/-- A group that has ended with its stores answered; a DBG.STEP whose step is taken; a place the device may write. -/
def sEnded : State := { reporting 15 0x10000 id with groups := [(0, { g0 with st := .ended })] }
theorem met_reports : StoresStand sEnded 0 ∧ StepTaken sEnded [0x31#64]
    ∧ Writable (reporting 15 0x10000 id) (15 / 16) (BitVec.ofNat 64 (0x10000 + 3 % 2 ^ 4 * 16)) 0x23280030 ∧ InOrder (reporting 15 0x10000 id) 0x23280030 16 0
    ∧ (∀ n, n < 5 → ((reporting 15 0x30000 fun x => { x with st := n }).ring 15).st = n) :=
  ⟨⟨fun g h => by cases h; rfl, fun _ h => (List.not_mem_nil h).elim, fun _ h => (List.not_mem_nil h).elim⟩,
    ⟨.inl (by decide), by simp [sEnded]⟩,
    ⟨.hbm, 0, 0x4008, by decide +kernel, by decide +kernel, by decide +kernel, by decide +kernel⟩, inOrder_of rfl, by decide +kernel⟩

/-! ### Commands -/

/-- Ring 1024, or another, whose only command is `w`, fetched with sequence number 3. -/
def commanding (w : List Quad) : Ring := { ring8 with st := 2, cmds := [(3, cmdOf w .fetched)] }
def ordered_ (s : State) (r : Nat) (w : List Quad) : State := { s with rings := putAt s.rings r (commanding w) }
/-- A command's words: its code and context, and OP1 on. -/
def cmdWords (opc ctx : Nat) (ops : List Nat) : List Quad := BitVec.ofNat 64 (opc + ctx * 2 ^ 32) :: ops.map (BitVec.ofNat 64)

def nextB (s : State) (r seq : Nat) (w : List Quad) : Bool :=
  decide ((s.ring r).cmds = [(seq, cmdOf w .fetched)]) && decide (seq = (s.ring r).done)

theorem next_of {s : State} {r seq : Nat} {w : List Quad} (h : nextB s r seq w = true) : NextCommand s r seq w (cmdOf w .fetched) := by
  simp only [nextB, Bool.and_eq_true, decide_eq_true_eq] at h
  exact ⟨⟨[], [], h.1, fun x hx => (List.not_mem_nil hx).elim⟩, by rw [h.1]; simp [lookup], rfl, rfl, .inl h.2⟩

/-- The checks of R105, as one computation, for a command that is not a LAUNCH to record. -/
def acceptedB (row : CommandRow) (s : State) (seq : Nat) (w : List Quad) : Bool :=
  nextB s row.ring seq w && decide (opk w 0 % 2 ^ 8 = row.opc) && (row.opc != 0x13 || (s.replays row.ring).isEmpty)
    && (!row.sys || decide (1024 ≤ row.ring ∧ row.ring < 1028)) && decide (opk w 0 / 2 ^ 10 % 2 ^ 22 = 0 ∧ opk w 0 / 2 ^ 38 = 0)
    && (decide ((1024 ≤ row.ring ∧ row.ring < 1028) ∧ row.ctx = true) || decide (opk w 0 / 2 ^ 32 % 64 = 0))
    && ((List.range 6).all fun i => decide ((opk w (i + 1) &&& row.slots.getD i 0) = opk w (i + 1))) && decide (opk w 7 = 0) && decide ((s.ring row.ring).recording = none)
    && (!row.ctx || row.states.contains (s.ctx (if 1024 ≤ row.ring ∧ row.ring < 1028 then opk w 0 / 2 ^ 32 % 64 else row.ring / 16)).st)

theorem accepted_of {row : CommandRow} {s : State} {seq : Nat} {w : List Quad} (h : acceptedB row s seq w = true) (hp : row.part w) (hr : row.inRange w) :
    row.Accepted s seq w (cmdOf w .fetched) := by
  simp only [acceptedB, Bool.and_eq_true, Bool.or_eq_true, decide_eq_true_eq, Bool.not_eq_true', bne_iff_ne, List.isEmpty_iff, List.contains_iff_mem, List.all_eq_true, List.mem_range] at h
  obtain ⟨⟨⟨⟨⟨⟨⟨⟨⟨h1, h2⟩, h3⟩, h4⟩, h5⟩, h6⟩, h7⟩, h8⟩, h9⟩, h10⟩ := h
  refine ⟨⟨next_of h1, h2, hp, fun e => h3.resolve_left fun n => n e⟩, fun e => h4.resolve_left (by rw [e]; decide),
    ⟨h5, fun n => h6.resolve_left fun y => n ⟨y.1, y.2⟩, h7, ?_, hr⟩, h9, fun e => h10.resolve_left (by rw [e]; decide)⟩
  rw [h9]
  simpa using h8

/-- A word of another code, a system command on a queue, a reserved bit, a queue that records, and a context that is not Created. -/
theorem met_commandChecks : (∃ row, commandRow (.map 1024) = some row ∧ NextCommand (ordered_ s0 1024 (cmdWords 6 0 [])) row.ring 3 (cmdWords 6 0 []) (cmdOf (cmdWords 6 0 []) .fetched)
      ∧ opk (cmdWords 6 0 []) 0 % 2 ^ 8 ≠ row.opc)
    ∧ (∃ row, commandRow (.preempt 15) = some row ∧ row.Here (ordered_ s0 15 (cmdWords 0x20 0 [])) 3 (cmdWords 0x20 0 []) (cmdOf (cmdWords 0x20 0 []) .fetched)
      ∧ row.sys = true ∧ ¬ SysRing row.ring)
    ∧ (∃ row, commandRow (.preempt 1027) = some row ∧ row.Here (ordered_ s0 1027 (cmdWords 0x20 0 [1])) 3 (cmdWords 0x20 0 [1]) (cmdOf (cmdWords 0x20 0 [1]) .fetched)
      ∧ (row.sys = true → SysRing row.ring) ∧ ¬ row.Fits (ordered_ s0 1027 (cmdWords 0x20 0 [1])) (cmdWords 0x20 0 [1]))
    ∧ (let s := { s0 with rings := [(15, { commanding (cmdWords 0x14 0 [0, 0]) with recording := some 0 })] }
      ∃ row, commandRow (.gparamSet 15) = some row ∧ row.Here s 3 (cmdWords 0x14 0 [0, 0]) (cmdOf (cmdWords 0x14 0 [0, 0]) .fetched)
        ∧ row.sys = false ∧ row.Fits s (cmdWords 0x14 0 [0, 0]) ∧ (s.ring row.ring).recording.isSome ∧ row.recorded = false)
    ∧ (let s := ordered_ s0 1024 (cmdWords 1 0 [0])
      ∃ row, commandRow (.ctxCreate 1024) = some row ∧ row.Here s 3 (cmdWords 1 0 [0]) (cmdOf (cmdWords 1 0 [0]) .fetched) ∧ SysRing row.ring
        ∧ row.Fits s (cmdWords 1 0 [0]) ∧ (s.ring row.ring).recording = none ∧ row.ctx = true ∧ (s.ctx (row.target (cmdWords 1 0 [0]))).st ∉ row.states) := by
  refine ⟨⟨_, rfl, next_of (by decide +kernel), by decide +kernel⟩,
    ⟨_, rfl, ⟨next_of (by decide +kernel), by decide +kernel, trivial, fun h => (by cases h)⟩, rfl, fun h => absurd h.1 (by decide)⟩,
    ⟨_, rfl, ⟨next_of (by decide +kernel), by decide +kernel, trivial, fun h => (by cases h)⟩, fun _ => ⟨by decide, by decide⟩, fun h => ?_⟩,
    ⟨_, rfl, ⟨next_of (by decide +kernel), by decide +kernel, trivial, fun h => (by cases h)⟩, rfl,
      ⟨by decide +kernel, fun _ => by decide +kernel, by decide +kernel, by rw [if_neg fun h => by cases h.1]; decide +kernel, trivial⟩, by decide +kernel, rfl⟩,
    ⟨_, rfl, ⟨next_of (by decide +kernel), by decide +kernel, trivial, fun h => (by cases h)⟩, ⟨by decide, by decide⟩,
      ⟨by decide +kernel, fun _ => by decide +kernel, by decide +kernel, by rw [if_neg fun h => by cases h.1]; decide +kernel, trivial⟩, by decide +kernel, rfl, by decide +kernel⟩⟩
  exact absurd (h.slots 0 (by decide)) (by decide +kernel)

/-- A queue slot that is unused and one that is Created; a queue that runs, paused and destroyed. -/
def qc : List Quad := cmdWords 3 0 [0x10000, 15 + 7 * 2 ^ 8 + 16 * 2 ^ 16, 0x10000]
def qctl (n : Nat) : List Quad := cmdWords 4 0 [15 + n * 2 ^ 8]
def withQueue (n : Nat) : State := { s0 with rings := [(15, { ring8 with st := n })] }

theorem met_queueCommands : (∃ row, commandRow (.qCreate 1024) = some row ∧ row.Accepted (ordered_ s0 1024 qc) 3 qc (cmdOf qc .fetched)
      ∧ ((ordered_ s0 1024 qc).ring (row.target qc * 16 + opk qc 2 % 16)).st = 0)
    ∧ (∃ row, commandRow (.qCreate 1024) = some row ∧ row.Accepted (ordered_ (withQueue 1) 1024 qc) 3 qc (cmdOf qc .fetched)
      ∧ ((ordered_ (withQueue 1) 1024 qc).ring (row.target qc * 16 + opk qc 2 % 16)).st = 1)
    ∧ (∃ row, commandRow (.qCtlPause 1024) = some row ∧ row.Accepted (ordered_ (withQueue 2) 1024 (qctl 0)) 3 (qctl 0) (cmdOf (qctl 0) .fetched)
      ∧ ((ordered_ (withQueue 2) 1024 (qctl 0)).ring (row.target (qctl 0) * 16 + opk (qctl 0) 1 % 16)).st = 2)
    ∧ (∃ row, commandRow (.qCtlResume 1024) = some row ∧ row.Accepted (ordered_ (withQueue 4) 1024 (qctl 1)) 3 (qctl 1) (cmdOf (qctl 1) .fetched)
      ∧ ((ordered_ (withQueue 4) 1024 (qctl 1)).ring (row.target (qctl 1) * 16 + opk (qctl 1) 1 % 16)).st = 4)
    ∧ ∃ row, commandRow (.qCtlDestroy 1024) = some row ∧ row.Accepted (ordered_ (withQueue 3) 1024 (qctl 2)) 3 (qctl 2) (cmdOf (qctl 2) .fetched)
      ∧ ((ordered_ (withQueue 3) 1024 (qctl 2)).ring (row.target (qctl 2) * 16 + opk (qctl 2) 1 % 16)).st = 3 :=
  ⟨⟨_, rfl, accepted_of (by decide +kernel) trivial (by decide +kernel), by decide +kernel⟩,
    ⟨_, rfl, accepted_of (by decide +kernel) trivial (by decide +kernel), by decide +kernel⟩,
    ⟨_, rfl, accepted_of (by decide +kernel) (.inl (by decide +kernel)) (by decide +kernel), by decide +kernel⟩,
    ⟨_, rfl, accepted_of (by decide +kernel) (by decide +kernel) trivial, by decide +kernel⟩,
    ⟨_, rfl, accepted_of (by decide +kernel) (by decide +kernel) trivial, by decide +kernel⟩⟩

/-- MAP of one leaf at the page that has none, of one at an odd address; UNMAP of the counted leaf; POOL.CREATE of all that is free, and of more. -/
def mapOne (va : Nat) : List Quad := cmdWords 5 0 [va, 0x23300073, 1]
def unmapOne : List Quad := cmdWords 6 0 [0x40000, 1]
def poolOf (n : Nat) : List Quad := cmdWords 7 0 [9, n, 1]
def sFree : State := { sPage with dieFree := [(0, [(8320, 3)]), (23, [(23 * 2 ^ 20 + 8320, 2)])] }

theorem mapGood : MapGood (ordered_ sPage 1024 (mapOne 0x30000)) 0 0x30000 0x23300073 1 16 [0x4018] := by
  refine ⟨by decide, by decide, by decide +kernel, by decide, fun _ i hi => ?_, ⟨rfl, fun i k h => ?_⟩, fun k hk => ?_⟩
  · have : i = 0 := by omega
    subst this
    decide +kernel
  · match i with
    | 0 => cases h; exact ⟨_, rfl, by decide +kernel⟩
    | n + 1 => cases h
  · obtain rfl : k = 0x4018 := by simpa using hk
    exact (by decide +kernel : ¬ countedEntry ((ordered_ sPage 1024 (mapOne 0x30000)).latest8 0x4018) = true)

theorem met_mappingCommands : (∃ row, commandRow (.map 1024) = some row
      ∧ row.Accepted (ordered_ sPage 1024 (mapOne 0x30000)) 3 (mapOne 0x30000) (cmdOf (mapOne 0x30000) .fetched)
      ∧ (∀ k ∈ [0x4018], LeafOpen (ordered_ sPage 1024 (mapOne 0x30000)) k ∧ k % 8 = 0 ∧ InOrder (ordered_ sPage 1024 (mapOne 0x30000)) k 8 0))
    ∧ (∃ row, commandRow (.map 1024) = some row
      ∧ row.Accepted (ordered_ sPage 1024 (mapOne 0x30001)) 3 (mapOne 0x30001) (cmdOf (mapOne 0x30001) .fetched)
      ∧ ¬ ∃ shift keys, MapGood (ordered_ sPage 1024 (mapOne 0x30001)) (row.target (mapOne 0x30001)) (opk (mapOne 0x30001) 1) (opk (mapOne 0x30001) 2) 1 shift keys)
    ∧ (∃ row, commandRow (.unmap 1024) = some row ∧ row.Accepted (ordered_ sPage 1024 unmapOne) 3 unmapOne (cmdOf unmapOne .fetched)
      ∧ UnmapRun (ordered_ sPage 1024 unmapOne) 0 0x40000 [(0x4020, 0x232A0077, 16)] ∧ (sPage.frames.map (·.1)).Nodup)
    ∧ (∃ row, commandRow (.poolCreate 1024) = some row ∧ row.Accepted (ordered_ sFree 1024 (poolOf 5)) 3 (poolOf 5) (cmdOf (poolOf 5) .fetched)
      ∧ lookup (ordered_ sFree 1024 (poolOf 5)).pools 9 = none ∧ ((sFree.dieFree.map fun x => (x.2.map (·.2)).sum).sum) = 5
      ∧ Table.wf [] sFree.dieFree = true ∧ (∀ x ∈ sFree.dieFree, x.1 < 24))
    ∧ ∃ row, commandRow (.poolCreate 1024) = some row ∧ row.Accepted (ordered_ sFree 1024 (poolOf 6)) 3 (poolOf 6) (cmdOf (poolOf 6) .fetched) := by
  refine ⟨⟨_, rfl, accepted_of (by decide +kernel) trivial (by decide +kernel), fun k hk => ?_⟩,
    ⟨_, rfl, accepted_of (by decide +kernel) trivial (by decide +kernel), fun ⟨shift, keys, h⟩ => ?_⟩,
    ⟨_, rfl, accepted_of (by decide +kernel) trivial (by decide +kernel), ?_, by decide +kernel⟩,
    ⟨_, rfl, accepted_of (by decide +kernel) trivial (by decide +kernel), by decide +kernel, by decide +kernel, by decide +kernel, by decide +kernel⟩,
    ⟨_, rfl, accepted_of (by decide +kernel) trivial (by decide +kernel)⟩⟩
  · cases List.mem_singleton.mp hk
    exact ⟨fun j c h => (List.not_mem_nil h).elim, by decide, inOrder_of rfl⟩
  · have h1 := h.size
    have h2 := h.placed.1
    have e1 : opk (mapOne 0x30001) 2 / 2 ^ 6 % 4 = 1 := by decide +kernel
    have e2 : opk (mapOne 0x30001) 1 = 0x30001 := by decide +kernel
    rw [e1] at h1
    rw [e2] at h2
    simp only [List.mem_cons, Prod.mk.injEq, List.not_mem_nil, or_false] at h1
    have : shift = 16 := by omega
    subst this
    exact absurd h2 (by decide)
  · exact ⟨by decide, by decide +kernel, by decide, trivial⟩

/-! ### Contexts -/

/-- Context 1 is Free, context 0 Active with a halt or none, or Halted. -/
def ctxWords (opc ctx : Nat) (ops : List Nat) : List Quad := cmdWords opc ctx ops
def inCtx (f : Context → Context) : State := { s0 with ctxs := [(0, f ctx0)] }
def gHalting (st : GroupSt) : Group := { g0 with st := st, before := .running }

theorem met_contextCommands : (∃ row, commandRow (.ctxCreate 1024) = some row
      ∧ row.Accepted (ordered_ s0 1024 (cmdWords 1 1 [1])) 3 (cmdWords 1 1 [1]) (cmdOf (cmdWords 1 1 [1]) .fetched))
    ∧ (∃ row, commandRow (.ctxDestroy 1024) = some row ∧ row.Accepted (ordered_ halted 1024 (cmdWords 2 0 [])) 3 (cmdWords 2 0 []) (cmdOf (cmdWords 2 0 []) .fetched)
      ∧ ((ordered_ halted 1024 (cmdWords 2 0 [])).ctx (row.target (cmdWords 2 0 []))).halt = some (Halt.begin 70))
    ∧ (∃ row, commandRow (.ctxDestroy 1024) = some row
      ∧ row.Accepted (ordered_ (withQueue 2) 1024 (cmdWords 2 0 [])) 3 (cmdWords 2 0 []) (cmdOf (cmdWords 2 0 []) .fetched)
      ∧ ((ordered_ (withQueue 2) 1024 (cmdWords 2 0 [])).ctx (row.target (cmdWords 2 0 []))).halt = none
      ∧ ((ordered_ (withQueue 2) 1024 (cmdWords 2 0 [])).rings.map (·.1)).Nodup
      ∧ ∀ y ∈ (ordered_ (withQueue 2) 1024 (cmdWords 2 0 [])).rings, (y.2.cmds.map (·.1)).Nodup)
    ∧ (∃ row, commandRow (.preempt 1024) = some row
      ∧ row.Accepted (ordered_ (withQueue 2) 1024 (cmdWords 0x20 0 [])) 3 (cmdWords 0x20 0 []) (cmdOf (cmdWords 0x20 0 []) .fetched)
      ∧ ((ordered_ (withQueue 2) 1024 (cmdWords 0x20 0 [])).ctx (row.target (cmdWords 0x20 0 []))).halt = none)
    ∧ (∃ row, commandRow (.preempt 1024) = some row
      ∧ row.Accepted (ordered_ halted 1024 (cmdWords 0x20 0 [])) 3 (cmdWords 0x20 0 []) (cmdOf (cmdWords 0x20 0 []) .fetched)
      ∧ ((ordered_ halted 1024 (cmdWords 0x20 0 [])).ctx (row.target (cmdWords 0x20 0 []))).halt = some (Halt.begin 70))
    ∧ (let s := ordered_ { inCtx (fun x => { x with st := 3 }) with groups := [(0, gHalting .saved)] } 1024 (cmdWords 0x21 0 [])
      ∃ row, commandRow (.resume 1024) = some row ∧ row.Accepted s 3 (cmdWords 0x21 0 []) (cmdOf (cmdWords 0x21 0 []) .fetched)
        ∧ (s.ctx (row.target (cmdWords 0x21 0 []))).halt = none ∧ s.chunks = []
        ∧ ((s.groups.filter fun (_, g) => g.ctx == 0 && g.st == .saved && g.grant && g.core / 8 == 0).map fun (_, g) => g.nthr).sum ≤ (s.cluster 0).xfree) := by
  refine ⟨⟨_, rfl, accepted_of (by decide +kernel) trivial trivial⟩, ⟨_, rfl, accepted_of (by decide +kernel) trivial trivial, by decide +kernel⟩,
    ⟨_, rfl, accepted_of (by decide +kernel) trivial trivial, by decide +kernel, by decide +kernel, by decide +kernel⟩,
    ⟨_, rfl, accepted_of (by decide +kernel) trivial trivial, by decide +kernel⟩, ⟨_, rfl, accepted_of (by decide +kernel) trivial trivial, by decide +kernel⟩,
    ⟨_, rfl, accepted_of (by decide +kernel) trivial trivial, by decide +kernel, rfl, by decide +kernel⟩⟩

/-- A halt whose group has come to rest, and one whose group waits for a result; a Destroying context with nothing left. -/
def resting (p : Pass) : State :=
  { halted with groups := [(0, { gHalting .halting with passes := [(0, p)] })] }
theorem met_halts : ((resting { p0 with hold := .none }).ctx 0).halt = some (Halt.begin 70)
    ∧ (resting p0).groupHalted 0 { gHalting .halting with passes := [(0, p0)] } = true
    ∧ (let q := { p0 with dueV := [{ cyc := 105, tid := 2, idx := 5, val := Carrier.ofWord 7 }] }
      (resting q).groupHalted 0 { gHalting .halting with passes := [(0, q)] } = false)
    ∧ ((resting p0).groups.map (·.1)).Nodup ∧ ((resting p0).coreSt 0).race = [] ∧ (∀ tid ∈ p0.cohort, (lookup g0.threads tid).isSome) ∧ p0.cohort.Nodup
    ∧ (let s := { inCtx (fun x => { x with st := 5 }) with groups := [(0, { g0 with st := .ended })] }
      (s.ctx 0).st = 5 ∧ (s.ctx 0).halt = none ∧ (∀ e ∈ s.groups, e.2.ctx = 0 → e.2.st = .ended) ∧ s.chunks = [] ∧ s.cows = []) := by decide +kernel

/-! ### Debugging -/

/-- Group 0, which runs a pass; is stopped, with a stopped, a held or no pass; DBG words that name it, all groups, and none. -/
def gStop (l : List (Nat × Pass)) : Group := { g0 with st := .stopped, passes := l }
def gStopReady : Group := { gReady with st := .stopped }
def pStop (r : PassRun) : Pass := { p0 with run := r }
def dbg (opc n m : Nat) : List Quad := cmdWords opc 0 (if opc = 0x33 then [n, m] else [n])

theorem met_debugCommands : (∃ row, commandRow (.dbgStop 1024) = some row
      ∧ row.Accepted (ordered_ s0 1024 (dbg 0x30 0 0)) 3 (dbg 0x30 0 0) (cmdOf (dbg 0x30 0 0) .fetched)
      ∧ lookup (ordered_ s0 1024 (dbg 0x30 0 0)).groups 0 = some g0 ∧ g0.grpid = opk (dbg 0x30 0 0) 1 ∧ g0.st = .running)
    ∧ (∃ row, commandRow (.dbgStop 1024) = some row
      ∧ row.Accepted (ordered_ s0 1024 (dbg 0x30 7 0)) 3 (dbg 0x30 7 0) (cmdOf (dbg 0x30 7 0) .fetched) ∧ g0.grpid ≠ opk (dbg 0x30 7 0) 1)
    ∧ (let g := gStop [(0, pStop .stopped)]
      (∃ row, commandRow (.dbgStep 1024) = some row ∧ row.Accepted (ordered_ (here g) 1024 (dbg 0x31 0 0)) 3 (dbg 0x31 0 0) (cmdOf (dbg 0x31 0 0) .fetched))
        ∧ (∃ row, commandRow (.dbgSteppass 1024) = some row ∧ row.Accepted (ordered_ (here g) 1024 (dbg 0x32 0 0)) 3 (dbg 0x32 0 0) (cmdOf (dbg 0x32 0 0) .fetched))
        ∧ (∃ row, commandRow (.dbgCont 1024) = some row
          ∧ row.Accepted (ordered_ (here g) 1024 (dbg 0x34 0xFFFFFFFF 0)) 3 (dbg 0x34 0xFFFFFFFF 0) (cmdOf (dbg 0x34 0xFFFFFFFF 0) .fetched))
        ∧ g.passes = [] ++ (0, pStop .stopped) :: [] ∧ (pStop .stopped).ended = false ∧ (pStop .stopped).run = .stopped)
    ∧ (let g := gStop [(0, pStop .held)]
      (∃ row, commandRow (.dbgStep 1024) = some row ∧ row.Accepted (ordered_ (here g) 1024 (dbg 0x31 0 0)) 3 (dbg 0x31 0 0) (cmdOf (dbg 0x31 0 0) .fetched))
        ∧ g.passes = [] ++ (0, pStop .held) :: [] ∧ ∀ y ∈ g.passes, y.2.ended = true ∨ ¬ y.2.run = .stopped)
    ∧ (∃ row, commandRow (.dbgStepbin 1024) = some row
      ∧ row.Accepted (ordered_ (here gStopReady) 1024 (dbg 0x33 0 0)) 3 (dbg 0x33 0 0) (cmdOf (dbg 0x33 0 0) .fetched)
      ∧ gStopReady.passes = [] ∧ gStopReady.readyThreads false (0, 0) ≠ []
      ∧ gStopReady.readyThreads false (1, 0) = []) := by
  refine ⟨⟨_, rfl, accepted_of (by decide +kernel) trivial trivial, by decide +kernel, by decide +kernel, rfl⟩,
    ⟨_, rfl, accepted_of (by decide +kernel) trivial trivial, by decide +kernel⟩,
    ⟨⟨_, rfl, accepted_of (by decide +kernel) trivial trivial⟩, ⟨_, rfl, accepted_of (by decide +kernel) trivial trivial⟩,
      ⟨_, rfl, accepted_of (by decide +kernel) trivial trivial⟩, rfl, rfl, rfl⟩,
    ⟨⟨_, rfl, accepted_of (by decide +kernel) trivial trivial⟩, rfl, by decide +kernel⟩,
    ⟨_, rfl, accepted_of (by decide +kernel) trivial trivial, rfl, by decide +kernel, by decide +kernel⟩⟩

/-- A stopped group none of whose passes can step, one without a pass that the weir may start, and one with nothing to run. -/
theorem met_debugSteps : (∃ row, commandRow (.dbgStep 1024) = some row
      ∧ row.Accepted (ordered_ (here (gStop [])) 1024 (dbg 0x31 0 0)) 3 (dbg 0x31 0 0) (cmdOf (dbg 0x31 0 0) .fetched))
    ∧ ((ordered_ (here (gStop [])) 1024 (dbg 0x31 0 0)).groups.map (·.1)).Nodup ∧ (gStop []).stepBin = none
    ∧ (ordered_ (here (gStop [])) 1024 (dbg 0x31 0 0)).select (gStop []) = none
    ∧ ((ordered_ (here gStopReady) 1024 (dbg 0x31 0 0)).select gStopReady).isSome = true
    ∧ (let g := gStop [(0, { pStop .held with ended := true })]
      g.passes ≠ [] ∧ ∀ y ∈ g.passes, y.2.ended = true)
    ∧ (let g := gStop [(0, { pStop .stopped with hold := .cwb })]
      ∃ y ∈ g.passes, y.2.run = .stopped ∧ y.2.hold.finishes = true) ∧ p0.cohort ≠ [] ∧ (gStop []).grpid = opk (dbg 0x31 0 0) 1 := by
  refine ⟨⟨_, rfl, accepted_of (by decide +kernel) trivial trivial⟩, ?_⟩
  decide +kernel

/-! ### Kernels and graphs -/

/-- An image of one kernel: header, descriptor, block table and the text of `oneWordKernel`. -/
def image1 : List Byte :=
  leBytes 4 0x314B4847 ++ leBytes 4 1 ++ leBytes 4 1 ++ leBytes 4 144 ++ List.replicate 48 0
    ++ leBytes 4 132 ++ leBytes 4 12 ++ leBytes 4 128 ++ leBytes 2 1 ++ leBytes 2 0 ++ leBytes 8 0 ++ leBytes 2 4 ++ [1, 64, 64, 64] ++ leBytes 4 65536 ++ [16, 0]
    ++ List.replicate 28 0 ++ leBytes 4 0 ++ (oneWordKernel 32 0).text

theorem met_images : parseImage image1 144 = some [oneWordKernel 32 0] ∧ parseImage (image1.set 127 1) 144 = none := by decide +kernel

/-- The image stands at 0x10000; KERN.LOAD of it, and of a page that is not there. -/
def sImage : State := { s0 with mem := writeBytes pages 0x23280000 image1 }
def loadAt (va : Nat) : List Quad := cmdWords 9 0 [va, 144]
def launchW (slot teams : Nat) : List Quad := cmdWords 0x10 0 [slot, teams, 5, 0]

theorem met_kernels : (∃ row, commandRow (.kernLoad 1024) = some row
      ∧ row.Accepted (ordered_ sImage 1024 (loadAt 0x10000)) 3 (loadAt 0x10000) (cmdOf (loadAt 0x10000) .fetched)
      ∧ (let head := (ordered_ sImage 1024 (loadAt 0x10000)).readMany (row.target (loadAt 0x10000)) (opk (loadAt 0x10000) 1) 64
        head.2 = some (image1.take 64) ∧ headerGood (leNat (image1.take 64)) 144 = true
        ∧ (head.1.readMany (row.target (loadAt 0x10000)) (opk (loadAt 0x10000) 1) (opk (loadAt 0x10000) 2)).2 = some image1)
      ∧ headerGood (leNat (List.replicate 64 (0 : Byte))) 144 = false
      ∧ (ordered_ sImage 1024 (loadAt 0x10000)).translate (row.target (loadAt 0x10000)) (BitVec.ofNat 64 (opk (loadAt 0x10000) 1)) false = .ok .hbm 0x23280000 0 (some 0x4008)
      ∧ (ordered_ sImage 1024 (loadAt 0x10000)).reached .hbm 0x23280000 = true ∧ opk (loadAt 0x10000) 1 % 65536 + 144 ≤ 65536
      ∧ lookup ((ordered_ sImage 1024 (loadAt 0x10000)).ctx 0).images 1 = none)
    ∧ (∃ row, commandRow (.kernLoad 1024) = some row
      ∧ row.Accepted (ordered_ sImage 1024 (loadAt 0x30000)) 3 (loadAt 0x30000) (cmdOf (loadAt 0x30000) .fetched)
      ∧ ((ordered_ sImage 1024 (loadAt 0x30000)).readMany (row.target (loadAt 0x30000)) (opk (loadAt 0x30000) 1) 64).2.isNone = true)
    ∧ (∃ row, commandRow (.kernUnload 1024) = some row
      ∧ row.Accepted (ordered_ s0 1024 (cmdWords 10 0 [0])) 3 (cmdWords 10 0 [0]) (cmdOf (cmdWords 10 0 [0]) .fetched)
      ∧ (lookup ((ordered_ s0 1024 (cmdWords 10 0 [0])).ctx 0).images 0).isSome
      ∧ (0, g0) ∈ (ordered_ s0 1024 (cmdWords 10 0 [0])).groups ∧ g0.slot = 0 ∧ g0.st ≠ .ended)
    ∧ (∃ row, commandRow (.kernUnload 1024) = some row
      ∧ row.Accepted (ordered_ idle 1024 (cmdWords 10 0 [0])) 3 (cmdWords 10 0 [0]) (cmdOf (cmdWords 10 0 [0]) .fetched)
      ∧ (ordered_ idle 1024 (cmdWords 10 0 [0])).groups = [] ∧ (ordered_ idle 1024 (cmdWords 10 0 [0])).teams = []
      ∧ ((ordered_ idle 1024 (cmdWords 10 0 [0])).ctx 0).graphs = [])
    ∧ ∃ row, commandRow (.launch 1024) = some row
      ∧ row.Accepted (ordered_ s0 1024 (launchW 0 (2 ^ 24))) 3 (launchW 0 (2 ^ 24)) (cmdOf (launchW 0 (2 ^ 24)) .fetched)
      ∧ ((lookup ((ordered_ s0 1024 (launchW 0 (2 ^ 24))).ctx 0).images 0).bind (·.kernels[0]?)) = some (oneWordKernel 32 0)
      ∧ (oneWordKernel 32 0).handler = false ∧ ((oneWordKernel 32 0).team + 7) / 8 * (oneWordKernel 32 0).barriers ≤ 64 := by
  refine ⟨⟨_, rfl, accepted_of (by decide +kernel) trivial (by decide +kernel), by decide +kernel, by decide +kernel, by decide +kernel, by decide +kernel, by decide +kernel,
      by decide +kernel⟩,
    ⟨_, rfl, accepted_of (by decide +kernel) trivial (by decide +kernel), by decide +kernel⟩,
    ⟨_, rfl, accepted_of (by decide +kernel) trivial trivial, by decide +kernel, by decide +kernel, rfl, by decide⟩,
    ⟨_, rfl, accepted_of (by decide +kernel) trivial trivial, rfl, rfl, by decide +kernel⟩,
    ⟨_, rfl, accepted_of (by decide +kernel) trivial (by decide +kernel), by decide +kernel, rfl, by decide⟩⟩

/-- Graph 5, closed with a recorded LAUNCH or open, its buffer at 0x10000 or, for a counted leaf, in the scratchpad's stead at a page not there. -/
def graph5 (n : Nat) (rec : Bool) : Graph := { buf := 0x10000, count := n, recording := rec }
def withGraph (g : Graph) : State :=
  { s0 with ctxs := [(0, { ctx0 with graphs := [(5, g)] })], mem := writeBytes pages 0x23280200 ((List.range 8).flatMap fun i => leBytes 8 (opk (launchW 0 1) i)) }
def recordingOn (w : List Quad) (g : Graph) : State := { withGraph g with rings := [(15, { commanding w with recording := some 5 })] }
/-- A LAUNCH whose arguments a replay takes from parameter 5. -/
def launchSubst : List Quad := launchW 0 1 ++ [0, 0, BitVec.ofNat 64 (0x8000 + 3 * 256 + 5)]
def replaying (w : List Quad) (params : List Quad) : State :=
  { withGraph (graph5 1 false) with
    mem := writeBytes pages 0x23280200 ((List.range 8).flatMap fun i => leBytes 8 (opk w i))
    rings := [(1024, { ring8 with st := 2, cmds := [(3, { cmdOf (cmdWords 0x13 0 [5]) .started with replay := some (0, 1, params) })] })] }
def replay0 : Order := { ring := 1024, seq := 3, ctx := 0, words := cmdWords 0x13 0 [5] }

theorem met_graphCommands : (∃ row, commandRow (.graphRecord 15) = some row
      ∧ row.Accepted (ordered_ (withGraph (graph5 1 false)) 15 (cmdWords 0x11 0 [5, 0x10000])) 3 (cmdWords 0x11 0 [5, 0x10000]) (cmdOf (cmdWords 0x11 0 [5, 0x10000]) .fetched))
    ∧ (∃ row, commandRow (.launch 15) = some row ∧ row.Here (recordingOn launchSubst (graph5 255 true)) 3 launchSubst (cmdOf launchSubst .fetched)
      ∧ row.Fits (recordingOn launchSubst (graph5 255 true)) launchSubst
      ∧ ((recordingOn launchSubst (graph5 255 true)).ring 15).recording = some 5 ∧ lookup ((recordingOn launchSubst (graph5 255 true)).ctx (5 / 64)).graphs 5 = some (graph5 255 true)
      ∧ (recordingOn launchSubst (graph5 256 true)).translate 0 (BitVec.ofNat 64 (0x10000 + 512 + 64 * 255)) true = .ok .hbm 0x232841C0 0 (some 0x4008))
    ∧ (∃ row, commandRow (.graphEnd 15) = some row ∧ row.Here (recordingOn (cmdWords 0x12 0 []) (graph5 255 true)) 3 (cmdWords 0x12 0 []) (cmdOf (cmdWords 0x12 0 []) .fetched)
      ∧ row.Fits (recordingOn (cmdWords 0x12 0 []) (graph5 255 true)) (cmdWords 0x12 0 []))
    ∧ (∃ row, commandRow (.graphEnd 15) = some row
      ∧ row.Accepted (ordered_ s0 15 (cmdWords 0x12 0 [])) 3 (cmdWords 0x12 0 []) (cmdOf (cmdWords 0x12 0 []) .fetched))
    ∧ (∃ row, commandRow (.graphReplay 1024) = some row
      ∧ row.Accepted (ordered_ (withGraph (graph5 1 false)) 1024 (cmdWords 0x13 0 [5])) 3 (cmdWords 0x13 0 [5]) (cmdOf (cmdWords 0x13 0 [5]) .fetched))
    ∧ (∃ row, commandRow (.gparamSet 1024) = some row
      ∧ row.Accepted (ordered_ (withGraph (graph5 1 false)) 1024 (cmdWords 0x14 0 [5 + 63 * 256, 9])) 3 (cmdWords 0x14 0 [5 + 63 * 256, 9])
        (cmdOf (cmdWords 0x14 0 [5 + 63 * 256, 9]) .fetched)
      ∧ (ordered_ (withGraph (graph5 1 false)) 1024 []).translate 0 (BitVec.ofNat 64 (0x10000 + 8 * 63)) true = .ok .hbm 0x232801F8 0 (some 0x4008)) := by
  refine ⟨⟨_, rfl, accepted_of (by decide +kernel) trivial (by decide +kernel)⟩,
    ⟨_, rfl, ⟨next_of (by decide +kernel), by decide +kernel, trivial, fun h => (by cases h)⟩,
      ⟨by decide +kernel, fun _ => by decide +kernel, fun i hi => ?_, ?_, by decide +kernel⟩, by decide +kernel, by decide +kernel, by decide +kernel⟩,
    ⟨_, rfl, ⟨next_of (by decide +kernel), by decide +kernel, trivial, fun h => (by cases h)⟩,
      ⟨by decide +kernel, fun _ => by decide +kernel, fun i hi => ?_, by rw [if_neg fun h => by cases h.1]; decide +kernel, trivial⟩⟩,
    ⟨_, rfl, accepted_of (by decide +kernel) trivial trivial⟩, ⟨_, rfl, accepted_of (by decide +kernel) trivial trivial⟩,
    ⟨_, rfl, accepted_of (by decide +kernel) trivial trivial, by decide +kernel⟩⟩
  · exact (by decide +kernel : ∀ i, i < 6 → (opk launchSubst (i + 1) &&& [0xFFFF00FF, anyBits, anyBits, anyBits].getD i 0) = opk launchSubst (i + 1)) i hi
  · rw [if_pos ⟨rfl, by decide +kernel⟩]
    have : ∀ i, i < 4 → (opk launchSubst 7 / 2 ^ (16 * i) % 2 ^ 16 = 0 ∨ opk launchSubst 7 / 2 ^ (16 * i) % 2 ^ 16 = 0x8305) := by decide +kernel
    intro i hi
    rcases this i hi with h | h <;> rw [h]
    · exact ⟨by decide, by decide, by decide⟩
    · exact ⟨by decide, by decide, by decide⟩
  · exact (by decide +kernel : ∀ i, i < 6 → (opk (cmdWords 0x12 0 []) (i + 1) &&& ([] : List Nat).getD i 0) = opk (cmdWords 0x12 0 []) (i + 1)) i hi

/-- A replay whose next LAUNCH starts, and one whose LAUNCH names a slot with no image; entry 0 puts parameter 5 into OP3. -/
theorem met_replays : (∃ params, (replaying (launchW 0 1) params).replays 1024 = (replay0, 0, 1, params) :: [] ∧ params.length = 64
      ∧ ((replaying (launchW 0 1) params).recorded 0 (graph5 1 false) 0).2 = some (launchW 0 1 ++ [0, 0, 0])
      ∧ ((replaying (launchW 0 1) params).launchKernel 0 (substitute params (launchW 0 1 ++ [0, 0, 0]))).isSome = true
      ∧ operandsGood (substitute params (launchW 0 1 ++ [0, 0, 0])) = true
      ∧ ((replaying (launchW 9 1) params).recorded 0 (graph5 1 false) 0).2 = some (launchW 9 1 ++ [0, 0, 0])
      ∧ (replaying (launchW 9 1) params).launchKernel 0 (substitute params (launchW 9 1 ++ [0, 0, 0])) = none ∧ (replaying (launchW 9 1) params).launches = []
      ∧ ((replaying (launchW 9 1) params).recorded 0 { graph5 1 false with buf := 0x30000 } 0).2 = none
      ∧ (let s : State := { replaying (launchW 9 1) params with ctxs := [(0, { ctx0 with graphs := [(5, graph5 1 true)] })] }
        s.replays 1024 = (replay0, 0, 1, params) :: [] ∧ lookup (s.ctx 0).graphs 5 = some (graph5 1 true) ∧ (graph5 1 true).recording = true))
    ∧ (let entry := fun (i : Nat) => opk launchSubst 7 / 2 ^ (16 * i) % 2 ^ 16
      launchSubst.length = 8 ∧ entry 0 / 2 ^ 15 = 1 ∧ entry 0 / 2 ^ 8 % 8 = 3 ∧ ∀ i', 0 < i' → i' < 4 → ¬ (entry i' / 2 ^ 15 = 1 ∧ entry i' / 2 ^ 8 % 8 = 3)) := by
  refine ⟨⟨List.replicate 64 0, ?_⟩, by decide +kernel, by decide +kernel, by decide +kernel, fun i h hi => ?_⟩
  · decide +kernel
  · exact (by decide +kernel : ∀ i, i < 4 → 0 < i → ¬ (opk launchSubst 7 / 2 ^ (16 * i) % 2 ^ 16 / 2 ^ 15 = 1 ∧ opk launchSubst 7 / 2 ^ (16 * i) % 2 ^ 16 / 2 ^ 8 % 8 = 3)) i hi h

/-- The recorded LAUNCH is well formed, and one with a reserved bit is not; the ring has come to the replay and none of its launches lives; the
buffer's 512 bytes lie in one page. -/
theorem met_replaysStart : RecordedFits 1024 (launchW 0 1 ++ [0, 0, 0]) ∧ ¬ RecordedFits 1024 (BitVec.ofNat 64 (0x10 + 2 ^ 10) :: (launchW 0 1).drop 1)
    ∧ (let s := replaying (launchW 0 1) (List.replicate 64 0)
      ((s.ring 1024).cmds.map (·.1)).Nodup ∧ (s.ring replay0.ring).done = replay0.seq ∧ s.launches = []
      ∧ lookup (s.ctx replay0.ctx).graphs (opk replay0.words 1) = some (graph5 1 false) ∧ (graph5 1 false).recording = false)
    ∧ (graph5 1 false).buf.toNat % 65536 ≤ 65024 ∧ (withGraph (graph5 1 false)).translate 0 (graph5 1 false).buf false = .ok .hbm 0x23280000 0 (some 0x4008)
    ∧ (withGraph (graph5 1 false)).reached .hbm 0x23280000 = true ∧ ((withGraph (graph5 1 false)).readMany 0 (graph5 1 false).buf.toNat 512).2.isSome = true
    ∧ ((withGraph (graph5 1 false)).readMany 0 0x30000 512).2.isNone = true
    ∧ Writable (withGraph (graph5 1 false)) 0 (BitVec.ofNat 64 (0x10000 + 8 * 63)) 0x232801F8 ∧ InOrder (withGraph (graph5 1 false)) 0x232801F8 8 0 := by
  refine ⟨⟨by decide +kernel, fun h => absurd ⟨by decide, by decide⟩ h, fun i hi => ?_⟩, fun h => absurd h.header (by decide +kernel), by decide +kernel, by decide +kernel,
    by decide +kernel, by decide +kernel, by decide +kernel, by decide +kernel, ⟨.hbm, 0, 0x4008, by decide +kernel, by decide +kernel, by decide +kernel, by decide +kernel⟩,
    inOrder_of rfl⟩
  have : ∀ i, i < 4 → opk (launchW 0 1 ++ [0, 0, 0]) 7 / 2 ^ (16 * i) % 2 ^ 16 = 0 := by decide +kernel
  rw [this i hi]
  exact ⟨by decide, by decide, by decide⟩

/-! ### Module commands -/

/-- Nothing runs; CFG.LOAD of an image with no parameters, CKPT to host memory of the last 64 KiB of HBM and back, SYNC.ALL with just enough room. -/
def sIdle : State := { State.reset with cycle := 100 }
def cfgOf (len : Nat) : List Quad := cmdWords 8 0 [2 ^ 63, len]
def ckpt (dir : Nat) : List Quad := cmdWords 0x22 0 [0, hbmEnd - 65536, 65536, dir]
def syncTo (n : Nat) : List Quad := cmdWords 0x3F 0 [2 ^ 63, n]

theorem met_moduleCommands : (∃ row, commandRow (.cfgLoad 1024) = some row
      ∧ row.Accepted (ordered_ sIdle 1024 (cfgOf 3740)) 3 (cfgOf 3740) (cmdOf (cfgOf 3740) .fetched)
      ∧ (∀ k, k < 64 → ((ordered_ sIdle 1024 (cfgOf 3740)).ctx k).st = 0)
      ∧ (let image := (ordered_ sIdle 1024 (cfgOf 3740)).bytes (hostKey 0) 3740
        let n := leNat ((image.drop 1316).take 4)
        n % 4 = 0 ∧ n ≤ 65536 ∧ opk (cfgOf 3740) 2 = 1320 + n + 2420 ∧ opk (cfgOf 3744) 2 ≠ 1320 + n + 2420))
    ∧ (∃ row, commandRow (.cfgLoad 1024) = some row
      ∧ row.Accepted (ordered_ s0 1024 (cfgOf 0)) 3 (cfgOf 0) (cmdOf (cfgOf 0) .fetched) ∧ ((ordered_ s0 1024 (cfgOf 0)).ctx 0).st ≠ 0)
    ∧ (∃ row, commandRow (.ckptSave 1024) = some row ∧ row.Accepted (ordered_ sIdle 1024 (ckpt 0)) 3 (ckpt 0) (cmdOf (ckpt 0) .fetched)
      ∧ (ordered_ sIdle 1024 (ckpt 0)).rangeQuiet (hbmEnd - 65536) 65536 = true ∧ (ordered_ sIdle 1024 (ckpt 0)).rangeQuiet (hostKey 0) 65536 = true
      ∧ (ordered_ sIdle 1024 (ckpt 0)).chunks = [] ∧ Memory.wf (ordered_ sIdle 1024 (ckpt 0)).mem = true)
    ∧ (∃ row, commandRow (.ckptRestore 1024) = some row ∧ row.Accepted (ordered_ s0 1024 (ckpt 1)) 3 (ckpt 1) (cmdOf (ckpt 1) .fetched)
      ∧ ¬ (((ordered_ s0 1024 (ckpt 1)).ctx 0).st = 0 ∨ ((ordered_ s0 1024 (ckpt 1)).ctx 0).st = 1 ∨ ((ordered_ s0 1024 (ckpt 1)).ctx 0).st = 3))
    ∧ (∃ row, commandRow (.attest 1024) = some row
      ∧ row.Accepted (ordered_ s0 1024 (cmdWords 0x23 0 [0x10000, 0x30000])) 3 (cmdWords 0x23 0 [0x10000, 0x30000]) (cmdOf (cmdWords 0x23 0 [0x10000, 0x30000]) .fetched)
      ∧ ((ordered_ s0 1024 []).readMany 0 0x10000 32).2.isSome = true ∧ ((ordered_ s0 1024 []).readMany 0 0x30000 32).2.isNone = true
      ∧ 0x10000 % 65536 ≤ 65504
      ∧ ((ordered_ s0 1024 []).writeMany 0 0x10000 (List.replicate 128 0)).isSome = true)
    ∧ (∃ row, commandRow (.syncAll 1024) = some row ∧ row.Accepted (ordered_ s0 1024 (syncTo 37424)) 3 (syncTo 37424) (cmdOf (syncTo 37424) .fetched)
      ∧ 64 + 64 * 64 + 1028 * 32 + ((ordered_ s0 1024 (syncTo 37424)).groups.filter fun (_, g) => g.st != .ended).length * 16 + 18 * 16 + 64 = 37424)
    ∧ ∃ row, commandRow (.syncAll 1024) = some row ∧ row.Accepted (ordered_ s0 1024 (syncTo 37423)) 3 (syncTo 37423) (cmdOf (syncTo 37423) .fetched) := by
  refine ⟨⟨_, rfl, accepted_of (by decide +kernel) trivial (by decide +kernel), by decide +kernel, by decide +kernel⟩,
    ⟨_, rfl, accepted_of (by decide +kernel) trivial (by decide +kernel), by decide +kernel⟩,
    ⟨_, rfl, accepted_of (by decide +kernel) (by decide +kernel) (by decide +kernel), by decide +kernel, by decide +kernel, rfl, by decide +kernel⟩,
    ⟨_, rfl, accepted_of (by decide +kernel) (by decide +kernel) (by decide +kernel), by decide +kernel⟩,
    ⟨_, rfl, accepted_of (by decide +kernel) trivial trivial, by decide +kernel, by decide +kernel, by decide, by decide +kernel⟩,
    ⟨_, rfl, accepted_of (by decide +kernel) trivial (by decide +kernel), by decide +kernel⟩,
    ⟨_, rfl, accepted_of (by decide +kernel) trivial (by decide +kernel)⟩⟩

/-- A group saved on core 0 and its team, whose save areas a checkpoint of the reserved region carries, and their copies at host byte 0: a command in
the sluice, a byte of the scratchpad. The context is Stopped and holds the team still. -/
def gSaved : Group := { g0 with st := .saved }
def carried0 (what : Kept) : Carried := { host := hostKey 0, home := savePart 0, len := 2 ^ 26, what := what }
def kept0 : Kept := .group 0 { gSaved with kern := 7 } [] [] [(4, engine0)]
def keptTeam0 : Kept := .team g0.team { oneWordTeam with started := 1 } [(16, 5)] []
def sKept (l : List Carried) : State :=
  { sIdle with groups := [(0, gSaved)], teams := [(g0.team, oneWordTeam)], ctxs := [(0, { ctx0 with st := 3 })], carried := l, engines := [(4, engine0)] }

theorem met_checkpointsCarry : (let s := sKept [carried0 kept0]
      (0, gSaved) ∈ s.groups ∧ gSaved.st = .saved ∧ savePart 0 % 65536 = 0 ∧ savePart 0 + 2 ^ 26 ≤ hbmEnd ∧ s.carried = [carried0 kept0]
      ∧ (g0.team, oneWordTeam) ∈ s.teams ∧ saveArea oneWordTeam.cluster = savePart 0 ∧ (∀ k, k < 64 → (s.ctx k).st = 0 ∨ (s.ctx k).st = 1 ∨ (s.ctx k).st = 3)
      ∧ s.chunks = [] ∧ Memory.wf s.mem = true ∧ s.rangeQuiet (savePart 0) (2 ^ 26) = true ∧ s.rangeQuiet (hostKey 0) (2 ^ 26) = true
      ∧ (carried0 kept0).home = savePart 0 + ((carried0 kept0).host - hostKey 0) ∧ (carried0 kept0).host + (carried0 kept0).len ≤ hostKey 0 + 2 ^ 26
      ∧ lookup s.teams gSaved.team = some oneWordTeam ∧ oneWordTeam.ctx = gSaved.ctx ∧ (s.ctx 0).st = 3
      ∧ (sKept [carried0 keptTeam0]).carried = [carried0 keptTeam0])
    ∧ (∀ o b, (o, b) ∈ [(16, (5 : Byte))] → ∀ o' b', (o', b') ∈ [(16, (5 : Byte))] → oneWordTeam.scratchAt o' = oneWordTeam.scratchAt o → b' = b)
    ∧ (0 * 2 ^ 36 + 8 * 5 + 3 < 2 ^ 26)
    ∧ (∃ row, commandRow (.ckptSave 1024) = some row
      ∧ (let w := cmdWords 0x22 0 [0, savePart 0, 2 ^ 26, 0]
        row.Accepted (ordered_ (sKept []) 1024 w) 3 w (cmdOf w .fetched)))
    ∧ (∃ row, commandRow (.ckptRestore 1024) = some row
      ∧ (let w := cmdWords 0x22 0 [0, savePart 0, 2 ^ 26, 1]
        row.Accepted (ordered_ (sKept [carried0 kept0]) 1024 w) 3 w (cmdOf w .fetched))) := by
  refine ⟨by decide +kernel, fun o b h o' b' h' _ => ?_, by decide,
    ⟨_, rfl, accepted_of (by decide +kernel) (by decide +kernel) (by decide +kernel)⟩,
    ⟨_, rfl, accepted_of (by decide +kernel) (by decide +kernel) (by decide +kernel)⟩⟩
  cases List.mem_singleton.mp h
  cases List.mem_singleton.mp h'
  rfl

/-! ### Ports, power, errors and banks -/

/-- Port 17 in a state, with accesses and chunks through it. -/
def portIn (f : Port → Port) : State := { s0 with ports := [(17, f Port.zero)], cycle := 2000 }
/-- A request of the last bytes of HBM, on a port in use. -/
def peerAt : State := portIn fun x => { x with st := 2, heard := 1000 }

theorem met_ports : ((portIn fun x => { x with st := 4 }).port 17).st = 4 ∧ (State.reset.port 17).st = 0 ∧ ((portIn fun x => { x with st := 1, fails := 2 }).port 17).st = 1
    ∧ (let s := portIn fun x => { x with st := 2, replays := 8 }
      (s.port 17).st = 2 ∧ (s.port 17).heard + 1000 ≤ s.now ∧ 8 ≤ (s.port 17).replays ∧ (s.chunks.map (·.1)).Nodup ∧ (s.accesses.map (·.1)).Nodup
        ∧ (s.replies.map (·.1)).Nodup) ∧ ((portIn fun x => { x with st := 3 }).port 17).st = 3 := by decide +kernel

/-- A thread's own write of a peer, not yet visible, that covers bytes 28 to 31 of the read. -/
def ownWrite : Pending := { key := hbmEnd - 4, bytes := [1, 2, 3, 4], twc := 9000, gid := 0, tids := [], seen := [(17, 6)] }
theorem met_peers : InUse peerAt 17 (peerAt.port 17) ∧ peerAt.migratingAt (hbmEnd - 32) = false ∧ (peerAt.port 17).accept = true ∧ hbmEnd - 32 + 32 ≤ hbmEnd
    ∧ hbmEnd < hbmEnd - 31 + 32 ∧ peerAt.badIn (hbmEnd - 32) 32 = false ∧ hbmEnd - 32 < hbmEnd ∧ peerAt.pend = []
    ∧ ({ peerAt with bad := [(hbmEnd - 32, true)] }.badIn (hbmEnd - 32) 32) = true
    ∧ ((portIn fun x => { x with st := 2, heard := 1000, accept := false }).port 17).accept = false
    ∧ (let s := { peerAt with pend := [ownWrite] }
      ownWrite ∈ s.pend ∧ (17, 6) ∈ ownWrite.seen ∧ ownWrite.key < hbmEnd - 32 + 32 ∧ hbmEnd - 32 < ownWrite.key + ownWrite.bytes.length)
    ∧ hbmEnd < hbmEnd - 3 + 4 ∧ hbmEnd - 4 + 4 ≤ hbmEnd ∧ hbmEnd < hbmEnd - 7 + 8 :=
  ⟨⟨rfl, rfl, by decide +kernel, by decide⟩, by decide +kernel, by decide, by decide, by decide, by decide +kernel, by decide, by decide +kernel, by decide +kernel, by decide +kernel, by decide +kernel, by decide,
    by decide, by decide⟩

/-- A training in its first 100 µs and after them; a peer's write, atomic and abort as codes of reader 7's chunk, and a chunk whose abort has come;
an engine stands for each chunk. -/
theorem met_trainingAndAborts : (let s := portIn fun x => { x with st := 1, began := 1360 }
      s.now ≤ (s.port 17).began + 100000 ∧ ¬ (s.port 17).began + 100000 < s.now)
    ∧ (let s : State := { portIn fun x => { x with st := 1, began := 1360 } with cycle := 2000000 }
      (s.port 17).began + 100000 < s.now)
    ∧ (1 + 32 * 7) % 32 = 1 ∧ (1 + 32 * 7) / 32 = 7 ∧ 19 % 32 = 19 ∧ 7 % 2 = 1
    ∧ (17, 7) ∉ peerAt.mod.aborted ∧ (17, 7) ∈ { peerAt with mod := { peerAt.mod with aborted := [(17, 7)] } }.mod.aborted
    ∧ hbmEnd < hbmEnd - 31 + (List.replicate 32 (0 : Byte)).length ∧ hbmEnd - 4 + 4 ≤ hbmEnd ∧ InOrder peerAt (hbmEnd - 32) 32 0
    ∧ (∀ c ∈ [(9, remote)], (lookup { stuck with ports := [(17, { Port.zero with st := 2 })] }.engines c.2.cmd).isSome) :=
  ⟨by decide +kernel, by decide +kernel, by decide, by decide, by decide, by decide, by decide +kernel, by decide +kernel, by decide +kernel, by decide, inOrder_of rfl,
    by decide +kernel⟩

/-- A junction at the trip point and just below it; the ends of the supply's range; a row with four errors on a die with one spare row left; power
over PLIM that DUTY 53 brings below it, power that no DUTY does; a scrub that is due, and at reset none. -/
theorem met_powerResetAndScrub : State.reset.mod.tripped = false ∧ 115 ≤ 115 ∧ 114 < 115 ∧ ¬ State.reset.mod.tthrot.toNat ≤ 99 ∧ State.reset.mod.tthrot.toNat ≤ 100
    ∧ (let s := { s0 with mod := { Module.reset with tripped := true, temp := 94 } }
      s.mod.tripped = true ∧ s.mod.temp.toNat < 95) ∧ State.reset.mod.ready = false ∧ State.reset.mod.volts = 54 ∧ 58 < 59 ∧ 47 < 48
    ∧ (let s := { s0 with mod := { Module.reset with spares := [(23, 1023)] } }
      4 ≤ [7, 7, 7, 7].count 7 ∧ readAt 0 s.mod.spares 23 + [7, 7, 7, 7].eraseDups.length ≤ 1024) ∧ 1024 ≤ readAt 0 [(23, 1024)] 23
    ∧ 23 * 2 ^ 32 + 7 ∉ Module.reset.retired
    ∧ (let holds := fun (power matrix d : Nat) =>
        d < 64 ∧ 64 * power + matrix * (d + 1) ≤ 64 * State.reset.mod.plim.toNat + matrix * (State.reset.mod.duty.toNat + 1)
      (holds 17000 6400 53 ∧ (∀ k, k < 64 → holds 17000 6400 k → k ≤ 53)) ∧ ∀ k, k < 64 → ¬ holds 17000 0 k)
    ∧ State.reset.now < readAt 0 State.reset.mod.scrubAt 23 + State.reset.mod.scrub.toNat * 3600000000000
    ∧ (let s := { State.reset with cycle := 120960000000000 }
      readAt 0 s.mod.scrubAt 23 + s.mod.scrub.toNat * 3600000000000 ≤ s.now) := by decide +kernel

/-! ### One step each, with the values the spec gives -/

/-- The value that a step gives v[d] of thread 1, when due. -/
def gives (o : Host.Outcome State Fault Refusal) (d : Nat) : Option Carrier :=
  match o with
  | .next t => ((lookup t.groups 0).bind fun g => lookup g.passes 0).bind fun p => (p.dueV.find? fun e => e.tid == 1 && e.idx == d).map (·.val)
  | _ => none
/-- The tests' pass with v[1], v[2] and v[3] in every thread. -/
def vals (a b d : Nat) : State := here (grp (fun _ => [(1, a), (2, b), (3, d)]) [])
def word (w : Nat) : Option Carrier := some { w := BitVec.ofNat 32 w, s := false }

/-- R283: sums wrap modulo 2^32, IABS of 0x80000000 is itself, IADDS clamps to 2^31 − 1. -/
theorem test_iadd_wraps : gives (exec (.iadd 0 3 1 2) (vals 0xFFFFFFFF 3 0)) 3 = word 2 := by decide +kernel
theorem test_iabs_of_the_lowest : gives (exec (.iabs 0 3 1) (vals 0x80000000 0 0)) 3 = word 0x80000000 := by decide +kernel
theorem test_iadds_clamps : gives (exec (.iadds 0 3 1 2) (vals 0x7FFFFFFF 1 0)) 3 = word 0x7FFFFFFF := by decide +kernel

/-- R284: IMULH is signed; IMAD adds to v[D]; IDOT4 takes signed bytes: (−1)(2) + (1)(3) + 0 + (−128)(1) + 10. -/
theorem test_imulh_is_signed : gives (exec (.imulh 0 3 1 2) (vals 0xFFFFFFFF 2 0)) 3 = word 0xFFFFFFFF := by decide +kernel
theorem test_imad_reads_d : gives (exec (.imad 0 3 1 2) (vals 6 7 100)) 3 = word 142 := by decide +kernel
theorem test_idot4_is_signed : gives (exec (.idot4 0 3 1 2) (vals 0x800001FF 0x01070302 10)) 3 = word 0xFFFFFF8B := by decide +kernel

/-- R285: a shift by 32 gives 0, or the sign. -/
theorem test_shl_by_32 : gives (exec (.shl 0 3 1 2) (vals 1 32 0)) 3 = word 0 := by decide +kernel
theorem test_sra_by_32 : gives (exec (.sra 0 3 1 2) (vals 0x80000000 32 0)) 3 = word 0xFFFFFFFF := by decide +kernel

/-- 16_isa_float: FFMA of +0, −1 and +0 is +0; ITOF of 0x7FFFFFFF has W 0x4EFFFFFF and S 1, and FFIN.F32.RNE of that is 0x4F000000. -/
theorem test_ffma_zero : gives (exec (.ffma 0 0 0 3 1 2) (vals 0 0xBF800000 0)) 3 = word 0 := by decide +kernel
theorem test_itof_is_sticky : gives (exec (.itof 0 3 1 12) (vals 0x7FFFFFFF 0 0)) 3 = some { w := 0x4EFFFFFF, s := true } := by decide +kernel
theorem test_ffin_rounds_to_even : gives (exec (.ffin 0 0 3 1 0) (here { grp (fun _ => []) [] with
    threads := (thr fun _ => []).map fun x => (x.1, { x.2 with v := [(1, { w := 0x4EFFFFFF, s := true })] }) })) 3 = word 0x4F000000 := by decide +kernel

/-- 13_matrix: ownbase 64, threads 64 to 95 and 200 to 255 own rows 0 to 31. -/
theorem test_rows_of_owners : rowsOf 64 ((List.range 32).map (64 + ·) ++ (List.range 56).map (200 + ·)) = List.range 32 := by decide +kernel

/-- 06_queue: SUBST 0x8203 binds OP2 to parameter 3. -/
theorem test_substitute : (substitute ((List.range 64).map fun i => BitVec.ofNat 64 (100 + i)) [0x10, 0, 9, 8, 7, 0, 0, 0x8203])[2]? = some 103#64 := by
  decide +kernel

/-- R277: TRAP raises fault 0x11 in each thread, its code is the detail, and the resume record points at the TRAP. -/
theorem test_trap_saves_its_place : (match exec (.trap 0 9) s0 with
    | .next t => (lookup t.groups 0).map fun g => ((g.thread 2).res.blk, (g.thread 2).res.off, (g.thread 2).fcode, (g.thread 2).fdetail)
    | _ => none) = some (0, 2, 0x11, 9) := by decide +kernel

end Sys2Proof.Tests
end

section
/-! PROOFS. The special registers that an SMOV reads without a capture (14_isa_control R279), and the core's number in them (01_device R9). -/

namespace Sys2Proof.Machine

/-! ### A table entry put twice -/

theorem drop_drop {α : Type} (t : Table α) (i : Nat) : drop (drop t i) i = drop t i := by
  induction t with
  | nil => rfl
  | cons e t ih =>
    obtain ⟨k, v⟩ := e
    by_cases hk : k = i <;> simp [drop, hk, ih]

theorem drop_place_same {α : Type} (t : Table α) (i : Nat) (x : α) : drop (place t i x) i = drop t i := by
  induction t with
  | nil => simp [place, drop]
  | cons e t ih =>
    obtain ⟨k, v⟩ := e
    by_cases hlt : i < k
    · simp [place, drop, hlt]
    · simp only [place, hlt, if_false, drop, ih]

/-- The later record under a key replaces the earlier one. -/
theorem putAt_putAt {α : Type} (t : Table α) (i : Nat) (x y : α) : putAt (putAt t i x) i y = putAt t i y := by
  unfold putAt
  rw [drop_place_same, drop_drop]

theorem State.putGroup_putGroup (s : State) (gid : Nat) (x y : Group) : (s.putGroup gid x).putGroup gid y = s.putGroup gid y :=
  congrArg (fun t => { s with groups := t }) (putAt_putAt s.groups gid x y)

theorem State.onGroup_putGroup (s : State) (gid : Nat) (x : Group) (f : Group → Group) :
    (s.putGroup gid x).onGroup gid f = s.putGroup gid (f x) := by
  simp only [State.onGroup, State.group_putGroup, State.putGroup_putGroup]

/-! ### SMOV of a register that captures nothing -/

/-- Threads that a special register leaves as they are leave the group as it is. -/
theorem Group.putMembers_unchanged (g : Group) (pid : Nat) (l : List (View × Thread)) (h : ∀ x ∈ l, x.2 = x.1.th) :
    g.putMembers pid l = g := by
  induction l with
  | nil => rfl
  | cons x rest ih =>
    obtain ⟨a, t⟩ := x
    have ha : t = a.th := h (a, t) List.mem_cons_self
    rw [Group.putMembers, if_pos ha]
    exact ih fun y hy => h y (List.mem_cons_of_mem _ hy)

theorem exec_smov (st : BitVec 2) (d : BitVec 6) (n : BitVec 12) (s : State) : exec (.smov st d n) s = execSmov st d n s := rfl

/-- What SMOV asks of a special register's number and its destination (R279, R87). -/
def smovNeeds (s : State) (d : BitVec 6) (n : BitVec 12) : Needs :=
  { wv := [(d.toNat, 1)], rv := [], priv := decide (0x800 ≤ n.toNat), ok := specialListed n.toNat && (n.toNat != 0x19 || s.linkOk) }

/-- An SMOV of a register whose reading captures nothing in its threads is a word that computes v[D] alone (R279). -/
theorem smov_ran {s : State} {d : BitVec 6} {n : BitVec 12} {g : Group} {p : Pass} (h : Issues s .lane (smovNeeds s d n) g p)
    (st : BitVec 2) (hth : ∀ a, (smovRead s g p n.toNat a).2 = a.th) :
    ∃ t, exec (.smov st d n) s = .next t ∧ Ran s t .lane st.toNat 4 g p (passing s g p)
      (fun a => { v := [(d.toNat, (smovRead s g p n.toNat a).1)] }) [] := by
  obtain ⟨t, ht, hran⟩ := laneOp_ran h st 4 (fun _ a => { v := [(d.toNat, (smovRead s g p n.toNat a).1)] })
    (fun _ _ => List.nodup_singleton _) (fun _ _ => List.nodup_nil) (fun _ _ => List.nodup_nil)
  refine ⟨t, ?_, hran⟩
  rw [← ht, exec_smov, execSmov, laneOp]
  refine (h.opening _).trans (Eq.trans ?_ (h.opening _).symm)
  simp only [State.writeBack, State.onGroup_putGroup, List.map_map]
  rw [Group.putMembers_unchanged]
  · rfl
  · intro x hx
    obtain ⟨a, -, rfl⟩ := List.mem_map.1 hx
    exact hth a

/-- The special register reads the number `x`: its SMOV leaves `x` in v[D] of every thread that executes it (R279). -/
def SmovReads (s : State) (g : Group) (p : Pass) (st : BitVec 2) (d : BitVec 6) (n : BitVec 12) (x : Nat) : Prop :=
  ∃ t g' p', exec (.smov st d n) s = .next t ∧ lookup t.groups s.cur.gid = some g' ∧ lookup g'.passes s.cur.pid = some p'
    ∧ Written (regV g p) (regV g' p') p.dueV (readyAt s .lane p 4) (s.cycle + 4) (fun _ => [(d.toNat, low x)]) (passing s g p)

theorem low_natCast (x : Nat) : low x = Carrier.ofWord (BitVec.ofNat 32 x) :=
  congrArg Carrier.ofWord (BitVec.ofInt_natCast 32 x)

/-- A special register that reads the same number in every thread and captures nothing gives v[D] that number. -/
theorem smovReads_of_smovRead {s : State} {d : BitVec 6} {n : BitVec 12} {g : Group} {p : Pass} {x : Nat}
    (h : Issues s .lane (smovNeeds s d n) g p) (st : BitVec 2)
    (hread : ∀ a, smovRead s g p n.toNat a = (Carrier.ofWord (BitVec.ofNat 32 x), a.th)) : SmovReads s g p st d n x := by
  obtain ⟨t, ht, ⟨g', p', only, -, hv, -⟩⟩ := smov_ran h st fun a => congrArg Prod.snd (hread a)
  refine ⟨t, g', p', ht, only.group, only.pass, ?_⟩
  simpa only [hread, low_natCast] using hv

/-! ### The core's number -/

/-- The parts of a core's module-wide index: 24 dies of 8 clusters of 8 cores. -/
theorem core_index_parts {core : Nat} (h : core < 1536) :
    dieOfCore core < 24 ∧ clusterOfCore core % 8 < 8 ∧ core % 8 < 8 ∧ core = dieOfCore core * 64 + clusterOfCore core % 8 * 8 + core % 8 := by
  unfold dieOfCore clusterOfCore
  omega

/-- Settles O21: the index splits into its parts, and each register reads its part in every thread. -/
theorem coresAreNumbered : Obligations.CoresAreNumbered := by
  intro s g p st d hcore h
  obtain ⟨hdie, hclus, hc, hsum⟩ := core_index_parts hcore
  have die : SmovReads s g p st d 0x007#12 (dieOfCore g.core) := smovReads_of_smovRead h st fun _ => rfl
  have clus : SmovReads s g p st d 0x008#12 (clusterOfCore g.core % 8) := smovReads_of_smovRead h st fun _ => rfl
  have core : SmovReads s g p st d 0x009#12 (g.core % 8) := smovReads_of_smovRead h st fun _ => rfl
  exact ⟨_, _, _, hdie, hclus, hc, hsum, die, clus, core⟩

end Sys2Proof.Machine
end

section
/-! PROOFS. Exact numbers as rationals (02_numbers R24, R29): powers of two, the sum, the product and the quotient, and the order. -/

namespace Sys2Proof.Machine

/-! ### Powers of two, signs and sizes -/

theorem twoPow_pos (k : Int) : 0 < two_ k := zpow_pos (by norm_num) k

theorem twoPow_ne_zero (k : Int) : two_ k ≠ 0 := (twoPow_pos k).ne'

theorem twoPow_add (j k : Int) : two_ (j + k) = two_ j * two_ k := zpow_add₀ (by norm_num) j k

theorem twoPow_sub (j k : Int) : two_ (j - k) = two_ j / two_ k := zpow_sub₀ (by norm_num) j k

theorem twoPow_succ (k : Int) : two_ (k + 1) = 2 * two_ k := by rw [twoPow_add, mul_comm]; norm_num [two_]

theorem twoPow_natCast (n : Nat) : two_ n = ((2 ^ n : Nat) : Rat) := by simp [two_]

theorem twoPow_toNat {k : Int} (h : 0 ≤ k) : two_ k = ((2 ^ k.toNat : Nat) : Rat) := by
  rw [← twoPow_natCast, Int.toNat_of_nonneg h]

theorem twoPow_le {j k : Int} : two_ j ≤ two_ k ↔ j ≤ k := zpow_le_zpow_iff_right₀ (by norm_num)

theorem twoPow_lt {j k : Int} : two_ j < two_ k ↔ j < k := zpow_lt_zpow_iff_right₀ (by norm_num)

theorem sizeOf_eq_abs (q : Rat) : sizeOf_ q = |q| := by
  unfold sizeOf_
  split
  · rw [abs_of_neg ‹_›]
  · rw [abs_of_nonneg (not_lt.1 ‹_›)]

theorem signOf_ne_zero (neg : Bool) : signOf neg ≠ 0 := by cases neg <;> norm_num [signOf]

theorem abs_signOf (neg : Bool) : |signOf neg| = 1 := by cases neg <;> norm_num [signOf]

theorem signOf_bne (a b : Bool) : signOf (a != b) = signOf a * signOf b := by cases a <;> cases b <;> norm_num [signOf]

/-- A natural number 2^k or 1, of the two that stand for the quotient of 2^e and 2^u. -/
theorem twoTo_mul (e u : Int) : (twoTo (e - u) : Rat) * two_ u = two_ e * twoTo (u - e) := by
  unfold twoTo
  rcases le_total u e with h | h
  · rw [Int.toNat_eq_zero.2 (by omega : u - e ≤ 0), ← twoPow_toNat (by omega), ← twoPow_add, sub_add_cancel]
    simp
  · rw [Int.toNat_eq_zero.2 (by omega : e - u ≤ 0), ← twoPow_toNat (by omega), ← twoPow_add, add_sub_cancel]
    simp

theorem twoTo_pos (k : Int) : 0 < twoTo k := Nat.two_pow_pos _

/-! ### The magnitude of an exact number -/

/-- The magnitude of an exact number. -/
def Ex.mag (x : Ex) : Rat := x.n / x.d * two_ x.e

theorem Ex.rat_eq (x : Ex) : x.rat = signOf x.neg * x.mag := rfl

theorem Ex.mag_nonneg (x : Ex) : 0 ≤ x.mag := mul_nonneg (by positivity) (twoPow_pos _).le

@[simp] theorem Ex.sizeOf_rat (x : Ex) : sizeOf_ x.rat = x.mag := by
  rw [sizeOf_eq_abs, x.rat_eq, abs_mul, abs_signOf, one_mul, abs_of_nonneg x.mag_nonneg]

theorem Ex.rat_eq_zero_iff_mag (x : Ex) : x.rat = 0 ↔ x.mag = 0 := by simp [x.rat_eq, signOf_ne_zero]

theorem Ex.mag_eq_zero {x : Ex} (hd : x.d ≠ 0) : x.mag = 0 ↔ x.n = 0 := by simp [Ex.mag, hd, twoPow_ne_zero]

theorem Ex.rat_eq_zero {x : Ex} (hd : x.d ≠ 0) : x.rat = 0 ↔ x.n = 0 := by rw [x.rat_eq_zero_iff_mag, Ex.mag_eq_zero hd]

theorem Ex.isZero_iff {x : Ex} (hd : x.d ≠ 0) : x.isZero = true ↔ x.rat = 0 := by simp [Ex.isZero, Ex.rat_eq_zero hd]

/-- The number q × 2^u that a grid point is written as. -/
theorem Ex.mag_point (neg : Bool) (q : Nat) (u : Int) : Ex.mag { neg := neg, n := q, d := 1, e := u } = q * two_ u := by simp [Ex.mag]

/-! ### Sums, products, quotients and the order -/

theorem Ex.scaled_mul {x : Ex} (hd : x.d ≠ 0) {lo : Int} (h : lo ≤ x.e) : (x.scaled lo : Rat) * two_ lo = x.rat * x.d := by
  have hm : ((x.n * twoTo (x.e - lo) : Nat) : Rat) * two_ lo = x.n * two_ x.e := by
    rw [Nat.cast_mul, mul_assoc, twoTo_mul, twoTo, Int.toNat_eq_zero.2 (by omega : lo - x.e ≤ 0)]
    simp
  have hd' : (x.d : Rat) ≠ 0 := Nat.cast_ne_zero.2 hd
  have hr : x.rat * x.d = signOf x.neg * (x.n * two_ x.e) := by rw [x.rat_eq, Ex.mag]; field_simp
  rw [hr, ← hm, Ex.scaled]
  cases x.neg <;> simp [signOf]

/-- The numerator of a sum over the common denominator. -/
theorem Ex.sum_scaled {x y : Ex} (hx : x.d ≠ 0) (hy : y.d ≠ 0) {lo : Int} (hlx : lo ≤ x.e) (hly : lo ≤ y.e) :
    ((x.scaled lo * (y.d : Int) + y.scaled lo * (x.d : Int) : Int) : Rat) * two_ lo = (x.rat + y.rat) * (x.d * y.d) := by
  push_cast
  linear_combination (y.d : Rat) * Ex.scaled_mul hx hlx + (x.d : Rat) * Ex.scaled_mul hy hly

theorem Ex.rat_ofSigned (m : Int) (d : Nat) (e : Int) :
    Ex.rat { neg := decide (m < 0), n := m.natAbs, d := d, e := e } = m / d * two_ e := by
  have hs : signOf (decide (m < 0)) * ((m.natAbs : Nat) : Rat) = m := by
    rcases lt_or_ge m 0 with h | h
    · rw [Nat.cast_natAbs, abs_of_neg h]; simp [signOf, h]
    · rw [Nat.cast_natAbs, abs_of_nonneg h]; simp [signOf, not_lt.2 h]
  rw [Ex.rat, ← hs]
  ring

/-- R29: the sum is exact, and a zero sum is −0 only of two zeros of that sign. -/
theorem Ex.add_exact {x y : Ex} (hx : x.d ≠ 0) (hy : y.d ≠ 0) :
    (x.add y).d ≠ 0 ∧ (x.add y).rat = x.rat + y.rat
      ∧ (x.rat + y.rat = 0 → (x.add y).neg = decide (x.rat = 0 ∧ y.rat = 0 ∧ x.neg = true ∧ y.neg = true)) := by
  have hsum := Ex.sum_scaled hx hy (min_le_left x.e y.e) (min_le_right x.e y.e)
  have hdd : (x.d : Rat) * y.d ≠ 0 := by simp [hx, hy]
  unfold Ex.add
  simp only
  split_ifs with hm
  · have h0 : x.rat + y.rat = 0 := by
      rw [hm] at hsum
      simpa [hdd] using hsum.symm
    refine ⟨one_ne_zero, ?_, fun _ => ?_⟩
    · rw [h0, Ex.rat_eq_zero one_ne_zero]; rfl
    · rw [Bool.eq_iff_iff]
      simp [Ex.zero, Ex.isZero_iff hx, Ex.isZero_iff hy, and_assoc]
  · refine ⟨mul_ne_zero hx hy, ?_, fun h0 => absurd ?_ hm⟩
    · rw [Ex.rat_ofSigned, Nat.cast_mul, div_mul_eq_mul_div, hsum, mul_div_assoc, div_self hdd, mul_one]
    · rw [h0, zero_mul] at hsum
      exact_mod_cast (mul_eq_zero.1 hsum).resolve_right (twoPow_ne_zero _)

theorem Ex.mul_exact {x y : Ex} (hx : x.d ≠ 0) (hy : y.d ≠ 0) : (x.mul y).d ≠ 0 ∧ (x.mul y).rat = x.rat * y.rat := by
  refine ⟨mul_ne_zero hx hy, ?_⟩
  simp only [Ex.mul, Ex.rat, signOf_bne, twoPow_add, Nat.cast_mul, mul_div_mul_comm]
  ring

theorem Ex.div_exact {x y : Ex} (hx : x.d ≠ 0) (hy : y.d ≠ 0) (h0 : y.rat ≠ 0) : (x.div y).d ≠ 0 ∧ (x.div y).rat = x.rat / y.rat := by
  have hn : y.n ≠ 0 := fun h => h0 ((Ex.rat_eq_zero hy).2 h)
  refine ⟨mul_ne_zero hx hn, ?_⟩
  have hsign : signOf x.neg * signOf y.neg = signOf x.neg / signOf y.neg := by cases y.neg <;> simp [signOf, div_neg]
  have hxd : (x.d : Rat) ≠ 0 := Nat.cast_ne_zero.2 hx
  have hyd : (y.d : Rat) ≠ 0 := Nat.cast_ne_zero.2 hy
  have hyn : (y.n : Rat) ≠ 0 := Nat.cast_ne_zero.2 hn
  have hye := twoPow_ne_zero y.e
  have hys := signOf_ne_zero y.neg
  simp only [Ex.div, Ex.rat, signOf_bne, twoPow_sub, Nat.cast_mul, hsign]
  field_simp

theorem Ex.cmp_mul {x y : Ex} (hx : x.d ≠ 0) (hy : y.d ≠ 0) :
    ((x.cmp y : Int) : Rat) * two_ (Min.min x.e y.e) = (x.rat - y.rat) * (x.d * y.d) := by
  unfold Ex.cmp
  push_cast
  linear_combination (y.d : Rat) * Ex.scaled_mul hx (min_le_left x.e y.e) - (x.d : Rat) * Ex.scaled_mul hy (min_le_right x.e y.e)

theorem Ex.lt_iff {x y : Ex} (hx : x.d ≠ 0) (hy : y.d ≠ 0) : x.lt y = true ↔ x.rat < y.rat := by
  have hdd : (0 : Rat) < x.d * y.d := mul_pos (Nat.cast_pos.2 hx.pos) (Nat.cast_pos.2 hy.pos)
  rw [Ex.lt, decide_eq_true_iff, ← Int.cast_lt_zero (R := Rat), ← mul_lt_mul_iff_left₀ (twoPow_pos (Min.min x.e y.e)), Ex.cmp_mul hx hy,
    zero_mul, ← zero_mul ((x.d : Rat) * y.d), mul_lt_mul_iff_left₀ hdd, sub_neg]

end Sys2Proof.Machine
end

section
/-! PROOFS. A magnitude on a grid of step 2^u, its exponent, and rounding to odd (02_numbers R28). -/

namespace Sys2Proof.Machine

/-! ### Whole steps and what is left of one -/

/-- The quotient that `Ex.onGrid` divides is the magnitude in steps. -/
theorem Ex.steps_eq {x : Ex} (hd : x.d ≠ 0) (u : Int) :
    ((x.n * twoTo (x.e - u) : Nat) : Rat) / (x.d * twoTo (u - x.e) : Nat) = x.mag / two_ u := by
  have hd' : (x.d : Rat) ≠ 0 := Nat.cast_ne_zero.2 hd
  have ht : (twoTo (u - x.e) : Rat) ≠ 0 := Nat.cast_ne_zero.2 (twoTo_pos _).ne'
  have hu := twoPow_ne_zero u
  rw [Ex.mag]
  push_cast
  field_simp
  linear_combination (x.n : Rat) * twoTo_mul x.e u

theorem Ex.onGrid_fst {x : Ex} (hd : x.d ≠ 0) (u : Int) : (x.onGrid u).1 = ⌊x.mag / two_ u⌋₊ := by
  rw [← Ex.steps_eq hd, Nat.floor_div_eq_div]
  rfl

/-- Nothing is left of a step exactly when the magnitude is whole steps. -/
theorem part_eq_zero (q : Rat) (u : Int) (t : Nat) : q / two_ u - t = 0 ↔ t * two_ u = q := by
  rw [sub_eq_zero, div_eq_iff (twoPow_ne_zero u), eq_comm]

/-- A magnitude of `t` steps and a part of one: the quotient is `t`, and the remainder over its divisor is the part. -/
theorem Ex.onGrid_parts {x : Ex} (hd : x.d ≠ 0) {u : Int} {t : Nat} (hlo : t * two_ u ≤ x.mag) (hhi : x.mag < (t + 1) * two_ u) :
    ∃ r den, x.onGrid u = (t, r, den) ∧ 0 < den ∧ (r : Rat) / den = x.mag / two_ u - t ∧ (r = 0 ↔ t * two_ u = x.mag) := by
  have ht : (x.onGrid u).1 = t := by
    rw [Ex.onGrid_fst hd, Nat.floor_eq_iff (div_nonneg x.mag_nonneg (twoPow_pos u).le)]
    exact ⟨(le_div_iff₀ (twoPow_pos u)).2 hlo, (div_lt_iff₀ (twoPow_pos u)).2 hhi⟩
  have hden : 0 < x.d * twoTo (u - x.e) := Nat.mul_pos (Nat.pos_of_ne_zero hd) (twoTo_pos _)
  have hden' : ((x.d * twoTo (u - x.e) : Nat) : Rat) ≠ 0 := Nat.cast_ne_zero.2 hden.ne'
  have hdiv : t * (x.d * twoTo (u - x.e)) + (x.onGrid u).2.1 = x.n * twoTo (x.e - u) := by
    rw [← ht, mul_comm]
    exact Nat.div_add_mod _ _
  have hpart : ((x.onGrid u).2.1 : Rat) / (x.d * twoTo (u - x.e) : Nat) = x.mag / two_ u - t := by
    rw [← Ex.steps_eq hd, ← hdiv, Nat.cast_add, Nat.cast_mul t, add_div, mul_div_assoc, div_self hden', mul_one, add_sub_cancel_left]
  refine ⟨_, _, Prod.ext ht rfl, hden, hpart, ?_⟩
  rw [← part_eq_zero, ← hpart, div_eq_zero_iff, or_iff_left hden', Nat.cast_eq_zero]
  rfl

/-- A number that is exactly `t` steps. -/
theorem Ex.onGrid_exact {x : Ex} (hd : x.d ≠ 0) {u : Int} {t : Nat} (h : x.mag = t * two_ u) : ∃ den, x.onGrid u = (t, 0, den) := by
  obtain ⟨r, den, hg, -, -, hr0⟩ := Ex.onGrid_parts hd h.ge (by rw [h]; exact mul_lt_mul_of_pos_right (by simp) (twoPow_pos u))
  exact ⟨den, by rw [hg, hr0.2 h.symm]⟩

/-- The whole steps of a magnitude. -/
theorem Ex.exists_steps (x : Ex) (u : Int) : ∃ t : Nat, t * two_ u ≤ x.mag ∧ x.mag < (t + 1) * two_ u := by
  have hfloor := (Nat.floor_eq_iff (div_nonneg x.mag_nonneg (twoPow_pos u).le)).1 rfl
  exact ⟨_, (le_div_iff₀ (twoPow_pos u)).1 hfloor.1, (div_lt_iff₀ (twoPow_pos u)).1 hfloor.2⟩

/-! ### The exponent of a number -/

/-- The exponents of numerator and denominator give that of their quotient or the one above it. -/
theorem Ex.log2_estimate {x : Ex} (hd : x.d ≠ 0) (hn : x.n ≠ 0) :
    let k : Int := (Nat.log2 x.n : Int) - (Nat.log2 x.d : Int) + x.e
    two_ (k - 1) < x.mag ∧ x.mag < two_ (k + 1) := by
  have bounds : ∀ {a : Nat}, a ≠ 0 → two_ (Nat.log2 a) ≤ a ∧ (a : Rat) < two_ (Nat.log2 a + 1) := fun {a} ha => by
    rw [twoPow_natCast, ← Nat.cast_succ, twoPow_natCast]
    exact ⟨Nat.cast_le.2 (Nat.log2_self_le ha), Nat.cast_lt.2 Nat.lt_log2_self⟩
  obtain ⟨hnlo, hnhi⟩ := bounds hn
  obtain ⟨hdlo, hdhi⟩ := bounds hd
  have hdpos : (0 : Rat) < x.d := Nat.cast_pos.2 (Nat.pos_of_ne_zero hd)
  constructor
  · rw [show (Nat.log2 x.n : Int) - Nat.log2 x.d + x.e - 1 = Nat.log2 x.n - (Nat.log2 x.d + 1) + x.e by ring, twoPow_add, twoPow_sub, Ex.mag]
    refine mul_lt_mul_of_pos_right ?_ (twoPow_pos _)
    exact (div_lt_div_of_pos_left (twoPow_pos _) hdpos hdhi).trans_le (div_le_div_of_nonneg_right hnlo hdpos.le)
  · rw [show (Nat.log2 x.n : Int) - Nat.log2 x.d + x.e + 1 = Nat.log2 x.n + 1 - Nat.log2 x.d + x.e by ring, twoPow_add, twoPow_sub, Ex.mag]
    refine mul_lt_mul_of_pos_right ?_ (twoPow_pos _)
    exact (div_lt_div_of_pos_right hnhi hdpos).trans_le (div_le_div_of_nonneg_left (twoPow_pos _).le (twoPow_pos _) hdlo)

/-- R28: the exponent k of a number that is not zero. -/
theorem Ex.log2_bounds {x : Ex} (hd : x.d ≠ 0) (h0 : x.rat ≠ 0) : two_ x.log2 ≤ x.mag ∧ x.mag < two_ (x.log2 + 1) := by
  obtain ⟨hlo, hhi⟩ := Ex.log2_estimate hd (mt (Ex.rat_eq_zero hd).2 h0)
  unfold Ex.log2
  simp only [Ex.onGrid_fst hd, Nat.floor_eq_zero, div_lt_one (twoPow_pos _)]
  split_ifs with h
  · exact ⟨hlo.le, by rwa [sub_add_cancel]⟩
  · exact ⟨not_lt.1 h, hhi⟩

theorem exponent_unique {q : Rat} {j k : Int} (hj : two_ j ≤ q ∧ q < two_ (j + 1)) (hk : two_ k ≤ q ∧ q < two_ (k + 1)) : j = k := by
  have h1 := twoPow_lt.1 (hj.1.trans_lt hk.2)
  have h2 := twoPow_lt.1 (hk.1.trans_lt hj.2)
  omega

/-- What a place on a grid says of an exact number. -/
theorem Ex.onGrid_rat {x : Ex} (hd : x.d ≠ 0) {k u : Int} {t : Nat} :
    OnGrid x.rat k u t ↔ x.rat ≠ 0 ∧ x.log2 = k ∧ t * two_ u ≤ x.mag ∧ x.mag < (t + 1) * two_ u := by
  unfold OnGrid
  rw [x.sizeOf_rat]
  constructor
  · rintro ⟨hlo, hhi, ht⟩
    have h0 : x.rat ≠ 0 := fun h => absurd hlo (by rw [x.rat_eq_zero_iff_mag.1 h]; exact not_le.2 (twoPow_pos k))
    exact ⟨h0, exponent_unique (Ex.log2_bounds hd h0) ⟨hlo, hhi⟩, ht⟩
  · rintro ⟨h0, rfl, ht⟩
    exact ⟨(Ex.log2_bounds hd h0).1, (Ex.log2_bounds hd h0).2, ht⟩

/-- Every number that is not zero has its place on every grid. -/
theorem Ex.exists_onGrid {x : Ex} (hd : x.d ≠ 0) (h0 : x.rat ≠ 0) (u : Int) : ∃ t, OnGrid x.rat x.log2 u t := by
  obtain ⟨t, ht⟩ := x.exists_steps u
  exact ⟨t, (Ex.onGrid_rat hd).2 ⟨h0, rfl, ht⟩⟩

/-! ### Rounding to odd -/

/-- R28: the steps that rounding to odd leaves, and its grid. -/
theorem roGrid_eq {x : Ex} (hd : x.d ≠ 0) {p m k : Int} {t : Nat} (h : OnGrid x.rat k (max (k - p + 1) m) t) :
    roGrid x p m = (oddSteps (decide (t * two_ (max (k - p + 1) m) = x.mag)) t, max (k - p + 1) m) := by
  obtain ⟨-, rfl, hlo, hhi⟩ := (Ex.onGrid_rat hd).1 h
  obtain ⟨r, den, hg, -, -, hr0⟩ := Ex.onGrid_parts hd hlo hhi
  unfold roGrid
  simp only [hg, oddOf, oddSteps, hr0, decide_eq_true_eq]

/-- R28: rounding to odd, with any precision and quantum. -/
theorem ro_rat {x : Ex} (hd : x.d ≠ 0) {p m k : Int} {t : Nat} (h : OnGrid x.rat k (max (k - p + 1) m) t) :
    (ro x p m).rat = signOf x.neg * (oddSteps (decide (t * two_ (max (k - p + 1) m) = x.mag)) t * two_ (max (k - p + 1) m)) := by
  have h0 : x.isZero ≠ true := mt (Ex.isZero_iff hd).1 ((Ex.onGrid_rat hd).1 h).1
  rw [ro, if_neg h0, roGrid_eq hd h, Ex.rat_eq, Ex.mag_point]

theorem oddSteps_div_two (b : Bool) (t : Nat) : oddSteps b t / 2 = t / 2 := by
  unfold oddSteps
  split <;> omega

theorem oddSteps_odd (b : Bool) (t : Nat) : oddSteps b t % 2 = 1 ↔ b = false ∨ t % 2 = 1 := by
  unfold oddSteps
  split <;> simp_all

end Sys2Proof.Machine
end

section
/-! PROOFS. Carriers as numbers, and carry(x) (02_numbers R24, R29). -/

namespace Sys2Proof.Machine

/-! ### F32 patterns -/

/-- The significand of an F32 pattern without its sign, in units of its last place. -/
def f32Sig (m : Nat) : Nat := if m < 2 ^ 23 then m else 2 ^ 23 + m % 2 ^ 23

/-- The exponent of the last place of an F32 pattern without its sign (R24). -/
def f32Ulp (m : Nat) : Int := (max (m / 2 ^ 23) 1 : Nat) - 150

theorem f32Mag_eq (m : Nat) : f32Mag m = f32Sig m * two_ (f32Ulp m) := by
  unfold f32Mag f32Sig f32Ulp
  split
  · rw [Nat.div_eq_of_lt ‹_›]
    rfl
  · rw [max_eq_left (by omega)]

/-- The next pattern is one unit in the last place away. -/
theorem f32Mag_succ (m : Nat) : f32Mag (m + 1) = f32Mag m + two_ (f32Ulp m) := by
  rw [f32Mag_eq, f32Mag_eq, ← add_one_mul]
  by_cases hstep : f32Ulp (m + 1) = f32Ulp m
  · have hsig : f32Sig (m + 1) = f32Sig m + 1 := by
      unfold f32Ulp at hstep
      unfold f32Sig
      split_ifs <;> omega
    rw [hstep, hsig, Nat.cast_succ]
  · have hcarry : f32Ulp (m + 1) = f32Ulp m + 1 ∧ f32Sig (m + 1) = 2 ^ 23 ∧ f32Sig m + 1 = 2 ^ 24 := by
      unfold f32Ulp at hstep ⊢
      unfold f32Sig
      split_ifs <;> omega
    obtain ⟨hu, hs, hs'⟩ := hcarry
    rw [hu, hs, twoPow_succ, ← Nat.cast_succ, Nat.succ_eq_add_one, hs', ← mul_assoc]
    norm_num

/-- The number of a carrier in halves of a unit in its last place (R24). -/
theorem numberOf_eq (c : Carrier) :
    numberOf c = signOf (c.w.getLsbD 31) * (((2 * f32Sig (magBits c) + c.s.toNat : Nat) : Rat) * two_ (f32Ulp (magBits c) - 1)) := by
  have hulp : two_ (f32Ulp (magBits c)) = 2 * two_ (f32Ulp (magBits c) - 1) := by rw [← twoPow_succ, sub_add_cancel]
  have hhalf : ((max (magBits c / 2 ^ 23) 1 : Nat) : Int) - 151 = f32Ulp (magBits c) - 1 := by unfold f32Ulp; ring
  have hS : (if c.s then two_ (f32Ulp (magBits c) - 1) else 0) = c.s.toNat * two_ (f32Ulp (magBits c) - 1) := by cases c.s <;> simp
  rw [numberOf, f32Mag_eq, hhalf, hulp, hS]
  push_cast
  ring

/-- R24: the exact form that a finite carrier denotes. -/
theorem carrierVal_finite {c : Carrier} (h : isFinite c) :
    ∃ x, carrierVal c = .num x ∧ x.d ≠ 0 ∧ x.rat = numberOf c ∧ x.neg = c.w.getLsbD 31 := by
  have he : (c.w >>> 23).toNat % 256 = magBits c / 2 ^ 23 := by
    rw [BitVec.toNat_ushiftRight, Nat.shiftRight_eq_div_pow, magBits]
    omega
  have hfin : magBits c / 2 ^ 23 ≠ 255 := by unfold isFinite at h; omega
  have hsig : (if magBits c / 2 ^ 23 = 0 then c.w.toNat % 2 ^ 23 else 2 ^ 23 + c.w.toNat % 2 ^ 23) = f32Sig (magBits c) := by
    unfold f32Sig magBits
    split_ifs <;> omega
  refine ⟨{ neg := c.w.getLsbD 31, n := 2 * f32Sig (magBits c) + c.s.toNat, d := 1, e := f32Ulp (magBits c) - 1 }, ?_, one_ne_zero, ?_, rfl⟩
  · simp only [carrierVal, he, if_neg hfin, hsig]
    congr 2
    unfold f32Ulp
    ring
  · rw [Ex.rat_eq, Ex.mag_point, numberOf_eq]

theorem f32Pattern_toNat (neg : Bool) {e f : Nat} (he : e < 256) (hf : f < 2 ^ 23) :
    (f32Pattern neg e f).toNat = (if neg then 2 ^ 31 else 0) + e * 2 ^ 23 + f := by
  rw [f32Pattern, BitVec.toNat_ofNat, Nat.mod_eq_of_lt]
  split <;> omega

theorem f32Pattern_sign (neg : Bool) {e f : Nat} (he : e < 256) (hf : f < 2 ^ 23) : (f32Pattern neg e f).getLsbD 31 = neg := by
  rw [BitVec.getLsbD, f32Pattern_toNat neg he hf, Nat.testBit_eq_decide_div_mod_eq]
  cases neg <;> simp <;> omega

theorem f32Pattern_magBits (neg s : Bool) {e f : Nat} (he : e < 256) (hf : f < 2 ^ 23) :
    magBits { w := f32Pattern neg e f, s := s } = e * 2 ^ 23 + f := by
  rw [magBits, f32Pattern_toNat neg he hf]
  split <;> omega

/-! ### Steps of a magnitude between powers of two -/

theorem steps_lt {q : Rat} {k u : Int} {t p : Nat} (hq : q < two_ (k + 1)) (ht : t * two_ u ≤ q) (hk : k + 1 ≤ u + p) : t < 2 ^ p := by
  have h : (t : Rat) * two_ u < two_ p * two_ u := by
    rw [← twoPow_add, add_comm]
    exact (ht.trans_lt hq).trans_le (twoPow_le.2 hk)
  rw [mul_lt_mul_iff_left₀ (twoPow_pos u), twoPow_natCast] at h
  exact_mod_cast h

theorem le_steps {q : Rat} {k u : Int} {t p : Nat} (hq : two_ k ≤ q) (ht : q < (t + 1) * two_ u) (hk : u + p ≤ k) : 2 ^ p ≤ t := by
  have h : two_ p * two_ u < (t + 1 : Rat) * two_ u := by
    rw [← twoPow_add, add_comm]
    exact ((twoPow_le.2 hk).trans hq).trans_lt ht
  rw [mul_lt_mul_iff_left₀ (twoPow_pos u), twoPow_natCast] at h
  exact Nat.lt_succ_iff.1 (by exact_mod_cast h)

/-! ### carry(x) -/

theorem carry_zero {x : Ex} (hd : x.d ≠ 0) (h0 : x.rat = 0) : carry x = signedZero x.neg := by
  rw [carry, if_pos ((Ex.isZero_iff hd).2 h0)]
  cases x.neg <;> rfl

theorem carry_overflow {x : Ex} (hd : x.d ≠ 0) (h0 : x.rat ≠ 0) (h : 128 ≤ x.log2) :
    carry x = { w := if x.neg then 0xFF7FFFFF#32 else 0x7F7FFFFF#32, s := true } := by
  rw [carry, if_neg (mt (Ex.isZero_iff hd).1 h0), if_pos h]
  cases x.neg <;> rfl

/-- The pattern that carry(x) writes for a significand `m` whose last place is 2^(u+1) (R29). -/
def carryPattern (neg : Bool) (m : Nat) (u : Int) : Word :=
  if m < 2 ^ 23 then f32Pattern neg 0 m else f32Pattern neg (u + 151).toNat (m - 2 ^ 23)

theorem carryPattern_fields (neg s : Bool) {m : Nat} {u : Int} (hm : m < 2 ^ 24) (hsub : m < 2 ^ 23 → u = -150) (hlo : -150 ≤ u) (hhi : u ≤ 103) :
    (carryPattern neg m u).getLsbD 31 = neg ∧ f32Sig (magBits { w := carryPattern neg m u, s := s }) = m
      ∧ f32Ulp (magBits { w := carryPattern neg m u, s := s }) = u + 1 := by
  unfold carryPattern
  split_ifs with h
  · rw [f32Pattern_magBits neg s (by omega) h]
    refine ⟨f32Pattern_sign neg (by omega) h, ?_, ?_⟩
    · rw [f32Sig, if_pos] <;> omega
    · unfold f32Ulp; omega
  · rw [f32Pattern_magBits neg s (by omega) (by omega)]
    refine ⟨f32Pattern_sign neg (by omega) (by omega), ?_, ?_⟩
    · rw [f32Sig, if_neg] <;> omega
    · unfold f32Ulp; omega

theorem carry_eq {x : Ex} (hd : x.d ≠ 0) {k : Int} {t : Nat} (hk : k < 128) (h : OnGrid x.rat k (max (k - 25 + 1) (-150)) t) :
    carry x = { w := carryPattern x.neg (t / 2) (max (k - 25 + 1) (-150)),
                s := decide (oddSteps (decide (t * two_ (max (k - 25 + 1) (-150)) = x.mag)) t % 2 = 1) } := by
  obtain ⟨h0, hlog, -⟩ := (Ex.onGrid_rat hd).1 h
  rw [carry, if_neg (mt (Ex.isZero_iff hd).1 h0), if_neg (by omega), roGrid_eq hd h]
  simp only [oddSteps_div_two]
  rfl

/-- R29: the parts of carry(x) below 2^128, for an x of `t` steps of the carrier's grid, whose step is half a unit in the last place of W. -/
theorem carry_parts {x : Ex} (hd : x.d ≠ 0) {k : Int} {t : Nat} (hk : k < 128) (h : OnGrid x.rat k (max (k - 25 + 1) (-150)) t) :
    (carry x).w.getLsbD 31 = x.neg ∧ f32Sig (magBits (carry x)) = t / 2 ∧ f32Ulp (magBits (carry x)) = max (k - 25 + 1) (-150) + 1
      ∧ ((carry x).s = true ↔ t * two_ (max (k - 25 + 1) (-150)) ≠ x.mag ∨ t % 2 = 1) := by
  obtain ⟨h0, hlog, hlo, hhi⟩ := (Ex.onGrid_rat hd).1 h
  have hb := Ex.log2_bounds hd h0
  rw [hlog] at hb
  have hlt : t < 2 ^ 25 := steps_lt hb.2 hlo (by omega)
  have hsub : t / 2 < 2 ^ 23 → max (k - 25 + 1) (-150) = -150 := fun hm => by
    by_contra hu
    have := le_steps (p := 24) hb.1 hhi (by omega)
    omega
  rw [carry_eq hd hk h]
  obtain ⟨hs, hsig, hulp⟩ := carryPattern_fields x.neg (decide (oddSteps _ t % 2 = 1)) (by omega) hsub (by omega) (by omega)
  refine ⟨hs, hsig, hulp, ?_⟩
  rw [decide_eq_true_iff, oddSteps_odd, decide_eq_false_iff_not]

/-- R29: W is the number truncated to F32, and S says whether something was cut off. -/
theorem carry_isCarry {x : Ex} (hd : x.d ≠ 0) (h0 : x.rat ≠ 0) : IsCarry x.neg x.rat (carry x) := by
  obtain ⟨hlo, hhi⟩ := Ex.log2_bounds hd h0
  unfold IsCarry
  rw [x.sizeOf_rat]
  refine ⟨fun hbig => carry_overflow hd h0 ?_, fun hsmall => ?_⟩
  · have := twoPow_lt.1 (hbig.trans_lt hhi)
    omega
  obtain ⟨t, ht⟩ := Ex.exists_onGrid hd h0 (max (x.log2 - 25 + 1) (-150))
  obtain ⟨hs, hsig, hulp, hS⟩ := carry_parts hd (twoPow_lt.1 (hlo.trans_lt hsmall)) ht
  obtain ⟨-, -, htlo, hthi⟩ := (Ex.onGrid_rat hd).1 ht
  have hupos := twoPow_pos (max (x.log2 - 25 + 1) (-150))
  have hW : f32Mag (magBits (carry x)) = ((2 * (t / 2) : Nat) : Rat) * two_ (max (x.log2 - 25 + 1) (-150)) := by
    rw [f32Mag_eq, hsig, hulp, twoPow_succ]
    push_cast
    ring
  rw [f32Mag_succ, hulp, hW, twoPow_succ]
  have heven : 2 * (t / 2) + t % 2 = t := by omega
  refine ⟨hs, le_trans ?_ htlo, hthi.trans_le ?_, hS.trans ?_⟩
  · exact mul_le_mul_of_nonneg_right (Nat.cast_le.2 (by omega)) hupos.le
  · rw [← add_mul]
    exact mul_le_mul_of_nonneg_right (by exact_mod_cast (by omega : t + 1 ≤ 2 * (t / 2) + 2)) hupos.le
  · rcases Nat.mod_two_eq_zero_or_one t with h | h
    · rw [show 2 * (t / 2) = t by omega, h]
      simp
    · have : ((2 * (t / 2) : Nat) : Rat) < t := Nat.cast_lt.2 (by omega)
      simp only [h, or_true, true_iff]
      exact ((mul_lt_mul_of_pos_right this hupos).trans_le htlo).ne

/-- A number on the carrier's grid is what its carrier denotes (R24, R29). -/
theorem numberOf_carry_exact {x : Ex} (hd : x.d ≠ 0) {k : Int} {t : Nat} (hk : k < 128) (h : OnGrid x.rat k (max (k - 25 + 1) (-150)) t)
    (hx : x.mag = t * two_ (max (k - 25 + 1) (-150))) : numberOf (carry x) = x.rat := by
  obtain ⟨hs, hsig, hulp, hS⟩ := carry_parts hd hk h
  have hbit : (carry x).s.toNat = t % 2 := by
    rw [← hx] at hS
    rcases Nat.mod_two_eq_zero_or_one t with h | h <;> rw [h] at hS ⊢ <;> simpa using hS
  rw [numberOf_eq, hs, hsig, hulp, hbit, Nat.div_add_mod, x.rat_eq, hx, add_sub_cancel_right]

end Sys2Proof.Machine
end

section
/-! PROOFS. Rounding under a mode, finalisation to an integer, and finalisation to a float format (02_numbers R33, R34, R36, R38). -/

namespace Sys2Proof.Machine

/-! ### Rounding under a mode -/

/-- The part `r/den` of a step decides as the part itself does (R33, R38). -/
theorem goesUp_eq (m : Round) (neg : Bool) (t : Nat) {r den : Nat} (hden : 0 < den) (D : Nat) :
    goesUp m neg t r den D (2 ^ 32) = m.up neg t (r / den) D := by
  have hpos : (0 : Rat) < den := Nat.cast_pos.2 hden
  cases m with
  | rne =>
    have hgt : (1 / 2 < (r : Rat) / den) ↔ 2 * r > den := by
      rw [div_lt_div_iff₀ two_pos hpos, one_mul, mul_comm]
      exact_mod_cast Iff.rfl
    have heq : ((r : Rat) / den = 1 / 2) ↔ 2 * r = den := by
      rw [div_eq_div_iff hpos.ne' two_ne_zero, one_mul, mul_comm]
      exact_mod_cast Iff.rfl
    simp only [goesUp, Round.up, hgt, heq, Bool.decide_or, Bool.decide_and]
  | rna =>
    have hge : (1 / 2 ≤ (r : Rat) / den) ↔ 2 * r ≥ den := by
      rw [div_le_div_iff₀ two_pos hpos, one_mul, mul_comm]
      exact_mod_cast Iff.rfl
    simp only [goesUp, Round.up, hge]
  | sr =>
    have hlt : (D : Rat) < r / den * 2 ^ 32 ↔ D * den < r * 2 ^ 32 := by
      rw [div_mul_eq_mul_div, lt_div_iff₀ hpos]
      exact_mod_cast Iff.rfl
    simp only [goesUp, Round.up, hlt]
  | rz => rfl
  | ru => rfl
  | rd => rfl
  | ro => rfl

theorem Round.steps_eq (m : Round) (neg : Bool) (t : Nat) {r den : Nat} (hden : 0 < den) (D : Nat) :
    (if r = 0 then t else if goesUp m neg t r den D (2 ^ 32) then t + 1 else t) = m.steps neg t (r / den) D := by
  have h0 : (r : Rat) / den = 0 ↔ r = 0 := by simp [hden.ne']
  simp only [Round.steps, h0, goesUp_eq m neg t hden D]

theorem Round.steps_le (m : Round) (neg : Bool) (t : Nat) (frac : Rat) (D : Nat) : m.steps neg t frac D ≤ t + 1 := by
  unfold Round.steps
  split_ifs <;> omega

/-- Rounding gives the number itself only where it has nothing to round. -/
theorem Round.steps_exact (m : Round) (neg : Bool) (D : Nat) {q : Rat} {t : Nat} {u : Int} (hhi : q < (t + 1) * two_ u) :
    m.steps neg t (q / two_ u - t) D * two_ u = q ↔ t * two_ u = q := by
  simp only [Round.steps, part_eq_zero]
  split_ifs with hexact hup
  · rfl
  · push_cast
    exact iff_of_false hhi.ne' hexact
  · rfl

/-! ### Finalisation to an integer -/

/-- R36: a number rounds under the mode and saturates. -/
theorem finInt_num {x : Ex} (hd : x.d ≠ 0) (lo hi : Int) (m : Round) (D : Nat) {t : Nat} (hlo : (t : Rat) ≤ x.mag) (hhi : x.mag < t + 1) :
    let n : Int := m.steps x.neg t (x.mag - t) D
    let i := if x.neg then -n else n
    Saturated lo hi i (decide ((i : Rat) = x.rat)) (finInt (.num x) lo hi m D (2 ^ 32)) := by
  intro n i
  have hone : two_ 0 = 1 := rfl
  obtain ⟨r, den, hg, hden, hr, hr0⟩ := Ex.onGrid_parts hd (u := 0) (t := t) (by rwa [hone, mul_one]) (by rwa [hone, mul_one])
  have hexact : (i : Rat) = x.rat ↔ r = 0 := by
    have hi : (i : Rat) = signOf x.neg * (m.steps x.neg t (x.mag - t) D : Nat) := by cases hneg : x.neg <;> simp [i, n, hneg, signOf]
    have hst := m.steps_exact x.neg D (u := 0) (t := t) (q := x.mag) (by rwa [hone, mul_one])
    rw [← hr0, hone, mul_one, div_one] at hst
    rw [hi, x.rat_eq, mul_right_inj' (signOf_ne_zero _), hst]
  rw [hone, div_one] at hr
  have hfin : finInt (.num x) lo hi m D (2 ^ 32)
      = if i < lo then (lo, 0xA#32) else if hi < i then (hi, 0xA#32) else (i, if r = 0 then 0#32 else 0x8#32) := by
    simp only [finInt, hg, Round.steps_eq m x.neg t hden D, hr]
    rfl
  simp only [hfin, Saturated, hexact, decide_eq_true_eq]
  split_ifs <;> rfl

/-! ### The float formats -/

/-- The largest finite value of a format (R20). -/
def Fmt.largest (f : Fmt) : Rat := f.maxSig * two_ f.maxExp

/-- The exponent of a format's grid step at the exponent `k` (R34). -/
def Fmt.step (f : Fmt) (k : Int) : Int := max (k - f.q + 1) (f.emin - f.q + 1)

/-- `f` encodes the format `F` of R20, its largest finite value has a significand with its hidden bit and an exponent field, it is no infinity and
no NaN, and the carrier's range holds it. -/
structure Fmt.Encodes (f : Fmt) (F : FloatFormat) : Prop where
  q : F.q = f.q
  emin : F.emin = f.emin
  largest : F.largest = f.largest
  infinite : F.infinite = f.hasInf
  nan : F.nan = f.hasNan
  bias : 1 ≤ f.bias ∧ f.bias ≤ 127
  frac : f.fracBits ≤ 23
  sig : 2 ^ f.fracBits ≤ f.maxSig ∧ f.maxSig < 2 ^ (f.fracBits + 1)
  low : f.emin ≤ f.maxExp + f.fracBits
  high : f.maxExp + f.fracBits < 128
  field : f.maxExp + f.bias + f.fracBits ≤ (2 ^ f.expBits - 1 : Nat)
  noInf : f.hasInf = true → f.maxExp + f.bias + f.fracBits < (2 ^ f.expBits - 1 : Nat)
  noNan : f.hasNan = true → f.maxExp + f.bias + f.fracBits < (2 ^ f.expBits - 1 : Nat) ∨ f.maxSig + 1 < 2 ^ (f.fracBits + 1)

/-- R20: the parameters of the eight formats. -/
theorem floatFmt_encodes {code : Nat} {f : Fmt} {F : FloatFormat} (hf : floatFmt code = some f) (hF : floatFormat code = some F) :
    f.Encodes F := by
  match code with
  | 0 | 1 | 2 | 3 | 4 | 5 | 6 | 7 =>
    obtain rfl := Option.some.inj hf
    obtain rfl := Option.some.inj hF
    constructor <;> decide +kernel
  | _ + 8 => simp [floatFmt] at hf

end Sys2Proof.Machine
end

section
/-! PROOFS. Finalisation of a number to a float format, its pattern and its carrier (02_numbers R20, R34). -/

namespace Sys2Proof.Machine

/-! ### The finalised number -/

theorem Round.overflows_eq (m : Round) (neg : Bool) :
    m.overflows neg = (decide (m = .rne) || decide (m = .rna) || decide (m = .sr) || (decide (m = .ru) && !neg) || (decide (m = .rd) && neg)) := by
  cases m <;> cases neg <;> rfl

/-- R34: a number that is not zero, of `t` steps of the format's grid, rounds to `y` steps under the mode; beyond the largest finite value it is an
infinity or that value, else it is the rounded number. -/
theorem finVal_num {x : Ex} (hd : x.d ≠ 0) (f : Fmt) (m : Round) (D : Nat) {k : Int} {t : Nat} (h : OnGrid x.rat k (f.step k) t) :
    let y := m.steps x.neg t (x.mag / two_ (f.step k) - t) D
    finVal (.num x) f m D (2 ^ 32) =
      if f.largest < y * two_ (f.step k) then
        (if f.hasInf = true ∧ m.overflows x.neg = true then .inf x.neg else finMax f x.neg, 0xA#32)
      else (.num x.neg y (f.step k),
        if t * two_ (f.step k) = x.mag then 0#32 else if x.mag < two_ f.emin then 0xC#32 else 0x8#32) := by
  obtain ⟨h0, rfl, hlo, hhi⟩ := (Ex.onGrid_rat hd).1 h
  obtain ⟨r, den, hg, hden, hr, hr0⟩ := Ex.onGrid_parts hd hlo hhi
  have hbelow : x.log2 < f.emin ↔ x.mag < two_ f.emin := by
    obtain ⟨hklo, hkhi⟩ := Ex.log2_bounds hd h0
    exact ⟨fun hk => hkhi.trans_le (twoPow_le.2 hk), fun hm => twoPow_lt.1 (hklo.trans_lt hm)⟩
  have htop : ∀ q u, Ex.lt { neg := false, n := f.maxSig, d := 1, e := f.maxExp } { neg := false, n := q, d := 1, e := u } = true
      ↔ f.largest < q * two_ u := fun q u => by
    rw [Ex.lt_iff one_ne_zero one_ne_zero, Ex.rat_eq, Ex.rat_eq, Ex.mag_point, Ex.mag_point]
    simp [signOf, Fmt.largest]
  unfold Fmt.step at hg hr hr0 ⊢
  simp only [finVal, if_neg (mt (Ex.isZero_iff hd).1 h0), hg, Round.steps_eq m x.neg t hden D, hr, htop, ← hr0, ← hbelow, ← Bool.and_eq_true,
    Round.overflows_eq]
  split_ifs <;> rfl

theorem finVal_zero {x : Ex} (hd : x.d ≠ 0) (h0 : x.rat = 0) (f : Fmt) (m : Round) (D : Nat) :
    finVal (.num x) f m D (2 ^ 32) = (.num x.neg 0 0, 0#32) := by
  simp only [finVal, if_pos ((Ex.isZero_iff hd).2 h0)]

/-- R34: the value and the flags are those of the rule. -/
theorem finVal_finalised {x : Ex} (hd : x.d ≠ 0) {f : Fmt} {F : FloatFormat} (hF : f.Encodes F) (m : Round) (D : Nat) {k : Int} {t : Nat}
    (h : OnGrid x.rat k (f.step k) t) : Finalised F m x.neg x.rat k t D (finVal (.num x) f m D (2 ^ 32)) := by
  have hexact := m.steps_exact x.neg D ((Ex.onGrid_rat hd).1 h).2.2.2
  rw [finVal_num hd f m D h, Finalised, hF.q, hF.emin, hF.largest, hF.infinite, x.sizeOf_rat, ← Fmt.step]
  simp only [hexact]
  by_cases hbig : f.largest < m.steps x.neg t (x.mag / two_ (f.step k) - t) D * two_ (f.step k)
  · rw [if_pos hbig, if_pos hbig]
    split_ifs
    · exact ⟨rfl, rfl⟩
    · exact ⟨rfl, ⟨_, _, rfl⟩, rfl⟩
  · rw [if_neg hbig, if_neg hbig]
    exact ⟨⟨_, _, rfl⟩, rfl, rfl⟩

/-! ### Numbers of a format -/

/-- `q` steps of 2^u are a number of the format: no more than its precision and one carry out of it, no finer than its quantum, and no larger than
its largest finite value (R20, R34). -/
structure Fmt.Holds (f : Fmt) (q : Nat) (u : Int) : Prop where
  steps : q ≤ 2 ^ (f.fracBits + 1)
  quantum : f.emin - f.fracBits ≤ u
  bound : q * two_ u ≤ f.largest

theorem Fmt.Encodes.holds_zero {f : Fmt} {F : FloatFormat} (hF : f.Encodes F) : f.Holds 0 0 where
  steps := Nat.zero_le _
  quantum := by
    have := hF.bias
    unfold Fmt.emin
    omega
  bound := by
    rw [Nat.cast_zero, zero_mul]
    exact mul_nonneg (Nat.cast_nonneg _) (twoPow_pos _).le

theorem Fmt.Encodes.holds_largest {f : Fmt} {F : FloatFormat} (hF : f.Encodes F) : f.Holds f.maxSig f.maxExp where
  steps := hF.sig.2.le
  quantum := by have := hF.low; omega
  bound := le_rfl

/-- What finalisation gives as a number is a number of the format. -/
theorem finVal_holds {x : Ex} (hd : x.d ≠ 0) {f : Fmt} {F : FloatFormat} (hF : f.Encodes F) (m : Round) (D : Nat) {neg : Bool} {q : Nat} {u : Int}
    (hr : (finVal (.num x) f m D (2 ^ 32)).1 = .num neg q u) : f.Holds q u := by
  by_cases h0 : x.rat = 0
  · rw [finVal_zero hd h0] at hr
    obtain ⟨-, rfl, rfl⟩ := Fin.num.inj hr
    exact hF.holds_zero
  obtain ⟨t, ht⟩ := Ex.exists_onGrid hd h0 (f.step x.log2)
  obtain ⟨-, -, hlo, -⟩ := (Ex.onGrid_rat hd).1 ht
  rw [finVal_num hd f m D ht] at hr
  by_cases hbig : f.largest < m.steps x.neg t (x.mag / two_ (f.step x.log2) - t) D * two_ (f.step x.log2)
  · rw [if_pos hbig] at hr
    split_ifs at hr
    obtain ⟨-, rfl, rfl⟩ := Fin.num.inj hr
    exact hF.holds_largest
  · rw [if_neg hbig] at hr
    obtain ⟨-, rfl, rfl⟩ := Fin.num.inj hr
    have hlt : t < 2 ^ (f.fracBits + 1) := steps_lt (Ex.log2_bounds hd h0).2 hlo (by unfold Fmt.step Fmt.q; omega)
    exact ⟨(m.steps_le _ _ _ _).trans hlt, by unfold Fmt.step Fmt.q; omega, not_lt.1 hbig⟩

/-! ### Numbers of a format on the grid of their exponent -/

/-- A number of at most 2^(p+1) steps, no finer than 2^v, lies on the grid of precision p + 1 and quantum v at its exponent. -/
theorem exists_steps_of_le {q p : Nat} {u v k : Int} (hq : q ≤ 2 ^ (p + 1)) (hv : v ≤ u) (hk : two_ k ≤ q * two_ u) :
    ∃ T : Nat, (q : Rat) * two_ u = T * two_ (max (k - p) v) := by
  have hq' : (q : Rat) * two_ u ≤ two_ (p + 1 + u) := by
    rw [twoPow_add, ← Nat.cast_succ, twoPow_natCast]
    exact mul_le_mul_of_nonneg_right (Nat.cast_le.2 hq) (twoPow_pos u).le
  have hkp : k ≤ p + 1 + u := twoPow_le.1 (hk.trans hq')
  by_cases hfine : max (k - p) v ≤ u
  · refine ⟨q * 2 ^ (u - max (k - p) v).toNat, ?_⟩
    rw [Nat.cast_mul, ← twoPow_toNat (by omega), mul_assoc, ← twoPow_add, sub_add_cancel]
  · -- a step coarser than the number's own: the number is the full carry 2^(p+1)
    have hfull : k = p + 1 + u := by omega
    refine ⟨2 ^ p, ?_⟩
    rw [hfull] at hk
    rw [le_antisymm hq' hk, ← twoPow_natCast, ← twoPow_add]
    congr 1
    omega

theorem Fmt.Encodes.largest_lt {f : Fmt} {F : FloatFormat} (hF : f.Encodes F) : f.largest < two_ (f.maxExp + f.fracBits + 1) := by
  rw [show f.maxExp + f.fracBits + 1 = ((f.fracBits + 1 : Nat) : Int) + f.maxExp by push_cast; ring, twoPow_add, twoPow_natCast]
  exact mul_lt_mul_of_pos_right (Nat.cast_lt.2 hF.sig.2) (twoPow_pos _)

theorem numberOf_signedZero (neg : Bool) : numberOf (signedZero neg) = 0 := by cases neg <;> decide +kernel

/-- R34: the carrier of a number of the format denotes it. -/
theorem Fmt.Holds.numberOf_carrier {f : Fmt} {F : FloatFormat} (hF : f.Encodes F) {q : Nat} {u : Int} (h : f.Holds q u) (neg : Bool) :
    numberOf (finCarrier (.num neg q u)) = signOf neg * (q * two_ u) := by
  have hd : Ex.d { neg := neg, n := q, d := 1, e := u } ≠ 0 := one_ne_zero
  have hrat : Ex.rat { neg := neg, n := q, d := 1, e := u } = signOf neg * (q * two_ u) := by rw [Ex.rat_eq, Ex.mag_point]
  by_cases h0 : Ex.rat { neg := neg, n := q, d := 1, e := u } = 0
  · rw [finCarrier, carry_zero hd h0, ← hrat, h0, numberOf_signedZero]
  obtain ⟨hlo, hhi⟩ := Ex.log2_bounds hd h0
  rw [Ex.mag_point] at hlo
  have hk := twoPow_lt.1 ((hlo.trans h.bound).trans_lt hF.largest_lt)
  have hbias := hF.bias
  have hfrac := hF.frac
  have hhigh := hF.high
  have hquantum := h.quantum
  have hsteps : q ≤ 2 ^ (24 + 1) := h.steps.trans (Nat.pow_le_pow_right two_pos (by omega))
  obtain ⟨T, hT⟩ := exists_steps_of_le hsteps (v := -150) (by unfold Fmt.emin at hquantum; omega) hlo
  rw [show ∀ k : Int, k - (24 : Nat) = k - 25 + 1 by intro k; omega] at hT
  have hmag := (Ex.mag_point neg q u).trans hT
  refine (numberOf_carry_exact hd (by omega) ((Ex.onGrid_rat hd).2 ⟨h0, rfl, hmag.ge, ?_⟩) hmag).trans hrat
  rw [hmag]
  exact mul_lt_mul_of_pos_right (lt_add_one _) (twoPow_pos _)

/-! ### Patterns -/

/-- The fields of a pattern that is neither an infinity nor NaN, read as a number (R20). -/
theorem fmtVal_fields (f : Fmt) (neg : Bool) {e fr : Nat} (he : e < 2 ^ f.expBits) (hfr : fr < 2 ^ f.fracBits)
    (hinf : f.hasInf = true → e ≠ 2 ^ f.expBits - 1) (hnan : f.hasNan = true → e = 2 ^ f.expBits - 1 → fr ≠ 2 ^ f.fracBits - 1) :
    fmtVal f ((if neg then 2 ^ (f.expBits + f.fracBits) else 0) + e * 2 ^ f.fracBits + fr)
      = .num { neg := neg, n := if e = 0 then fr else 2 ^ f.fracBits + fr, d := 1, e := (max e 1 : Nat) - (f.bias : Int) - f.fracBits } := by
  have hsum : (if neg then 2 ^ (f.expBits + f.fracBits) else 0) + e * 2 ^ f.fracBits + fr
      = fr + (e + neg.toNat * 2 ^ f.expBits) * 2 ^ f.fracBits := by
    cases neg
    · simp; ring
    · simp [pow_add]; ring
  have hfrac : (fr + (e + neg.toNat * 2 ^ f.expBits) * 2 ^ f.fracBits) % 2 ^ f.fracBits = fr := by
    rw [Nat.add_mul_mod_self_right, Nat.mod_eq_of_lt hfr]
  have hrest : (fr + (e + neg.toNat * 2 ^ f.expBits) * 2 ^ f.fracBits) / 2 ^ f.fracBits = e + neg.toNat * 2 ^ f.expBits := by
    rw [Nat.add_mul_div_right _ _ (Nat.two_pow_pos _), Nat.div_eq_of_lt hfr, zero_add]
  have hexp : (e + neg.toNat * 2 ^ f.expBits) % 2 ^ f.expBits = e := by rw [Nat.add_mul_mod_self_right, Nat.mod_eq_of_lt he]
  have hsign : (fr + (e + neg.toNat * 2 ^ f.expBits) * 2 ^ f.fracBits) / 2 ^ (f.expBits + f.fracBits) = neg.toNat := by
    rw [add_comm f.expBits, pow_add, ← Nat.div_div_eq_div_mul, hrest, Nat.add_mul_div_right _ _ (Nat.two_pow_pos _), Nat.div_eq_of_lt he,
      zero_add]
  have hneg : decide (neg.toNat % 2 = 1) = neg := by cases neg <;> rfl
  rw [hsum]
  simp only [fmtVal, hfrac, hrest, hexp, hsign, hneg]
  rw [if_neg fun h => hinf h.2 h.1, if_neg fun h => hnan h.2.1 h.1 h.2.2]

/-- The pattern's fields of a number of the format that is not zero: a subnormal's steps, or an exponent field and what follows the hidden bit. -/
theorem fmtPattern_eq (f : Fmt) (neg : Bool) {q : Nat} {u : Int} (hq : q ≠ 0) {k : Int} (hk : Ex.log2 { neg := false, n := q, d := 1, e := u } = k)
    {T : Nat} (hT : (q : Rat) * two_ u = T * two_ (max (k - f.fracBits) (f.emin - f.fracBits))) :
    fmtPattern f neg q u = (if neg then 2 ^ (f.expBits + f.fracBits) else 0)
      + (if k < f.emin then 0 else (k + f.bias).toNat) * 2 ^ f.fracBits + (if k < f.emin then T else T - 2 ^ f.fracBits) := by
  obtain ⟨den, hg⟩ := Ex.onGrid_exact (x := { neg := false, n := q, d := 1, e := u }) one_ne_zero ((Ex.mag_point false q u).trans hT)
  simp only [fmtPattern, if_neg hq, hk]
  by_cases hsub : k < f.emin
  · rw [max_eq_right (by omega)] at hg
    simp only [if_pos hsub, hg, zero_mul, add_zero]
  · rw [max_eq_left (by omega)] at hg
    simp only [if_neg hsub, hg]

/-- A number below 2^emin as a pattern (R20). -/
theorem Fmt.Encodes.fmtVal_subnormal {f : Fmt} {F : FloatFormat} (hF : f.Encodes F) (neg : Bool) {T : Nat} (hT : T < 2 ^ f.fracBits) :
    fmtVal f ((if neg then 2 ^ (f.expBits + f.fracBits) else 0) + 0 * 2 ^ f.fracBits + T)
      = .num { neg := neg, n := T, d := 1, e := f.emin - f.fracBits } := by
  have htop : 2 ^ f.expBits - 1 ≠ 0 := by
    have := hF.field
    have := hF.low
    unfold Fmt.emin at this
    omega
  rw [fmtVal_fields f neg (Nat.two_pow_pos _) hT (fun _ => htop.symm) (fun _ h => absurd h.symm htop)]
  rfl

/-- A number from 2^emin up to the largest finite value as a pattern (R20). -/
theorem Fmt.Encodes.fmtVal_normal {f : Fmt} {F : FloatFormat} (hF : f.Encodes F) (neg : Bool) {k : Int} {T : Nat} (hk : f.emin ≤ k)
    (hlo : 2 ^ f.fracBits ≤ T) (hhi : T < 2 ^ (f.fracBits + 1)) (hle : T * two_ (k - f.fracBits) ≤ f.largest) :
    fmtVal f ((if neg then 2 ^ (f.expBits + f.fracBits) else 0) + (k + f.bias).toNat * 2 ^ f.fracBits + (T - 2 ^ f.fracBits))
      = .num { neg := neg, n := T, d := 1, e := k - f.fracBits } := by
  have hkE : k ≤ f.maxExp + f.fracBits := by
    have hpow : two_ k ≤ T * two_ (k - f.fracBits) := by
      rw [show k = (f.fracBits : Int) + (k - f.fracBits) by ring, twoPow_add, add_sub_cancel_left, twoPow_natCast]
      exact mul_le_mul_of_nonneg_right (Nat.cast_le.2 hlo) (twoPow_pos _).le
    have := twoPow_lt.1 ((hpow.trans hle).trans_lt hF.largest_lt)
    omega
  have hsig : k = f.maxExp + f.fracBits → T ≤ f.maxSig := fun hkE => by
    rw [hkE, add_sub_cancel_right, Fmt.largest, mul_le_mul_iff_left₀ (twoPow_pos _)] at hle
    exact_mod_cast hle
  have hfield := hF.field
  have hpow := Nat.two_pow_pos f.expBits
  unfold Fmt.emin at hk
  rw [pow_succ] at hhi
  rw [fmtVal_fields f neg (e := (k + f.bias).toNat) (by omega) (by omega)]
  · rw [if_neg (by omega), show 2 ^ f.fracBits + (T - 2 ^ f.fracBits) = T by omega,
      show ((max (k + f.bias).toNat 1 : Nat) : Int) - f.bias - f.fracBits = k - f.fracBits by omega]
  · intro hinf
    have := hF.noInf hinf
    omega
  · intro hnan htop
    have hno := hF.noNan hnan
    rw [pow_succ] at hno
    omega

/-- R20, R34: the pattern of a number of the format denotes it. -/
theorem Fmt.Holds.fmtVal_pattern {f : Fmt} {F : FloatFormat} (hF : f.Encodes F) {q : Nat} {u : Int} (h : f.Holds q u) (neg : Bool) :
    ∃ (T : Nat) (v : Int), fmtVal f (fmtPattern f neg q u) = .num { neg := neg, n := T, d := 1, e := v } ∧ (T : Rat) * two_ v = q * two_ u := by
  by_cases hq : q = 0
  · refine ⟨0, f.emin - f.fracBits, ?_, by rw [hq, Nat.cast_zero, zero_mul, zero_mul]⟩
    rw [← hF.fmtVal_subnormal neg (Nat.two_pow_pos _), fmtPattern, if_pos hq, zero_mul]
    rfl
  have hd : Ex.d { neg := false, n := q, d := 1, e := u } ≠ 0 := one_ne_zero
  obtain ⟨hlo, hhi⟩ := Ex.log2_bounds hd (mt (Ex.rat_eq_zero hd).1 hq)
  rw [Ex.mag_point] at hlo hhi
  generalize hk : Ex.log2 { neg := false, n := q, d := 1, e := u } = k at hlo hhi
  obtain ⟨T, hT⟩ := exists_steps_of_le h.steps h.quantum hlo
  rw [fmtPattern_eq f neg hq hk hT]
  by_cases hsub : k < f.emin
  · rw [max_eq_right (by omega)] at hT
    refine ⟨T, _, ?_, hT.symm⟩
    simp only [if_pos hsub]
    exact hF.fmtVal_subnormal neg (steps_lt hhi hT.ge (by omega))
  · rw [max_eq_left (by omega)] at hT
    refine ⟨T, _, ?_, hT.symm⟩
    simp only [if_neg hsub]
    refine hF.fmtVal_normal neg (not_lt.1 hsub) ?_ (steps_lt hhi hT.ge (by push_cast; omega)) (hT ▸ h.bound)
    refine le_steps hlo ?_ (sub_add_cancel k _).le
    rw [hT]
    exact mul_lt_mul_of_pos_right (lt_add_one _) (twoPow_pos _)

end Sys2Proof.Machine
end

section
/-! PROOFS. The numeric kernel of the spec, from the rules of its parts (02_numbers R24 to R38). -/

namespace Sys2Proof.Machine

/-- R34: finalisation of NaN and of an infinity. -/
theorem finVal_special {f : Fmt} {F : FloatFormat} (hF : f.Encodes F) (m : Round) (D : Nat) :
    (finVal .nan f m D (2 ^ 32) = if F.nan then (.nan, 0#32) else (.num false 0 0, 0x10#32))
      ∧ ∀ neg, let r := finVal (.inf neg) f m D (2 ^ 32)
        if F.infinite then r = (.inf neg, 0#32) else r.2 = 0xA#32 ∧ (∃ q u, r.1 = .num neg q u) ∧ r.1.mag = F.largest := by
  have hval : ∀ neg, finVal (.inf neg) f m D (2 ^ 32) = if f.hasInf then (.inf neg, 0#32) else (finMax f neg, 0xA#32) := fun _ => rfl
  rw [hF.nan, hF.infinite, hF.largest]
  refine ⟨rfl, fun neg => ?_⟩
  rw [hval]
  split_ifs
  · rfl
  · exact ⟨rfl, ⟨_, _, rfl⟩, rfl⟩

/-- R34: a finalised number's carrier and pattern denote it. -/
theorem finVal_denotes {x : Ex} (hd : x.d ≠ 0) {f : Fmt} {F : FloatFormat} (hF : f.Encodes F) (m : Round) (D : Nat) {q : Nat} {u : Int}
    (hnum : (finVal (.num x) f m D (2 ^ 32)).1 = .num x.neg q u) :
    let r := finVal (.num x) f m D (2 ^ 32)
    numberOf (finCarrier r.1) = signOf x.neg * r.1.mag
      ∧ ∃ y, fmtVal f (finPattern f r.1) = .num y ∧ y.rat = signOf x.neg * r.1.mag ∧ y.neg = x.neg := by
  have hholds := finVal_holds hd hF m D hnum
  obtain ⟨T, v, hy, hTv⟩ := hholds.fmtVal_pattern hF x.neg
  intro r
  rw [hnum]
  exact ⟨hholds.numberOf_carrier hF x.neg, _, hy, by rw [Ex.rat_eq, Ex.mag_point, hTv]; rfl, rfl⟩

/-- Settles O14: each part of the kernel computes on the exact forms what the spec says of the numbers they stand for. -/
theorem numericKernel : Obligations.NumericKernel := by
  refine ⟨fun c => carrierVal_finite, fun x y hx hy => ⟨Ex.add_exact hx hy, ?_, ?_, ?_⟩, ?_, ?_, ?_, ?_⟩
  · obtain ⟨hd, hrat⟩ := Ex.mul_exact hx hy
    exact ⟨hd, hrat, rfl⟩
  · intro h0
    obtain ⟨hd, hrat⟩ := Ex.div_exact hx hy h0
    exact ⟨hd, hrat, rfl⟩
  · rw [x.sizeOf_rat]
    exact Ex.log2_bounds hx
  · intro x p m k t hd u h
    rw [x.sizeOf_rat]
    exact ro_rat hd h
  · exact fun x hd => ⟨carry_zero hd, carry_isCarry hd⟩
  · intro code f F m D hf hformat _
    have hF := floatFmt_encodes hf hformat
    obtain ⟨hnan, hinf⟩ := finVal_special hF m D
    refine ⟨hnan, hinf, fun x hd => ⟨fun h0 => finVal_zero hd h0 f m D, fun k t h => ?_, fun q u hnum => finVal_denotes hd hF m D hnum⟩⟩
    rw [hF.q, hF.emin] at h
    exact finVal_finalised hd hF m D h
  · intro code lo hi m D _ _
    refine ⟨rfl, fun _ => rfl, fun x t hd hlo hhi => ?_⟩
    rw [x.sizeOf_rat] at hlo hhi ⊢
    exact finInt_num hd lo hi m D hlo hhi

end Sys2Proof.Machine
end
